-- ==== Sys2Proof/Word.lean ====
section
/-! DEFINITION. The word types of the Ferzic 410: bytes of host memory and of the records, the 16-, 32- and
64-bit fields the spec gives as bit patterns, and the number of a request slot. -/

namespace Sys2Proof

/-- One byte of host memory, of table memory or of a record. -/
abbrev Byte := BitVec 8

/-- A 16-bit field that is carried and compared, not counted with (host tags, codes, sums). -/
abbrev Half := BitVec 16

/-- A 32-bit register or field. -/
abbrev Word := BitVec 32

/-- The 64-bit credential id. -/
abbrev LongWord := BitVec 64

/-- The number of one of the 32 request slots (R146); one past 31 is 0. -/
abbrev Slot := Fin 32

end Sys2Proof
end

