-- ==== Sys2Proof/Machine/Bytes.lean ====
section
/-! DEFINITION. Byte order, record fields, the CRC of R34, the sum of R132, and memory as sorted (address, byte) pairs. -/

namespace Sys2Proof.Machine

/-- The `n` low bytes of a number, little-endian (conventions of 00_scope.md, "Byte order"). -/
def le : Nat → Nat → List Byte
  | 0, _ => []
  | n + 1, v => BitVec.ofNat 8 v :: le n (v / 256)

/-- The number held in a run of bytes, little-endian. -/
def leNat : List Byte → Nat
  | [] => 0
  | b :: bs => b.toNat + 256 * leNat bs

/-- The `len`-byte field at offset `off` of a record, as a number. Bytes past the record's end read as absent (0). -/
def field (off len : Nat) (bs : List Byte) : Nat := leNat ((bs.drop off).take len)

/-- A run of bytes made exactly `n` long: cut, or filled with zero bytes (R163). -/
def padTo (n : Nat) (bs : List Byte) : List Byte := bs.take n ++ List.replicate (n - bs.length) 0

/-- `n` zero bytes. -/
def zeros (n : Nat) : List Byte := List.replicate n 0

/-- A flag byte written by the part: 1 for yes and 0 for no (R163). -/
def flagByte (b : Bool) : Byte := if b then 1 else 0

/-- A flag byte read by the part: set when bit 0 is 1 (R163). -/
def flagSet (b : Byte) : Bool := b.getLsbD 0

/-- One shift of the CRC register (R34). -/
def crcShift (r : BitVec 16) : BitVec 16 := if r.msb then (r <<< 1) ^^^ 0x1021#16 else r <<< 1

/-- One byte combined into the CRC register: exclusive-or with the upper eight bits, then eight shifts (R34). -/
def crcByte (r : BitVec 16) (b : Byte) : BitVec 16 := crcShift^[8] (r ^^^ (b.setWidth 16 <<< 8))

/-- The CRC of a run of bytes, from FFFFh (R34). -/
def crc (bs : List Byte) : BitVec 16 := bs.foldl crcByte 0xFFFF#16

/-- The sum of all bytes reduced modulo 65,536 (R132). -/
def byteSum (bs : List Byte) : BitVec 16 := BitVec.ofNat 16 ((bs.map BitVec.toNat).sum)

/-- Memory: (address, byte) pairs, addresses strictly rising, no byte equal to what an unlisted address reads as. -/
abbrev Memory := List Host.Cell

/-- What an address that no entry lists reads as: zero. For table memory that is R128's value; for host memory it is a
DESIGN CHOICE (log entry 7). -/
def unlistedByte : Byte := 0

/-- The byte at one address. -/
def Memory.read : Memory → Nat → Byte
  | [], _ => unlistedByte
  | (k, b) :: m, a => if a = k then b else Memory.read m a

/-- Put one byte in front of a memory whose addresses all lie above it, unless it reads as an unlisted byte. -/
def Memory.put (a : Nat) (b : Byte) (m : Memory) : Memory := if b = unlistedByte then m else (a, b) :: m

/-- Write one byte, keeping the canonical form. -/
def Memory.write : Memory → Nat → Byte → Memory
  | [], a, b => Memory.put a b []
  | (k, c) :: m, a, b =>
    if a < k then Memory.put a b ((k, c) :: m)
    else if a = k then Memory.put a b m
    else (k, c) :: Memory.write m a b

/-- Write a run of bytes upward from an address in an address space of `size` bytes; addresses wrap at its top. -/
def Memory.writeRun (size : Nat) : Memory → Nat → List Byte → Memory
  | m, _, [] => m
  | m, a, b :: bs => Memory.writeRun size (Memory.write m (a % size) b) (a + 1) bs

/-- The `n` bytes upward from an address in an address space of `size` bytes. -/
def Memory.readRun (size : Nat) (m : Memory) (a n : Nat) : List Byte :=
  (List.range n).map fun i => Memory.read m ((a + i) % size)

/-- The canonical form: addresses strictly rising, and no entry equal to what an unlisted address reads as. -/
def Memory.wf : Memory → Bool
  | [] => true
  | (k, b) :: m => (b != unlistedByte) && (m.all fun c => k < c.1) && Memory.wf m

/-- The size of the host's address space: host addresses are 32 bits wide (R141, 11.7). -/
def hostSize : Nat := 4294967296

/-- The size of table memory: 256 blocks of 512 bytes (R127). -/
def tableSize : Nat := 131072

end Sys2Proof.Machine
end

