-- ==== Sys2Proof/Syntax.lean ====
section
/-! DEFINITION. The commands of the Ferzic 410: one constructor of `Instr` per row of spec/opcode_table.json, with the
arguments of the fourteen request kinds (11.7) and what reaches the part from outside while a command is carried out. -/

namespace Sys2Proof

/-- The arguments of SET_CLOCK (11.7). -/
structure SetClockArgs where
  day : Half
  minute : Half
  second : Byte
  /-- The P present flag; set when bit 0 is 1 (R163). -/
  presentFlag : Byte
  dayChange : Half
  deriving DecidableEq, Repr

/-- The arguments of OPEN_RUN (11.7). `classes` are the sixteen coach class bytes. -/
structure OpenRunArgs where
  runId : Word
  terminal : Byte
  direction : Byte
  startStop : Byte
  coachCount : Byte
  classes : List Byte
  sharedWindow : Byte
  watchLead : Byte
  skewTolerance : Byte
  holdLimit : Byte
  deriving DecidableEq, Repr

/-- The arguments of INSPECT (11.7): coach, heads present and the 46-byte credential record (11.4). -/
structure InspectArgs where
  coach : Byte
  heads : Byte
  record : List Byte
  deriving DecidableEq, Repr

/-- The arguments of READ_ROSTER (11.7). -/
structure ReadRosterArgs where
  first : Half
  count : Half
  destination : Word
  deriving DecidableEq, Repr

/-- The arguments of CONFIRM_MARK (11.7): roster index and the 16 bytes read back from the card. -/
structure ConfirmMarkArgs where
  index : Half
  readBack : List Byte
  deriving DecidableEq, Repr

/-- The arguments of LOAD_TABLE (11.7). -/
structure LoadTableArgs where
  kind : Byte
  source : Word
  count : Half
  sum : Half
  edition : Word
  deriving DecidableEq, Repr

/-- The arguments of PROTECT_TABLE (11.7). -/
structure ProtectTableArgs where
  kind : Byte
  level : Byte
  deriving DecidableEq, Repr

/-- The arguments of READ_TABLE (11.7). -/
structure ReadTableArgs where
  kind : Byte
  destination : Word
  deriving DecidableEq, Repr

/-- A request as it stands in a slot: its kind with that kind's arguments, or a kind byte that is none of the fourteen
(R148). -/
inductive Request where
  | setClock (a : SetClockArgs)
  | openRun (a : OpenRunArgs)
  | depart (next : Byte)
  | arrive (stop : Byte)
  | closeRun
  | inspect (a : InspectArgs)
  | dismiss (index : Half)
  | readRoster (a : ReadRosterArgs)
  | confirmMark (a : ConfirmMarkArgs)
  | loadTable (a : LoadTableArgs)
  | protectTable (a : ProtectTableArgs)
  | readTable (a : ReadTableArgs)
  | wipe
  | withdraw (named : Byte)
  | malformed (kind : Byte)
  deriving DecidableEq, Repr

/-- An event that the spec lets arrive while another step is being carried out (R60, R101, R109, R116, R124, R146). -/
inductive Arrival where
  /-- Nothing more arrives at this point; what follows arrives at the next one. -/
  | nothing
  | minuteTick
  /-- A clock step of a SET_CLOCK during a run: the requested difference and the requested second (R9, R10). -/
  | clockStep (requested : Int) (second : Fin 60)
  | portReset
  | powerOnReset
  | loadCompletion
  | wipeCompletion
  /-- An access that the part makes for other work fails (R135, R156). -/
  | busFault (isWrite : Bool) (address : Word)
  deriving DecidableEq, Repr

/-- What comes from outside while one command is carried out (log entries 4 to 6): the host's own writes of its memory
made just before it, how many bytes the bus transfers before an access fails (`none`: no access fails), and the events
that arrive inside the step, point after point, each point's events closed by `Arrival.nothing`. -/
structure Env where
  hostWrites : List Host.Cell := []
  bus : Option Nat := none
  arrivals : List Arrival := []
  deriving DecidableEq, Repr

/-- Nothing comes from outside: no host write, no failing access, no arrival. -/
def Env.quiet : Env := {}

/-- The commands: one constructor per row of spec/opcode_table.json, in the table's order. A request row carries the slot
it is posted in, its host tag and its arguments; a register write carries the value written. -/
inductive Instr where
  | powerOnReset
  | minuteTick (env : Env)
  | watchTimeNear (index : Nat) (env : Env)
  | watchTimeLapse (index : Nat) (env : Env)
  | holdLimit (slot : Slot) (env : Env)
  | proposalLapsed (index : Nat) (env : Env)
  | setClock (slot : Slot) (tag : Half) (a : SetClockArgs) (env : Env)
  | openRun (slot : Slot) (tag : Half) (a : OpenRunArgs) (env : Env)
  | depart (slot : Slot) (tag : Half) (next : Byte) (env : Env)
  | arrive (slot : Slot) (tag : Half) (stop : Byte) (env : Env)
  | closeRun (slot : Slot) (tag : Half) (env : Env)
  | inspect (slot : Slot) (tag : Half) (a : InspectArgs) (env : Env)
  | dismiss (slot : Slot) (tag : Half) (index : Half) (env : Env)
  | readRoster (slot : Slot) (tag : Half) (a : ReadRosterArgs) (env : Env)
  | confirmMark (slot : Slot) (tag : Half) (a : ConfirmMarkArgs) (env : Env)
  | loadTable (slot : Slot) (tag : Half) (a : LoadTableArgs) (env : Env)
  | loadCompletion (env : Env)
  | protectTable (slot : Slot) (tag : Half) (a : ProtectTableArgs) (env : Env)
  | readTable (slot : Slot) (tag : Half) (a : ReadTableArgs) (env : Env)
  | wipe (slot : Slot) (tag : Half) (env : Env)
  | wipeCompletion (env : Env)
  | withdraw (slot : Slot) (tag : Half) (named : Byte) (env : Env)
  | malformed (slot : Slot) (tag : Half) (kind : Byte) (env : Env)
  | sweep (value : Word) (env : Env)
  | portEnable (value : Word) (env : Env)
  | portDisable (value : Word) (env : Env)
  | portReset (value : Word) (env : Env)
  | attentionEnable (value : Word) (env : Env)
  | dozeRequest (value : Word) (env : Env)
  | dozeClear (value : Word) (env : Env)
  | dozeEntry
  | overflowClear (value : Word)
  | noticeRelease (value : Word)
  | areaBaseWrite (value : Word)
  | registerWrite (offset : Nat) (value : Word) (env : Env)
  | busFault (isWrite : Bool) (address : Word)
  | secondAdvance (env : Env)
  deriving DecidableEq, Repr

end Sys2Proof
end

