-- ==== Sys2Proof/Decode.lean ====
section
/-! DEFINITION. The block has no instruction words: no row of spec/opcode_table.json gives bits, so `decodeTableWord`
answers none for every word. What the part does decode is a posted slot: the kind byte and the argument bytes of 11.7. -/

namespace Sys2Proof

open Sys2Proof.Machine

/-- No row of the table gives bits, so no word spells a command. -/
def decodeTableWord (_nbits _w : Nat) : Option Instr := none

/-- A field of the arguments as a bit vector of its width. -/
def argField (w off len : Nat) (bs : List Byte) : BitVec w := BitVec.ofNat w (field off len bs)

/-- SET_CLOCK's arguments in the slot (11.7). -/
def SetClockArgs.bytes (a : SetClockArgs) : List Byte :=
  le 2 a.day.toNat ++ le 2 a.minute.toNat ++ [a.second, a.presentFlag] ++ le 2 a.dayChange.toNat

/-- SET_CLOCK's arguments read from the slot (11.7). -/
def SetClockArgs.ofBytes (bs : List Byte) : SetClockArgs where
  day := argField 16 0 2 bs
  minute := argField 16 2 2 bs
  second := argField 8 4 1 bs
  presentFlag := argField 8 5 1 bs
  dayChange := argField 16 6 2 bs

/-- OPEN_RUN's arguments in the slot (11.7). -/
def OpenRunArgs.bytes (a : OpenRunArgs) : List Byte :=
  le 4 a.runId.toNat ++ [a.terminal, a.direction, a.startStop, a.coachCount] ++ padTo 16 a.classes
    ++ [a.sharedWindow, a.watchLead, a.skewTolerance, a.holdLimit]

/-- OPEN_RUN's arguments read from the slot (11.7). -/
def OpenRunArgs.ofBytes (bs : List Byte) : OpenRunArgs where
  runId := argField 32 0 4 bs
  terminal := argField 8 4 1 bs
  direction := argField 8 5 1 bs
  startStop := argField 8 6 1 bs
  coachCount := argField 8 7 1 bs
  classes := (bs.drop 8).take 16
  sharedWindow := argField 8 24 1 bs
  watchLead := argField 8 25 1 bs
  skewTolerance := argField 8 26 1 bs
  holdLimit := argField 8 27 1 bs

/-- INSPECT's arguments in the slot (11.7). -/
def InspectArgs.bytes (a : InspectArgs) : List Byte := [a.coach, a.heads] ++ padTo 46 a.record

/-- INSPECT's arguments read from the slot (11.7). -/
def InspectArgs.ofBytes (bs : List Byte) : InspectArgs where
  coach := argField 8 0 1 bs
  heads := argField 8 1 1 bs
  record := (bs.drop 2).take 46

/-- READ_ROSTER's arguments in the slot (11.7). -/
def ReadRosterArgs.bytes (a : ReadRosterArgs) : List Byte :=
  le 2 a.first.toNat ++ le 2 a.count.toNat ++ le 4 a.destination.toNat

/-- READ_ROSTER's arguments read from the slot (11.7). -/
def ReadRosterArgs.ofBytes (bs : List Byte) : ReadRosterArgs where
  first := argField 16 0 2 bs
  count := argField 16 2 2 bs
  destination := argField 32 4 4 bs

/-- CONFIRM_MARK's arguments in the slot (11.7). -/
def ConfirmMarkArgs.bytes (a : ConfirmMarkArgs) : List Byte := le 2 a.index.toNat ++ padTo 16 a.readBack

/-- CONFIRM_MARK's arguments read from the slot (11.7). -/
def ConfirmMarkArgs.ofBytes (bs : List Byte) : ConfirmMarkArgs where
  index := argField 16 0 2 bs
  readBack := (bs.drop 2).take 16

/-- LOAD_TABLE's arguments in the slot (11.7). -/
def LoadTableArgs.bytes (a : LoadTableArgs) : List Byte :=
  [a.kind] ++ zeros 3 ++ le 4 a.source.toNat ++ le 2 a.count.toNat ++ le 2 a.sum.toNat ++ le 4 a.edition.toNat

/-- LOAD_TABLE's arguments read from the slot (11.7). -/
def LoadTableArgs.ofBytes (bs : List Byte) : LoadTableArgs where
  kind := argField 8 0 1 bs
  source := argField 32 4 4 bs
  count := argField 16 8 2 bs
  sum := argField 16 10 2 bs
  edition := argField 32 12 4 bs

/-- PROTECT_TABLE's arguments in the slot (11.7). -/
def ProtectTableArgs.bytes (a : ProtectTableArgs) : List Byte := [a.kind, a.level]

/-- PROTECT_TABLE's arguments read from the slot (11.7). -/
def ProtectTableArgs.ofBytes (bs : List Byte) : ProtectTableArgs where
  kind := argField 8 0 1 bs
  level := argField 8 1 1 bs

/-- READ_TABLE's arguments in the slot (11.7). -/
def ReadTableArgs.bytes (a : ReadTableArgs) : List Byte := [a.kind] ++ zeros 3 ++ le 4 a.destination.toNat

/-- READ_TABLE's arguments read from the slot (11.7). -/
def ReadTableArgs.ofBytes (bs : List Byte) : ReadTableArgs where
  kind := argField 8 0 1 bs
  destination := argField 32 4 4 bs

/-- The request kind code of 11.8. -/
def Request.kindByte : Request → Byte
  | .setClock _ => 1
  | .openRun _ => 2
  | .depart _ => 3
  | .arrive _ => 4
  | .closeRun => 5
  | .inspect _ => 6
  | .dismiss _ => 7
  | .readRoster _ => 8
  | .confirmMark _ => 9
  | .loadTable _ => 10
  | .protectTable _ => 11
  | .readTable _ => 12
  | .wipe => 13
  | .withdraw _ => 14
  | .malformed kind => kind

/-- The argument bytes of a request, from the start of the argument area (11.7). -/
def Request.argBytes : Request → List Byte
  | .setClock a => a.bytes
  | .openRun a => a.bytes
  | .depart next => [next]
  | .arrive stop => [stop]
  | .closeRun => []
  | .inspect a => a.bytes
  | .dismiss index => le 2 index.toNat
  | .readRoster a => a.bytes
  | .confirmMark a => a.bytes
  | .loadTable a => a.bytes
  | .protectTable a => a.bytes
  | .readTable a => a.bytes
  | .wipe => []
  | .withdraw named => [named]
  | .malformed _ => []

/-- The request that a slot's kind byte and argument bytes spell (R148, 11.7). A kind outside 1..14 is malformed. -/
def Request.ofSlot (kind : Byte) (args : List Byte) : Request :=
  match kind.toNat with
  | 1 => .setClock (SetClockArgs.ofBytes args)
  | 2 => .openRun (OpenRunArgs.ofBytes args)
  | 3 => .depart (argField 8 0 1 args)
  | 4 => .arrive (argField 8 0 1 args)
  | 5 => .closeRun
  | 6 => .inspect (InspectArgs.ofBytes args)
  | 7 => .dismiss (argField 16 0 2 args)
  | 8 => .readRoster (ReadRosterArgs.ofBytes args)
  | 9 => .confirmMark (ConfirmMarkArgs.ofBytes args)
  | 10 => .loadTable (LoadTableArgs.ofBytes args)
  | 11 => .protectTable (ProtectTableArgs.ofBytes args)
  | 12 => .readTable (ReadTableArgs.ofBytes args)
  | 13 => .wipe
  | 14 => .withdraw (argField 8 0 1 args)
  | _ => .malformed kind

/-- The argument bytes the port reads at the take, as ranges (offset, length) of the argument area: those the request uses
(R148), none marked zero (R163). SET_CLOCK reads bytes 6..7 only with its present flag set (R165), OPEN_RUN only the classes
of its coaches, and INSPECT its record only past the checks of R52. -/
def Request.argRanges : Request → List (Nat × Nat)
  | .setClock a => [(0, if flagSet a.presentFlag then 8 else 6)]
  | .openRun a => [(0, 8 + min 16 a.coachCount.toNat), (24, 4)]
  | .depart _ => [(0, 1)]
  | .arrive _ => [(0, 1)]
  | .closeRun => []
  | .inspect _ => [(0, 2)]
  | .dismiss _ => [(0, 2)]
  | .readRoster _ => [(0, 8)]
  | .confirmMark _ => [(0, 18)]
  | .loadTable _ => [(0, 1), (4, 12)]
  | .protectTable _ => [(0, 2)]
  | .readTable _ => [(0, 1), (4, 4)]
  | .wipe => []
  | .withdraw _ => [(0, 1)]
  | .malformed _ => []

/-- The slot, host tag, request and surroundings of a command that is a request; none for the other rows. -/
def Instr.request? : Instr → Option (Slot × Half × Request × Env)
  | .setClock slot tag a env => some (slot, tag, .setClock a, env)
  | .openRun slot tag a env => some (slot, tag, .openRun a, env)
  | .depart slot tag next env => some (slot, tag, .depart next, env)
  | .arrive slot tag stop env => some (slot, tag, .arrive stop, env)
  | .closeRun slot tag env => some (slot, tag, .closeRun, env)
  | .inspect slot tag a env => some (slot, tag, .inspect a, env)
  | .dismiss slot tag index env => some (slot, tag, .dismiss index, env)
  | .readRoster slot tag a env => some (slot, tag, .readRoster a, env)
  | .confirmMark slot tag a env => some (slot, tag, .confirmMark a, env)
  | .loadTable slot tag a env => some (slot, tag, .loadTable a, env)
  | .protectTable slot tag a env => some (slot, tag, .protectTable a, env)
  | .readTable slot tag a env => some (slot, tag, .readTable a, env)
  | .wipe slot tag env => some (slot, tag, .wipe, env)
  | .withdraw slot tag named env => some (slot, tag, .withdraw named, env)
  | .malformed slot tag kind env => some (slot, tag, .malformed kind, env)
  | .powerOnReset => none
  | .minuteTick _ => none
  | .watchTimeNear _ _ => none
  | .watchTimeLapse _ _ => none
  | .holdLimit _ _ => none
  | .proposalLapsed _ _ => none
  | .loadCompletion _ => none
  | .wipeCompletion _ => none
  | .sweep _ _ => none
  | .portEnable _ _ => none
  | .portDisable _ _ => none
  | .portReset _ _ => none
  | .attentionEnable _ _ => none
  | .dozeRequest _ _ => none
  | .dozeClear _ _ => none
  | .dozeEntry => none
  | .overflowClear _ => none
  | .noticeRelease _ => none
  | .areaBaseWrite _ => none
  | .registerWrite _ _ _ => none
  | .busFault _ _ => none
  | .secondAdvance _ => none

end Sys2Proof
end

