-- ==== Sys2Proof/Config.lean ====
section
/-! DEFINITION. What the spec leaves open and the model leaves free. -/

namespace Sys2Proof

/-- FREE VALUE (log entry 9). At one minute tick or clock step the three consumers of R3, and the clock's own
DAY_CHANGED notice (R4), may stand in the ring in any interleaving that keeps each one's own order. `Config.turn k` is
the k-th open choice of who goes next; it has no body, so nothing can be proved of its value. -/
opaque Config.turn : Nat → Nat

end Sys2Proof
end

