-- ==== Sys2Proof/Machine/State.lean ====
section
/-! DEFINITION. The state of the Ferzic 410 as plain data, block by block (00_scope.md, "Block overview"), its values
after power-on reset (R158), and the reasons a step could stop. -/

namespace Sys2Proof.Machine

/-- The port's states (9.2). -/
inductive PortState where
  | stopped | idle | sweeping | fault
  deriving DecidableEq, Repr

/-- The power states (10.2). -/
inductive PowerState where
  | active | dozePending | doze
  deriving DecidableEq, Repr

/-- The latched cause of a bus fault (R141, R156). -/
inductive FaultCause where
  | noCause | read | write
  deriving DecidableEq, Repr

/-- The run states (R16). -/
inductive RunState where
  | noRun | standing | running | runningUnplaced | closed
  deriving DecidableEq, Repr

/-- The run's direction (R15). -/
inductive Direction where
  | up | down
  deriving DecidableEq, Repr

/-- The three tables (R127). -/
inductive TableKind where
  | stops | tariff | deny
  deriving DecidableEq, Repr

/-- A descriptor's state (R128). -/
inductive TableState where
  | absent | loading | valid | damaged
  deriving DecidableEq, Repr

/-- A descriptor's damage cause (R128, R133, R135). -/
inductive DamageCause where
  | noCause | sum | order | range | duplicate | aborted
  deriving DecidableEq, Repr

/-- The product kinds (3.2), also the coverage kinds. -/
inductive ProductKind where
  | zoneRange | zoneCount | network
  deriving DecidableEq, Repr

/-- The period kinds (3.2). -/
inductive PeriodKind where
  | minutes | days
  deriving DecidableEq, Repr

/-- The watch classes of a product (R47). -/
inductive WatchClass where
  | none | lapse | lead
  deriving DecidableEq, Repr

/-- The kinds of a watch (R98). -/
inductive WatchKind where
  | none | time | zone | both
  deriving DecidableEq, Repr

/-- The stages of a watch (R98). -/
inductive WatchStage where
  | cleared | armed | near | lapsed
  deriving DecidableEq, Repr

/-- The verdict classes, from least to most severe (4.10). -/
inductive Verdict where
  | valid | noted | upgrade | suspect | invalid | revoked | unreadable
  deriving DecidableEq, Repr

/-- The event a hold awaits (R150). -/
inductive Awaits where
  | placement | denyLoad | ownCompletion
  deriving DecidableEq, Repr

/-- A product entry of the tariff table, decoded (3.2, 11.5). -/
structure Product where
  code : Half
  kind : ProductKind
  period : PeriodKind
  baseMinutes : Nat
  perZoneMinutes : Nat
  maxMinutes : Nat
  days : Nat
  grace : Nat
  accommodation : Nat
  maxZones : Nat
  watchClass : WatchClass
  markable : Bool
  deriving DecidableEq, Repr

/-- The coverage record of R48. -/
inductive Coverage where
  | zoneRange (network lo hi : Nat)
  | zoneCount (lo hi : Nat)
  | network (network : Nat)
  deriving DecidableEq, Repr

/-- What the port keeps of an inspection it holds: the coach, the heads present and the credential record read at take
(R33), and the tariff entry found at stage 3 (R56). -/
structure InspectCopy where
  coach : Nat
  heads : Nat
  record : List Byte
  product : Product
  deriving DecidableEq, Repr

/-- The request kind of a hold, with what an INSPECT keeps: its hold limit count and its copy (R150). -/
inductive HoldWork where
  | inspect (limit : Nat) (copy : InspectCopy)
  | loadTable
  | wipe
  deriving DecidableEq, Repr

/-- One entry of the hold list (R150). -/
structure Hold where
  slot : Slot
  tag : Half
  awaits : Awaits
  work : HoldWork
  deriving DecidableEq, Repr

/-- The exchange port (9.2). `sweepNext` and `sweepLeft` are the place and the number of the examinations that the sweep
under way still has to make (R146), and `inHand` is the slot whose request is in hand (R145). -/
structure Port where
  state : PortState
  areaBase : Word
  enable : Bool
  noticeAttention : Bool
  faultAttention : Bool
  dozeRequest : Bool
  cursor : Slot
  sweepNext : Slot
  sweepLeft : Nat
  sweepAgain : Bool
  inHand : Option Slot
  holds : List Hold
  endedMarks : Vector Bool 32
  writePosition : Fin 64
  noticeCount : Nat
  nextSequence : Half
  overflow : Bool
  faultFlag : Bool
  faultCause : FaultCause
  faultAddress : Word
  deriving DecidableEq, Repr

/-- The clock (1.1). -/
structure Clock where
  day : Nat
  minute : Nat
  second : Nat
  dayChange : Nat
  isSet : Bool
  deriving DecidableEq, Repr

/-- The run record (R16). A stop field of `none` names no stop (FFh). -/
structure Run where
  state : RunState
  runId : Word
  terminal : Byte
  direction : Direction
  coachCount : Nat
  coachClasses : List Nat
  sharedWindow : Nat
  watchLead : Nat
  skewTolerance : Nat
  holdLimit : Nat
  position : Option Nat
  nextStop : Option Nat
  deriving DecidableEq, Repr

/-- A table descriptor (R128); the zone ordinals of the stops descriptor stand in `Tables.ordinals`. -/
structure Descriptor where
  state : TableState
  cause : DamageCause
  edition : Word
  count : Nat
  expectedSum : Half
  level : Nat
  deriving DecidableEq, Repr

/-- The load in progress: its table, the host address of its image and how many bytes the copy has written (R130). -/
structure LoadJob where
  kind : TableKind
  source : Nat
  copied : Nat
  deriving DecidableEq, Repr

/-- The table store: table memory, the three descriptors, the zone ordinals of the stops descriptor, the load in progress
and whether a WIPE is in progress (chapter 8). -/
structure Tables where
  memory : List Host.Cell
  stops : Descriptor
  tariff : Descriptor
  deny : Descriptor
  ordinals : List Nat
  load : Option LoadJob
  wiping : Bool
  deriving DecidableEq, Repr

/-- A watch record (R98). -/
structure Watch where
  kind : WatchKind
  lapse : Option Nat
  stage : WatchStage
  deriving DecidableEq, Repr

/-- A proposal: the 16 bytes of the proposed mark and its expiry count (R113). -/
structure Proposal where
  bytes : List Byte
  expiry : Nat
  deriving DecidableEq, Repr

/-- A mark record (R113). -/
structure MarkRecord where
  proposal : Option Proposal
  commitCount : Nat
  torn : Bool
  deriving DecidableEq, Repr

/-- A roster entry (R80). -/
structure Entry where
  index : Nat
  credentialId : LongWord
  productCode : Half
  passengers : Nat
  headsMax : Nat
  lastCoach : Nat
  lastStop : Nat
  inspections : Nat
  firstCount : Nat
  lastCount : Nat
  lastVerdict : Verdict
  lastReasons : Half
  denyReason : Option Half
  coverage : Coverage
  watch : Watch
  mark : MarkRecord
  deriving DecidableEq, Repr

/-- The whole machine. `pending` is the queue of commands, `hostMemory` the host's memory with the exchange area in it.
`busLeft`, `arrivals`, `owed` and `turns` are the MODEL's own: how many bytes the bus still transfers in this step before an
access fails, what still arrives in this step (log entries 5 and 6), the clock counts of the ticks and steps delivered in
this step to the hold list whose examination waits for the evaluator (log entry 14), and how many open choices of
`Config.turn` have been made (log entry 9). -/
structure State where
  pending : List Instr
  port : Port
  clock : Clock
  run : Run
  tables : Tables
  roster : List Entry
  power : PowerState
  hostMemory : List Host.Cell
  busLeft : Option Nat
  arrivals : List Arrival
  owed : List Nat
  turns : Nat
  deriving DecidableEq, Repr

/-- A reason a command stops the machine. There is none: the spec gives every command an effect, so no constructor is
declared and no step of the model faults (log entry 24). Safe: nothing is stopped that the part carries out. -/
inductive Fault where
  deriving DecidableEq, Repr

/-- A reason a command has no meaning here. -/
inductive Refusal where
  /-- A row of the table whose meaning is not written yet. No arm raises it. Safe: the step stops. -/
  | notModelled (mnemonic : String)
  deriving DecidableEq, Repr

/-- The exchange port after power-on reset (9.2, R158). -/
def Port.reset : Port where
  state := .stopped
  areaBase := 0
  enable := false
  noticeAttention := false
  faultAttention := false
  dozeRequest := false
  cursor := 0
  sweepNext := 0
  sweepLeft := 0
  sweepAgain := false
  inHand := none
  holds := []
  endedMarks := Vector.replicate 32 false
  writePosition := 0
  noticeCount := 0
  nextSequence := 0
  overflow := false
  faultFlag := false
  faultCause := .noCause
  faultAddress := 0

/-- The clock after power-on reset (1.1). -/
def Clock.reset : Clock where
  day := 1
  minute := 0
  second := 0
  dayChange := 180
  isSet := false

/-- The run record after power-on reset and after WIPE (R16). -/
def Run.reset : Run where
  state := .noRun
  runId := 0
  terminal := 0
  direction := .up
  coachCount := 0
  coachClasses := []
  sharedWindow := 0
  watchLead := 0
  skewTolerance := 0
  holdLimit := 0
  position := none
  nextStop := none

/-- A descriptor after power-on reset and after WIPE (R128). -/
def Descriptor.reset : Descriptor where
  state := .absent
  cause := .noCause
  edition := 0
  count := 0
  expectedSum := 0
  level := 0

/-- The table store after power-on reset and after WIPE: every byte of table memory is zero, so nothing is listed (R128). -/
def Tables.reset : Tables where
  memory := []
  stops := Descriptor.reset
  tariff := Descriptor.reset
  deny := Descriptor.reset
  ordinals := []
  load := none
  wiping := false

/-- The machine right after power-on reset (R158), its queue empty and nothing in host memory listed. -/
def State.reset : State where
  pending := []
  port := Port.reset
  clock := Clock.reset
  run := Run.reset
  tables := Tables.reset
  roster := []
  power := .active
  hostMemory := []
  busLeft := none
  arrivals := []
  owed := []
  turns := 0

end Sys2Proof.Machine
end

