-- ==== Sys2Proof/Machine/Flags.lean ====
section
/-! DEFINITION. The numeric codes of 11.8, the reason set and its fold into a verdict class (4.10), and the flags the host
reads in the registers (11.2) and on the ATTN line (R155). -/

namespace Sys2Proof.Machine

/-- Outcomes of requests (9.5, "Outcomes"). -/
inductive AnswerCode where
  | done | clamped | withdrawn | tooLate | notFound | malformed
  | refusedNoRun | refusedRunOpen | refusedSequence | refusedEndOfLine | refusedTablesNotReady
  | refusedClockNotSet | refusedBusy | refusedTableInUse | refusedProtected | refusedTooLarge | refusedArgument
  deriving DecidableEq, Repr

/-- Outcome codes (11.8). -/
def AnswerCode.code : AnswerCode → Byte
  | .done => 0
  | .clamped => 1
  | .withdrawn => 2
  | .tooLate => 3
  | .notFound => 4
  | .malformed => 5
  | .refusedNoRun => 6
  | .refusedRunOpen => 7
  | .refusedSequence => 8
  | .refusedEndOfLine => 9
  | .refusedTablesNotReady => 10
  | .refusedClockNotSet => 11
  | .refusedBusy => 12
  | .refusedTableInUse => 13
  | .refusedProtected => 14
  | .refusedTooLarge => 15
  | .refusedArgument => 16

/-- Slot states (9.4). -/
inductive SlotState where
  | empty | posted | taken | held | answered
  deriving DecidableEq, Repr

/-- Slot state codes (11.8). -/
def SlotState.code : SlotState → Byte
  | .empty => 0
  | .posted => 1
  | .taken => 2
  | .held => 3
  | .answered => 4

/-- Notice kinds (9.7). -/
inductive NoticeKind where
  | answered | watch | proposalLapsed | clockStepped | dayChanged
  deriving DecidableEq, Repr

/-- Notice kind codes (11.8). -/
def NoticeKind.code : NoticeKind → Byte
  | .answered => 1
  | .watch => 2
  | .proposalLapsed => 3
  | .clockStepped => 4
  | .dayChanged => 5

/-- Port state codes (11.8). -/
def PortState.code : PortState → Nat
  | .stopped => 0
  | .idle => 1
  | .sweeping => 2
  | .fault => 3

/-- Power state codes (11.8). -/
def PowerState.code : PowerState → Nat
  | .active => 0
  | .dozePending => 1
  | .doze => 2

/-- Fault cause codes (11.8). -/
def FaultCause.code : FaultCause → Nat
  | .noCause => 0
  | .read => 1
  | .write => 2

/-- Run state codes (11.8). -/
def RunState.code : RunState → Nat
  | .noRun => 0
  | .standing => 1
  | .running => 2
  | .runningUnplaced => 3
  | .closed => 4

/-- Direction codes (11.8). -/
def Direction.code : Direction → Nat
  | .up => 0
  | .down => 1

/-- The direction a code names (11.8). -/
def Direction.ofByte (b : Byte) : Option Direction :=
  match b.toNat with
  | 0 => some .up
  | 1 => some .down
  | _ => none

/-- Table kind codes (11.8). -/
def TableKind.code : TableKind → Nat
  | .stops => 1
  | .tariff => 2
  | .deny => 3

/-- The table a code names (11.8). -/
def TableKind.ofByte (b : Byte) : Option TableKind :=
  match b.toNat with
  | 1 => some .stops
  | 2 => some .tariff
  | 3 => some .deny
  | _ => none

/-- Table state codes (11.8). -/
def TableState.code : TableState → Nat
  | .absent => 0
  | .loading => 1
  | .valid => 2
  | .damaged => 3

/-- Damage cause codes (11.8). -/
def DamageCause.code : DamageCause → Nat
  | .noCause => 0
  | .sum => 1
  | .order => 2
  | .range => 3
  | .duplicate => 4
  | .aborted => 5

/-- Product kind and coverage kind codes (11.8). -/
def ProductKind.code : ProductKind → Nat
  | .zoneRange => 1
  | .zoneCount => 2
  | .network => 3

/-- The product kind a code names (11.8). -/
def ProductKind.ofNat? (n : Nat) : Option ProductKind :=
  match n with
  | 1 => some .zoneRange
  | 2 => some .zoneCount
  | 3 => some .network
  | _ => none

/-- The period kind a code names (11.8). -/
def PeriodKind.ofNat? (n : Nat) : Option PeriodKind :=
  match n with
  | 1 => some .minutes
  | 2 => some .days
  | _ => none

/-- The watch class a code names (11.8). -/
def WatchClass.ofNat? (n : Nat) : Option WatchClass :=
  match n with
  | 0 => some .none
  | 1 => some .lapse
  | 2 => some .lead
  | _ => none

/-- Watch kind codes (11.8). -/
def WatchKind.code : WatchKind → Nat
  | .none => 0
  | .time => 1
  | .zone => 2
  | .both => 3

/-- Watch stage codes (11.8). -/
def WatchStage.code : WatchStage → Nat
  | .cleared => 0
  | .armed => 1
  | .near => 2
  | .lapsed => 3

/-- Mark results (R120). -/
inductive MarkResult where
  | noResult | committed | notWritten | torn
  deriving DecidableEq, Repr

/-- Mark result codes (11.8). -/
def MarkResult.code : MarkResult → Byte
  | .noResult => 0
  | .committed => 1
  | .notWritten => 2
  | .torn => 3

/-- The media code of CARD_MARKABLE (11.8). -/
def mediaMarkable : Nat := 1

/-- The reasons of 4.10, in the order of their bits. -/
inductive Reason where
  | checkFailed | fieldRange | unknownProduct | denied | notYetValid | expired | outOfZone | wrongNetwork
  | seenElsewhere | wrongClass | headsExceed | inGrace | denyNotChecked | positionAssumed | rosterFull | repeated
  deriving DecidableEq, Repr

/-- Every reason, in the order of its bit (4.10). -/
def Reason.all : List Reason :=
  [.checkFailed, .fieldRange, .unknownProduct, .denied, .notYetValid, .expired, .outOfZone, .wrongNetwork,
   .seenElsewhere, .wrongClass, .headsExceed, .inGrace, .denyNotChecked, .positionAssumed, .rosterFull, .repeated]

/-- The bit of a reason in the reason set (4.10). -/
def Reason.bit : Reason → Nat
  | .checkFailed => 0
  | .fieldRange => 1
  | .unknownProduct => 2
  | .denied => 3
  | .notYetValid => 4
  | .expired => 5
  | .outOfZone => 6
  | .wrongNetwork => 7
  | .seenElsewhere => 8
  | .wrongClass => 9
  | .headsExceed => 10
  | .inGrace => 11
  | .denyNotChecked => 12
  | .positionAssumed => 13
  | .rosterFull => 14
  | .repeated => 15

/-- The verdict class of a reason; REPEAT has none (4.10). -/
def Reason.verdict? : Reason → Option Verdict
  | .checkFailed => some .unreadable
  | .fieldRange => some .unreadable
  | .unknownProduct => some .unreadable
  | .denied => some .revoked
  | .notYetValid => some .invalid
  | .expired => some .invalid
  | .outOfZone => some .invalid
  | .wrongNetwork => some .invalid
  | .seenElsewhere => some .suspect
  | .wrongClass => some .upgrade
  | .headsExceed => some .upgrade
  | .inGrace => some .noted
  | .denyNotChecked => some .noted
  | .positionAssumed => some .noted
  | .rosterFull => some .noted
  | .repeated => none

/-- The rank of a verdict class, which is also its code (4.10, 11.8). -/
def Verdict.rank : Verdict → Nat
  | .valid => 0
  | .noted => 1
  | .upgrade => 2
  | .suspect => 3
  | .invalid => 4
  | .revoked => 5
  | .unreadable => 6

/-- The more severe of two verdict classes (R74). -/
def Verdict.worse (a b : Verdict) : Verdict := if a.rank < b.rank then b else a

/-- A reason set as the 16-bit field of the answers and images (4.10). -/
def reasonSet (rs : List Reason) : Half := rs.foldl (fun w r => w ||| (1#16 <<< r.bit)) 0

/-- Whether a reason is in the set. -/
def hasReason (w : Half) (r : Reason) : Bool := w.getLsbD r.bit

/-- A reason set with one reason added. -/
def addReason (w : Half) (r : Reason) : Half := w ||| (1#16 <<< r.bit)

/-- The fold of stage 11: the most severe class among the classes of the reasons present, VALID when there is none (R74). -/
def foldVerdict (w : Half) : Verdict :=
  (Reason.all.filterMap fun r => if hasReason w r then r.verdict? else none).foldl Verdict.worse .valid

/-- Whether the port writes to host memory: IDLE or SWEEPING (9.2). -/
def PortState.writes : PortState → Bool
  | .stopped => false
  | .idle => true
  | .sweeping => true
  | .fault => false

/-- A run is open while the run state is STANDING, RUNNING or RUNNING_UNPLACED (R16). -/
def RunState.isOpen : RunState → Bool
  | .noRun => false
  | .standing => true
  | .running => true
  | .runningUnplaced => true
  | .closed => false

/-- Whether a run is open. -/
def State.runOpen (s : State) : Bool := s.run.state.isOpen

/-- ATTN is asserted (pulled low) while one of the three conditions of R155 holds. -/
def State.attention (s : State) : Bool :=
  (decide (0 < s.port.noticeCount) && s.port.noticeAttention)
    || (s.port.overflow && s.port.noticeAttention)
    || (s.port.state == .fault && s.port.faultAttention)

/-- What a read of Port Control returns: the stored enables and the doze request, and 0 for port reset (R141, 11.2). -/
def State.portControlWord (s : State) : Word :=
  BitVec.ofNat 32 (s.port.enable.toNat + 2 * s.port.noticeAttention.toNat + 4 * s.port.faultAttention.toNat
    + 8 * s.port.dozeRequest.toNat)

/-- What a read of Port Status returns (R141, 11.2). -/
def State.portStatusWord (s : State) : Word :=
  BitVec.ofNat 32 (s.port.state.code + 4 * s.power.code + 16 * s.port.overflow.toNat + 32 * s.port.faultFlag.toNat
    + 64 * s.port.faultCause.code + 256 * s.clock.isSet.toNat + 512 * s.run.state.code)

/-- What a read of the register at an offset returns (9.1). Sweep and Notice Release read 0; an offset that holds no
register reads 0 (log entry 21). -/
def State.readRegister (s : State) (offset : Nat) : Word :=
  match offset with
  | 0x00 => s.port.areaBase
  | 0x04 => s.portControlWord
  | 0x08 => s.portStatusWord
  | 0x10 => BitVec.ofNat 32 s.port.noticeCount
  | 0x18 => s.port.faultAddress
  | _ => 0

end Sys2Proof.Machine
end

