-- ==== Sys2Proof/Machine/Operands.lean ====
section
/-! DEFINITION. The records of chapter 11 as the part reads and writes them: credential, mark, table entries, descriptor
and roster images, and the lookups in table memory. -/

namespace Sys2Proof.Machine

/-- The credential record, decoded (11.4). -/
structure Credential where
  version : Nat
  media : Nat
  productCode : Half
  credentialId : LongWord
  network : Nat
  zoneLo : Nat
  zoneHi : Nat
  zoneCount : Nat
  originStop : Half
  activationDay : Nat
  activationMinute : Nat
  travelClass : Nat
  passengers : Nat
  markCounter : Nat
  lastMarkPresent : Bool
  lastMark : List Byte
  check : Half
  deriving DecidableEq, Repr

/-- The fields of a 46-byte credential record (11.4). -/
def Credential.ofRecord (bs : List Byte) : Credential where
  version := field 0 1 bs
  media := field 1 1 bs
  productCode := BitVec.ofNat 16 (field 2 2 bs)
  credentialId := BitVec.ofNat 64 (field 4 8 bs)
  network := field 12 1 bs
  zoneLo := field 13 1 bs
  zoneHi := field 14 1 bs
  zoneCount := field 15 1 bs
  originStop := BitVec.ofNat 16 (field 16 2 bs)
  activationDay := field 18 2 bs
  activationMinute := field 20 2 bs
  travelClass := field 22 1 bs
  passengers := field 23 1 bs
  markCounter := field 24 2 bs
  lastMarkPresent := flagSet (bs.getD 26 0)
  lastMark := (bs.drop 28).take 16
  check := BitVec.ofNat 16 (field 44 2 bs)

/-- An inspection mark, decoded (11.4). -/
structure Mark where
  runId : Word
  terminal : Byte
  coach : Nat
  serviceDay : Nat
  serviceMinute : Nat
  stop : Nat
  verdict : Nat
  counter : Nat
  check : Half
  deriving DecidableEq, Repr

/-- The fields of a 16-byte mark (11.4). -/
def Mark.ofBytes (bs : List Byte) : Mark where
  runId := BitVec.ofNat 32 (field 0 4 bs)
  terminal := BitVec.ofNat 8 (field 4 1 bs)
  coach := field 5 1 bs
  serviceDay := field 6 2 bs
  serviceMinute := field 8 2 bs
  stop := field 10 1 bs
  verdict := field 11 1 bs
  counter := field 12 2 bs
  check := BitVec.ofNat 16 (field 14 2 bs)

/-- The mark counter field of a mark, at offsets 12..13 (11.4). -/
def markCounterOf (bs : List Byte) : Nat := field 12 2 bs

/-- The first fourteen bytes of a proposed mark (R115). -/
def markBody (runId : Word) (terminal : Byte) (coach clockCount stop : Nat) (verdict : Verdict) (counter : Nat) : List Byte :=
  le 4 runId.toNat ++ [terminal] ++ le 1 coach ++ le 2 (clockCount / 1440) ++ le 2 (clockCount % 1440)
    ++ le 1 stop ++ le 1 verdict.rank ++ le 2 counter

/-- A mark with its check: the CRC of its first fourteen bytes, low byte first (R115). -/
def withCheck (body : List Byte) : List Byte := body ++ le 2 (crc body).toNat

/-- The descriptor of a table. -/
def Tables.descriptor (t : Tables) : TableKind → Descriptor
  | .stops => t.stops
  | .tariff => t.tariff
  | .deny => t.deny

/-- The table store with one descriptor replaced. -/
def Tables.setDescriptor (t : Tables) (k : TableKind) (d : Descriptor) : Tables :=
  match k with
  | .stops => { t with stops := d }
  | .tariff => { t with tariff := d }
  | .deny => { t with deny := d }

/-- The first byte of a table's region: blocks 0, 1 and 13 (R127). -/
def TableKind.base : TableKind → Nat
  | .stops => 0
  | .tariff => 512
  | .deny => 6656

/-- The entry size of a table (R127). -/
def TableKind.entrySize : TableKind → Nat
  | .stops => 4
  | .tariff => 48
  | .deny => 16

/-- The capacity of a table (R127). -/
def TableKind.capacity : TableKind → Nat
  | .stops => 128
  | .tariff => 128
  | .deny => 7776

/-- The least entry count of a table (R127). -/
def TableKind.least : TableKind → Nat
  | .stops => 2
  | .tariff => 1
  | .deny => 1

/-- Whether the table store gives a table to its readers: its descriptor is VALID and no WIPE is in progress (R127, R139). -/
def Tables.readable (t : Tables) (k : TableKind) : Bool := (t.descriptor k).state == .valid && !t.wiping

/-- The stored image of a table: entry count × entry size bytes from the first byte of its region (R127). -/
def Tables.image (t : Tables) (k : TableKind) : List Byte :=
  Memory.readRun tableSize t.memory k.base ((t.descriptor k).count * k.entrySize)

/-- The bytes of one stored entry (R127). -/
def Tables.entryBytes (t : Tables) (k : TableKind) (i : Nat) : List Byte :=
  Memory.readRun tableSize t.memory (k.base + i * k.entrySize) k.entrySize

/-- Every stored entry of a table, in table order. -/
def Tables.entries (t : Tables) (k : TableKind) : List (List Byte) :=
  (List.range (t.descriptor k).count).map fun i => t.entryBytes k i

/-- A stop entry, decoded (11.5). -/
structure Stop where
  code : Half
  network : Nat
  zone : Nat
  deriving DecidableEq, Repr

/-- The fields of a stop entry (11.5). -/
def Stop.ofBytes (bs : List Byte) : Stop where
  code := BitVec.ofNat 16 (field 0 2 bs)
  network := field 2 1 bs
  zone := field 3 1 bs

/-- The fields of a product entry (11.5); none when one of its enumerated bytes is outside its codes. -/
def Product.ofBytes (bs : List Byte) : Option Product :=
  match ProductKind.ofNat? (field 2 1 bs), PeriodKind.ofNat? (field 3 1 bs), WatchClass.ofNat? (field 15 1 bs) with
  | some kind, some period, some watchClass =>
    if field 16 1 bs ≤ 1 then
      some
        { code := BitVec.ofNat 16 (field 0 2 bs)
          kind := kind
          period := period
          baseMinutes := field 4 2 bs
          perZoneMinutes := field 6 2 bs
          maxMinutes := field 8 2 bs
          days := field 10 2 bs
          grace := field 12 1 bs
          accommodation := field 13 1 bs
          maxZones := field 14 1 bs
          watchClass := watchClass
          markable := field 16 1 bs == 1 }
    else none
  | _, _, _ => none

/-- A deny entry, decoded (11.5). -/
structure DenyEntry where
  credentialId : LongWord
  reason : Half
  fromDay : Nat
  untilDay : Nat
  deriving DecidableEq, Repr

/-- The fields of a deny entry (11.5). -/
def DenyEntry.ofBytes (bs : List Byte) : DenyEntry where
  credentialId := BitVec.ofNat 64 (field 0 8 bs)
  reason := BitVec.ofNat 16 (field 8 2 bs)
  fromDay := field 10 2 bs
  untilDay := field 12 2 bs

/-- The number of stops of the line. -/
def Tables.stopCount (t : Tables) : Nat := t.stops.count

/-- The stop with an index (R13). -/
def Tables.stopAt (t : Tables) (i : Nat) : Stop := Stop.ofBytes (t.entryBytes .stops i)

/-- The zone ordinal of a stop (R14). -/
def Tables.ordinal (t : Tables) (i : Nat) : Nat := t.ordinals.getD i 0

/-- The index of the stop that carries a stop code; codes are unique in a VALID table (R48, R68). -/
def Tables.stopWithCode (t : Tables) (code : Half) : Option Nat :=
  (List.range t.stopCount).find? fun i => (t.stopAt i).code == code

/-- The product entry that carries a product code; codes are unique in a VALID table (R42). -/
def Tables.productWithCode (t : Tables) (code : Half) : Option Product :=
  ((t.entries .tariff).filterMap Product.ofBytes).find? fun p => p.code == code

/-- The first deny entry in table order that carries the id and whose window holds the service day (R51). -/
def Tables.denyFor (t : Tables) (id : LongWord) (serviceDay : Nat) : Option DenyEntry :=
  ((t.entries .deny).map DenyEntry.ofBytes).find? fun d =>
    d.credentialId == id && decide (d.fromDay ≤ serviceDay) && decide (serviceDay ≤ d.untilDay)

/-- A stop field: the stop index, or FFh for no stop (R13, R164). -/
def stopByte : Option Nat → Byte
  | some i => BitVec.ofNat 8 i
  | none => 0xFF

/-- The descriptor image of 16 bytes (11.3). -/
def Descriptor.image (d : Descriptor) : List Byte :=
  le 1 d.state.code ++ le 1 d.cause.code ++ le 1 d.level ++ zeros 1 ++ le 4 d.edition.toNat ++ le 2 d.count
    ++ le 2 d.expectedSum.toNat ++ zeros 4

/-- The coverage kind code (11.6). -/
def Coverage.code : Coverage → Nat
  | .zoneRange _ _ _ => ProductKind.zoneRange.code
  | .zoneCount _ _ => ProductKind.zoneCount.code
  | .network _ => ProductKind.network.code

/-- Bytes 32..35 of a roster entry image: coverage kind, network, and the zone or ordinal bounds (11.6). -/
def Coverage.image : Coverage → List Byte
  | .zoneRange net lo hi => le 1 ProductKind.zoneRange.code ++ le 1 net ++ le 1 lo ++ le 1 hi
  | .zoneCount lo hi => le 1 ProductKind.zoneCount.code ++ zeros 1 ++ le 1 lo ++ le 1 hi
  | .network net => le 1 ProductKind.network.code ++ le 1 net ++ zeros 2

/-- The roster entry image of 80 bytes (11.6); an absent optional field is zero beside a presence flag of 0 (R164). -/
def Entry.image (e : Entry) : List Byte :=
  le 2 e.index ++ le 2 e.productCode.toNat ++ le 8 e.credentialId.toNat
    ++ le 1 e.passengers ++ le 1 e.headsMax ++ le 1 e.lastCoach ++ le 1 e.lastStop
    ++ le 1 e.inspections ++ le 1 e.lastVerdict.rank ++ le 2 e.lastReasons.toNat
    ++ le 4 e.firstCount ++ le 4 e.lastCount
    ++ [flagByte e.denyReason.isSome] ++ zeros 1 ++ le 2 (e.denyReason.getD 0).toNat
    ++ e.coverage.image
    ++ le 1 e.watch.kind.code ++ le 1 e.watch.stage.code ++ [flagByte e.watch.lapse.isSome] ++ zeros 1
    ++ le 4 (e.watch.lapse.getD 0)
    ++ [flagByte e.mark.proposal.isSome] ++ le 1 e.mark.commitCount ++ [flagByte e.mark.torn] ++ zeros 1
    ++ padTo 16 ((e.mark.proposal.map Proposal.bytes).getD [])
    ++ le 4 ((e.mark.proposal.map Proposal.expiry).getD 0) ++ zeros 12

/-- A signed number in two's complement, 4 bytes (chapter 11). -/
def signed4 (z : Int) : List Byte := le 4 (BitVec.ofInt 32 z).toNat

end Sys2Proof.Machine
end

