-- ==== Sys2Proof/Machine/Ops.lean ====
section
/-! DEFINITION. The operations every block shares: the derived readings of the clock and the run, the accesses to host
memory and the entry into FAULT, the area header, the notice ring, answers, the hold list, and the two resets. -/

namespace Sys2Proof.Machine

/-! ### Derived readings -/

/-- The service day (R2). -/
def Clock.serviceDay (c : Clock) : Nat := if c.dayChange ≤ c.minute then c.day else c.day - 1

/-- The service minute (R2). -/
def Clock.serviceMinute (c : Clock) : Nat :=
  if c.dayChange ≤ c.minute then c.minute - c.dayChange else c.minute + 1440 - c.dayChange

/-- The clock count N = S × 1440 + m (R2). -/
def Clock.count (c : Clock) : Nat := c.serviceDay * 1440 + c.serviceMinute

/-- The clock count of the clock's top reading, 94,371,839 − P (R2, R5). -/
def Clock.topCount (c : Clock) : Nat := 94371839 - c.dayChange

/-- The clock count in force. -/
def State.clockCount (s : State) : Nat := s.clock.count

/-- The evaluation stop of the run, derived from the run record (R20). -/
def Run.evaluationStop (r : Run) : Option Nat :=
  match r.state with
  | .standing => r.position
  | .running => r.nextStop
  | .runningUnplaced => none
  | .noRun => none
  | .closed => none

/-! ### Host memory, the bus and the entry into FAULT -/

/-- The host address of the exchange area (9.3). -/
def State.areaAddress (s : State) : Nat := s.port.areaBase.toNat

/-- The host address of a slot: 500h + 128 × slot (9.3). -/
def State.slotAddress (s : State) (slot : Slot) : Nat := s.areaAddress + 0x500 + 128 * slot.val

/-- `n` bytes of host memory from an address. -/
def State.hostBytes (s : State) (a n : Nat) : List Byte := Memory.readRun hostSize s.hostMemory a n

/-- How many of `n` bytes the bus transfers before an access fails (log entry 5). -/
def State.transferred (s : State) (n : Nat) : Nat :=
  match s.busLeft with
  | none => n
  | some left => min n left

/-- The bus after `n` transferred bytes. -/
def State.spend (s : State) (n : Nat) : State := { s with busLeft := s.busLeft.map (· - n) }

/-- A load in progress is aborted: its table becomes DAMAGED with cause ABORTED and keeps its edition, entry count and
expected sum; without a load nothing changes (R135). -/
def Tables.abortLoad (t : Tables) : Tables :=
  match t.load with
  | none => t
  | some job =>
    { t.setDescriptor job.kind { t.descriptor job.kind with state := .damaged, cause := .aborted } with load := none }

/-- The entry to FAULT (R156): the cause and address are latched, the request in hand is abandoned, the sweep ends, a load
in progress is aborted, and the hold list stays in place, frozen. -/
def enterFault (cause : FaultCause) (address : Nat) (s : State) : State :=
  { s with
    port :=
      { s.port with
        state := .fault
        faultFlag := true
        faultCause := cause
        faultAddress := BitVec.ofNat 32 address
        sweepLeft := 0
        sweepAgain := false
        inHand := none }
    tables := s.tables.abortLoad
    busLeft := none }

/-- A write of a run of bytes to host memory, made while the port is IDLE or SWEEPING (9.2). If an access fails, the bytes
before it are written and the port enters FAULT with cause WRITE (R156; log entry 5). -/
def busWrite (a : Nat) (bs : List Byte) (s : State) : State :=
  if s.port.state.writes then
    if s.transferred bs.length = bs.length then
      { s.spend bs.length with hostMemory := Memory.writeRun hostSize s.hostMemory a bs }
    else
      enterFault .write (a + s.transferred bs.length)
        { s with hostMemory := Memory.writeRun hostSize s.hostMemory a (bs.take (s.transferred bs.length)) }
  else s

/-- A read of `n` bytes of host memory made by the sweep. If an access fails, the port enters FAULT with cause READ
(R156). The bytes read are `s.hostBytes a n`. -/
def busRead (a n : Nat) (s : State) : State :=
  if s.port.state.writes then
    if s.transferred n = n then s.spend n else enterFault .read (a + s.transferred n) s
  else s

/-- Whether the part makes accesses of a kind for other work than the command's in the port's state: any in IDLE and
SWEEPING, in STOPPED the reads of a load still in progress, none in FAULT (R156). -/
def State.mayFault (s : State) (isWrite : Bool) : Bool :=
  match s.port.state with
  | .idle => true
  | .sweeping => true
  | .stopped => s.tables.load.isSome && !isWrite
  | .fault => false

/-- An access fails that the part makes for other work. Where the part makes no such access, no fault can arise (R156; log
entry 20). -/
def failAccess (isWrite : Bool) (address : Word) (s : State) : State :=
  if s.mayFault isWrite then enterFault (if isWrite then .write else .read) address.toNat s else s

/-! ### The area header -/

/-- The run mirror, header bytes 10h..1Fh (R31, 11.3). -/
def State.runMirror (s : State) : List Byte :=
  le 1 s.run.state.code ++ le 1 s.run.direction.code
    ++ [stopByte s.run.position, stopByte s.run.nextStop, stopByte s.run.evaluationStop] ++ zeros 1
    ++ le 2 s.roster.length ++ le 4 s.run.runId.toNat ++ zeros 4

/-- The clock mirror, header bytes 20h..2Fh (R12, 11.3). -/
def Clock.mirror (c : Clock) : List Byte :=
  le 2 c.day ++ le 2 c.minute ++ le 2 c.serviceDay ++ le 2 c.serviceMinute ++ [flagByte c.isSet] ++ zeros 7

/-- The notice write position and next sequence number, header bytes 08h..0Bh (11.3). -/
def ringMirror (position : Fin 64) (sequence : Half) : List Byte := le 1 position.val ++ zeros 1 ++ le 2 sequence.toNat

/-- The layout edition and the area geometry, header bytes 00h..07h (R144, R164, 11.3). -/
def geometry : List Byte := le 2 1 ++ le 1 32 ++ le 1 64 ++ le 2 128 ++ le 2 16

/-- The whole header of 256 bytes (11.3). -/
def State.header (s : State) : List Byte :=
  geometry ++ ringMirror s.port.writePosition s.port.nextSequence ++ zeros 4 ++ s.runMirror ++ s.clock.mirror
    ++ s.tables.stops.image ++ s.tables.tariff.image ++ s.tables.deny.image ++ zeros 160

/-- Write the whole header (R142, R144). -/
def writeHeader (s : State) : State := busWrite s.areaAddress s.header s

/-- Rewrite the run mirror (R31). -/
def mirrorRun (s : State) : State := busWrite (s.areaAddress + 0x10) s.runMirror s

/-- Rewrite the clock mirror (R12). -/
def mirrorClock (s : State) : State := busWrite (s.areaAddress + 0x20) s.clock.mirror s

/-- The header offset of a descriptor's mirror (11.3). -/
def TableKind.mirrorOffset : TableKind → Nat
  | .stops => 0x30
  | .tariff => 0x40
  | .deny => 0x50

/-- Rewrite a descriptor's mirror (R128). -/
def mirrorDescriptor (k : TableKind) (s : State) : State :=
  busWrite (s.areaAddress + k.mirrorOffset) (s.tables.descriptor k).image s

/-! ### The notice ring -/

/-- What a block hands to the port for a notice: every field but the sequence number and the clock count (9.7). -/
structure Notice where
  kind : NoticeKind
  stage : Nat
  subject : Nat
  tag : Half
  detail : Word
  deriving DecidableEq, Repr

/-- The 16 bytes of a notice (11.3). -/
def Notice.bytes (n : Notice) (sequence : Half) (clockCount : Nat) : List Byte :=
  le 2 sequence.toNat ++ [n.kind.code] ++ le 1 n.stage ++ le 2 n.subject ++ le 2 n.tag.toNat ++ le 4 clockCount
    ++ le 4 n.detail.toNat

/-- The overflow flag is set (R153). -/
def setOverflow (s : State) : State := { s with port := { s.port with overflow := true } }

/-- The ring one notice further: write position, next sequence number and notice count each one up (R153). -/
def advanceRing (s : State) : State :=
  { s with
    port :=
      { s.port with
        writePosition := s.port.writePosition + 1
        nextSequence := s.port.nextSequence + 1
        noticeCount := s.port.noticeCount + 1 } }

/-- The host address of ring slot `position` (9.3). -/
def State.ringAddress (s : State) (position : Fin 64) : Nat := s.areaAddress + 0x100 + 16 * position.val

/-- The bytes of a notice and the ring fields of the header that follow it, written to host memory (R153). -/
def putNotice (n : Notice) (s : State) : State :=
  busWrite (s.areaAddress + 0x08) (ringMirror (s.port.writePosition + 1) (s.port.nextSequence + 1))
    (busWrite (s.ringAddress s.port.writePosition) (n.bytes s.port.nextSequence s.clockCount) s)

/-- A notice taken in IDLE or SWEEPING: lost with the overflow flag set at a count of 64, otherwise written; if a write
fails it is not counted and the overflow flag is set (R153). -/
def writeNotice (n : Notice) (s : State) : State :=
  if 64 ≤ s.port.noticeCount then setOverflow s
  else if (putNotice n s).port.state = .fault then setOverflow (putNotice n s)
  else advanceRing (putNotice n s)

/-- A notice appended through the port (R153): nothing in STOPPED, the overflow flag in FAULT. -/
def appendNotice (n : Notice) (s : State) : State :=
  match s.port.state with
  | .stopped => s
  | .fault => setOverflow s
  | .idle => writeNotice n s
  | .sweeping => writeNotice n s

/-- The DAY_CHANGED notice with the service day in force (R4, R8, R10). -/
def noticeDayChanged (s : State) : State :=
  appendNotice { kind := .dayChanged, stage := 0, subject := 0, tag := 0, detail := BitVec.ofNat 32 s.clock.serviceDay } s

/-- The CLOCK_STEPPED notice with the applied delta (R10). -/
def noticeClockStepped (delta : Int) (s : State) : State :=
  appendNotice { kind := .clockStepped, stage := 0, subject := 0, tag := 0, detail := BitVec.ofInt 32 delta } s

/-- The PROPOSAL_LAPSED notice of a roster entry (R117). -/
def noticeProposalLapsed (index : Nat) (s : State) : State :=
  appendNotice { kind := .proposalLapsed, stage := 0, subject := index, tag := 0, detail := 0 } s

/-- The WATCH notice of a roster entry: the stage reached and the low 32 bits of the credential id (R103). -/
def noticeWatch (index : Nat) (stage : WatchStage) (id : LongWord) (s : State) : State :=
  appendNotice { kind := .watch, stage := stage.code, subject := index, tag := 0, detail := id.setWidth 32 } s

/-! ### Answers and holds -/

/-- An answer written into a slot: the outcome and the 56 answer bytes, then the state ANSWERED, then the ANSWERED notice;
none of it while the port is STOPPED or FAULT (R149). -/
def writeAnswer (slot : Slot) (tag : Half) (code : AnswerCode) (bytes : List Byte) (s : State) : State :=
  let s1 := busWrite (s.slotAddress slot + 4) [code.code] s
  let s2 := busWrite (s.slotAddress slot + 72) (padTo 56 bytes) s1
  let s3 := busWrite (s.slotAddress slot) [SlotState.answered.code] s2
  if s3.port.state.writes then
    appendNotice { kind := .answered, stage := 0, subject := slot.val, tag := tag, detail := 0 } s3
  else s3

/-- The request in hand has ended: the sweep cursor becomes one past its slot (R146). -/
def finishInHand (slot : Slot) (s : State) : State :=
  { s with port := { s.port with inHand := none, cursor := slot + 1 } }

/-- The answer of the request in hand (R149). A failed write abandons the request (R156). -/
def answerNow (slot : Slot) (tag : Half) (code : AnswerCode) (bytes : List Byte) (s : State) : State :=
  if (writeAnswer slot tag code bytes s).port.state = .fault then writeAnswer slot tag code bytes s
  else finishInHand slot (writeAnswer slot tag code bytes s)

/-- A hold at the end of the hold list (R150). -/
def appendHold (h : Hold) (s : State) : State := { s with port := { s.port with holds := s.port.holds ++ [h] } }

/-- The request in hand is held: its entry goes to the end of the hold list and its slot is written HELD (R150). -/
def holdNow (h : Hold) (s : State) : State :=
  let s1 := busWrite (s.slotAddress h.slot) [SlotState.held.code] (appendHold h s)
  if s1.port.state = .fault then s1 else finishInHand h.slot s1

/-- The hold of a slot, if the slot stands on the hold list. -/
def State.holdOf (s : State) (slot : Slot) : Option Hold := s.port.holds.find? fun h => h.slot == slot

/-- Whether a slot stands on the hold list. -/
def State.isHeld (s : State) (slot : Slot) : Bool := s.port.holds.any fun h => h.slot == slot

/-- The hold of a slot leaves the list and the slot's ended-hold mark is set (R150). -/
def dropHold (slot : Slot) (s : State) : State :=
  { s with
    port :=
      { s.port with
        holds := s.port.holds.filter fun h => h.slot != slot
        endedMarks := s.port.endedMarks.set slot.val true } }

/-- A hold ends with an answer: the slot is answered with the tag kept, then the entry leaves the list. In FAULT, and when
a write of the answer fails, the entry stays on the frozen list (R134, R149, R150). -/
def endHold (h : Hold) (code : AnswerCode) (bytes : List Byte) (s : State) : State :=
  if (writeAnswer h.slot h.tag code bytes s).port.state = .fault then writeAnswer h.slot h.tag code bytes s
  else dropHold h.slot (writeAnswer h.slot h.tag code bytes s)

/-- A hold carried over to another awaited event keeps its place and its limit (R26). -/
def carryHold (slot : Slot) (awaits : Awaits) (s : State) : State :=
  { s with
    port := { s.port with holds := s.port.holds.map fun h => if h.slot == slot then { h with awaits := awaits } else h } }

/-! ### Resets and the entry into DOZE -/

/-- Port reset (R157). -/
def resetPort (s : State) : State :=
  { s with
    port :=
      { s.port with
        state := .stopped
        cursor := 0
        sweepLeft := 0
        sweepAgain := false
        inHand := none
        holds := []
        endedMarks := Vector.replicate 32 false
        writePosition := 0
        noticeCount := 0
        overflow := false
        faultFlag := false
        faultCause := .noCause }
    tables := s.tables.abortLoad }

/-- Power-on reset (R158): every block takes its power-on values. Host memory is the host's and stays as last written, and
the queue of commands is not the part's. -/
def resetPower (s : State) : State :=
  { State.reset with pending := s.pending, hostMemory := s.hostMemory, turns := s.turns }

/-- Whether a sweep, a load or a wipe is under way (R159). -/
def State.underWay (s : State) : Bool := s.port.state == .sweeping || s.tables.load.isSome || s.tables.wiping

/-- The entry into DOZE at the first moment no sweep, load or wipe remains (R160). -/
def enterDoze (s : State) : State :=
  if s.power = .dozePending ∧ s.underWay = false then { s with power := .doze } else s

/-- The start of a step: the host's own writes of its memory, and what the bus and the arrivals will do in it. -/
def beginStep (env : Env) (s : State) : State :=
  { s with
    hostMemory := env.hostWrites.foldl (fun m c => Memory.write m (c.1 % hostSize) c.2) s.hostMemory
    busLeft := env.bus
    arrivals := env.arrivals
    owed := [] }

/-- The end of a step: what was not used of the surroundings is gone, and a doze that waited is entered (R160). -/
def endStep (s : State) : State := enterDoze { s with busLeft := none, arrivals := [], owed := [] }

end Sys2Proof.Machine
end

