-- ==== Sys2Proof/Machine/Evaluation.lean ====
section
/-! DEFINITION. The entitlement evaluator: stages 1 to 11 of an inspection (chapters 3 and 4), with the sightings of
stage 10 (5.4, 7.6). Stage 12 stands in Roster, Watches and Marks. -/

namespace Sys2Proof.Machine

/-! ### Stages 1 to 3 -/

/-- Stage 1: the CRC of bytes 0..43 equals the check (R35). -/
def checkGood (record : List Byte) : Bool := crc (record.take 44) == (Credential.ofRecord record).check

/-- Stage 2: the general range tests (R36). -/
def Credential.generalRanges (c : Credential) : Bool :=
  c.version == 1 && decide (1 ≤ c.media) && decide (c.media ≤ 4) && c.productCode != 0 && c.credentialId != 0
    && decide (c.activationMinute ≤ 1439) && (c.travelClass == 1 || c.travelClass == 2)
    && decide (1 ≤ c.passengers) && decide (c.passengers ≤ 9)

/-- A zone number lies in 1..63. -/
def zoneInRange (z : Nat) : Bool := decide (1 ≤ z) && decide (z ≤ 63)

/-- A network lies in 1..4. -/
def networkInRange (n : Nat) : Bool := decide (1 ≤ n) && decide (n ≤ 4)

/-- The kind tests at the close of stage 3 (R37). -/
def Credential.kindRanges (c : Credential) (p : Product) : Bool :=
  match p.kind with
  | .zoneRange =>
    networkInRange c.network && zoneInRange c.zoneLo && zoneInRange c.zoneHi && decide (c.zoneLo ≤ c.zoneHi)
  | .network => networkInRange c.network
  | .zoneCount => decide (1 ≤ c.zoneCount) && decide (c.zoneCount ≤ p.maxZones)

/-- What stages 1 to 3 give: the one reason that ends the evaluation, or the product found (R35 to R37, R42, R53). -/
inductive Reading where
  | unreadable (reason : Reason)
  | product (p : Product)
  deriving DecidableEq, Repr

/-- Stage 3: the product lookup, then the kind tests (R42, R37). -/
def readProduct (t : Tables) (c : Credential) : Reading :=
  match t.productWithCode c.productCode with
  | none => .unreadable .unknownProduct
  | some p => if c.kindRanges p then .product p else .unreadable .fieldRange

/-- Stages 1 to 3 in order (R53). -/
def readCredential (t : Tables) (record : List Byte) : Reading :=
  if checkGood record then
    if (Credential.ofRecord record).generalRanges then readProduct t (Credential.ofRecord record)
    else .unreadable .fieldRange
  else .unreadable .checkFailed

/-! ### Time -/

/-- The activation count A (R39). -/
def Credential.activationCount (c : Credential) : Nat := c.activationDay * 1440 + c.activationMinute

/-- The validity length V of a MINUTES product (R43). -/
def Product.validity (p : Product) (c : Credential) : Nat :=
  match p.kind with
  | .zoneCount => min (p.baseMinutes + p.perZoneMinutes * (c.zoneCount - 1)) p.maxMinutes
  | .zoneRange => min p.baseMinutes p.maxMinutes
  | .network => min p.baseMinutes p.maxMinutes

/-- The end count E: the first clock count at which the credential no longer runs (R43). -/
def Product.endCount (p : Product) (c : Credential) : Nat :=
  match p.period with
  | .minutes => c.activationCount + p.validity c
  | .days => (c.activationDay + p.days) * 1440

/-- The lapse count of the time watch, L_t = E + g (R44, R65). -/
def Product.lapseCount (p : Product) (c : Credential) : Nat := p.endCount c + p.grace

/-- The remaining minutes R = E − N (R65). -/
def remainingMinutes (p : Product) (c : Credential) (n : Nat) : Int := (p.endCount c : Int) - (n : Int)

/-- Stage 6 (R64, R65): an activation ahead of N by more than the skew tolerance, and the band of the remaining minutes. -/
def timeReasons (skew : Nat) (p : Product) (c : Credential) (n : Nat) : List Reason :=
  (if n + skew < c.activationCount then [.notYetValid] else [])
    ++ (if 1 ≤ remainingMinutes p c n then []
        else if -(p.grace : Int) + 1 ≤ remainingMinutes p c n then [.inGrace]
        else [.expired])

/-! ### Place -/

/-- The difference of two numbers without sign. -/
def absDiff (a b : Nat) : Nat := (a - b) + (b - a)

/-- The coverage record made at stage 7 (R48). An origin stop code that names no stop gives the empty interval 63..0. -/
def coverageOf (t : Tables) (p : Product) (c : Credential) : Coverage :=
  match p.kind with
  | .network => .network c.network
  | .zoneRange => .zoneRange c.network c.zoneLo c.zoneHi
  | .zoneCount =>
    match t.stopWithCode c.originStop with
    | none => .zoneCount 63 0
    | some o => .zoneCount (t.ordinal o - (c.zoneCount - 1)) (min 63 (t.ordinal o + (c.zoneCount - 1)))

/-- Whether a stop is inside a coverage (the table of R48). -/
def Coverage.covers (t : Tables) (cov : Coverage) (stop : Nat) : Bool :=
  match cov with
  | .network net => (t.stopAt stop).network == net
  | .zoneRange net lo hi =>
    (t.stopAt stop).network == net && decide (lo ≤ (t.stopAt stop).zone) && decide ((t.stopAt stop).zone ≤ hi)
  | .zoneCount lo hi => decide (lo ≤ t.ordinal stop) && decide (t.ordinal stop ≤ hi)

/-- The stops that lie ahead of a stop in a direction, nearest first, on a line of `n` stops (R15). -/
def stopsAhead (n : Nat) (d : Direction) (stop : Nat) : List Nat :=
  match d with
  | .up => (List.range n).drop (stop + 1)
  | .down => (List.range stop).reverse

/-- Whether stop `j` lies ahead of stop `i` (R15); "ahead" is strict. -/
def Direction.isAhead (d : Direction) (i j : Nat) : Bool :=
  match d with
  | .up => decide (i < j)
  | .down => decide (j < i)

/-- The terminus of a line of `n` stops in a direction (R15). -/
def Direction.terminus (d : Direction) (n : Nat) : Nat :=
  match d with
  | .up => n - 1
  | .down => 0

/-- The zones ahead of a stop by the walk of R69. -/
def zonesAhead (t : Tables) (d : Direction) (cov : Coverage) (stop : Nat) : Nat :=
  if cov.covers t stop then
    absDiff (t.ordinal (((stopsAhead t.stopCount d stop).takeWhile (cov.covers t)).getLastD stop)) (t.ordinal stop)
  else 0

/-- The place tests of stage 7 by product kind (R67, R68). -/
def placeReasons (t : Tables) (p : Product) (c : Credential) (stop : Nat) : List Reason :=
  match p.kind with
  | .zoneRange =>
    if (t.stopAt stop).network != c.network then [.wrongNetwork]
    else if decide (c.zoneLo ≤ (t.stopAt stop).zone) && decide ((t.stopAt stop).zone ≤ c.zoneHi) then []
    else [.outOfZone]
  | .network => if (t.stopAt stop).network != c.network then [.wrongNetwork] else []
  | .zoneCount =>
    match t.stopWithCode c.originStop with
    | none => [.outOfZone]
    | some o => if c.zoneCount < absDiff (t.ordinal stop) (t.ordinal o) + 1 then [.outOfZone] else []

/-- The stop an inspection is judged at: the evaluation stop, or the position stop when there is none (R66). -/
def Run.judgingStop (r : Run) : Nat := (r.evaluationStop.getD (r.position.getD 0))

/-- POSITION_ASSUMED when the run has no evaluation stop (R66). -/
def positionReasons (r : Run) : List Reason := if r.evaluationStop.isNone then [.positionAssumed] else []

/-! ### Deny, class, heads -/

/-- Stage 5 (R51, R62): the reasons and the deny reason code. A table that is not VALID is not searched. -/
def denyStage (t : Tables) (id : LongWord) (n : Nat) : List Reason × Half :=
  if t.readable .deny then
    match t.denyFor id (n / 1440) with
    | some d => ([.denied], d.reason)
    | none => ([], 0)
  else ([.denyNotChecked], 0)

/-- Stage 8 (R71): a product of class 2 in a coach of class 1. Coaches are numbered from 1. -/
def classReasons (r : Run) (coach : Nat) (p : Product) : List Reason :=
  if r.coachClasses.getD (coach - 1) 0 == 1 && p.accommodation == 2 then [.wrongClass] else []

/-- Stage 9 (R72): the heads present exceed the passengers. A heads present of 0 means that no count was made. -/
def headsReasons (heads : Nat) (c : Credential) : List Reason := if c.passengers < heads then [.headsExceed] else []

/-! ### History -/

/-- A sighting: a coach number and a clock count (5.4). -/
structure Sighting where
  coach : Nat
  count : Nat
  deriving DecidableEq, Repr

/-- The roster entry of a credential id; the id is the roster's key (R79). -/
def entryOf (roster : List Entry) (id : LongWord) : Option Entry := roster.find? fun e => e.credentialId == id

/-- The roster sighting: an entry's last coach and last inspection count (R85). -/
def rosterSighting (roster : List Entry) (id : LongWord) : Option Sighting :=
  (entryOf roster id).map fun e => { coach := e.lastCoach, count := e.lastCount }

/-- The card's last mark passes its own check and names this run (R126). -/
def markTrusted (r : Run) (mark : List Byte) : Bool :=
  crc (mark.take 14) == (Mark.ofBytes mark).check && (Mark.ofBytes mark).runId == r.runId

/-- The card sighting (R86, R126): a trusted last mark of another terminal, or of this one when the roster holds no entry
for the id. -/
def cardSighting (r : Run) (roster : List Entry) (c : Credential) : Option Sighting :=
  if c.lastMarkPresent && markTrusted r c.lastMark
      && ((Mark.ofBytes c.lastMark).terminal != r.terminal || (entryOf roster c.credentialId).isNone) then
    some
      { coach := (Mark.ofBytes c.lastMark).coach
        count := (Mark.ofBytes c.lastMark).serviceDay * 1440 + (Mark.ofBytes c.lastMark).serviceMinute }
  else none

/-- The last sighting: the one with the greater clock count, the roster's when they are equal (R87). -/
def lastSighting (roster card : Option Sighting) : Option Sighting :=
  match roster, card with
  | none, card => card
  | some r, none => some r
  | some r, some c => if r.count < c.count then some c else some r

/-- Stage 10 (R85 to R88): REPEAT when there is a sighting, SEEN_ELSEWHERE for a single passenger seen in another coach
within the shared window. A negative difference counts as 0. -/
def historyReasons (r : Run) (roster : List Entry) (c : Credential) (coach n : Nat) : List Reason :=
  match lastSighting (rosterSighting roster c.credentialId) (cardSighting r roster c) with
  | none => []
  | some seen =>
    [.repeated]
      ++ (if c.passengers == 1 && seen.coach != coach && decide (n - seen.count < r.sharedWindow) then [.seenElsewhere]
          else [])

/-! ### Stages 5 to 11 -/

/-- What stages 5 to 11 find (R53). -/
structure Judgement where
  clockCount : Nat
  reasons : Half
  verdict : Verdict
  remaining : Int
  zonesAhead : Nat
  stop : Nat
  coverage : Coverage
  denyCode : Half
  lapseCount : Nat
  deriving DecidableEq, Repr

/-- The reasons of stages 5 to 10 at clock count `n`, each stage in full whatever the stages before it found (R53). -/
def judgeReasons (n : Nat) (c : InspectCopy) (s : State) : Half :=
  reasonSet
    ((denyStage s.tables (Credential.ofRecord c.record).credentialId n).1
      ++ timeReasons s.run.skewTolerance c.product (Credential.ofRecord c.record) n
      ++ positionReasons s.run
      ++ placeReasons s.tables c.product (Credential.ofRecord c.record) s.run.judgingStop
      ++ classReasons s.run c.coach c.product
      ++ headsReasons c.heads (Credential.ofRecord c.record)
      ++ historyReasons s.run s.roster (Credential.ofRecord c.record) c.coach n)

/-- Stages 5 to 11 at clock count `n`, the clock count of the evaluation, on the state of the moment (R59, R61). -/
def judgeAt (n : Nat) (c : InspectCopy) (s : State) : Judgement where
  clockCount := n
  reasons := judgeReasons n c s
  verdict := foldVerdict (judgeReasons n c s)
  remaining := remainingMinutes c.product (Credential.ofRecord c.record) n
  zonesAhead :=
    zonesAhead s.tables s.run.direction (coverageOf s.tables c.product (Credential.ofRecord c.record)) s.run.judgingStop
  stop := s.run.judgingStop
  coverage := coverageOf s.tables c.product (Credential.ofRecord c.record)
  denyCode := (denyStage s.tables (Credential.ofRecord c.record).credentialId n).2
  lapseCount := c.product.lapseCount (Credential.ofRecord c.record)

/-- Stages 5 to 11 at the clock count in force, which is read once (R61). -/
def judge (c : InspectCopy) (s : State) : Judgement := judgeAt s.clockCount c s

end Sys2Proof.Machine
end

