-- ==== Sys2Proof/Machine/Watches.lean ====
section
/-! DEFINITION. The watch monitor: arming, the time advance and the zone advance (chapter 6). -/

namespace Sys2Proof.Machine

/-- The roster with one entry changed. -/
def setEntry (i : Nat) (f : Entry → Entry) (s : State) : State := { s with roster := s.roster.modify i f }

/-- A watch of kind NONE: stage CLEARED and no time lapse count (R98). -/
def Watch.off : Watch where
  kind := .none
  lapse := none
  stage := .cleared

/-- Whether a watch carries a time part (R98). -/
def WatchKind.hasTime : WatchKind → Bool
  | .none => false
  | .time => true
  | .zone => false
  | .both => true

/-- Whether a watch carries a zone part (R98). -/
def WatchKind.hasZone : WatchKind → Bool
  | .none => false
  | .time => false
  | .zone => true
  | .both => true

/-- The kind with the given parts (the table of R99). -/
def WatchKind.ofParts (time zone : Bool) : WatchKind :=
  match time, zone with
  | true, true => .both
  | true, false => .time
  | false, true => .zone
  | false, false => .none

/-- Whether every stop from the position stop to the terminus, both included, is inside the coverage (R99). -/
def coversToTerminus (t : Tables) (r : Run) (cov : Coverage) : Bool :=
  (r.position.getD 0 :: stopsAhead t.stopCount r.direction (r.position.getD 0)).all (cov.covers t)

/-- The kind of a newly armed watch (R99). -/
def armKind (s : State) (j : Judgement) (p : Product) : WatchKind :=
  if (j.verdict == .valid || j.verdict == .noted) && p.watchClass != .none then
    WatchKind.ofParts (decide (j.lapseCount ≤ s.clock.topCount)) (!coversToTerminus s.tables s.run j.coverage)
  else .none

/-- Whether a newly armed watch of a kind starts in NEAR (R100). -/
def armNear (s : State) (j : Judgement) (k : WatchKind) : Bool :=
  (k.hasTime && decide (j.lapseCount ≤ j.clockCount + s.run.watchLead)) || (k.hasZone && j.zonesAhead == 0)

/-- The watch armed for an inspection (R99, R100). -/
def armWatch (s : State) (j : Judgement) (p : Product) : Watch :=
  if armKind s j p = .none then Watch.off
  else
    { kind := armKind s j p
      lapse := if (armKind s j p).hasTime then some j.lapseCount else none
      stage := if armNear s j (armKind s j p) then .near else .armed }

/-- The watch class found in the tariff under an entry's product code (R98). -/
def watchClassOf (t : Tables) (code : Half) : WatchClass :=
  match t.productWithCode code with
  | some p => p.watchClass
  | none => .none

/-- Whether reaching a stage under a watch class writes a WATCH notice (R103). -/
def watchNotifies (c : WatchClass) (stage : WatchStage) : Bool :=
  match c, stage with
  | .lapse, .lapsed => true
  | .lead, .lapsed => true
  | .lead, .near => true
  | _, _ => false

/-- The monitor moves a watch to a stage: first the entry, then the notice (R103). -/
def moveWatch (i : Nat) (stage : WatchStage) (s : State) : State :=
  match s.roster[i]? with
  | none => s
  | some e =>
    if watchNotifies (watchClassOf s.tables e.productCode) stage then
      noticeWatch i stage e.credentialId (setEntry i (fun e => { e with watch := { e.watch with stage := stage } }) s)
    else setEntry i (fun e => { e with watch := { e.watch with stage := stage } }) s

/-- The stage the time advance gives a watch at clock count `n` with watch lead `lead`, if it moves it (R104). -/
def Watch.timeMove (w : Watch) (lead n : Nat) : Option WatchStage :=
  match w.kind.hasTime, w.lapse with
  | true, some l =>
    match w.stage with
    | .armed => if l ≤ n then some .lapsed else if l ≤ n + lead then some .near else none
    | .near => if l ≤ n then some .lapsed else none
    | .lapsed => none
    | .cleared => none
  | _, _ => none

/-- The move the time advance makes for one entry at clock count `n`, while a run is open (R104, R111). -/
def timeMoveAt (s : State) (i n : Nat) : Option WatchStage :=
  if s.runOpen then (s.roster[i]?).bind fun e => e.watch.timeMove s.run.watchLead n else none

/-- The time advance on one entry (R104). -/
def timeAdvance (n i : Nat) (s : State) : State :=
  match timeMoveAt s i n with
  | some stage => moveWatch i stage s
  | none => s

/-- The stage the zone advance gives a watch at a new evaluation stop, if it moves it (R106). -/
def zoneMove (t : Tables) (d : Direction) (stop : Nat) (e : Entry) : Option WatchStage :=
  if e.watch.kind.hasZone then
    match e.watch.stage with
    | .armed =>
      if e.coverage.covers t stop then if zonesAhead t d e.coverage stop = 0 then some .near else none
      else some .lapsed
    | .near => if e.coverage.covers t stop then none else some .lapsed
    | .lapsed => none
    | .cleared => none
  else none

/-- The zone advance on one entry (R106). -/
def zoneAdvanceAt (stop i : Nat) (s : State) : State :=
  match (s.roster[i]?).bind (zoneMove s.tables s.run.direction stop) with
  | some stage => moveWatch i stage s
  | none => s

/-- Step 2 of R75: the watch of an entry is replaced by one newly armed, and examined once more when the clock count in
force has passed the clock count of the evaluation (R99 to R101, R108). -/
def armEntry (i : Nat) (j : Judgement) (p : Product) (s : State) : State :=
  let s1 := setEntry i (fun e => { e with watch := armWatch s j p }) s
  if j.clockCount < s1.clockCount then timeAdvance s1.clockCount i s1 else s1

end Sys2Proof.Machine
end

