-- ==== Sys2Proof/Machine/Marks.lean ====
section
/-! DEFINITION. The mark unit: proposals, their lapse and their confirmation (chapter 7). -/

namespace Sys2Proof.Machine

/-- The mark record of a new entry (R113). -/
def MarkRecord.fresh : MarkRecord where
  proposal := none
  commitCount := 0
  torn := false

/-- An entry without a proposal (R114, R117, R125). -/
def Entry.discardProposal (e : Entry) : Entry := { e with mark := { e.mark with proposal := none } }

/-- The conditions for a proposal, the roster entry apart (R114). -/
def mayPropose (j : Judgement) (c : InspectCopy) : Bool :=
  (j.verdict == .valid || j.verdict == .noted) && c.product.markable
    && (Credential.ofRecord c.record).media == mediaMarkable

/-- The proposal composed from an inspection and the run record (R115), with its expiry count (R116). -/
def composeProposal (r : Run) (j : Judgement) (c : InspectCopy) : Proposal where
  bytes :=
    withCheck
      (markBody r.runId r.terminal c.coach j.clockCount j.stop j.verdict
        (((Credential.ofRecord c.record).markCounter + 1) % 65536))
  expiry := j.clockCount + 2

/-- Whether the proposal of an entry has reached its expiry at clock count `n` (R117). -/
def proposalDue (s : State) (i n : Nat) : Bool :=
  match (s.roster[i]?).bind fun e => e.mark.proposal with
  | some p => decide (p.expiry ≤ n)
  | none => false

/-- The lapse examination of one entry: a proposal whose expiry count is reached is removed, then the PROPOSAL_LAPSED
notice is offered (R117). -/
def lapseProposal (n i : Nat) (s : State) : State :=
  if proposalDue s i n then noticeProposalLapsed i (setEntry i Entry.discardProposal s) else s

/-- Step 3 of R75: a proposal is made or the entry's pending one is discarded, and a proposal whose expiry the clock count
in force has already reached lapses at once (R114 to R116). -/
def proposeEntry (i : Nat) (j : Judgement) (c : InspectCopy) (s : State) : State :=
  if mayPropose j c then
    lapseProposal s.clockCount i
      (setEntry i (fun e => { e with mark := { e.mark with proposal := some (composeProposal s.run j c) } }) s)
  else setEntry i Entry.discardProposal s

/-- The counter the card carried before the write: the proposal's counter minus one, wrapping from 0 to 65,535 (R120). -/
def originalCounter (proposal : List Byte) : Nat := (markCounterOf proposal + 65535) % 65536

/-- The judgment of a read-back against the proposal (R120). -/
def judgeReadBack (proposal readBack : List Byte) : MarkResult :=
  if readBack = proposal then .committed
  else if markCounterOf readBack = originalCounter proposal then .notWritten
  else .torn

/-- The mark record after a judgment (R120, R121). -/
def MarkRecord.afterResult (m : MarkRecord) : MarkResult → MarkRecord
  | .committed => { proposal := none, commitCount := min 255 (m.commitCount + 1), torn := false }
  | .notWritten => m
  | .torn => { m with proposal := none, torn := true }
  | .noResult => m

/-- Every pending proposal in the roster is discarded, without a notice (R29, R125). -/
def discardProposals (s : State) : State := { s with roster := s.roster.map Entry.discardProposal }

end Sys2Proof.Machine
end

