-- ==== Sys2Proof/Machine/Roster.lean ====
section
/-! DEFINITION. The trip roster's part of stage 12 (5.3), the recording of an inspection (R75) and its answer (R76, R77),
and the close summary (R93). -/

namespace Sys2Proof.Machine

/-- The capacity of the roster (R79). -/
def rosterCapacity : Nat := 512

/-- The position of the entry of a credential id. -/
def indexOf (roster : List Entry) (id : LongWord) : Option Nat := roster.findIdx? fun e => e.credentialId == id

/-- The deny reason of an entry: present when DENIED is in the set (R80). -/
def denyReasonOf (j : Judgement) : Option Half := if hasReason j.reasons .denied then some j.denyCode else none

/-- A new entry: the column "At creation" of R80. -/
def newEntry (index : Nat) (j : Judgement) (c : InspectCopy) : Entry where
  index := index
  credentialId := (Credential.ofRecord c.record).credentialId
  productCode := (Credential.ofRecord c.record).productCode
  passengers := (Credential.ofRecord c.record).passengers
  headsMax := c.heads
  lastCoach := c.coach
  lastStop := j.stop
  inspections := 1
  firstCount := j.clockCount
  lastCount := j.clockCount
  lastVerdict := j.verdict
  lastReasons := j.reasons
  denyReason := denyReasonOf j
  coverage := j.coverage
  watch := Watch.off
  mark := MarkRecord.fresh

/-- An entry updated by a re-inspection: the column "At re-inspection" of R80 (R82). -/
def Entry.reinspected (e : Entry) (j : Judgement) (c : InspectCopy) : Entry :=
  { e with
    productCode := (Credential.ofRecord c.record).productCode
    passengers := (Credential.ofRecord c.record).passengers
    headsMax := max e.headsMax c.heads
    lastCoach := c.coach
    lastStop := j.stop
    inspections := min 255 (e.inspections + 1)
    lastCount := j.clockCount
    lastVerdict := j.verdict
    lastReasons := j.reasons
    denyReason := denyReasonOf j
    coverage := j.coverage }

/-- The fields of an INSPECT answer (R76, 11.7). -/
structure InspectAnswer where
  verdict : Verdict
  watch : Watch
  reasons : Half
  remaining : Int
  zonesAhead : Nat
  rosterIndex : Option Nat
  inspections : Nat
  proposal : Option (List Byte)
  denyCode : Half
  stop : Option Nat
  clockCount : Nat
  deriving DecidableEq, Repr

/-- The answer bytes of an INSPECT (11.7). -/
def InspectAnswer.bytes (a : InspectAnswer) : List Byte :=
  le 1 a.verdict.rank ++ le 1 a.watch.kind.code ++ le 2 a.reasons.toNat ++ signed4 a.remaining ++ le 1 a.zonesAhead
    ++ le 1 a.watch.stage.code ++ le 2 (a.rosterIndex.getD 0xFFFF) ++ le 1 a.inspections
    ++ [flagByte a.proposal.isSome] ++ padTo 16 (a.proposal.getD []) ++ le 2 a.denyCode.toNat ++ [stopByte a.stop]
    ++ zeros 3 ++ le 4 a.clockCount

/-- The answer of an INSPECT that was not evaluated through stage 12 (R77). -/
def notEvaluated (verdict : Verdict) (reasons : Half) (clockCount : Nat) : InspectAnswer where
  verdict := verdict
  watch := Watch.off
  reasons := reasons
  remaining := 0
  zonesAhead := 0
  rosterIndex := none
  inspections := 0
  proposal := none
  denyCode := 0
  stop := none
  clockCount := clockCount

/-- The answer of an evaluated INSPECT without a roster entry: ROSTER_FULL is added and the set folded again (R76, R83). -/
def fullAnswer (j : Judgement) : InspectAnswer where
  verdict := foldVerdict (addReason j.reasons .rosterFull)
  watch := Watch.off
  reasons := addReason j.reasons .rosterFull
  remaining := j.remaining
  zonesAhead := j.zonesAhead
  rosterIndex := none
  inspections := 0
  proposal := none
  denyCode := j.denyCode
  stop := some j.stop
  clockCount := j.clockCount

/-- The answer of an evaluated INSPECT from its roster entry as it stands after stage 12; the proposal is the one step 3
made (R76, R116). -/
def recordedAnswer (j : Judgement) (i : Nat) (e : Entry) (proposal : Option (List Byte)) : InspectAnswer where
  verdict := j.verdict
  watch := e.watch
  reasons := j.reasons
  remaining := j.remaining
  zonesAhead := j.zonesAhead
  rosterIndex := some i
  inspections := e.inspections
  proposal := proposal
  denyCode := j.denyCode
  stop := some j.stop
  clockCount := j.clockCount

/-- What step 1 of stage 12 does with the roster (R81 to R83). -/
inductive Admission where
  | created (index : Nat)
  | updated (index : Nat)
  | full
  deriving DecidableEq, Repr

/-- Which of the three step 1 does for a credential id. -/
def admission (roster : List Entry) (id : LongWord) : Admission :=
  match indexOf roster id with
  | some i => .updated i
  | none => if roster.length < rosterCapacity then .created roster.length else .full

/-- Steps 2 and 3 of R75 on an entry (R75). -/
def watchAndMark (i : Nat) (j : Judgement) (c : InspectCopy) (s : State) : State :=
  proposeEntry i j c (armEntry i j c.product s)

/-- The answer for the entry at an index after stage 12. -/
def answerFor (j : Judgement) (c : InspectCopy) (i : Nat) (s : State) : InspectAnswer :=
  match s.roster[i]? with
  | some e => recordedAnswer j i e (if mayPropose j c then some (composeProposal s.run j c).bytes else none)
  | none => fullAnswer j

/-- Steps 1 to 4 of stage 12 (R75). -/
def recordInspection (j : Judgement) (c : InspectCopy) (s : State) : State :=
  match admission s.roster (Credential.ofRecord c.record).credentialId with
  | .full => s
  | .updated i => watchAndMark i j c (setEntry i (fun e => e.reinspected j c) s)
  | .created i => mirrorRun (watchAndMark i j c { s with roster := s.roster ++ [newEntry i j c] })

/-- The answer of an inspection recorded by stage 12: `before` is the state stage 12 began in, `after` the one it left (R76). -/
def inspectionAnswer (j : Judgement) (c : InspectCopy) (before after : State) : InspectAnswer :=
  match admission before.roster (Credential.ofRecord c.record).credentialId with
  | .full => fullAnswer j
  | .updated i => answerFor j c i after
  | .created i => answerFor j c i after

/-- The number of entries whose last verdict class is `v` (R93). -/
def verdictCount (roster : List Entry) (v : Verdict) : Nat := roster.countP fun e => e.lastVerdict == v

/-- The number of entries whose watch stands at LAPSED (R93). -/
def lapsedCount (roster : List Entry) : Nat := roster.countP fun e => e.watch.stage == .lapsed

/-- The marks committed: the sum of the commit counts, held at 65,535 (R93). -/
def committedSum (roster : List Entry) : Nat := min 65535 ((roster.map fun e => e.mark.commitCount).sum)

/-- The verdict classes in the order of the summary (R93, 11.7). -/
def Verdict.all : List Verdict := [.valid, .noted, .upgrade, .suspect, .invalid, .revoked, .unreadable]

/-- The answer of an accepted CLOSE_RUN (R29, R93, 11.7). -/
def closeAnswer (roster : List Entry) : List Byte :=
  le 1 RunState.closed.code ++ zeros 1 ++ le 2 roster.length ++ (Verdict.all.map fun v => le 2 (verdictCount roster v)).flatten
    ++ le 2 (lapsedCount roster) ++ le 2 (committedSum roster)

end Sys2Proof.Machine
end

