-- ==== Sys2Proof/Machine/Holds.lean ====
section
/-! DEFINITION. The ends of held inspections: release by an event, at the hold limit, at the close (R26 to R28, R57 to R59,
R151). -/

namespace Sys2Proof.Machine

/-- Whether the evaluation of a hold has been abandoned: the port is FAULT, or a reset has dropped the hold (R60). -/
def State.lostHold (s : State) (slot : Slot) : Bool := s.port.state == .fault || !s.isHeld slot

/-- The answer of a released inspection, after what `mid` lets arrive once stage 12 is done: a reset or a fault there leaves
the entry made and the answer unwritten (R60). -/
def answerHold (mid : State → State) (h : Hold) (bytes : List Byte) (s : State) : State :=
  if (mid s).lostHold h.slot then mid s else endHold h .done bytes (mid s)

/-- The evaluation that ends a hold (R57): stages 5 to 11 at clock count `n` on the state of the moment, stage 12, the
answer, and the entry leaves the list. `mid` is what arrives between stage 5 and stage 12, and again between stage 12 and the
answer; if it drops the hold or puts the port in FAULT before stage 12, the evaluation is abandoned (R60). -/
def releaseHold (mid : State → State) (n : Nat) (h : Hold) (c : InspectCopy) (s : State) : State :=
  if (mid s).lostHold h.slot then mid s
  else
    answerHold mid h
      (inspectionAnswer (judgeAt n c s) c (mid s) (recordInspection (judgeAt n c s) c (mid s))).bytes
      (recordInspection (judgeAt n c s) c (mid s))

/-- Release the inspection that a slot holds, judged at clock count `n`, if the slot stands on the list as an INSPECT and the
port is not FAULT. -/
def releaseSlot (mid : State → State) (n : Nat) (slot : Slot) (s : State) : State :=
  if s.port.state = .fault then s
  else
    match s.holdOf slot with
    | none => s
    | some h =>
      match h.work with
      | .inspect _ copy => releaseHold mid n h copy s
      | .loadTable => s
      | .wipe => s

/-- Whether a hold is an INSPECT whose hold limit count is at or below `n` (R151). -/
def Hold.limitReached (h : Hold) (n : Nat) : Bool :=
  match h.work with
  | .inspect limit _ => decide (limit ≤ n)
  | .loadTable => false
  | .wipe => false

/-- Whether a hold is an INSPECT. -/
def Hold.isInspect (h : Hold) : Bool :=
  match h.work with
  | .inspect _ _ => true
  | .loadTable => false
  | .wipe => false

/-- The slots on the hold list whose holds have a property, in hold-list order. -/
def State.heldSlots (s : State) (p : Hold → Bool) : List Slot := (s.port.holds.filter p).map Hold.slot

/-- The examination of one hold at a tick or step delivered with clock count `n`: an INSPECT whose limit is reached ends in
degraded form, judged with that clock count, whatever the clock count now in force; the list is frozen in FAULT (R59, R151). -/
def limitHold (mid : State → State) (n : Nat) (slot : Slot) (s : State) : State :=
  if (s.holdOf slot).any (fun h => h.limitReached n) then releaseSlot mid n slot s else s

/-- The slots whose hold limit is reached at clock count `n`, none in FAULT (R150, R151). -/
def State.dueHolds (s : State) (n : Nat) : List Slot :=
  if s.port.state = .fault then [] else s.heldSlots fun h => h.limitReached n

/-- The examination of the hold list at a tick or step delivered with clock count `n`, in hold-list order (R151). -/
def examineHolds (mid : State → State) (n : Nat) (s : State) : State :=
  (s.dueHolds n).foldl (fun s' slot => limitHold mid n slot s') s

/-- A tick or step delivered with clock count `n` while an inspection is in hand: its examination of the hold list waits for
the evaluator (R146; log entry 14). -/
def oweExamination (n : Nat) (s : State) : State := { s with owed := s.owed ++ [n] }

/-- The examinations of the hold list that waited, one for each tick and step, in the order of their delivery and each with
the clock count delivered (R151). `fuel` bounds their number: one that ends a hold may meet further ticks and steps. -/
def examineOwed (mid : State → State) : Nat → State → State
  | 0, s => s
  | fuel + 1, s =>
    match s.owed with
    | [] => s
    | n :: rest => examineOwed mid fuel (examineHolds mid n { s with owed := rest })

/-- The same after an event's own evaluations: neither evaluation enters the other's stages (R146; log entry 14). -/
def afterEvaluations (mid : State → State) (s : State) : State := examineOwed mid (s.owed.length + s.arrivals.length) s

/-- A placement hold at an accepted ARRIVE: carried over while the deny table is LOADING, released otherwise (R26, R27). -/
def releasePlacement (mid : State → State) (slot : Slot) (s : State) : State :=
  if (s.holdOf slot).any (fun h => h.awaits == .placement) && s.port.state != .fault then
    if s.tables.deny.state = .loading then carryHold slot .denyLoad s else releaseSlot mid s.clockCount slot s
  else s

/-- The release of the holds awaiting PLACEMENT, in hold-list order (R27). -/
def releasePlacements (mid : State → State) (s : State) : State :=
  (s.heldSlots fun h => h.awaits == .placement).foldl (fun s slot => releasePlacement mid slot s) s

/-- A deny hold at the completion of the deny load: carried over while the run is RUNNING_UNPLACED, released otherwise
(R26, R58). -/
def releaseDeny (mid : State → State) (slot : Slot) (s : State) : State :=
  if (s.holdOf slot).any (fun h => h.awaits == .denyLoad) && s.port.state != .fault then
    if s.run.state = .runningUnplaced then carryHold slot .placement s else releaseSlot mid s.clockCount slot s
  else s

/-- The release of the holds awaiting DENY_LOAD, in hold-list order (R58). -/
def releaseDenies (mid : State → State) (s : State) : State :=
  (s.heldSlots fun h => h.awaits == .denyLoad).foldl (fun s slot => releaseDeny mid slot s) s

/-- Every held INSPECT is answered at the close, at the clock count of the moment, in hold-list order (R28). -/
def releaseAll (mid : State → State) (s : State) : State :=
  (s.heldSlots Hold.isInspect).foldl (fun s slot => releaseSlot mid s.clockCount slot s) s

end Sys2Proof.Machine
end

