-- ==== Sys2Proof/Machine/Ticks.lean ====
section
/-! DEFINITION. The second, the minute tick, the clock step, and their delivery to the watch monitor, the hold list and the
mark unit (R1, R3 to R5, R9, R10); what may arrive inside an inspection (R60, R101, R116). -/

namespace Sys2Proof.Machine

/-- The clock stands at its top minute (R5). -/
def Clock.isTop (c : Clock) : Bool := c.day == 65535 && c.minute == 1439

/-- The clock one minute tick later, its second wrapped to 0 (R1). -/
def Clock.advance (c : Clock) : Clock :=
  if c.minute = 1439 then { c with day := c.day + 1, minute := 0, second := 0 }
  else { c with minute := c.minute + 1, second := 0 }

/-- One piece of work of a tick: the DAY_CHANGED notice, the examination of one watch, of one hold or of one proposal; or the
zone advance of one entry at a stop, where the tick comes in the middle of a zone advance (R107). -/
inductive TickTask where
  | dayChanged
  | watch (index : Nat)
  | hold (slot : Slot)
  | proposal (index : Nat)
  | zone (stop index : Nat)
  deriving DecidableEq, Repr

/-- An interleaving of lists that keeps each list's own order. While more than one list has work left, `Config.turn` of the
next open choice says whose turn it is (R3; log entry 9). The second component is the number of choices made so far. -/
def interleave {α : Type} : Nat → Nat → List (List α) → List α × Nat
  | 0, k, _ => ([], k)
  | fuel + 1, k, lists =>
    match lists.filter fun l => !l.isEmpty with
    | [] => ([], k)
    | [l] => (l, k)
    | l :: l' :: rest =>
      match (l :: l' :: rest)[Config.turn k % (rest.length + 2)]? with
      | some (x :: xs) =>
        (x :: (interleave fuel (k + 1) ((l :: l' :: rest).set (Config.turn k % (rest.length + 2)) xs)).1,
         (interleave fuel (k + 1) ((l :: l' :: rest).set (Config.turn k % (rest.length + 2)) xs)).2)
      | _ => ([], k)

/-- The watches that the time advance moves at clock count `n`, in index order (R104). -/
def watchTasks (s : State) (n : Nat) : List TickTask :=
  ((List.range s.roster.length).filter fun i => (timeMoveAt s i n).isSome).map .watch

/-- The holds whose limit is reached at clock count `n`, in hold-list order (R151). -/
def holdTasks (s : State) (n : Nat) : List TickTask := (s.dueHolds n).map .hold

/-- The proposals whose expiry is reached at clock count `n`, in index order (R117). -/
def proposalTasks (s : State) (n : Nat) : List TickTask :=
  ((List.range s.roster.length).filter fun i => proposalDue s i n).map .proposal

/-- One piece of work of a tick delivered with clock count `n`; `mid` is what arrives inside an evaluation that ends a
hold. -/
def runTask (mid : State → State) (n : Nat) (s : State) : TickTask → State
  | .dayChanged => noticeDayChanged s
  | .watch i => timeAdvance n i s
  | .hold slot => limitHold mid n slot s
  | .proposal i => lapseProposal n i s
  | .zone stop i => zoneAdvanceAt stop i s

/-- The work of a tick or step that does not wait for the evaluator: it is done before the clock changes again, so that the
notice of the tick and its watches and proposals see the clock count it delivers (R3, R4, R10, R104, R117). -/
def TickTask.isPrompt : TickTask → Bool
  | .dayChanged => true
  | .watch _ => true
  | .hold _ => false
  | .proposal _ => true
  | .zone _ _ => false

/-- What is left of the prompt work of a tick or step with clock count `n`, done when the next tick or step comes inside one
of its evaluations. `waiting` is the number of examinations that waited when it was delivered: a greater one means that a
tick or step has already come since, and that the work is done. -/
def finishPrompt (waiting n : Nat) (rest : List TickTask) (s : State) : State :=
  if s.owed.length = waiting then (rest.filter TickTask.isPrompt).foldl (runTask id n) s else s

/-- The work of a tick or step with clock count `n` in the order chosen. `mid` is what arrives inside an evaluation, given the
prompt work that a tick or step there does first; that work is then not done again. -/
def runTasks (mid : (State → State) → State → State) (waiting n : Nat) : List TickTask → State → State
  | [], s => s
  | k :: rest, s =>
    runTasks mid waiting n rest
      (if k.isPrompt && s.owed.length != waiting then s else runTask (mid (finishPrompt waiting n rest)) n s k)

/-- The order the work of a tick is taken in. -/
def taskOrder (turns : Nat) (lists : List (List TickTask)) : List TickTask × Nat :=
  interleave (lists.flatten.length + 1) turns lists

/-- Who takes the inspections that a tick or step ends: a free evaluator, with what arrives inside each evaluation; or nobody
while an inspection is being evaluated, and the examination of the hold list waits (R146; log entry 14). `finish` is then what
an earlier tick or step, whose hold is being evaluated, has still to do before the clock changes. -/
inductive Evaluator where
  | free (mid : (State → State) → State → State)
  | busy (finish : State → State)

/-- Whether the evaluator can take the inspections that a tick or step ends. -/
def Evaluator.isFree : Evaluator → Bool
  | .free _ => true
  | .busy _ => false

/-- What comes before the clock changes. -/
def Evaluator.finish : Evaluator → State → State
  | .free _ => id
  | .busy finish => finish

/-- The work of the three consumers at a tick or step with clock count `n` (R3), the hold list's only where the evaluator is
free. -/
def consumerTasks (ev : Evaluator) (s : State) (n : Nat) : List (List TickTask) :=
  [watchTasks s n, if ev.isFree then holdTasks s n else [], proposalTasks s n]

/-- The delivery of a tick or step with clock count `n`: the work of the given lists, each list in its own order (R3, R10).
After it a free evaluator makes the examinations of the hold list that came inside its evaluations; where an inspection is
being evaluated, the delivery's own examination waits (log entry 14). -/
def deliver (ev : Evaluator) (n : Nat) (lists : List (List TickTask)) (s : State) : State :=
  let s1 := { s with turns := (taskOrder s.turns lists).2 }
  match ev with
  | .free mid => afterEvaluations (mid id) (runTasks mid s.owed.length n (taskOrder s.turns lists).1 s1)
  | .busy _ => oweExamination n ((taskOrder s.turns lists).1.foldl (runTask id n) s1)

/-- The clock with a new reading, its mirror rewritten (R12). -/
def setClockTo (c : Clock) (s : State) : State := mirrorClock { s with clock := c }

/-- The DAY_CHANGED work of a tick: present when the service day changes and the clock is set (R4). -/
def dayTasks (before after : Clock) : List TickTask :=
  if after.isSet && after.serviceDay != before.serviceDay then [.dayChanged] else []

/-- The minute tick below the top reading (R1, R3, R4). `zones` is what is left of a zone advance that the tick comes in the
middle of; its notices interleave with the tick's (R107). -/
def tickWith (ev : Evaluator) (zones : List TickTask) (s : State) : State :=
  let s1 := setClockTo s.clock.advance (ev.finish s)
  deliver ev s1.clockCount (zones :: dayTasks s.clock s.clock.advance :: consumerTasks ev s1 s1.clockCount) s1

/-- The second set to a value. -/
def setSecond (second : Nat) (s : State) : State := { s with clock := { s.clock with second := second } }

/-- What is left of a zone advance, where the event in the middle of it gives the consumers nothing to do. -/
def runZones (zones : List TickTask) (s : State) : State := zones.foldl (runTask id s.clockCount) s

/-- The wrap of the second: the minute tick, or saturation with the second at 59 at the top reading (R5). -/
def wrapSecond (ev : Evaluator) (zones : List TickTask) (s : State) : State :=
  if s.clock.isTop then runZones zones (setSecond 59 s) else tickWith ev zones s

/-! ### The clock step -/

/-- The delta limited to fifteen minutes (R9). -/
def limitDelta (d : Int) : Int := max (-15) (min 15 d)

/-- The applied delta: limited further so that the resulting clock count stays in the clock's range (R9). -/
def appliedDelta (c : Clock) (d : Int) : Int :=
  max (1440 - (c.dayChange : Int)) (min (c.topCount : Int) ((c.count : Int) + limitDelta d)) - c.count

/-- The clock at a clock count with the day-change minute in force: the inverse derivation (R2, R9). -/
def Clock.atCount (c : Clock) (n second : Nat) : Clock :=
  if n % 1440 + c.dayChange < 1440 then
    { c with day := n / 1440, minute := n % 1440 + c.dayChange, second := second }
  else { c with day := n / 1440 + 1, minute := n % 1440 + c.dayChange - 1440, second := second }

/-- A clock step delivered to the three consumers (R10): CLOCK_STEPPED and DAY_CHANGED stand before all of their notices.
Where a write of the mirror or of a notice fails, the rest of the step goes on in FAULT all the same, which is the model's
choice (log entry 22). -/
def stepTo (ev : Evaluator) (zones : List TickTask) (c : Clock) (delta : Int) (s : State) : State :=
  let s1 := noticeClockStepped delta (setClockTo c (ev.finish s))
  let s2 := if c.serviceDay != s.clock.serviceDay then noticeDayChanged s1 else s1
  deliver ev s2.clockCount (zones :: consumerTasks ev s2 s2.clockCount) s2

/-- The clock changed by a requested difference during a run (R9, R10): a step when the applied delta is not zero, otherwise
the second alone is written. -/
def stepBy (ev : Evaluator) (zones : List TickTask) (requested : Int) (second : Nat) (s : State) : State :=
  if appliedDelta s.clock requested = 0 then runZones zones (setSecond second s)
  else
    stepTo ev zones (s.clock.atCount ((s.clock.count : Int) + appliedDelta s.clock requested).toNat second)
      (appliedDelta s.clock requested) s

/-- Whether the port takes requests: it is SWEEPING, and the part is not in DOZE (R146, R161). -/
def State.takesRequests (s : State) : Bool := s.port.state == .sweeping && s.power != .doze

/-- A clock step that arrives inside another command's step. It stands for a SET_CLOCK, so that there is none where the port
takes no request, in DOZE above all, and none with no run open (R8, R9, R161; log entry 6). -/
def arriveStep (ev : Evaluator) (zones : List TickTask) (requested : Int) (second : Nat) (s : State) : State :=
  if s.takesRequests && s.runOpen then stepBy ev zones requested second s else runZones zones s

/-! ### Arrivals at a point -/

/-- The next arrival is used up. -/
def dropArrival (s : State) : State := { s with arrivals := s.arrivals.tail }

/-- The events that arrive at a point, one after another, as long as the point takes them; `fuel` bounds their number. -/
def takeArrivals (takes : Arrival → Bool) (receive : Arrival → State → State) : Nat → State → State
  | 0, s => s
  | fuel + 1, s =>
    match s.arrivals with
    | [] => s
    | a :: _ => if takes a then takeArrivals takes receive fuel (receive a (dropArrival s)) else s

/-- The end of a point: its closing mark is used up. -/
def closePoint (s : State) : State := if s.arrivals.head? = some .nothing then dropArrival s else s

/-- A point inside a step: the events it takes, up to one that it does not take or to its closing mark (log entry 6). -/
def pollPoint (takes : Arrival → Bool) (receive : Arrival → State → State) (s : State) : State :=
  closePoint (takeArrivals takes receive s.arrivals.length s)

/-- What may arrive inside an inspection: a tick, a step, a reset, a failing access (R60, R101, R116). Completions wait for a
later point: the evaluator takes each inspection whole (R146). -/
def insideInspection : Arrival → Bool
  | .nothing => false
  | .minuteTick => true
  | .clockStep _ _ => true
  | .portReset => true
  | .powerOnReset => true
  | .loadCompletion => false
  | .wipeCompletion => false
  | .busFault _ _ => true

/-- An event that arrives inside an inspection, or where an inspection could be taken. A port reset that arrives inside a step
carries no Port Control value: the stored bits stay and no doze request is judged (R157; log entry 6). -/
def receiveInside (ev : Evaluator) (a : Arrival) (s : State) : State :=
  match a with
  | .nothing => s
  | .minuteTick => wrapSecond ev [] s
  | .clockStep requested second => arriveStep ev [] requested second.val s
  | .portReset => resetPort s
  | .powerOnReset => resetPower s
  | .loadCompletion => s
  | .wipeCompletion => s
  | .busFault isWrite address => failAccess isWrite address s

/-- A point inside an inspection. `finish` is what a tick or step that is ending this inspection has still to do before the
clock changes; it is `id` where no tick or step is. -/
def pollInspection (finish : State → State) (s : State) : State :=
  pollPoint insideInspection (receiveInside (.busy finish)) s

/-- The evaluator between two inspections. -/
def freeEvaluator : Evaluator := .free pollInspection

/-- A point between the inspections that a load completion releases and its own answer: what may arrive inside an inspection
comes here to a free evaluator (R134, R146). -/
def pollCompletion (s : State) : State := pollPoint insideInspection (receiveInside freeEvaluator) s

end Sys2Proof.Machine
end

