-- ==== Sys2Proof/Machine/TableStore.lean ====
section
/-! DEFINITION. The table store: the copy of a load, its validation and completion, and the completion of a WIPE (chapter 8,
R14, R49, R50). -/

namespace Sys2Proof.Machine

/-! ### Validation -/

/-- The zone ordinals of the stops after one with ordinal `o` (R14). -/
def ordinalsAfter (prev : Stop) (o : Nat) : List Stop → List Nat
  | [] => []
  | x :: xs =>
    let o' := if x.network != prev.network || x.zone != prev.zone then o + 1 else o
    o' :: ordinalsAfter x o' xs

/-- The zone ordinals of a line (R14). -/
def lineOrdinals : List Stop → List Nat
  | [] => []
  | x :: xs => 0 :: ordinalsAfter x 0 xs

/-- A stop's network and zone are in range (R133). -/
def Stop.inRange (x : Stop) : Bool :=
  decide (1 ≤ x.network) && decide (x.network ≤ 4) && decide (1 ≤ x.zone) && decide (x.zone ≤ 63)

/-- A decoded product's fields are within the load ranges; a field is tested only where the entry uses it (R49). -/
def Product.inRange (p : Product) : Bool :=
  p.code != 0 && (p.accommodation == 1 || p.accommodation == 2) && decide (p.grace ≤ 30)
    && (match p.period with
        | .minutes => decide (1 ≤ p.baseMinutes) && decide (p.baseMinutes ≤ p.maxMinutes)
        | .days => decide (1 ≤ p.days) && decide (p.days ≤ 400))
    && (match p.kind with
        | .zoneCount => decide (1 ≤ p.maxZones) && decide (p.maxZones ≤ 63)
        | .zoneRange => true
        | .network => true)

/-- A stored product entry is within the load ranges, its enumerated bytes included (R49). -/
def productBytesInRange (bs : List Byte) : Bool := (Product.ofBytes bs).any Product.inRange

/-- The ids of a list never decrease from one entry to the next (R50). -/
def idsNonDecreasing (ids : List LongWord) : Bool := (ids.zip ids.tail).all fun p => decide (p.1.toNat ≤ p.2.toNat)

/-- The first test that fails gives the cause; `noCause` when every test passes (R133). -/
def firstFailure : List (Bool × DamageCause) → DamageCause
  | [] => .noCause
  | (passed, cause) :: tests => if passed then firstFailure tests else cause

/-- The content tests of a table image in the order of R133, the sum test left out. -/
def contentTests (k : TableKind) (entries : List (List Byte)) : List (Bool × DamageCause) :=
  match k with
  | .stops =>
    [((entries.map Stop.ofBytes).all Stop.inRange, .range),
     (decide ((entries.map Stop.ofBytes).map Stop.code).Nodup, .duplicate),
     (decide ((lineOrdinals (entries.map Stop.ofBytes)).getLastD 0 ≤ 63), .range)]
  | .tariff =>
    [(entries.all productBytesInRange, .range),
     (decide (entries.map fun e => field 0 2 e).Nodup, .duplicate)]
  | .deny =>
    [(idsNonDecreasing ((entries.map DenyEntry.ofBytes).map DenyEntry.credentialId), .order),
     ((entries.map DenyEntry.ofBytes).all fun d => decide (d.fromDay ≤ d.untilDay), .range)]

/-- The judgment of a loaded image as it stands in table memory (R132, R133). -/
def judgeImage (t : Tables) (k : TableKind) : DamageCause :=
  firstFailure ((byteSum (t.image k) == (t.descriptor k).expectedSum, .sum) :: contentTests k (t.entries k))

/-- A descriptor after validation (R133). -/
def Descriptor.judged (d : Descriptor) (cause : DamageCause) : Descriptor :=
  if cause = .noCause then { d with state := .valid, cause := .noCause } else { d with state := .damaged, cause := cause }

/-- The table store after a completed load: no load in progress, the descriptor judged, and the zone ordinals kept for a
stops table made VALID (R14, R133, R134). -/
def Tables.completed (t : Tables) (k : TableKind) : Tables :=
  { t.setDescriptor k ((t.descriptor k).judged (judgeImage t k)) with
    load := none
    ordinals :=
      if k = .stops then if judgeImage t k = .noCause then lineOrdinals ((t.entries .stops).map Stop.ofBytes) else []
      else t.ordinals }

/-! ### The copy -/

/-- How many bytes of the image the copy has still to write (R130). -/
def Tables.toCopy (t : Tables) (job : LoadJob) : Nat := (t.descriptor job.kind).count * job.kind.entrySize - job.copied

/-- The table store with `bytes` written by the copy (R130). -/
def Tables.copyIn (t : Tables) (job : LoadJob) (bytes : List Byte) : Tables :=
  { t with
    memory := Memory.writeRun tableSize t.memory (job.kind.base + job.copied) bytes
    load := some { job with copied := job.copied + bytes.length } }

/-- How many of `got` bytes read by the copy are written when the read after them fails: those of whole blocks of 512 bytes
of the region, since a block is written once its bytes are read (R130, R135; log entry 5). -/
def LoadJob.wholeBlocks (job : LoadJob) (got : Nat) : Nat := (job.copied + got) / 512 * 512 - job.copied

/-- The next `n` bytes of the image are read from host memory and written to the table's region. If a read fails, the
blocks read before it are written, the port enters FAULT and the load is aborted (R130, R135, R156). -/
def copyBytes (n : Nat) (job : LoadJob) (s : State) : State :=
  let got := s.hostBytes (job.source + job.copied) (s.transferred n)
  if s.transferred n = n then { s.spend n with tables := s.tables.copyIn job got }
  else
    enterFault .read (job.source + job.copied + s.transferred n)
      { s with tables := s.tables.copyIn job (got.take (job.wholeBlocks (s.transferred n))) }

/-- The copy of one more block of 512 bytes while a load is in progress (R130). The last block is left to LOAD_COMPLETION:
with its last byte the load is over (R134; log entry 1). -/
def copyBlock (s : State) : State :=
  match s.tables.load with
  | none => s
  | some job => if 512 < s.tables.toCopy job then copyBytes 512 job s else s

/-! ### Completion -/

/-- The answer of a LOAD_TABLE at its completion (R134, R165, 11.7). -/
def loadAnswer (k : TableKind) (t : Tables) : List Byte :=
  le 1 k.code ++ zeros 3 ++ (t.descriptor k).image ++ le 2 (byteSum (t.image k)).toNat

/-- The hold with a given work ends with an answer, if it still stands on the list and the port is not FAULT. -/
def endOwnHold (isOwn : Hold → Bool) (bytes : List Byte) (s : State) : State :=
  if s.port.state = .fault then s
  else
    match s.port.holds.find? isOwn with
    | none => s
    | some h => endHold h .done bytes s

/-- A hold of a LOAD_TABLE. -/
def Hold.isLoad (h : Hold) : Bool := h.work == .loadTable

/-- A hold of a WIPE. -/
def Hold.isWipe (h : Hold) : Bool := h.work == .wipe

/-- The completion of a load once its last byte is written (R134): the descriptor and its mirror, the releases of a deny
load with the examinations of the hold list that waited for them, then the load's own answer. A reset or a fault that comes
before that answer leaves it unwritten (log entry 6). -/
def finishLoad (k : TableKind) (s : State) : State :=
  let s1 := mirrorDescriptor k { s with tables := s.tables.completed k }
  let s2 := if k = .deny then afterEvaluations (pollInspection id) (releaseDenies (pollInspection id) s1) else s1
  let s3 := pollCompletion s2
  endOwnHold Hold.isLoad (loadAnswer k s3.tables) s3

/-- The rest of the image is copied and, if no read failed, the load completes (R130, R134). Nothing happens when no load
is in progress. -/
def completeLoad (s : State) : State :=
  match s.tables.load with
  | none => s
  | some job =>
    let s1 := copyBytes (s.tables.toCopy job) job s
    if s1.tables.load.isSome then finishLoad job.kind s1 else s1

/-- The three descriptor images (R140, 11.7). -/
def wipeAnswer (t : Tables) : List Byte := t.stops.image ++ t.tariff.image ++ t.deny.image

/-- The changes of a completed WIPE that stand in every port state: the table store, the roster and the run record (R140). -/
def wipeState (s : State) : State := { s with tables := Tables.reset, roster := [], run := Run.reset }

/-- The completion of a WIPE (R140). Nothing happens when no WIPE is in progress. -/
def completeWipe (s : State) : State :=
  if s.tables.wiping then
    let s1 := mirrorRun (mirrorDescriptor .deny (mirrorDescriptor .tariff (mirrorDescriptor .stops (wipeState s))))
    endOwnHold Hold.isWipe (wipeAnswer s1.tables) s1
  else s

end Sys2Proof.Machine
end

