-- ==== Sys2Proof/Machine/Sweep.lean ====
section
/-! DEFINITION. The sweep: what arrives inside a step, the taking of a posted request, its answer, and the end of a sweep
(9.5; log entries 3 and 6). -/

namespace Sys2Proof.Machine

/-! ### Arrivals inside a step -/

/-- An event that arrives at a point where every event may be taken: a completion, or what comes to a free evaluator
(R146). -/
def receive (a : Arrival) (s : State) : State :=
  match a with
  | .loadCompletion => completeLoad s
  | .wipeCompletion => completeWipe s
  | other => receiveInside freeEvaluator other s

/-- A point inside a request at which every event may be taken: after the take, and before the answer. -/
def pollAll (s : State) : State := pollPoint (fun a => a != .nothing) receive s

/-- What may arrive inside a DEPART or ARRIVE once the run record has changed: a tick, a step, a load completion, a failing
access (R27, R59, R107, R109). Resets wait for the point before the answer (log entry 22). -/
def insidePassage : Arrival → Bool
  | .nothing => false
  | .minuteTick => true
  | .clockStep _ _ => true
  | .portReset => false
  | .powerOnReset => false
  | .loadCompletion => true
  | .wipeCompletion => false
  | .busFault _ _ => true

/-- Whether an event brings the clock's delivery, whose notices interleave with a zone advance's (R107). -/
def isDelivery : Arrival → Bool
  | .nothing => false
  | .minuteTick => true
  | .clockStep _ _ => true
  | .portReset => false
  | .powerOnReset => false
  | .loadCompletion => false
  | .wipeCompletion => false
  | .busFault _ _ => false

/-- A point inside a DEPART or ARRIVE at which no zone advance is under way. -/
def pollPassage (s : State) : State := pollPoint insidePassage receive s

/-- A tick or step in the middle of a zone advance: what is left of the advance is one more list of its work (R107). -/
def receiveAmidZones (zones : List TickTask) (a : Arrival) (s : State) : State :=
  match a with
  | .minuteTick => wrapSecond freeEvaluator zones s
  | .clockStep requested second => arriveStep freeEvaluator zones requested second.val s
  | _ => runZones zones s

/-- The zone advance at a stop over the entries of a list of indices, in order (R106), with a point before each entry and one
after the last. A load completion there is carried out between two entries (R109); a tick or step there is delivered with
what is left of the advance, so that the notices of the two may interleave (R107). -/
def zoneAdvance (stop : Nat) : List Nat → State → State
  | [], s => pollPassage s
  | i :: rest, s =>
    let s1 := takeArrivals (fun a => insidePassage a && !isDelivery a) receive s.arrivals.length s
    match s1.arrivals.head?.filter isDelivery with
    | some a => pollPassage (receiveAmidZones ((i :: rest).map (.zone stop)) a (dropArrival s1))
    | none => zoneAdvance stop rest (zoneAdvanceAt stop i (closePoint s1))

/-! ### The answer of the request in hand -/

/-- Whether the request of a slot is in hand. -/
def State.hasInHand (s : State) (slot : Slot) : Bool := s.port.inHand == some slot

/-- The answer of the request in hand, after what arrives before it, its bytes those of the moment of the answer; a reset or
a bus fault has abandoned it (R149, R156, R157). -/
def answerInHandWith (slot : Slot) (tag : Half) (code : AnswerCode) (bytes : State → List Byte) (s : State) : State :=
  if (pollAll s).hasInHand slot then answerNow slot tag code (bytes (pollAll s)) (pollAll s) else pollAll s

/-- The answer of the request in hand with bytes fixed before what arrives (log entry 22). -/
def answerInHand (slot : Slot) (tag : Half) (code : AnswerCode) (bytes : List Byte) (s : State) : State :=
  answerInHandWith slot tag code (fun _ => bytes) s

/-! ### Posting and taking -/

/-- The host posts a request in a slot: kind, tag and arguments, then the state POSTED (R145). The host's writes do not go
over the part's bus. -/
def post (slot : Slot) (tag : Half) (r : Request) (s : State) : State :=
  { s with
    hostMemory :=
      Memory.writeRun hostSize
        (Memory.writeRun hostSize s.hostMemory (s.slotAddress slot + 8) (padTo 64 r.argBytes))
        (s.slotAddress slot) ([SlotState.posted.code, r.kindByte] ++ le 2 tag.toNat) }

/-- Whether a slot's state in host memory is POSTED (R145). -/
def State.isPosted (s : State) (slot : Slot) : Bool :=
  Memory.read s.hostMemory (s.slotAddress slot % hostSize) == SlotState.posted.code

/-- The number of slots the sweep examines before a slot. -/
def State.sweepDistance (s : State) (slot : Slot) : Nat := (slot - s.port.sweepNext).val

/-- The slots the sweep examines before a slot, in order (R146). -/
def State.slotsBefore (s : State) (slot : Slot) : List Slot :=
  (List.range (s.sweepDistance slot)).map fun i => s.port.sweepNext + Fin.ofNat 32 i

/-- Whether the sweep under way takes the request posted in a slot next: the slot is still to be examined, it is not held,
and no slot before it stands posted (R146). -/
def State.takesNext (s : State) (slot : Slot) : Bool :=
  s.port.state == .sweeping && decide (s.sweepDistance slot < s.port.sweepLeft) && !s.isHeld slot
    && (s.slotsBefore slot).all fun x => s.isHeld x || !s.isPosted x

/-- The examination of a slot that is passed over: a held slot is not read, any other slot's state is read (R146). -/
def passOver (s : State) (slot : Slot) : State := if s.isHeld slot then s else busRead (s.slotAddress slot) 1 s

/-- The sweep has examined the slots up to and including `slot`. -/
def examined (slot : Slot) (n : Nat) (s : State) : State :=
  { s with port := { s.port with sweepNext := slot + 1, sweepLeft := s.port.sweepLeft - n } }

/-- A request is in hand (R145). -/
def setInHand (slot : Slot) (s : State) : State := { s with port := { s.port with inHand := some slot } }

/-- A slot's ended-hold mark is cleared at the take (R146). -/
def clearMark (slot : Slot) (s : State) : State :=
  { s with port := { s.port with endedMarks := s.port.endedMarks.set slot.val false } }

/-- A sweep from the cursor (R146, R147). -/
def startSweep (s : State) : State :=
  { s with port := { s.port with state := .sweeping, sweepNext := s.port.cursor, sweepLeft := 32 } }

/-- The end of a sweep after its thirty-second examination: another sweep when the sweep-again flag is set, IDLE otherwise
(R147). -/
def endSweep (s : State) : State :=
  if s.port.state = .sweeping ∧ s.port.sweepLeft = 0 then
    if s.port.sweepAgain then startSweep { s with port := { s.port with sweepAgain := false } }
    else { s with port := { s.port with state := .idle } }
  else s

/-- The argument bytes of a slot read range by range (R148). -/
def readArguments (slot : Slot) (ranges : List (Nat × Nat)) (s : State) : State :=
  ranges.foldl (fun s r => busRead (s.slotAddress slot + 8 + r.1) r.2 s) s

/-- The take of a posted slot up to the hand-over (R146): the slots before it are passed over, its state is read, TAKEN is
written, the kind, the tag and the argument bytes the request uses are read, and its ended-hold mark is cleared. That the mark
is cleared also where one of these accesses fails and R156 abandons the request is the model's choice (log entry 27). -/
def takeSlot (slot : Slot) (ranges : List (Nat × Nat)) (s : State) : State :=
  let d := s.sweepDistance slot
  let s1 := examined slot (d + 1) (busRead (s.slotAddress slot) 1 ((s.slotsBefore slot).foldl passOver s))
  if s1.port.state = .sweeping then
    let s2 := busWrite (s.slotAddress slot) [SlotState.taken.code] (setInHand slot s1)
    clearMark slot (readArguments slot ranges (busRead (s.slotAddress slot + 1) 3 s2))
  else s1

/-- A request carried out: the take, what arrives just after it, then the owner (R146, R148). The owner is given the state at
the take beside the state of the moment. -/
def carryOut (slot : Slot) (ranges : List (Nat × Nat)) (owner : State → State → State) (s : State) : State :=
  let s1 := takeSlot slot ranges s
  if s1.hasInHand slot then
    if (pollAll s1).hasInHand slot then endSweep (owner s1 (pollAll s1)) else endSweep (pollAll s1)
  else s1

/-- A request command (log entry 3): the host posts the request, and the sweep takes it if it is next in turn; otherwise it
stays POSTED for a sweep to find. -/
def requestStep (slot : Slot) (tag : Half) (r : Request) (env : Env) (owner : State → State → State) (s : State) : State :=
  let s1 := post slot tag r (beginStep env s)
  endStep (if s1.takesNext slot then carryOut slot r.argRanges owner s1 else s1)

end Sys2Proof.Machine
end

