-- ==== Sys2Proof/Machine/ClockRequests.lean ====
section
/-! DEFINITION. The clock's commands: SECOND_ADVANCE, MINUTE_TICK and SET_CLOCK (chapter 1), and the examinations that a
tick brings about as commands of their own (R104, R117, R151). -/

namespace Sys2Proof.Machine

/-- SECOND_ADVANCE (R1, R5): the second advances by one; from 59 it wraps, which is the minute tick, or stays at the top
reading. -/
def execSecondAdvance (env : Env) (s : State) : Host.Outcome State Fault Refusal :=
  let s1 := beginStep env s
  .next (endStep (if s1.clock.second < 59 then setSecond (s1.clock.second + 1) s1 else wrapSecond freeEvaluator [] s1))

/-- MINUTE_TICK (R1, R3 to R5): the second wraps to 0, or saturates at 59 at the top reading. At a second below 59 the
command stands for the rest of the minute passing as well (log entry 10). -/
def execMinuteTick (env : Env) (s : State) : Host.Outcome State Fault Refusal :=
  .next (endStep (wrapSecond freeEvaluator [] (beginStep env s)))

/-- WATCH_TIME_NEAR (R104): the watch of an entry that the clock count in force has brought to its NEAR count moves there. -/
def execWatchTimeNear (index : Nat) (env : Env) (s : State) : Host.Outcome State Fault Refusal :=
  let s1 := beginStep env s
  .next (endStep (if timeMoveAt s1 index s1.clockCount = some .near then timeAdvance s1.clockCount index s1 else s1))

/-- WATCH_TIME_LAPSE (R104): the watch of an entry that the clock count in force has brought to its lapse count lapses. -/
def execWatchTimeLapse (index : Nat) (env : Env) (s : State) : Host.Outcome State Fault Refusal :=
  let s1 := beginStep env s
  .next (endStep (if timeMoveAt s1 index s1.clockCount = some .lapsed then timeAdvance s1.clockCount index s1 else s1))

/-- HOLD_LIMIT (R59, R151): a held INSPECT whose hold limit the clock count in force has reached ends in degraded form;
nothing in FAULT. -/
def execHoldLimit (slot : Slot) (env : Env) (s : State) : Host.Outcome State Fault Refusal :=
  let s1 := beginStep env s
  .next (endStep (afterEvaluations (pollInspection id) (limitHold (pollInspection id) s1.clockCount slot s1)))

/-- PROPOSAL_LAPSED (R117): a proposal whose expiry the clock count in force has reached is removed. -/
def execProposalLapsed (index : Nat) (env : Env) (s : State) : Host.Outcome State Fault Refusal :=
  let s1 := beginStep env s
  .next (endStep (lapseProposal s1.clockCount index s1))

/-- Whether SET_CLOCK gives a day-change minute (R163). -/
def givesDayChange (a : SetClockArgs) : Bool := flagSet a.presentFlag

/-- The range check of SET_CLOCK (R7). -/
def clockInRange (a : SetClockArgs) : Bool :=
  decide (1 ≤ a.day.toNat) && decide (a.minute.toNat ≤ 1439) && decide (a.second.toNat ≤ 59)
    && (!givesDayChange a || decide (a.dayChange.toNat ≤ 359))

/-- The answer of SET_CLOCK: the applied delta and the reading in force (R12, 11.7). -/
def clockAnswer (delta : Int) (c : Clock) : List Byte :=
  signed4 delta ++ le 2 c.day ++ le 2 c.minute ++ le 1 c.second ++ zeros 1 ++ le 2 c.dayChange ++ le 2 c.serviceDay
    ++ le 2 c.serviceMinute ++ le 4 c.count

/-- The clock set outright with no run open (R8). -/
def clockOutright (a : SetClockArgs) (c : Clock) : Clock where
  day := a.day.toNat
  minute := a.minute.toNat
  second := a.second.toNat
  dayChange := if givesDayChange a then a.dayChange.toNat else c.dayChange
  isSet := true

/-- The requested difference D (R9). -/
def requestedDelta (a : SetClockArgs) (c : Clock) : Int :=
  (a.day.toNat : Int) * 1440 + a.minute.toNat - c.dayChange - c.count

/-- SET_CLOCK with no run open (R8): the mirror follows a changed reading, and DAY_CHANGED a changed service day. -/
def setOutright (a : SetClockArgs) (s : State) : State :=
  let c := clockOutright a s.clock
  let s1 := if c.mirror = s.clock.mirror then { s with clock := c } else setClockTo c s
  if c.serviceDay != s.clock.serviceDay then noticeDayChanged s1 else s1

/-- SET_CLOCK during a run (R9, R10): a clock step, or the second alone. -/
def setByStep (a : SetClockArgs) (s : State) : State :=
  stepBy freeEvaluator [] (requestedDelta a s.clock) a.second.toNat s

/-- The clock's part of a taken SET_CLOCK (R7 to R10). -/
def ownSetClock (slot : Slot) (tag : Half) (a : SetClockArgs) (s : State) : State :=
  if clockInRange a = false then answerInHand slot tag .refusedArgument (clockAnswer 0 s.clock) s
  else if s.runOpen then
    if givesDayChange a && a.dayChange.toNat != s.clock.dayChange then
      answerInHand slot tag .refusedRunOpen (clockAnswer 0 s.clock) s
    else
      answerInHand slot tag
        (if appliedDelta s.clock (requestedDelta a s.clock) = requestedDelta a s.clock then .done else .clamped)
        (clockAnswer (appliedDelta s.clock (requestedDelta a s.clock)) (setByStep a s).clock) (setByStep a s)
  else answerInHand slot tag .done (clockAnswer 0 (setOutright a s).clock) (setOutright a s)

/-- SET_CLOCK (R7). -/
def execSetClock (slot : Slot) (tag : Half) (a : SetClockArgs) (env : Env) (s : State) : Host.Outcome State Fault Refusal :=
  .next (requestStep slot tag (.setClock a) env (fun _ => ownSetClock slot tag a) s)

end Sys2Proof.Machine
end

