-- ==== Sys2Proof/Machine/InspectRequests.lean ====
section
/-! DEFINITION. INSPECT from take to answer or hold (R52 to R56, R75 to R78). -/

namespace Sys2Proof.Machine

/-- The checks of a taken INSPECT before any stage runs (R52). -/
def inspectRefusal (a : InspectArgs) (s : State) : Option AnswerCode :=
  if s.runOpen = false then some .refusedNoRun
  else if a.coach = 0 ∨ s.run.coachCount < a.coach.toNat ∨ 9 < a.heads.toNat then some .refusedArgument
  else none

/-- What stage 4 holds an inspection for, if it holds it (R55). -/
def holdCondition (s : State) : Option Awaits :=
  if s.run.state = .runningUnplaced then some .placement
  else if s.tables.deny.state = .loading then some .denyLoad
  else none

/-- What is read at take and kept with the inspection (R33, R56). -/
def inspectCopy (a : InspectArgs) (p : Product) : InspectCopy where
  coach := a.coach.toNat
  heads := a.heads.toNat
  record := padTo 46 a.record
  product := p

/-- The hold entry of a held INSPECT (R56, R150). -/
def inspectHold (slot : Slot) (tag : Half) (awaits : Awaits) (c : InspectCopy) (s : State) : Hold where
  slot := slot
  tag := tag
  awaits := awaits
  work := .inspect (s.clockCount + s.run.holdLimit) c

/-- The answer of an inspection in hand once it is recorded, after a tick or a reset that comes before it (R60, R78). -/
def answerInspection (slot : Slot) (tag : Half) (a : InspectAnswer) (s : State) : State :=
  if (pollInspection id s).hasInHand slot then answerNow slot tag .done a.bytes (pollInspection id s) else pollInspection id s

/-- Stages 5 to 12 of an inspection in hand (R53, R75). A tick that comes between stage 5 and stage 12 leaves the clock count
of the evaluation as it is (R61); a reset or a fault there abandons the evaluation (R60). -/
def evaluateInHand (slot : Slot) (tag : Half) (c : InspectCopy) (s : State) : State :=
  if (pollInspection id s).hasInHand slot then
    answerInspection slot tag
      (inspectionAnswer (judge c s) c (pollInspection id s) (recordInspection (judge c s) c (pollInspection id s)))
      (recordInspection (judge c s) c (pollInspection id s))
  else pollInspection id s

/-- Stage 4 and what follows it (R55, R56). -/
def holdOrEvaluate (slot : Slot) (tag : Half) (c : InspectCopy) (s : State) : State :=
  match holdCondition s with
  | some awaits => holdNow (inspectHold slot tag awaits c s) s
  | none => afterEvaluations (pollInspection id) (evaluateInHand slot tag c s)

/-- Stages 1 to 4 of an INSPECT past the checks of R52 and what follows them. An evaluation that ends in stages 1 to 3
answers with the clock count at the take (R61, R77). -/
def runStages (slot : Slot) (tag : Half) (a : InspectArgs) (taken : State) (s : State) : State :=
  match readCredential s.tables (padTo 46 a.record) with
  | .unreadable reason =>
    answerInHand slot tag .done (notEvaluated .unreadable (reasonSet [reason]) taken.clockCount).bytes s
  | .product p => holdOrEvaluate slot tag (inspectCopy a p) s

/-- The credential record read from the slot (R33, R52). -/
def readRecord (slot : Slot) (s : State) : State := readArguments slot [(2, 46)] s

/-- The evaluator's part of a taken INSPECT (R52 to R56). One refused under R52 answers with the clock count of the answer
(R77); one that passes has its record read, which a bus fault may abandon. -/
def ownInspect (slot : Slot) (tag : Half) (a : InspectArgs) (taken s : State) : State :=
  match inspectRefusal a s with
  | some code => answerInHandWith slot tag code (fun t => (notEvaluated .valid 0 t.clockCount).bytes) s
  | none =>
    if (readRecord slot s).hasInHand slot then runStages slot tag a taken (readRecord slot s) else readRecord slot s

/-- INSPECT (R52). -/
def execInspect (slot : Slot) (tag : Half) (a : InspectArgs) (env : Env) (s : State) : Host.Outcome State Fault Refusal :=
  .next (requestStep slot tag (.inspect a) env (ownInspect slot tag a) s)

end Sys2Proof.Machine
end

