-- ==== Sys2Proof/Machine/RosterRequests.lean ====
section
/-! DEFINITION. DISMISS and READ_ROSTER (5.5, 5.6) and CONFIRM_MARK (7.4). -/

namespace Sys2Proof.Machine

/-! ### DISMISS -/

/-- A dismissed entry: its watch CLEARED with kind and time lapse count kept, its proposal gone (R89). -/
def Entry.dismissed (e : Entry) : Entry :=
  { e with watch := { e.watch with stage := .cleared }, mark := { e.mark with proposal := none } }

/-- The answer of DISMISS (R89, 11.7). -/
def dismissAnswer (index : Half) (w : Watch) (discarded : Bool) : List Byte :=
  le 2 index.toNat ++ le 1 w.kind.code ++ le 1 w.stage.code ++ [flagByte discarded]

/-- The roster's part of a taken DISMISS (R89). -/
def ownDismiss (slot : Slot) (tag : Half) (index : Half) (s : State) : State :=
  match s.roster[index.toNat]? with
  | none => answerInHand slot tag .notFound (dismissAnswer index Watch.off false) s
  | some e =>
    answerInHand slot tag .done (dismissAnswer index e.dismissed.watch e.mark.proposal.isSome)
      (setEntry index.toNat Entry.dismissed s)

/-- DISMISS (R89). -/
def execDismiss (slot : Slot) (tag : Half) (index : Half) (env : Env) (s : State) : Host.Outcome State Fault Refusal :=
  .next (requestStep slot tag (.dismiss index) env (fun _ => ownDismiss slot tag index) s)

/-! ### READ_ROSTER -/

/-- The number of images to copy: the count, clamped to the entries from the first index on (R91). -/
def imageCount (a : ReadRosterArgs) (entries : Nat) : Nat := min a.count.toNat (entries - a.first.toNat)

/-- The image of one entry written to host memory while the request is in hand, and then what arrives (R92); the second
component counts the images copied. For an entry that a WIPE's completion has removed from under the copy nothing is
written, which is the model's choice (log entry 26). -/
def copyImage (slot : Slot) (a : ReadRosterArgs) (p : State × Nat) (i : Nat) : State × Nat :=
  if p.1.hasInHand slot then
    match p.1.roster[a.first.toNat + i]? with
    | some e => (pollAll (busWrite (a.destination.toNat + 80 * i) e.image p.1), p.2 + 1)
    | none => p
  else p

/-- The copy of `n` images in index order, and the number copied (R92). -/
def copyImages (slot : Slot) (a : ReadRosterArgs) (n : Nat) (s : State) : State × Nat :=
  (List.range n).foldl (copyImage slot a) (s, 0)

/-- The answer of a READ_ROSTER after its copy; a bus fault or a reset during the copy has abandoned it (R91, R92). -/
def answerCopied (slot : Slot) (tag : Half) (p : State × Nat) : State :=
  if p.1.hasInHand slot then answerInHand slot tag .done (le 2 p.2) p.1 else p.1

/-- The roster's part of a taken READ_ROSTER (R91, R92). The number of images is fixed from the entries at the take. -/
def ownReadRoster (slot : Slot) (tag : Half) (a : ReadRosterArgs) (taken s : State) : State :=
  answerCopied slot tag (copyImages slot a (imageCount a taken.roster.length) s)

/-- READ_ROSTER (R91). -/
def execReadRoster (slot : Slot) (tag : Half) (a : ReadRosterArgs) (env : Env) (s : State) :
    Host.Outcome State Fault Refusal :=
  .next (requestStep slot tag (.readRoster a) env (ownReadRoster slot tag a) s)

/-! ### CONFIRM_MARK -/

/-- The answer of CONFIRM_MARK (R123, R165, 11.7). -/
def confirmAnswer (index : Half) (result : MarkResult) (m : MarkRecord) : List Byte :=
  le 2 index.toNat ++ [result.code] ++ le 1 m.commitCount ++ [flagByte m.torn, flagByte m.proposal.isSome] ++ zeros 2
    ++ le 4 ((m.proposal.map Proposal.expiry).getD 0)

/-- The judgment of a read-back on an entry that holds a proposal (R120). -/
def confirmEntry (index : Nat) (result : MarkResult) (s : State) : State :=
  setEntry index (fun e => { e with mark := e.mark.afterResult result }) s

/-- The mark unit's part of a taken CONFIRM_MARK (R119 to R123). -/
def ownConfirmMark (slot : Slot) (tag : Half) (a : ConfirmMarkArgs) (s : State) : State :=
  if s.runOpen = false then
    answerInHand slot tag .refusedNoRun (confirmAnswer a.index .noResult MarkRecord.fresh) s
  else
    match s.roster[a.index.toNat]? with
    | none => answerInHand slot tag .notFound (confirmAnswer a.index .noResult MarkRecord.fresh) s
    | some e =>
      match e.mark.proposal with
      | none => answerInHand slot tag .tooLate (confirmAnswer a.index .noResult e.mark) s
      | some p =>
        answerInHand slot tag .done
          (confirmAnswer a.index (judgeReadBack p.bytes (padTo 16 a.readBack))
            (e.mark.afterResult (judgeReadBack p.bytes (padTo 16 a.readBack))))
          (confirmEntry a.index.toNat (judgeReadBack p.bytes (padTo 16 a.readBack)) s)

/-- CONFIRM_MARK (R119). -/
def execConfirmMark (slot : Slot) (tag : Half) (a : ConfirmMarkArgs) (env : Env) (s : State) :
    Host.Outcome State Fault Refusal :=
  .next (requestStep slot tag (.confirmMark a) env (fun _ => ownConfirmMark slot tag a) s)

end Sys2Proof.Machine
end

