-- ==== Sys2Proof/Machine/RunRequests.lean ====
section
/-! DEFINITION. The run controller's requests: OPEN_RUN, DEPART, ARRIVE and CLOSE_RUN (chapter 2). -/

namespace Sys2Proof.Machine

/-! ### OPEN_RUN -/

/-- The classes given for coaches 1..coach count, as numbers (R16, R17). -/
def openClasses (a : OpenRunArgs) : List Nat := ((padTo 16 a.classes).take a.coachCount.toNat).map BitVec.toNat

/-- The arguments of OPEN_RUN that are grounds for REFUSED_ARGUMENT are all in order, on a line of `n` stops (R17). -/
def openAcceptable (a : OpenRunArgs) (n : Nat) : Bool :=
  a.runId != 0 && a.terminal != 0 && (Direction.ofByte a.direction).isSome && decide (a.startStop.toNat < n)
    && decide (1 ≤ a.coachCount.toNat) && decide (a.coachCount.toNat ≤ 16)
    && (openClasses a).all fun c => c == 1 || c == 2

/-- The hold limit adopted: 0 is replaced by the default of 10, and a value above 30 is clamped (R18). -/
def adoptedHoldLimit (given : Nat) : Nat := if given = 0 then 10 else min 30 given

/-- Whether one of the run settings is clamped (R18). -/
def openClamped (a : OpenRunArgs) : Bool :=
  decide (60 < a.sharedWindow.toNat) || decide (15 < a.watchLead.toNat) || decide (15 < a.skewTolerance.toNat)
    || decide (30 < a.holdLimit.toNat)

/-- The run record that an accepted OPEN_RUN fills (R18, R19). -/
def openRecord (a : OpenRunArgs) : Run where
  state := .standing
  runId := a.runId
  terminal := a.terminal
  direction := (Direction.ofByte a.direction).getD .up
  coachCount := a.coachCount.toNat
  coachClasses := openClasses a
  sharedWindow := min 60 a.sharedWindow.toNat
  watchLead := min 15 a.watchLead.toNat
  skewTolerance := min 15 a.skewTolerance.toNat
  holdLimit := adoptedHoldLimit a.holdLimit.toNat
  position := some a.startStop.toNat
  nextStop := none

/-- Bytes 0..2 of the answer of OPEN_RUN: run state, position stop, evaluation stop (11.7). -/
def openAnswerHead (r : Run) : List Byte := le 1 r.state.code ++ [stopByte r.position, stopByte r.evaluationStop]

/-- The answer of an accepted OPEN_RUN, with the settings as adopted (R18, 11.7). -/
def openAnswer (r : Run) : List Byte :=
  openAnswerHead r ++ le 1 r.sharedWindow ++ le 1 r.watchLead ++ le 1 r.skewTolerance ++ le 1 r.holdLimit

/-- The changes of an accepted OPEN_RUN: the roster is cleared, the run record is filled, the run mirror is written (R19,
R32, R94). -/
def openRun (a : OpenRunArgs) (s : State) : State := mirrorRun { s with roster := [], run := openRecord a }

/-- The first check of R17 that fails, if one does. -/
def openRefusal (a : OpenRunArgs) (s : State) : Option AnswerCode :=
  if s.runOpen then some .refusedRunOpen
  else if (s.tables.readable .stops && s.tables.readable .tariff) = false then some .refusedTablesNotReady
  else if s.clock.isSet = false then some .refusedClockNotSet
  else if openAcceptable a s.tables.stopCount = false then some .refusedArgument
  else none

/-- The run controller's part of a taken OPEN_RUN (R17 to R19). -/
def ownOpenRun (slot : Slot) (tag : Half) (a : OpenRunArgs) (s : State) : State :=
  match openRefusal a s with
  | some code => answerInHand slot tag code (openAnswerHead s.run) s
  | none => answerInHand slot tag (if openClamped a then .clamped else .done) (openAnswer (openRecord a)) (openRun a s)

/-- OPEN_RUN (R17). -/
def execOpenRun (slot : Slot) (tag : Half) (a : OpenRunArgs) (env : Env) (s : State) : Host.Outcome State Fault Refusal :=
  .next (requestStep slot tag (.openRun a) env (fun _ => ownOpenRun slot tag a) s)

/-! ### DEPART -/

/-- The answer of DEPART and ARRIVE (11.7). -/
def passageAnswer (r : Run) : List Byte :=
  le 1 r.state.code ++ [stopByte r.position, stopByte r.nextStop, stopByte r.evaluationStop]

/-- The first check of R22 that fails, if one does. FFh is UNKNOWN. -/
def departRefusal (next : Byte) (s : State) : Option AnswerCode :=
  match s.run.state with
  | .noRun => some .refusedNoRun
  | .closed => some .refusedNoRun
  | .running => some .refusedSequence
  | .runningUnplaced => some .refusedSequence
  | .standing =>
    if s.run.position = some (s.run.direction.terminus s.tables.stopCount) then some .refusedEndOfLine
    else if next = 0xFF then none
    else if s.tables.stopCount ≤ next.toNat then some .refusedArgument
    else if s.run.direction.isAhead (s.run.position.getD 0) next.toNat then none
    else some .refusedSequence

/-- The run record after an accepted DEPART (R23). -/
def Run.departed (r : Run) (next : Byte) : Run :=
  if next = 0xFF then { r with state := .runningUnplaced, nextStop := none }
  else { r with state := .running, nextStop := some next.toNat }

/-- The zone advance at a stop over the whole roster, in ascending index order (R21, R106). -/
def deliverStop (stop : Nat) (s : State) : State := zoneAdvance stop (List.range s.roster.length) s

/-- The changes of an accepted DEPART: the run record, the zone advance when a next stop is named, the run mirror (R21,
R23, R32). What arrives comes once the run record has changed (R107, R109). Where it puts the port in FAULT, the rest goes
on all the same, which is the model's choice (log entry 22). -/
def depart (next : Byte) (s : State) : State :=
  let s1 := { s with run := s.run.departed next }
  mirrorRun (if next = 0xFF then pollPassage s1 else deliverStop next.toNat s1)

/-- The run controller's part of a taken DEPART (R22, R23). -/
def ownDepart (slot : Slot) (tag : Half) (next : Byte) (s : State) : State :=
  match departRefusal next s with
  | some code => answerInHand slot tag code (passageAnswer s.run) s
  | none => answerInHand slot tag .done (passageAnswer (s.run.departed next)) (depart next s)

/-- DEPART (R22). -/
def execDepart (slot : Slot) (tag : Half) (next : Byte) (env : Env) (s : State) : Host.Outcome State Fault Refusal :=
  .next (requestStep slot tag (.depart next) env (fun _ => ownDepart slot tag next) s)

/-! ### ARRIVE -/

/-- The checks of R24 past the run state: the stop exists and lies ahead of the last departed stop. -/
def arriveStopRefusal (stop : Byte) (s : State) : Option AnswerCode :=
  if s.tables.stopCount ≤ stop.toNat then some .refusedArgument
  else if s.run.direction.isAhead (s.run.position.getD 0) stop.toNat then none
  else some .refusedSequence

/-- The first check of R24 that fails, if one does. -/
def arriveRefusal (stop : Byte) (s : State) : Option AnswerCode :=
  match s.run.state with
  | .noRun => some .refusedNoRun
  | .closed => some .refusedNoRun
  | .standing => some .refusedSequence
  | .running => arriveStopRefusal stop s
  | .runningUnplaced => arriveStopRefusal stop s

/-- The run record after an accepted ARRIVE (R25). -/
def Run.arrived (r : Run) (stop : Byte) : Run :=
  { r with state := .standing, position := some stop.toNat, nextStop := none }

/-- The release of the placement holds by an ARRIVE that is still in hand; a bus fault before it releases no hold (R25,
R27, R32). -/
def arriveReleases (slot : Slot) (s : State) : State :=
  if s.hasInHand slot then afterEvaluations (pollInspection id) (releasePlacements (pollInspection id) s) else s

/-- The changes of an accepted ARRIVE: the run record, the zone advance at the arrived stop, the run mirror, then the
releases (R25). What arrives comes after the run record's change and before the releases (R27, R59, R109). Where it puts the
port in FAULT, the zone advance is delivered all the same, which is the model's choice (log entry 22). -/
def arrive (slot : Slot) (stop : Byte) (s : State) : State :=
  arriveReleases slot
    (pollPassage (mirrorRun (deliverStop stop.toNat { s with run := s.run.arrived stop })))

/-- The run controller's part of a taken ARRIVE (R24, R25). -/
def ownArrive (slot : Slot) (tag : Half) (stop : Byte) (s : State) : State :=
  match arriveRefusal stop s with
  | some code => answerInHand slot tag code (passageAnswer s.run) s
  | none => answerInHand slot tag .done (passageAnswer (s.run.arrived stop)) (arrive slot stop s)

/-- ARRIVE (R25). -/
def execArrive (slot : Slot) (tag : Half) (stop : Byte) (env : Env) (s : State) : Host.Outcome State Fault Refusal :=
  .next (requestStep slot tag (.arrive stop) env (fun _ => ownArrive slot tag stop) s)

/-! ### CLOSE_RUN -/

/-- The end of a close that is still in hand: the proposals go, the run becomes CLOSED, the mirror is written (R29, R32). -/
def closeRun (s : State) : State :=
  mirrorRun (discardProposals { s with run := { s.run with state := .closed } })

/-- The run controller's part of an accepted CLOSE_RUN (R28, R29, R93). A bus fault or a reset while the held inspections
are answered abandons the request before the run is closed (R156, R157). -/
def closeInHand (slot : Slot) (tag : Half) (s : State) : State :=
  if s.hasInHand slot then answerInHand slot tag .done (closeAnswer (closeRun s).roster) (closeRun s) else s

/-- The run controller's part of a taken CLOSE_RUN (R28, R29). -/
def ownCloseRun (slot : Slot) (tag : Half) (s : State) : State :=
  if s.runOpen then closeInHand slot tag (afterEvaluations (pollInspection id) (releaseAll (pollInspection id) s))
  else answerInHand slot tag .refusedNoRun [] s

/-- CLOSE_RUN (R28). -/
def execCloseRun (slot : Slot) (tag : Half) (env : Env) (s : State) : Host.Outcome State Fault Refusal :=
  .next (requestStep slot tag .closeRun env (fun _ => ownCloseRun slot tag) s)

end Sys2Proof.Machine
end

