-- ==== Sys2Proof/Machine/TableRequests.lean ====
section
/-! DEFINITION. The table store's commands: LOAD_TABLE, LOAD_COMPLETION, PROTECT_TABLE, READ_TABLE, WIPE and
WIPE_COMPLETION (chapter 8). -/

namespace Sys2Proof.Machine

/-! ### LOAD_TABLE -/

/-- Whether a load of any table or a WIPE is in progress (R129, R138). -/
def Tables.busy (t : Tables) : Bool := t.load.isSome || t.wiping

/-- Whether a protection level forbids a load (R129, 8.5). -/
def levelForbidsLoad (level : Nat) (runOpen : Bool) : Bool := decide (2 ≤ level) || (level == 1 && runOpen)

/-- The checks of R129 past the kind, in order. -/
def loadRefusal (k : TableKind) (a : LoadTableArgs) (s : State) : Option AnswerCode :=
  if s.tables.busy then some .refusedBusy
  else if k ≠ .deny ∧ s.runOpen then some .refusedTableInUse
  else if levelForbidsLoad (s.tables.descriptor k).level s.runOpen then some .refusedProtected
  else if k.capacity < a.count.toNat then some .refusedTooLarge
  else if a.count.toNat < k.least then some .refusedArgument
  else none

/-- The answer of a refused LOAD_TABLE: the descriptor of the named table as it stood; fields that R129 does not name are
zero (11.7; log entry 16). -/
def refusedLoadAnswer (d : Descriptor) : List Byte := zeros 4 ++ d.image

/-- The descriptor of a table whose load is accepted (R130). -/
def Descriptor.loading (d : Descriptor) (a : LoadTableArgs) : Descriptor where
  state := .loading
  cause := .noCause
  edition := a.edition
  count := a.count.toNat
  expectedSum := a.sum
  level := d.level

/-- The table store with a load accepted; a stops descriptor drops its zone ordinals (R130). -/
def Tables.beginLoad (t : Tables) (k : TableKind) (a : LoadTableArgs) : Tables :=
  { t.setDescriptor k ((t.descriptor k).loading a) with
    load := some { kind := k, source := a.source.toNat, copied := 0 }
    ordinals := if k = .stops then [] else t.ordinals }

/-- The hold of an accepted LOAD_TABLE (R130). -/
def loadHold (slot : Slot) (tag : Half) : Hold where
  slot := slot
  tag := tag
  awaits := .ownCompletion
  work := .loadTable

/-- The hold of the request in hand, unless a bus fault has abandoned it. -/
def holdInHand (h : Hold) (s : State) : State := if s.hasInHand h.slot then holdNow h s else s

/-- An accepted LOAD_TABLE: the descriptor and its mirror, then the slot is held (R128, R130). -/
def acceptLoad (slot : Slot) (tag : Half) (k : TableKind) (a : LoadTableArgs) (s : State) : State :=
  holdInHand (loadHold slot tag) (mirrorDescriptor k { s with tables := s.tables.beginLoad k a })

/-- The table store's part of a taken LOAD_TABLE (R129, R130). -/
def ownLoadTable (slot : Slot) (tag : Half) (a : LoadTableArgs) (s : State) : State :=
  match TableKind.ofByte a.kind with
  | none => answerInHand slot tag .refusedArgument (zeros 20) s
  | some k =>
    match loadRefusal k a s with
    | some code => answerInHand slot tag code (refusedLoadAnswer (s.tables.descriptor k)) s
    | none => acceptLoad slot tag k a s

/-- LOAD_TABLE (R129). -/
def execLoadTable (slot : Slot) (tag : Half) (a : LoadTableArgs) (env : Env) (s : State) : Host.Outcome State Fault Refusal :=
  .next (requestStep slot tag (.loadTable a) env (fun _ => ownLoadTable slot tag a) s)

/-- LOAD_COMPLETION (R134): the last byte of the load in progress is written and the image is judged; nothing when no load
is in progress. -/
def execLoadCompletion (env : Env) (s : State) : Host.Outcome State Fault Refusal :=
  .next (endStep (completeLoad (beginStep env s)))

/-! ### PROTECT_TABLE -/

/-- The answer of PROTECT_TABLE: the table kind and the level in force (R136, 11.7). -/
def protectAnswer (kind : Byte) (level : Nat) : List Byte := [kind] ++ le 1 level

/-- A descriptor with its level raised to the greater of its own and the requested one (R136). -/
def Descriptor.raised (d : Descriptor) (level : Nat) : Descriptor := { d with level := max d.level level }

/-- The level of a table raised, and its mirror rewritten when the level changes (R128, R136). -/
def raiseLevel (k : TableKind) (level : Nat) (s : State) : State :=
  if level ≤ (s.tables.descriptor k).level then s
  else mirrorDescriptor k { s with tables := s.tables.setDescriptor k ((s.tables.descriptor k).raised level) }

/-- The table store's part of a taken PROTECT_TABLE (R136). -/
def ownProtectTable (slot : Slot) (tag : Half) (a : ProtectTableArgs) (s : State) : State :=
  match TableKind.ofByte a.kind with
  | none => answerInHand slot tag .refusedArgument (protectAnswer a.kind 0) s
  | some k =>
    if 3 < a.level.toNat then
      answerInHand slot tag .refusedArgument (protectAnswer a.kind (s.tables.descriptor k).level) s
    else if (s.tables.descriptor k).state = .loading ∨ s.tables.wiping = true then
      answerInHand slot tag .refusedBusy (protectAnswer a.kind (s.tables.descriptor k).level) s
    else
      answerInHand slot tag .done (protectAnswer a.kind (max (s.tables.descriptor k).level a.level.toNat))
        (raiseLevel k a.level.toNat s)

/-- PROTECT_TABLE (R136). -/
def execProtectTable (slot : Slot) (tag : Half) (a : ProtectTableArgs) (env : Env) (s : State) :
    Host.Outcome State Fault Refusal :=
  .next (requestStep slot tag (.protectTable a) env (fun _ => ownProtectTable slot tag a) s)

/-! ### READ_TABLE -/

/-- The checks of R137 past the kind, in order. -/
def readRefusal (k : TableKind) (s : State) : Option AnswerCode :=
  if (s.tables.descriptor k).level = 3 then some .refusedProtected
  else if s.tables.wiping then some .refusedBusy
  else if (s.tables.descriptor k).state = .absent then some .notFound
  else if (s.tables.descriptor k).state = .loading then some .refusedBusy
  else none

/-- The answer of a READ_TABLE that copied the image (R137, 11.7). -/
def readAnswer (d : Descriptor) : List Byte := le 2 d.count ++ zeros 2 ++ d.image

/-- The stored image written to host memory (R137). -/
def copyTable (k : TableKind) (a : ReadTableArgs) (s : State) : State :=
  busWrite a.destination.toNat (s.tables.image k) s

/-- The answer of a READ_TABLE after its copy, unless a bus fault has abandoned it (R137). -/
def answerRead (slot : Slot) (tag : Half) (k : TableKind) (s : State) : State :=
  if s.hasInHand slot then answerInHand slot tag .done (readAnswer (s.tables.descriptor k)) s else s

/-- The table store's part of a taken READ_TABLE (R137). A refused READ_TABLE names no answer field (log entry 16). -/
def ownReadTable (slot : Slot) (tag : Half) (a : ReadTableArgs) (s : State) : State :=
  match TableKind.ofByte a.kind with
  | none => answerInHand slot tag .refusedArgument [] s
  | some k =>
    match readRefusal k s with
    | some code => answerInHand slot tag code [] s
    | none => answerRead slot tag k (copyTable k a s)

/-- READ_TABLE (R137). -/
def execReadTable (slot : Slot) (tag : Half) (a : ReadTableArgs) (env : Env) (s : State) : Host.Outcome State Fault Refusal :=
  .next (requestStep slot tag (.readTable a) env (fun _ => ownReadTable slot tag a) s)

/-! ### WIPE -/

/-- The hold of an accepted WIPE (R138). -/
def wipeHold (slot : Slot) (tag : Half) : Hold where
  slot := slot
  tag := tag
  awaits := .ownCompletion
  work := .wipe

/-- The table store with a WIPE in progress. -/
def beginWipe (s : State) : State := { s with tables := { s.tables with wiping := true } }

/-- The table store's part of a taken WIPE (R138). -/
def ownWipe (slot : Slot) (tag : Half) (s : State) : State :=
  if s.runOpen then answerInHand slot tag .refusedRunOpen [] s
  else if s.tables.busy then answerInHand slot tag .refusedBusy [] s
  else holdNow (wipeHold slot tag) (beginWipe s)

/-- WIPE (R138). -/
def execWipe (slot : Slot) (tag : Half) (env : Env) (s : State) : Host.Outcome State Fault Refusal :=
  .next (requestStep slot tag .wipe env (fun _ => ownWipe slot tag) s)

/-- WIPE_COMPLETION (R140): every block is clear; nothing when no WIPE is in progress. -/
def execWipeCompletion (env : Env) (s : State) : Host.Outcome State Fault Refusal :=
  .next (endStep (completeWipe (beginStep env s)))

end Sys2Proof.Machine
end

