-- ==== Sys2Proof/Machine/PortRequests.lean ====
section
/-! DEFINITION. The exchange port's own requests, WITHDRAW and MALFORMED, and the sweep's examination of the next slot as
it stands in host memory (9.5, 9.6). -/

namespace Sys2Proof.Machine

/-! ### WITHDRAW -/

/-- The answer of WITHDRAW: the named slot number (R152, 11.7). -/
def withdrawAnswer (named : Byte) : List Byte := [named]

/-- The end of a named hold (R152): a held INSPECT is answered WITHDRAWN with the fields of R77, then the WITHDRAW is
answered DONE; a held LOAD_TABLE or WIPE refuses it. -/
def withdrawHold (slot : Slot) (tag : Half) (named : Byte) (h : Hold) (s : State) : State :=
  if h.isInspect then
    let s1 := endHold h .withdrawn (notEvaluated .valid 0 s.clockCount).bytes s
    if s1.hasInHand slot then answerInHand slot tag .done (withdrawAnswer named) s1 else s1
  else answerInHand slot tag .refusedBusy (withdrawAnswer named) s

/-- The port's part of a taken WITHDRAW (R152). -/
def ownWithdraw (slot : Slot) (tag : Half) (named : Byte) (s : State) : State :=
  if 31 < named.toNat then answerInHand slot tag .refusedArgument (withdrawAnswer named) s
  else
    match s.holdOf (Fin.ofNat 32 named.toNat) with
    | some h => withdrawHold slot tag named h s
    | none =>
      if s.port.endedMarks.get (Fin.ofNat 32 named.toNat) then answerInHand slot tag .tooLate (withdrawAnswer named) s
      else answerInHand slot tag .notFound (withdrawAnswer named) s

/-- WITHDRAW (R152). -/
def execWithdraw (slot : Slot) (tag : Half) (named : Byte) (env : Env) (s : State) : Host.Outcome State Fault Refusal :=
  .next (requestStep slot tag (.withdraw named) env (fun _ => ownWithdraw slot tag named) s)

/-! ### MALFORMED -/

/-- The port's part of a taken request of unknown kind: all 56 answer bytes zero (R148, R163). -/
def ownMalformed (slot : Slot) (tag : Half) (s : State) : State := answerInHand slot tag .malformed [] s

/-- MALFORMED (R148): a request whose kind is none of the fourteen. A term that carries one of the fourteen kinds stands
for no malformed request; its slot is posted and left to the sweep. -/
def execMalformed (slot : Slot) (tag : Half) (kind : Byte) (env : Env) (s : State) : Host.Outcome State Fault Refusal :=
  .next
    (if Request.ofSlot kind [] = .malformed kind then
      requestStep slot tag (.malformed kind) env (fun _ => ownMalformed slot tag) s
     else endStep (post slot tag (.malformed kind) (beginStep env s)))

/-! ### The sweep's next examination -/

/-- The owner of a request, by its kind (the table of R148). INSPECT and READ_ROSTER look back to the state at the take. -/
def ownRequest (slot : Slot) (tag : Half) : Request → State → State → State
  | .setClock a => fun _ => ownSetClock slot tag a
  | .openRun a => fun _ => ownOpenRun slot tag a
  | .depart next => fun _ => ownDepart slot tag next
  | .arrive stop => fun _ => ownArrive slot tag stop
  | .closeRun => fun _ => ownCloseRun slot tag
  | .inspect a => ownInspect slot tag a
  | .dismiss index => fun _ => ownDismiss slot tag index
  | .readRoster a => ownReadRoster slot tag a
  | .confirmMark a => fun _ => ownConfirmMark slot tag a
  | .loadTable a => fun _ => ownLoadTable slot tag a
  | .protectTable a => fun _ => ownProtectTable slot tag a
  | .readTable a => fun _ => ownReadTable slot tag a
  | .wipe => fun _ => ownWipe slot tag
  | .withdraw named => fun _ => ownWithdraw slot tag named
  | .malformed _ => fun _ => ownMalformed slot tag

/-- The host tag in a slot (11.3). -/
def State.slotTag (s : State) (slot : Slot) : Half := BitVec.ofNat 16 (field 0 2 (s.hostBytes (s.slotAddress slot + 2) 2))

/-- The request in a slot, read from its kind byte and its argument bytes (11.3, 11.7). -/
def State.slotRequest (s : State) (slot : Slot) : Request :=
  Request.ofSlot (BitVec.ofNat 8 (field 0 1 (s.hostBytes (s.slotAddress slot + 1) 1)))
    (s.hostBytes (s.slotAddress slot + 8) 64)

/-- The examination of the next slot of the sweep under way (R146): a posted slot that is not held is taken as it stands in
host memory, any other is passed over. -/
def examineNext (s : State) : State :=
  if s.port.state = .sweeping then
    if s.isPosted s.port.sweepNext && !s.isHeld s.port.sweepNext then
      carryOut s.port.sweepNext (s.slotRequest s.port.sweepNext).argRanges
        (ownRequest s.port.sweepNext (s.slotTag s.port.sweepNext) (s.slotRequest s.port.sweepNext)) s
    else endSweep (examined s.port.sweepNext 1 (passOver s s.port.sweepNext))
  else s

/-- What the part does of itself when no command waits (log entry 1): the next examination of the sweep under way, and the
copy of the next block of a load in progress. That no access fails and nothing arrives in such a step is the model's choice
(log entry 1). -/
def idleStep (s : State) : State :=
  endStep (copyBlock (examineNext { s with busLeft := none, arrivals := [], owed := [] }))

end Sys2Proof.Machine
end

