-- ==== Sys2Proof/Machine/Registers.lean ====
section
/-! DEFINITION. The register writes, DOZE_ENTRY, BUS_FAULT and POWER_ON_RESET (9.1, 9.2, 9.9, chapter 10). -/

namespace Sys2Proof.Machine

/-- POWER_ON_RESET (R158). -/
def execPowerOnReset (s : State) : Host.Outcome State Fault Refusal := .next (resetPower s)

/-! ### Port Control -/

/-- The bits of a Port Control write that are stored (R141): the enables and the doze request. -/
def storeControl (v : Word) (s : State) : State :=
  { s with
    port :=
      { s.port with
        enable := v.getLsbD 0
        noticeAttention := v.getLsbD 1
        faultAttention := v.getLsbD 2
        dozeRequest := v.getLsbD 3 } }

/-- The move from STOPPED to IDLE (R142): cursor, write position and notice count 0, then the whole header. -/
def enablePort (s : State) : State :=
  writeHeader { s with port := { s.port with state := .idle, cursor := 0, writePosition := 0, noticeCount := 0 } }

/-- The move to STOPPED by clearing port enable (R143). A step is whole, so no request is in hand when it is taken. -/
def disablePort (s : State) : State :=
  { s with port := { s.port with state := .stopped, sweepLeft := 0, sweepAgain := false } }

/-- What port enable and port reset of a Port Control write do in each port state (R142, R143, R157). -/
def controlPort (v : Word) (s : State) : State :=
  if v.getLsbD 4 then resetPort s
  else if v.getLsbD 0 then if s.port.state = .stopped then enablePort s else s
  else if s.port.state.writes then disablePort s
  else s

/-- What the doze request of a Port Control write does in each power state, on the state that port enable and port reset
leave (R159, R162). -/
def controlDoze (v : Word) (s : State) : State :=
  if v.getLsbD 3 then
    if s.power = .active then { s with power := if s.underWay then .dozePending else .doze } else s
  else { s with power := .active }

/-- A write to Port Control (R141 to R143, R155, R157, R159, R162). -/
def writeControl (v : Word) (s : State) : State := controlDoze v (controlPort v (storeControl v s))

/-- PORT_ENABLE (R142): a Port Control write with port enable 1 and port reset 0. -/
def execPortEnable (v : Word) (env : Env) (s : State) : Host.Outcome State Fault Refusal :=
  .next (endStep (writeControl v (beginStep env s)))

/-- PORT_DISABLE (R143): a Port Control write with port enable 0 and port reset 0. -/
def execPortDisable (v : Word) (env : Env) (s : State) : Host.Outcome State Fault Refusal :=
  .next (endStep (writeControl v (beginStep env s)))

/-- PORT_RESET (R157): a Port Control write with port reset 1. -/
def execPortReset (v : Word) (env : Env) (s : State) : Host.Outcome State Fault Refusal :=
  .next (endStep (writeControl v (beginStep env s)))

/-- ATTENTION_ENABLE (R155): a Port Control write seen by its two attention enables. -/
def execAttentionEnable (v : Word) (env : Env) (s : State) : Host.Outcome State Fault Refusal :=
  .next (endStep (writeControl v (beginStep env s)))

/-- DOZE_REQUEST (R159): a Port Control write with the doze request 1. -/
def execDozeRequest (v : Word) (env : Env) (s : State) : Host.Outcome State Fault Refusal :=
  .next (endStep (writeControl v (beginStep env s)))

/-- DOZE_CLEAR (R159, R162): a Port Control write with the doze request 0. -/
def execDozeClear (v : Word) (env : Env) (s : State) : Host.Outcome State Fault Refusal :=
  .next (endStep (writeControl v (beginStep env s)))

/-- DOZE_ENTRY (R160): DOZE is entered when it is pending and no sweep, load or wipe is under way. -/
def execDozeEntry (s : State) : Host.Outcome State Fault Refusal := .next (endStep s)

/-! ### The other registers -/

/-- A write to Sweep (R147, R162): from IDLE a sweep begins, and a part in DOZE wakes; in SWEEPING the sweep-again flag is
set; in STOPPED and FAULT it is ignored. -/
def writeSweep (s : State) : State :=
  match s.port.state with
  | .idle =>
    startSweep
      (if s.power = .doze then { s with power := .active, port := { s.port with dozeRequest := false } } else s)
  | .sweeping => { s with port := { s.port with sweepAgain := true } }
  | .stopped => s
  | .fault => s

/-- SWEEP (R147): any write to Sweep. -/
def execSweep (_value : Word) (env : Env) (s : State) : Host.Outcome State Fault Refusal :=
  .next (endStep (writeSweep (beginStep env s)))

/-- A write to Port Status: 1 to the overflow flag clears it, all else is ignored (R141). -/
def writeStatus (v : Word) (s : State) : State :=
  if v.getLsbD 4 then { s with port := { s.port with overflow := false } } else s

/-- OVERFLOW_CLEAR (R141, R153). -/
def execOverflowClear (v : Word) (s : State) : Host.Outcome State Fault Refusal := .next (endStep (writeStatus v s))

/-- A write to Notice Release: the count is lowered by the value, down to 0 at least, in every port state (R154). -/
def releaseNotices (v : Word) (s : State) : State :=
  { s with port := { s.port with noticeCount := s.port.noticeCount - v.toNat } }

/-- NOTICE_RELEASE (R154). -/
def execNoticeRelease (v : Word) (s : State) : Host.Outcome State Fault Refusal := .next (endStep (releaseNotices v s))

/-- A write to Area Base: stored while the port is STOPPED, its low 13 bits reading zero; ignored otherwise (R141). -/
def writeAreaBase (v : Word) (s : State) : State :=
  if s.port.state = .stopped then { s with port := { s.port with areaBase := v &&& 0xFFFFE000#32 } } else s

/-- AREA_BASE_WRITE (R141). -/
def execAreaBaseWrite (v : Word) (s : State) : Host.Outcome State Fault Refusal := .next (endStep (writeAreaBase v s))

/-- A write to the register at an offset (9.1); Notice Count, Fault Address and offsets that hold no register ignore it. -/
def writeRegister (offset : Nat) (v : Word) (s : State) : State :=
  match offset with
  | 0x00 => writeAreaBase v s
  | 0x04 => writeControl v s
  | 0x08 => writeStatus v s
  | 0x0C => writeSweep s
  | 0x14 => releaseNotices v s
  | _ => s

/-- REGISTER_WRITE (R141): a write to a register or field with no behaviour of its own is ignored. -/
def execRegisterWrite (offset : Nat) (v : Word) (env : Env) (s : State) : Host.Outcome State Fault Refusal :=
  .next (endStep (writeRegister offset v (beginStep env s)))

/-! ### BUS_FAULT -/

/-- BUS_FAULT (R156): an access fails that the part makes between the steps of the other commands. -/
def execBusFault (isWrite : Bool) (address : Word) (s : State) : Host.Outcome State Fault Refusal :=
  .next (endStep (failAccess isWrite address s))

end Sys2Proof.Machine
end

