-- ==== Sys2Proof/Machine/Dispatch.lean ====
section
/-! DEFINITION. The dispatch of the commands: one arm per row of spec/opcode_table.json. -/
namespace Sys2Proof.Machine
def exec (i : Instr) (s : State) : Host.Outcome State Fault Refusal :=
  match i with
  | .powerOnReset => Sys2Proof.Machine.execPowerOnReset s
  | .minuteTick env => Sys2Proof.Machine.execMinuteTick env s
  | .watchTimeNear index env => Sys2Proof.Machine.execWatchTimeNear index env s
  | .watchTimeLapse index env => Sys2Proof.Machine.execWatchTimeLapse index env s
  | .holdLimit slot env => Sys2Proof.Machine.execHoldLimit slot env s
  | .proposalLapsed index env => Sys2Proof.Machine.execProposalLapsed index env s
  | .setClock slot tag a env => Sys2Proof.Machine.execSetClock slot tag a env s
  | .openRun slot tag a env => Sys2Proof.Machine.execOpenRun slot tag a env s
  | .depart slot tag next env => Sys2Proof.Machine.execDepart slot tag next env s
  | .arrive slot tag stop env => Sys2Proof.Machine.execArrive slot tag stop env s
  | .closeRun slot tag env => Sys2Proof.Machine.execCloseRun slot tag env s
  | .inspect slot tag a env => Sys2Proof.Machine.execInspect slot tag a env s
  | .dismiss slot tag index env => Sys2Proof.Machine.execDismiss slot tag index env s
  | .readRoster slot tag a env => Sys2Proof.Machine.execReadRoster slot tag a env s
  | .confirmMark slot tag a env => Sys2Proof.Machine.execConfirmMark slot tag a env s
  | .loadTable slot tag a env => Sys2Proof.Machine.execLoadTable slot tag a env s
  | .loadCompletion env => Sys2Proof.Machine.execLoadCompletion env s
  | .protectTable slot tag a env => Sys2Proof.Machine.execProtectTable slot tag a env s
  | .readTable slot tag a env => Sys2Proof.Machine.execReadTable slot tag a env s
  | .wipe slot tag env => Sys2Proof.Machine.execWipe slot tag env s
  | .wipeCompletion env => Sys2Proof.Machine.execWipeCompletion env s
  | .withdraw slot tag named env => Sys2Proof.Machine.execWithdraw slot tag named env s
  | .malformed slot tag kind env => Sys2Proof.Machine.execMalformed slot tag kind env s
  | .sweep value env => Sys2Proof.Machine.execSweep value env s
  | .portEnable value env => Sys2Proof.Machine.execPortEnable value env s
  | .portDisable value env => Sys2Proof.Machine.execPortDisable value env s
  | .portReset value env => Sys2Proof.Machine.execPortReset value env s
  | .attentionEnable value env => Sys2Proof.Machine.execAttentionEnable value env s
  | .dozeRequest value env => Sys2Proof.Machine.execDozeRequest value env s
  | .dozeClear value env => Sys2Proof.Machine.execDozeClear value env s
  | .dozeEntry => Sys2Proof.Machine.execDozeEntry s
  | .overflowClear value => Sys2Proof.Machine.execOverflowClear value s
  | .noticeRelease value => Sys2Proof.Machine.execNoticeRelease value s
  | .areaBaseWrite value => Sys2Proof.Machine.execAreaBaseWrite value s
  | .registerWrite offset value env => Sys2Proof.Machine.execRegisterWrite offset value env s
  | .busFault isWrite address => Sys2Proof.Machine.execBusFault isWrite address s
  | .secondAdvance env => Sys2Proof.Machine.execSecondAdvance env s
end Sys2Proof.Machine
end

