-- ==== Sys2Proof/Machine/Step.lean ====
section
/-! DEFINITION. One step: the command at the front of the queue, or what the part does of itself when none waits. -/

namespace Sys2Proof.Machine

/-- The command at the front of the queue is carried out on the queue's rest. On an empty queue the part goes on by itself:
the next examination of a sweep under way and the next block of a load in progress (log entry 1). -/
def step (s : State) : Host.Outcome State Fault Refusal :=
  match s.pending with
  | [] => .next (idleStep s)
  | c :: rest => exec c { s with pending := rest }

/-- The command that a table word spells put at the front of the queue. No row of the table gives bits, so no word spells a
command and the state is unchanged. -/
def State.withFetchWord (s : State) (nbits w : Nat) : State :=
  match decodeTableWord nbits w with
  | none => s
  | some c => { s with pending := c :: s.pending }

end Sys2Proof.Machine
end

