-- ==== Sys2Proof/WellFormed.lean ====
section
/-! DEFINITION. Which terms of `Instr` stand for a command of the part: records of the spec's lengths, register writes
whose bits are the row's, and host writes within the host's address space. -/

namespace Sys2Proof

open Sys2Proof.Machine

/-- The surroundings are well formed: the host writes addresses of its own 32-bit space. -/
def Env.wellFormed (env : Env) : Bool := env.hostWrites.all fun c => c.1 < hostSize

/-- The request is well formed: the records it carries have the lengths of 11.4 and 11.7, and a malformed request's kind
is none of the fourteen (R148). -/
def Request.wellFormed : Request → Bool
  | .openRun a => a.classes.length == 16
  | .inspect a => a.record.length == 46
  | .confirmMark a => a.readBack.length == 16
  | .malformed kind => kind == 0 || decide (14 < kind.toNat)
  | .setClock _ => true
  | .depart _ => true
  | .arrive _ => true
  | .closeRun => true
  | .dismiss _ => true
  | .readRoster _ => true
  | .loadTable _ => true
  | .protectTable _ => true
  | .readTable _ => true
  | .wipe => true
  | .withdraw _ => true

/-- A write at `offset` of `value` reaches no register or field with a behaviour of its own (R141): Notice Count, Fault
Address, Port Status with its overflow bit 0, or an offset that holds no register. -/
def registerWriteIgnored (offset : Nat) (value : Word) : Bool :=
  match offset with
  | 0x00 => false
  | 0x04 => false
  | 0x08 => !value.getLsbD 4
  | 0x0C => false
  | 0x14 => false
  | _ => true

/-- The term stands for the command its constructor names. -/
def Instr.wellFormed : Instr → Bool
  | .portEnable v env => v.getLsbD 0 && !v.getLsbD 4 && env.wellFormed
  | .portDisable v env => !v.getLsbD 0 && !v.getLsbD 4 && env.wellFormed
  | .portReset v env => v.getLsbD 4 && env.wellFormed
  | .attentionEnable v env => !v.getLsbD 4 && env.wellFormed
  | .dozeRequest v env => v.getLsbD 3 && env.wellFormed
  | .dozeClear v env => !v.getLsbD 3 && env.wellFormed
  | .overflowClear v => v.getLsbD 4
  | .registerWrite offset value env => registerWriteIgnored offset value && env.wellFormed
  | .setClock _ _ a env => (Request.setClock a).wellFormed && env.wellFormed
  | .openRun _ _ a env => (Request.openRun a).wellFormed && env.wellFormed
  | .depart _ _ next env => (Request.depart next).wellFormed && env.wellFormed
  | .arrive _ _ stop env => (Request.arrive stop).wellFormed && env.wellFormed
  | .closeRun _ _ env => Request.closeRun.wellFormed && env.wellFormed
  | .inspect _ _ a env => (Request.inspect a).wellFormed && env.wellFormed
  | .dismiss _ _ index env => (Request.dismiss index).wellFormed && env.wellFormed
  | .readRoster _ _ a env => (Request.readRoster a).wellFormed && env.wellFormed
  | .confirmMark _ _ a env => (Request.confirmMark a).wellFormed && env.wellFormed
  | .loadTable _ _ a env => (Request.loadTable a).wellFormed && env.wellFormed
  | .protectTable _ _ a env => (Request.protectTable a).wellFormed && env.wellFormed
  | .readTable _ _ a env => (Request.readTable a).wellFormed && env.wellFormed
  | .wipe _ _ env => Request.wipe.wellFormed && env.wellFormed
  | .withdraw _ _ named env => (Request.withdraw named).wellFormed && env.wellFormed
  | .malformed _ _ kind env => (Request.malformed kind).wellFormed && env.wellFormed
  | .minuteTick env => env.wellFormed
  | .watchTimeNear _ env => env.wellFormed
  | .watchTimeLapse _ env => env.wellFormed
  | .holdLimit _ env => env.wellFormed
  | .proposalLapsed _ env => env.wellFormed
  | .loadCompletion env => env.wellFormed
  | .wipeCompletion env => env.wellFormed
  | .sweep _ env => env.wellFormed
  | .secondAdvance env => env.wellFormed
  | .powerOnReset => true
  | .dozeEntry => true
  | .noticeRelease _ => true
  | .areaBaseWrite _ => true
  | .busFault _ _ => true

end Sys2Proof
end

