-- ==== Sys2Proof/Safety.lean ====
section
/-! DEFINITION. The terms the statements use: what the host finds in its memory after a step, what the port's fields become
when a request is answered, and the invariants of the machine. -/

namespace Sys2Proof

/-- The command of the table that stands for a request posted in a slot. -/
def Request.command (slot : Slot) (tag : Half) (env : Env) : Request → Instr
  | .setClock a => .setClock slot tag a env
  | .openRun a => .openRun slot tag a env
  | .depart next => .depart slot tag next env
  | .arrive stop => .arrive slot tag stop env
  | .closeRun => .closeRun slot tag env
  | .inspect a => .inspect slot tag a env
  | .dismiss index => .dismiss slot tag index env
  | .readRoster a => .readRoster slot tag a env
  | .confirmMark a => .confirmMark slot tag a env
  | .loadTable a => .loadTable slot tag a env
  | .protectTable a => .protectTable slot tag a env
  | .readTable a => .readTable slot tag a env
  | .wipe => .wipe slot tag env
  | .withdraw named => .withdraw slot tag named env
  | .malformed kind => .malformed slot tag kind env

end Sys2Proof

namespace Sys2Proof.Machine

/-! ### What the host finds in its memory -/

/-- Host memory holds these bytes from an address upward. -/
def State.shows (s : State) (a : Nat) (bs : List Byte) : Prop := s.hostBytes a bs.length = bs

/-- Every byte of host memory outside the given ranges (first address, length) reads in `t` as it reads in `s`. -/
def State.writesOnly (s t : State) (ranges : List (Nat × Nat)) : Prop :=
  ∀ x, (∀ r ∈ ranges, ∀ i < r.2, x ≠ (r.1 + i) % hostSize) → Memory.read t.hostMemory x = Memory.read s.hostMemory x

/-- How many of `n` notices offered in turn find room in the ring (R153). -/
def Port.room (p : Port) (n : Nat) : Nat := min n (64 - p.noticeCount)

/-- The ring position of the `i`-th notice written from here on (R153). -/
def Port.ringSlot (p : Port) (i : Nat) : Fin 64 := p.writePosition + Fin.ofNat 64 i

/-- The sequence number of the `i`-th notice written from here on (R153). -/
def Port.sequence (p : Port) (i : Nat) : Half := p.nextSequence + BitVec.ofNat 16 i

/-- The port after `n` notices were offered to it in IDLE or SWEEPING: those that find room move the ring, and the overflow
flag is set when one does not (R153). -/
def Port.offered (p : Port) (n : Nat) : Port :=
  { p with
    writePosition := p.ringSlot (p.room n)
    nextSequence := p.sequence (p.room n)
    noticeCount := p.noticeCount + p.room n
    overflow := p.overflow || decide (p.room n < n) }

/-- The bytes of host memory that `n` offered notices write: their ring slots and the ring fields of the header. -/
def State.ringRanges (s : State) (n : Nat) : List (Nat × Nat) :=
  if s.port.room n = 0 then []
  else (s.areaAddress + 0x08, 4) :: (List.range (s.port.room n)).map fun i => (s.ringAddress (s.port.ringSlot i), 16)

/-- The ring shows the notices offered since `s`, as many as found room, each with its sequence number and the clock count
in force in `t`, and the header shows the ring's fields (R153). -/
structure State.RingShows (s t : State) (ns : List Notice) : Prop where
  notices :
    ∀ i < s.port.room ns.length, ∀ n, ns[i]? = some n →
      t.shows (s.ringAddress (s.port.ringSlot i)) (n.bytes (s.port.sequence i) t.clockCount)
  header :
    0 < s.port.room ns.length →
      t.shows (s.areaAddress + 0x08)
        (ringMirror (s.port.ringSlot (s.port.room ns.length)) (s.port.sequence (s.port.room ns.length)))

/-- The ANSWERED notice of a slot (9.7). -/
def answeredNotice (slot : Slot) (tag : Half) : Notice where
  kind := .answered
  stage := 0
  subject := slot.val
  tag := tag
  detail := 0

/-- The WATCH notice of an entry (R103). -/
def watchNotice (index : Nat) (stage : WatchStage) (id : LongWord) : Notice where
  kind := .watch
  stage := stage.code
  subject := index
  tag := 0
  detail := id.setWidth 32

/-- The PROPOSAL_LAPSED notice of an entry (R117). -/
def lapsedNotice (index : Nat) : Notice where
  kind := .proposalLapsed
  stage := 0
  subject := index
  tag := 0
  detail := 0

/-- The CLOCK_STEPPED notice (R10). -/
def steppedNotice (delta : Int) : Notice where
  kind := .clockStepped
  stage := 0
  subject := 0
  tag := 0
  detail := BitVec.ofInt 32 delta

/-- The DAY_CHANGED notice (R4, R8, R10). -/
def dayNotice (serviceDay : Nat) : Notice where
  kind := .dayChanged
  stage := 0
  subject := 0
  tag := 0
  detail := BitVec.ofNat 32 serviceDay

/-! ### A request taken, answered or held with nothing arriving -/

/-- The slot is next in turn for the sweep under way (R146). -/
def State.isNext (s : State) (slot : Slot) : Prop := s.takesNext slot = true

/-- The port once the sweep has taken a slot and the request has ended: the cursor one past it, its ended-hold mark clear,
and the slots up to it examined (R146). -/
def Port.swept (p : Port) (slot : Slot) : Port :=
  { p with
    cursor := slot + 1
    sweepNext := slot + 1
    sweepLeft := p.sweepLeft - ((slot - p.sweepNext).val + 1)
    inHand := none
    endedMarks := p.endedMarks.set slot.val false }

/-- The end of the sweep, when its thirty-second examination is made (R147). -/
def Port.sweepEnded (p : Port) : Port :=
  if p.sweepLeft = 0 then
    if p.sweepAgain then { p with sweepNext := p.cursor, sweepLeft := 32, sweepAgain := false }
    else { p with state := .idle }
  else p

/-- The state after a request in `slot` has been answered or held: `s` carries the owner's change, `n` notices were offered,
and host memory is `m`. The sweep goes on or ends, and a doze that waited is entered (R146, R147, R160). -/
def State.requestDone (s : State) (slot : Slot) (n : Nat) (m : Memory) : State :=
  endStep { s with port := ((s.port.swept slot).offered n).sweepEnded, hostMemory := m }

/-- A slot as the host finds it after its request was answered (R145, R149): the kind, tag and arguments as posted, the
state ANSWERED, the outcome and the 56 answer bytes. -/
structure State.SlotAnswered (t : State) (slot : Slot) (tag : Half) (r : Request) (code : AnswerCode)
    (answer : List Byte) : Prop where
  head : t.shows (t.slotAddress slot) ([SlotState.answered.code, r.kindByte] ++ le 2 tag.toNat ++ [code.code])
  arguments : t.shows (t.slotAddress slot + 8) (padTo 64 r.argBytes)
  answer : t.shows (t.slotAddress slot + 72) (padTo 56 answer)

/-- What the host finds when a request was answered: the slot, the notices in ring order with the ANSWERED notice last, the
parts of the header rewritten, and every other byte of its memory as it was. -/
structure State.Delivered (s t : State) (slot : Slot) (tag : Half) (r : Request) (code : AnswerCode) (answer : List Byte)
    (notices : List Notice) (mirrors : List (Nat × List Byte)) : Prop where
  atSlot : t.SlotAnswered slot tag r code answer
  ring : s.RingShows t (notices ++ [answeredNotice slot tag])
  header : ∀ m ∈ mirrors, t.shows (s.areaAddress + m.1) m.2
  others :
    s.writesOnly t
      ([(s.slotAddress slot, 5), (s.slotAddress slot + 8, 120)] ++ s.ringRanges (notices.length + 1)
        ++ mirrors.map fun m => (s.areaAddress + m.1, m.2.length))

/-- A request next in turn, with nothing arriving and no access failing, is answered: the state is `u` with the request
done, and the host finds the answer, the notices in ring order and the header parts rewritten. -/
def State.Answers (s : State) (slot : Slot) (tag : Half) (r : Request) (u : State) (code : AnswerCode) (answer : List Byte)
    (notices : List Notice) (mirrors : List (Nat × List Byte)) : Prop :=
  ∃ m,
    exec (r.command slot tag Env.quiet) s = .next (u.requestDone slot (notices.length + 1) m) ∧
      s.Delivered (u.requestDone slot (notices.length + 1) m) slot tag r code answer notices mirrors

/-- A request next in turn, with nothing arriving and no access failing, is answered with nothing else changed: what every
refusal and every answer without an effect leaves. -/
def State.AnswersUnchanged (s : State) (slot : Slot) (tag : Half) (r : Request) (code : AnswerCode) (answer : List Byte) :
    Prop := s.Answers slot tag r s code answer [] []

/-- What the host finds when a request was held (R150): the slot HELD with kind, tag and arguments as posted, no notice, the
parts of the header rewritten, and every other byte of its memory as it was. -/
structure State.ShownHeld (s t : State) (slot : Slot) (tag : Half) (r : Request) (mirrors : List (Nat × List Byte)) :
    Prop where
  head : t.shows (t.slotAddress slot) ([SlotState.held.code, r.kindByte] ++ le 2 tag.toNat)
  arguments : t.shows (t.slotAddress slot + 8) (padTo 64 r.argBytes)
  header : ∀ m ∈ mirrors, t.shows (s.areaAddress + m.1) m.2
  others :
    s.writesOnly t
      ([(s.slotAddress slot, 4), (s.slotAddress slot + 8, 64)] ++ mirrors.map fun m => (s.areaAddress + m.1, m.2.length))

/-- A request next in turn, with nothing arriving and no access failing, is held: the state is `u` with the hold at the end
of its hold list and the request done. -/
def State.Parks (s : State) (slot : Slot) (tag : Half) (r : Request) (u : State) (hold : Hold)
    (mirrors : List (Nat × List Byte)) : Prop :=
  ∃ m,
    exec (r.command slot tag Env.quiet) s =
        .next (State.requestDone { u with port := { u.port with holds := u.port.holds ++ [hold] } } slot 0 m) ∧
      s.ShownHeld (State.requestDone { u with port := { u.port with holds := u.port.holds ++ [hold] } } slot 0 m) slot tag r
        mirrors

/-- What the host finds when the hold of a slot ended with an answer inside an event that is no request of that slot (R149):
state, outcome and answer bytes written, the notices in ring order with the ANSWERED notice last, the parts of the header
rewritten, and every other byte of its memory as it was. -/
structure State.HoldAnswered (s t : State) (slot : Slot) (tag : Half) (code : AnswerCode) (answer : List Byte)
    (notices : List Notice) (mirrors : List (Nat × List Byte)) : Prop where
  state : t.shows (s.slotAddress slot) [SlotState.answered.code]
  outcome : t.shows (s.slotAddress slot + 4) [code.code]
  answer : t.shows (s.slotAddress slot + 72) (padTo 56 answer)
  ring : s.RingShows t (notices ++ [answeredNotice slot tag])
  header : ∀ m ∈ mirrors, t.shows (s.areaAddress + m.1) m.2
  others :
    s.writesOnly t
      ([(s.slotAddress slot, 1), (s.slotAddress slot + 4, 1), (s.slotAddress slot + 72, 56)]
        ++ s.ringRanges (notices.length + 1) ++ mirrors.map fun m => (s.areaAddress + m.1, m.2.length))

/-- The port after `n` notices were offered to it in any port state: nothing in STOPPED, the overflow flag in FAULT (R153).
-/
def Port.told (p : Port) (n : Nat) : Port :=
  match p.state with
  | .stopped => p
  | .idle => p.offered n
  | .sweeping => p.offered n
  | .fault => if n = 0 then p else { p with overflow := true }

/-- What the host finds after an event that writes notices and header parts and nothing else: in IDLE and SWEEPING those,
in STOPPED and FAULT nothing (9.2, R153). -/
structure State.Told (s t : State) (notices : List Notice) (mirrors : List (Nat × List Byte)) : Prop where
  written :
    s.port.state.writes = true →
      s.RingShows t notices ∧ (∀ m ∈ mirrors, t.shows (s.areaAddress + m.1) m.2) ∧
        s.writesOnly t (s.ringRanges notices.length ++ mirrors.map fun m => (s.areaAddress + m.1, m.2.length))
  silent : s.port.state.writes = false → t.hostMemory = s.hostMemory

/-- The port once the hold of a slot has left the list and its ended-hold mark is set (R150). -/
def Port.holdEnded (p : Port) (slot : Slot) : Port :=
  { p with holds := p.holds.filter fun h => h.slot != slot, endedMarks := p.endedMarks.set slot.val true }

/-! ### The roster after a tick and after a zone advance -/

/-- An entry after the watch monitor and the mark unit have examined it at clock count `n` (R104, R111, R117). -/
def Entry.ticked (s : State) (n : Nat) (e : Entry) : Entry :=
  { e with
    watch :=
      match if s.runOpen then e.watch.timeMove s.run.watchLead n else none with
      | some stage => { e.watch with stage := stage }
      | none => e.watch
    mark :=
      { e.mark with
        proposal := e.mark.proposal.filter fun p => decide (n < p.expiry) } }

/-- The WATCH notices of a time advance at clock count `n`, in index order (R103, R104). -/
def State.tickWatchNotices (s : State) (n : Nat) : List Notice :=
  (List.range s.roster.length).filterMap fun i =>
    match s.roster[i]?, timeMoveAt s i n with
    | some e, some stage =>
      if watchNotifies (watchClassOf s.tables e.productCode) stage then some (watchNotice i stage e.credentialId) else none
    | _, _ => none

/-- The PROPOSAL_LAPSED notices of an examination at clock count `n`, in index order (R117). -/
def State.tickLapseNotices (s : State) (n : Nat) : List Notice :=
  ((List.range s.roster.length).filter fun i => proposalDue s i n).map lapsedNotice

/-- An entry after the zone advance at a stop, in the run's direction (R106). -/
def Entry.zoned (t : Tables) (d : Direction) (stop : Nat) (e : Entry) : Entry :=
  match zoneMove t d stop e with
  | some stage => { e with watch := { e.watch with stage := stage } }
  | none => e

/-- The WATCH notices of a zone advance at a stop, in index order (R103, R106). -/
def State.zoneNotices (s : State) (stop : Nat) : List Notice :=
  (List.range s.roster.length).filterMap fun i =>
    match s.roster[i]? with
    | none => none
    | some e =>
      match zoneMove s.tables s.run.direction stop e with
      | none => none
      | some stage =>
        if watchNotifies (watchClassOf s.tables e.productCode) stage then some (watchNotice i stage e.credentialId) else none

/-! ### The roster after an inspection -/

/-- An entry after steps 2 and 3 of R75 when the clock count has not moved since stage 5: the watch armed, the proposal made
or discarded (R99, R100, R114). -/
def Entry.recorded (s : State) (j : Judgement) (c : InspectCopy) (e : Entry) : Entry :=
  { e with
    watch := armWatch s j c.product
    mark := { e.mark with proposal := if mayPropose j c then some (composeProposal s.run j c) else none } }

/-- The roster after stage 12: the entry created at the next index or updated in place, or no change when it is full (R81 to
R83). -/
def State.recordedRoster (s : State) (j : Judgement) (c : InspectCopy) : List Entry :=
  match indexOf s.roster (Credential.ofRecord c.record).credentialId with
  | some i => s.roster.modify i fun e => Entry.recorded s j c (e.reinspected j c)
  | none =>
    if s.roster.length < 512 then s.roster ++ [Entry.recorded s j c (newEntry s.roster.length j c)] else s.roster

/-- The answer of an inspection after stage 12 (R76). -/
def State.recordedAnswer (s : State) (j : Judgement) (c : InspectCopy) : List Byte :=
  (inspectionAnswer j c s { s with roster := s.recordedRoster j c }).bytes

/-- The header part rewritten by an inspection: the run mirror when it creates an entry (R31). -/
def State.recordedMirrors (s : State) (j : Judgement) (c : InspectCopy) : List (Nat × List Byte) :=
  if (s.recordedRoster j c).length = s.roster.length then []
  else [(0x10, State.runMirror { s with roster := s.recordedRoster j c })]

/-! ### Several held inspections ended by one event, in hold-list order (R27, R28, R58, R151) -/

/-- The state once a held inspection has been judged on the state of the moment and recorded (R57, R75). -/
def State.inspected (s : State) (h : Hold) : State :=
  match h.work with
  | .inspect _ c => { s with roster := s.recordedRoster (judge c s) c }
  | .loadTable => s
  | .wipe => s

/-- The same for a list of holds, one after another. -/
def State.inspectedAll (s : State) (hs : List Hold) : State := hs.foldl State.inspected s

/-- The answer bytes of a held inspection judged and recorded on the state of the moment (R76). -/
def State.inspectionBytes (s : State) (h : Hold) : List Byte :=
  match h.work with
  | .inspect _ c => s.recordedAnswer (judge c s) c
  | .loadTable => []
  | .wipe => []

/-- The port once the holds of a list have left the hold list one after another (R150). -/
def Port.holdsEnded (p : Port) (hs : List Hold) : Port := hs.foldl (fun p h => p.holdEnded h.slot) p

/-- The ANSWERED notices of a list of holds, in its order (9.7). -/
def answeredNotices (hs : List Hold) : List Notice := hs.map fun h => answeredNotice h.slot h.tag

/-- The bytes of host memory that the answers of a list of holds write in their slots (R149). -/
def State.answerRanges (s : State) (hs : List Hold) : List (Nat × Nat) :=
  (hs.map fun h => [(s.slotAddress h.slot, 1), (s.slotAddress h.slot + 4, 1), (s.slotAddress h.slot + 72, 56)]).flatten

/-- The slots of held inspections that one event ended, as the host finds them in `t` (R57, R149): each ANSWERED with
outcome DONE and the answer of its own judgement, made on the state `u` with the inspections before it on the list recorded.
-/
def State.ShowsEnded (t u : State) (hs : List Hold) : Prop :=
  ∀ i h, hs[i]? = some h →
    t.shows (t.slotAddress h.slot) [SlotState.answered.code] ∧
      t.shows (t.slotAddress h.slot + 4) [AnswerCode.done.code] ∧
      t.shows (t.slotAddress h.slot + 72) (padTo 56 ((u.inspectedAll (hs.take i)).inspectionBytes h))

/-! ### Port Control -/

/-- The port with the enables and the doze request of a Port Control write stored (R141). -/
def Port.stored (p : Port) (v : Word) : Port :=
  { p with
    enable := v.getLsbD 0
    noticeAttention := v.getLsbD 1
    faultAttention := v.getLsbD 2
    dozeRequest := v.getLsbD 3 }

/-- The power state that the doze request of a Port Control write gives, judged on the state the rest of the write leaves
(R159, R162). -/
def State.powerAfter (s : State) (v : Word) : PowerState :=
  if v.getLsbD 3 then
    match s.power with
    | .active => if s.port.state = .sweeping ∨ s.tables.load ≠ none ∨ s.tables.wiping = true then .dozePending else .doze
    | .dozePending => .dozePending
    | .doze => .doze
  else .active

/-! ### Invariants -/

/-- Both memories keep their canonical form, and their addresses lie in their address spaces. -/
structure MemoryInvariant (s : State) : Prop where
  host : Memory.wf s.hostMemory = true
  hostBound : ∀ c ∈ s.hostMemory, c.1 < hostSize
  table : Memory.wf s.tables.memory = true
  tableBound : ∀ c ∈ s.tables.memory, c.1 < tableSize

/-- The clock's items lie in the ranges of 1.1. -/
structure Clock.InRange (c : Clock) : Prop where
  dayLow : 1 ≤ c.day
  dayHigh : c.day ≤ 65535
  minute : c.minute ≤ 1439
  second : c.second ≤ 59
  dayChange : c.dayChange ≤ 359

/-- What always holds of the exchange port and the power state. -/
structure PortInvariant (s : State) : Prop where
  /-- The notice count lies in 0..64 (R153). -/
  noticeCount : s.port.noticeCount ≤ 64
  /-- At most one hold per slot (R150). -/
  holdSlots : (s.port.holds.map Hold.slot).Nodup
  /-- A slot on the hold list has its ended-hold mark clear (R146, R150). -/
  marks : ∀ h ∈ s.port.holds, s.port.endedMarks.get h.slot = false
  /-- The area starts on an 8 KiB boundary (R141). -/
  areaAligned : s.port.areaBase &&& 0x1FFF#32 = 0
  /-- The fault flag is set exactly in FAULT (R156, R157). -/
  faultFlag : s.port.faultFlag = true ↔ s.port.state = .fault
  /-- The fault cause is READ or WRITE exactly in FAULT (R141). -/
  faultCause : s.port.faultCause ≠ .noCause ↔ s.port.state = .fault
  /-- A sweep makes 32 examinations (R146). -/
  sweepLeft : s.port.sweepLeft ≤ 32
  /-- Outside SWEEPING there is no examination to make and no sweep-again flag (R143, R147, R156). -/
  outsideSweep : s.port.state ≠ .sweeping → s.port.sweepLeft = 0 ∧ s.port.sweepAgain = false
  /-- Between steps no request is in hand: a request is carried out within its step. -/
  inHand : s.port.inHand = none
  /-- In DOZE no sweep, load or wipe is under way (R159, R160). -/
  doze : s.power = .doze → s.underWay = false

/-- What R80 says of every roster entry. -/
structure Entry.Sound (e : Entry) : Prop where
  inspectionsLow : 1 ≤ e.inspections
  inspectionsHigh : e.inspections ≤ 255
  commits : e.mark.commitCount ≤ 255
  verdict : e.lastVerdict = foldVerdict e.lastReasons
  readable :
    ∀ r ∈ [Reason.checkFailed, .fieldRange, .unknownProduct, .rosterFull], hasReason e.lastReasons r = false
  deny : e.denyReason.isSome = hasReason e.lastReasons .denied
  watchOff : e.watch.kind = .none → e.watch = Watch.off
  watchLapse : e.watch.lapse.isSome = e.watch.kind.hasTime
  proposal : ∀ p ∈ e.mark.proposal, p.bytes.length = 16 ∧ (e.lastVerdict = .valid ∨ e.lastVerdict = .noted)

/-- What always holds of the roster (R79, R80). -/
structure RosterInvariant (s : State) : Prop where
  capacity : s.roster.length ≤ 512
  indices : ∀ (i : Nat) (e : Entry), s.roster[i]? = some e → e.index = i
  ids : (s.roster.map Entry.credentialId).Nodup
  sound : ∀ e ∈ s.roster, e.Sound

/-- What always holds of the table store (chapter 8, R14). -/
structure TableInvariant (s : State) : Prop where
  /-- A table is LOADING exactly while a load of it is in progress (R130). -/
  loading : ∀ k, (s.tables.descriptor k).state = .loading ↔ ∃ job, s.tables.load = some job ∧ job.kind = k
  /-- A damage cause is shown exactly in DAMAGED (R128). -/
  cause : ∀ k, (s.tables.descriptor k).cause ≠ .noCause ↔ (s.tables.descriptor k).state = .damaged
  level : ∀ k, (s.tables.descriptor k).level ≤ 3
  count : ∀ k, (s.tables.descriptor k).count ≤ k.capacity
  /-- The copy stays within the image (R130). -/
  copied : ∀ job, s.tables.load = some job → job.copied ≤ (s.tables.descriptor job.kind).count * job.kind.entrySize
  /-- A table that is LOADING or VALID has at least the least count of its kind (R129). -/
  least :
    ∀ k, (s.tables.descriptor k).state = .loading ∨ (s.tables.descriptor k).state = .valid →
      k.least ≤ (s.tables.descriptor k).count
  /-- A VALID table passes every test of R133 as it stands in table memory. -/
  valid : ∀ k, (s.tables.descriptor k).state = .valid → judgeImage s.tables k = .noCause
  /-- A VALID stops table has the ordinals of R14; otherwise none are kept. -/
  ordinals :
    s.tables.ordinals =
      if s.tables.stops.state = .valid then lineOrdinals ((s.tables.entries .stops).map Stop.ofBytes) else []
  /-- No load is in progress during a WIPE (R129, R138). -/
  wiping : s.tables.wiping = true → s.tables.load = none

/-- The ranges of an open run's record on a line of `n` stops (R16). -/
structure Run.InRange (r : Run) (n : Nat) : Prop where
  runId : r.runId ≠ 0
  terminal : r.terminal ≠ 0
  coachesLow : 1 ≤ r.coachCount
  coachesHigh : r.coachCount ≤ 16
  classes : r.coachClasses.length = r.coachCount ∧ ∀ c ∈ r.coachClasses, c = 1 ∨ c = 2
  sharedWindow : r.sharedWindow ≤ 60
  watchLead : r.watchLead ≤ 15
  skewTolerance : r.skewTolerance ≤ 15
  holdLimitLow : 1 ≤ r.holdLimit
  holdLimitHigh : r.holdLimit ≤ 30
  position : ∃ p, r.position = some p ∧ p < n
  nextStop : ∀ p, r.nextStop = some p → p < n
  announced : r.nextStop.isSome = true ↔ r.state = .running

/-- What always holds of the run: it is opened on a set clock and on VALID tables that stay VALID (R6, R13, R42), its record
is in range (R16), inspections are held and proposals stand only while it is open (R3, R28, R114), and none is open during a
WIPE (R138, R139). -/
structure RunInvariant (s : State) : Prop where
  clockSet : s.runOpen = true → s.clock.isSet = true
  stopsValid : s.runOpen = true → s.tables.stops.state = .valid
  tariffValid : s.runOpen = true → s.tables.tariff.state = .valid
  record : s.runOpen = true → s.run.InRange s.tables.stopCount
  holds : ∀ h ∈ s.port.holds, h.isInspect = true → s.runOpen = true
  proposals : s.runOpen = false → ∀ e ∈ s.roster, e.mark.proposal = none
  wiping : s.tables.wiping = true → s.runOpen = false

end Sys2Proof.Machine
end

