-- ==== Sys2Proof/Certificates/Slice0/Obligations.lean ====
section
/-! DEFINITION. The statements for the provers, block by block. `Env.quiet` means that nothing comes from outside while the
command is carried out: no host write, no failing access, no arrival. -/

open Sys2Proof Sys2Proof.Machine

/-! ### The queue, the sweep and the resets -/

/-- A step carries out the command at the front of the queue on the queue's rest. -/
def Obligations.StepTakesTheFrontCommand : Prop :=
  ∀ (c : Instr) (rest : List Instr) (s : State), step { s with pending := c :: rest } = exec c { s with pending := rest }

/-- What the part does with an empty queue (the model's choice, log entry 1). A request that stands POSTED in the slot the
sweep examines next is carried out as the request command carries it out (R146), and the next block of a load in progress is
copied (R130). A part that is not sweeping and has no load in progress stays as it is. -/
def Obligations.SweepCarriesOutThePostedSlot : Prop :=
  (∀ (s : State) (slot : Slot) (tag : Half) (r : Request), Memory.wf s.hostMemory = true → s.pending = [] →
     s.port.state = .sweeping → 0 < s.port.sweepLeft → s.port.sweepNext = slot → s.isHeld slot = false →
     r.wellFormed = true →
     ∃ u,
       exec (r.command slot tag Env.quiet) s = .next (endStep u) ∧
         step (post slot tag r s) = .next (endStep (copyBlock u))) ∧
  ∀ s : State, s.pending = [] → s.port.state ≠ .sweeping → s.busLeft = none → s.arrivals = [] → s.owed = [] →
    (s.tables.load = none → s.power ≠ .dozePending → step s = .next s) ∧
    ∀ job, s.tables.load = some job → min 512 (s.tables.toCopy job) < s.tables.toCopy job →
      step s =
        .next
          { s with
            tables :=
              { s.tables with
                memory :=
                  Memory.writeRun tableSize s.tables.memory (job.kind.base + job.copied)
                    (s.hostBytes (job.source + job.copied) 512)
                load := some { job with copied := job.copied + 512 } } }

/-- Power-on reset gives every block its power-on values, whatever went before; host memory and the queue are not the part's
(log entry 25). After it every register reads 0 and ATTN is released (R158, R155); that an offset which holds no register
reads 0 too is the model's choice (log entry 21). -/
def Obligations.PowerOnResetClearsEveryBlock : Prop :=
  (∀ s : State,
    ∃ t,
      exec .powerOnReset s = .next t ∧ t.hostMemory = s.hostMemory ∧ t.pending = s.pending ∧
        t.port = State.reset.port ∧ t.clock = { day := 1, minute := 0, second := 0, dayChange := 180, isSet := false } ∧
        t.run = State.reset.run ∧ t.tables = State.reset.tables ∧ t.roster = [] ∧ t.power = .active ∧
        (∀ offset, t.readRegister offset = 0) ∧ t.attention = false) ∧
  State.reset.port.state = .stopped ∧ State.reset.port.holds = [] ∧ State.reset.port.nextSequence = 0 ∧
  State.reset.run.state = .noRun ∧ State.reset.run.position = none ∧
  (∀ k, (State.reset.tables.descriptor k).state = .absent ∧ (State.reset.tables.descriptor k).level = 0) ∧
  (∀ a, Memory.read State.reset.tables.memory a = 0)

/-! ### The clock -/

/-- The derivation of the service day, service minute and clock count, its bounds, and its inverse (R2). -/
def Obligations.ClockCountDerivation : Prop :=
  (∀ c : Clock, c.InRange →
    (c.dayChange ≤ c.minute → c.serviceDay = c.day ∧ c.serviceMinute = c.minute - c.dayChange) ∧
    (c.minute < c.dayChange → c.serviceDay = c.day - 1 ∧ c.serviceMinute = c.minute + 1440 - c.dayChange) ∧
    c.count = c.serviceDay * 1440 + c.serviceMinute ∧ c.count + c.dayChange = c.day * 1440 + c.minute ∧
    ((c.day = 65535 ∧ c.minute = 1439) ∨ c.advance.count = c.count + 1) ∧
    1440 - c.dayChange ≤ c.count ∧ c.count ≤ 94371839 - c.dayChange ∧
    (c.day = 1 → c.minute = 0 → c.count = 1440 - c.dayChange) ∧
    (c.day = 65535 → c.minute = 1439 → c.count = 94371839 - c.dayChange) ∧
    1081 ≤ c.count ∧ c.count ≤ 94371839 ∧ c.count < 2 ^ 27 ∧ c.serviceDay ≤ 65535 ∧
    (c.serviceDay = 0 ↔ c.day = 1 ∧ c.minute < c.dayChange) ∧
    c.atCount c.count c.second = c) ∧
  ∀ (c : Clock) (n second : Nat),
    (n % 1440 + c.dayChange < 1440 →
      (c.atCount n second).day = n / 1440 ∧ (c.atCount n second).minute = n % 1440 + c.dayChange) ∧
    (1440 ≤ n % 1440 + c.dayChange →
      (c.atCount n second).day = n / 1440 + 1 ∧ (c.atCount n second).minute = n % 1440 + c.dayChange - 1440)

/-- SECOND_ADVANCE: below 59 the second rises by one and nothing else changes; from 59 it is the minute tick; at the top
reading the second stays at 59 and there is no tick (R1, R5). MINUTE_TICK at the top reading leaves the second at 59 (the
model's choice, log entry 10). -/
def Obligations.SecondAdvances : Prop :=
  ∀ s : State,
    (s.clock.second < 59 →
      exec (.secondAdvance Env.quiet) s =
        .next (endStep { s with clock := { s.clock with second := s.clock.second + 1 } })) ∧
    (s.clock.second = 59 → exec (.secondAdvance Env.quiet) s = exec (.minuteTick Env.quiet) s) ∧
    (s.clock.day = 65535 → s.clock.minute = 1439 →
      exec (.minuteTick Env.quiet) s = .next (endStep { s with clock := { s.clock with second := 59 } }))

/-- A minute tick below the top reading (R1, R3, R4, R12, R59, R104, R117, R151), at whatever second the command comes (the
model's choice, log entry 10): the clock reads the next minute and the clock mirror is rewritten. With no hold at its limit,
every entry is examined with the new clock count by the watch monitor and the mark unit, and the DAY_CHANGED, WATCH and
PROPOSAL_LAPSED notices stand in the ring, each consumer's own in its order. Where holds reach their limit and nothing else
is due, they are judged with the new clock count, recorded and answered DONE in hold-list order, and leave the list; in
STOPPED the same, with nothing written to host memory. -/
def Obligations.MinuteTickDelivers : Prop :=
  (∀ s : State, Memory.wf s.hostMemory = true → ¬(s.clock.day = 65535 ∧ s.clock.minute = 1439) →
     s.dueHolds s.clock.advance.count = [] →
     ∃ notices m k,
       notices.Perm
           ((if s.clock.isSet = true ∧ s.clock.advance.serviceDay ≠ s.clock.serviceDay then
               [dayNotice s.clock.advance.serviceDay]
             else [])
             ++ s.tickWatchNotices s.clock.advance.count ++ s.tickLapseNotices s.clock.advance.count) ∧
         (s.tickWatchNotices s.clock.advance.count).Sublist notices ∧
         (s.tickLapseNotices s.clock.advance.count).Sublist notices ∧
         exec (.minuteTick Env.quiet) s =
           .next
             (endStep
               { s with
                 clock := s.clock.advance
                 roster := s.roster.map (Entry.ticked s s.clock.advance.count)
                 port := s.port.told notices.length
                 hostMemory := m
                 turns := s.turns + k }) ∧
         s.Told { s with clock := s.clock.advance, hostMemory := m } notices [(0x20, s.clock.advance.mirror)]) ∧
  ∀ (s u : State) (n : Nat) (due : List Hold), Memory.wf s.hostMemory = true →
    ¬(s.clock.day = 65535 ∧ s.clock.minute = 1439) → n = s.clock.advance.count →
    (s.clock.isSet = true → s.clock.advance.serviceDay = s.clock.serviceDay) →
    (∀ e ∈ s.roster, Entry.ticked s n e = e) → (s.port.holds.map Hold.slot).Nodup →
    due = s.port.holds.filter (fun h => h.limitReached n) → u = { s with clock := s.clock.advance } →
    (∀ h ∈ s.port.holds, h ∈ due ↔ ∃ limit copy, h.work = .inspect limit copy ∧ limit ≤ n) ∧
    (s.port.state.writes = true →
      ∃ t m,
        t =
            endStep
              { u with
                roster := (u.inspectedAll due).roster
                port := (s.port.offered due.length).holdsEnded due
                hostMemory := m } ∧
          exec (.minuteTick Env.quiet) s = .next t ∧ t.ShowsEnded u due ∧ s.RingShows t (answeredNotices due) ∧
          t.shows (s.areaAddress + 0x20) s.clock.advance.mirror ∧
          (t.roster.length ≠ s.roster.length → t.shows (s.areaAddress + 0x10) t.runMirror) ∧
          s.writesOnly t
            (s.answerRanges due ++ s.ringRanges due.length ++ [(s.areaAddress + 0x20, 16), (s.areaAddress + 0x10, 16)])) ∧
    (s.port.state = .stopped →
      exec (.minuteTick Env.quiet) s =
        .next (endStep { u with roster := (u.inspectedAll due).roster, port := s.port.holdsEnded due }))

/-- SET_CLOCK with no run open sets the clock outright (R7, R8, R12): the given reading, the given day-change minute or the
one in force, the clock-set flag, a delta of 0; the mirror follows a changed reading and DAY_CHANGED a changed service day.
One out of range is refused with REFUSED_ARGUMENT, and one that gives another day-change minute during a run with
REFUSED_RUN_OPEN: nothing changes, and the answer carries a delta of 0 and the reading in force. -/
def Obligations.SetClockOutrightOrRefused : Prop :=
  (∀ (s : State) (slot : Slot) (tag : Half) (a : SetClockArgs) (c : Clock), Memory.wf s.hostMemory = true → s.isNext slot →
     s.runOpen = false → 1 ≤ a.day.toNat → a.minute.toNat ≤ 1439 → a.second.toNat ≤ 59 →
     (flagSet a.presentFlag = true → a.dayChange.toNat ≤ 359) →
     c =
       { day := a.day.toNat, minute := a.minute.toNat, second := a.second.toNat,
         dayChange := if flagSet a.presentFlag then a.dayChange.toNat else s.clock.dayChange, isSet := true } →
     s.Answers slot tag (.setClock a) { s with clock := c } .done (clockAnswer 0 c)
       (if c.serviceDay = s.clock.serviceDay then [] else [dayNotice c.serviceDay])
       (if c.mirror = s.clock.mirror then [] else [(0x20, c.mirror)])) ∧
  ∀ (s : State) (slot : Slot) (tag : Half) (a : SetClockArgs), Memory.wf s.hostMemory = true → s.isNext slot →
    ((a.day.toNat = 0 ∨ 1439 < a.minute.toNat ∨ 59 < a.second.toNat ∨
        (flagSet a.presentFlag = true ∧ 359 < a.dayChange.toNat)) →
      s.AnswersUnchanged slot tag (.setClock a) .refusedArgument (clockAnswer 0 s.clock)) ∧
    (1 ≤ a.day.toNat → a.minute.toNat ≤ 1439 → a.second.toNat ≤ 59 → flagSet a.presentFlag = true →
      a.dayChange.toNat ≤ 359 → a.dayChange.toNat ≠ s.clock.dayChange → s.runOpen = true →
      s.AnswersUnchanged slot tag (.setClock a) .refusedRunOpen (clockAnswer 0 s.clock))

/-- SET_CLOCK during a run (R9, R10): the requested difference is limited to fifteen minutes and to the clock's range; a
delta of 0 writes the second alone; any other delta is one clock step, delivered with the stepped clock count to the watch
monitor and the mark unit after CLOCK_STEPPED and DAY_CHANGED (here with no hold reaching its limit). -/
def Obligations.SetClockSteps : Prop :=
  ∀ (s : State) (slot : Slot) (tag : Half) (a : SetClockArgs) (requested delta : Int) (c : Clock),
    Memory.wf s.hostMemory = true → s.isNext slot → s.clock.InRange → s.runOpen = true →
    1 ≤ a.day.toNat → a.minute.toNat ≤ 1439 → a.second.toNat ≤ 59 →
    (flagSet a.presentFlag = true → a.dayChange.toNat = s.clock.dayChange) →
    requested = (a.day.toNat : Int) * 1440 + a.minute.toNat - s.clock.dayChange - s.clock.count →
    delta =
      max (1440 - (s.clock.dayChange : Int))
          (min (94371839 - (s.clock.dayChange : Int)) (s.clock.count + max (-15) (min 15 requested)))
        - s.clock.count →
    c.count = (s.clock.count : Int) + delta → c.InRange → c.second = a.second.toNat → c.dayChange = s.clock.dayChange →
    c.isSet = s.clock.isSet →
    (delta = 0 →
      s.Answers slot tag (.setClock a) { s with clock := { s.clock with second := a.second.toNat } }
        (if delta = requested then .done else .clamped) (clockAnswer 0 { s.clock with second := a.second.toNat }) [] []) ∧
    (delta ≠ 0 → s.dueHolds c.count = [] →
      ∃ notices k,
        notices.Perm (s.tickWatchNotices c.count ++ s.tickLapseNotices c.count) ∧
          (s.tickWatchNotices c.count).Sublist notices ∧ (s.tickLapseNotices c.count).Sublist notices ∧
          s.Answers slot tag (.setClock a)
            { s with clock := c, roster := s.roster.map (Entry.ticked s c.count), turns := s.turns + k }
            (if delta = requested then .done else .clamped) (clockAnswer delta c)
            (steppedNotice delta :: (if c.serviceDay = s.clock.serviceDay then [] else [dayNotice c.serviceDay]) ++ notices)
            [(0x20, c.mirror)])

/-! ### The line and the run -/

/-- The zone ordinals of a line of stops (R14), and what lies ahead (R15). -/
def Obligations.LineGeometry : Prop :=
  (∀ stops : List Stop,
    (lineOrdinals stops).length = stops.length ∧
    ((lineOrdinals stops).getD 0 0 = 0) ∧
    (∀ (i : Nat) (x y : Stop), stops[i]? = some x → stops[i + 1]? = some y →
      (lineOrdinals stops).getD (i + 1) 0 =
        (lineOrdinals stops).getD i 0 + if y.network ≠ x.network ∨ y.zone ≠ x.zone then 1 else 0) ∧
    (∀ i j, i ≤ j → j < stops.length → (lineOrdinals stops).getD i 0 ≤ (lineOrdinals stops).getD j 0)) ∧
  (∀ i j : Nat, (Direction.up.isAhead i j = true ↔ i < j) ∧ (Direction.down.isAhead i j = true ↔ j < i)) ∧
  (∀ (d : Direction) (i : Nat), d.isAhead i i = false) ∧
  (∀ n, Direction.up.terminus n = n - 1 ∧ Direction.down.terminus n = 0) ∧
  (∀ (d : Direction) (n j : Nat), j < n → d.isAhead (d.terminus n) j = false) ∧
  ∀ (d : Direction) (n i j : Nat), i < n → (j ∈ stopsAhead n d i ↔ j < n ∧ d.isAhead i j = true)

/-- OPEN_RUN (R17 to R19, R94). One that passes every check of R17 has its settings adopted, clears the roster, fills the
run record and stands at the start stop, and its answer carries the settings as adopted. Otherwise the first check that
fails gives the outcome, and nothing changes. -/
def Obligations.OpenRunAnswered : Prop :=
  (∀ (s : State) (slot : Slot) (tag : Half) (a : OpenRunArgs) (d : Direction) (r : Run), Memory.wf s.hostMemory = true →
     s.isNext slot → s.runOpen = false → s.tables.stops.state = .valid → s.tables.tariff.state = .valid →
     s.tables.wiping = false → s.clock.isSet = true → a.classes.length = 16 → a.runId ≠ 0 → a.terminal ≠ 0 →
     Direction.ofByte a.direction = some d → a.startStop.toNat < s.tables.stopCount → 1 ≤ a.coachCount.toNat →
     a.coachCount.toNat ≤ 16 → (∀ c ∈ a.classes.take a.coachCount.toNat, c = 1 ∨ c = 2) →
     r =
       { state := .standing, runId := a.runId, terminal := a.terminal, direction := d, coachCount := a.coachCount.toNat,
         coachClasses := (a.classes.take a.coachCount.toNat).map BitVec.toNat,
         sharedWindow := min 60 a.sharedWindow.toNat, watchLead := min 15 a.watchLead.toNat,
         skewTolerance := min 15 a.skewTolerance.toNat,
         holdLimit := if a.holdLimit = 0 then 10 else min 30 a.holdLimit.toNat,
         position := some a.startStop.toNat, nextStop := none } →
     r.evaluationStop = some a.startStop.toNat ∧
     s.Answers slot tag (.openRun a) { s with roster := [], run := r }
       (if 60 < a.sharedWindow.toNat ∨ 15 < a.watchLead.toNat ∨ 15 < a.skewTolerance.toNat ∨ 30 < a.holdLimit.toNat then
         .clamped
        else .done)
       (le 1 RunState.standing.code ++ [a.startStop, a.startStop] ++ le 1 r.sharedWindow ++ le 1 r.watchLead
         ++ le 1 r.skewTolerance ++ le 1 r.holdLimit)
       [] [(0x10, State.runMirror { s with roster := [], run := r })]) ∧
  ∀ (s : State) (slot : Slot) (tag : Half) (a : OpenRunArgs), Memory.wf s.hostMemory = true → s.isNext slot →
    a.classes.length = 16 →
    (s.runOpen = true → s.AnswersUnchanged slot tag (.openRun a) .refusedRunOpen (openAnswerHead s.run)) ∧
    (s.runOpen = false →
      (s.tables.stops.state ≠ .valid ∨ s.tables.tariff.state ≠ .valid ∨ s.tables.wiping = true) →
      s.AnswersUnchanged slot tag (.openRun a) .refusedTablesNotReady (openAnswerHead s.run)) ∧
    (s.runOpen = false → s.tables.stops.state = .valid → s.tables.tariff.state = .valid → s.tables.wiping = false →
      s.clock.isSet = false →
      s.AnswersUnchanged slot tag (.openRun a) .refusedClockNotSet (openAnswerHead s.run)) ∧
    (s.runOpen = false → s.tables.stops.state = .valid → s.tables.tariff.state = .valid → s.tables.wiping = false →
      s.clock.isSet = true →
      (a.runId = 0 ∨ a.terminal = 0 ∨ (a.direction ≠ 0 ∧ a.direction ≠ 1) ∨ s.tables.stopCount ≤ a.startStop.toNat ∨
        a.coachCount = 0 ∨ 16 < a.coachCount.toNat ∨ ∃ c ∈ a.classes.take a.coachCount.toNat, c ≠ 1 ∧ c ≠ 2) →
      s.AnswersUnchanged slot tag (.openRun a) .refusedArgument (openAnswerHead s.run))

/-- An accepted DEPART (R21, R23, R32, R106): the position stop stays; with UNKNOWN the run is RUNNING_UNPLACED and no watch
is examined; with a next stop it is RUNNING, every entry meets the zone advance at that stop, and the WATCH notices stand in
the ring before the ANSWERED notice. The run mirror is rewritten. -/
def Obligations.DepartAccepted : Prop :=
  ∀ (s : State) (slot : Slot) (tag : Half) (next : Byte) (p : Nat), Memory.wf s.hostMemory = true → s.isNext slot →
    s.run.state = .standing → s.run.position = some p → p ≠ s.run.direction.terminus s.tables.stopCount →
    (next = 0xFF →
      s.Answers slot tag (.depart next) { s with run := { s.run with state := .runningUnplaced, nextStop := none } } .done
        (le 1 RunState.runningUnplaced.code ++ [BitVec.ofNat 8 p, 0xFF, 0xFF]) []
        [(0x10, State.runMirror { s with run := { s.run with state := .runningUnplaced, nextStop := none } })]) ∧
    (next ≠ 0xFF → next.toNat < s.tables.stopCount → s.run.direction.isAhead p next.toNat = true →
      s.Answers slot tag (.depart next)
        { s with
          run := { s.run with state := .running, nextStop := some next.toNat }
          roster := s.roster.map (Entry.zoned s.tables s.run.direction next.toNat) }
        .done (le 1 RunState.running.code ++ [BitVec.ofNat 8 p, next, next]) (s.zoneNotices next.toNat)
        [(0x10,
          State.runMirror { s with run := { s.run with state := .running, nextStop := some next.toNat } })])

/-- The refusals of DEPART in the order of R22 and of ARRIVE in the order of R24. A refused DEPART or ARRIVE changes
nothing, releases no hold and delivers no zone advance, and its answer carries the run as it stood. -/
def Obligations.PassagesRefused : Prop :=
  (∀ (s : State) (slot : Slot) (tag : Half) (next : Byte), Memory.wf s.hostMemory = true → s.isNext slot →
     ((s.run.state = .noRun ∨ s.run.state = .closed) →
       s.AnswersUnchanged slot tag (.depart next) .refusedNoRun (passageAnswer s.run)) ∧
     ((s.run.state = .running ∨ s.run.state = .runningUnplaced) →
       s.AnswersUnchanged slot tag (.depart next) .refusedSequence (passageAnswer s.run)) ∧
     ∀ p, s.run.state = .standing → s.run.position = some p →
       (p = s.run.direction.terminus s.tables.stopCount →
         s.AnswersUnchanged slot tag (.depart next) .refusedEndOfLine (passageAnswer s.run)) ∧
       (p ≠ s.run.direction.terminus s.tables.stopCount → next ≠ 0xFF → s.tables.stopCount ≤ next.toNat →
         s.AnswersUnchanged slot tag (.depart next) .refusedArgument (passageAnswer s.run)) ∧
       (p ≠ s.run.direction.terminus s.tables.stopCount → next ≠ 0xFF → next.toNat < s.tables.stopCount →
         s.run.direction.isAhead p next.toNat = false →
         s.AnswersUnchanged slot tag (.depart next) .refusedSequence (passageAnswer s.run))) ∧
  ∀ (s : State) (slot : Slot) (tag : Half) (stop : Byte), Memory.wf s.hostMemory = true → s.isNext slot →
    ((s.run.state = .noRun ∨ s.run.state = .closed) →
      s.AnswersUnchanged slot tag (.arrive stop) .refusedNoRun (passageAnswer s.run)) ∧
    (s.run.state = .standing →
      s.AnswersUnchanged slot tag (.arrive stop) .refusedSequence (passageAnswer s.run)) ∧
    ∀ p, (s.run.state = .running ∨ s.run.state = .runningUnplaced) → s.run.position = some p →
      (s.tables.stopCount ≤ stop.toNat →
        s.AnswersUnchanged slot tag (.arrive stop) .refusedArgument (passageAnswer s.run)) ∧
      (stop.toNat < s.tables.stopCount → s.run.direction.isAhead p stop.toNat = false →
        s.AnswersUnchanged slot tag (.arrive stop) .refusedSequence (passageAnswer s.run))

/-- An accepted ARRIVE (R21, R25 to R27, R32, R106): the run stands at the stop, every entry meets the zone advance there,
the WATCH notices stand before the ANSWERED notice, and the run mirror is rewritten. Of the holds awaiting PLACEMENT every
one is carried over to DENY_LOAD with its place and its limit, and none is answered, while the deny table is LOADING;
otherwise they are judged at the arrived stop, after the zone advance, recorded and answered in hold-list order before the
ARRIVE. -/
def Obligations.ArriveAccepted : Prop :=
  (∀ (s : State) (slot : Slot) (tag : Half) (stop : Byte) (p : Nat), Memory.wf s.hostMemory = true → s.isNext slot →
     (s.run.state = .running ∨ s.run.state = .runningUnplaced) → s.run.position = some p →
     stop.toNat < s.tables.stopCount → s.run.direction.isAhead p stop.toNat = true →
     (∀ h ∈ s.port.holds, h.awaits ≠ .placement) →
     s.Answers slot tag (.arrive stop)
       { s with
         run := { s.run with state := .standing, position := some stop.toNat, nextStop := none }
         roster := s.roster.map (Entry.zoned s.tables s.run.direction stop.toNat) }
       .done (le 1 RunState.standing.code ++ [stop, 0xFF, stop]) (s.zoneNotices stop.toNat)
       [(0x10,
         State.runMirror
           { s with run := { s.run with state := .standing, position := some stop.toNat, nextStop := none } })]) ∧
  ∀ (s u : State) (slot : Slot) (tag : Half) (stop : Byte) (p : Nat), Memory.wf s.hostMemory = true → s.isNext slot →
    (s.run.state = .running ∨ s.run.state = .runningUnplaced) → s.run.position = some p →
    stop.toNat < s.tables.stopCount → s.run.direction.isAhead p stop.toNat = true →
    (s.port.holds.map Hold.slot).Nodup →
    u =
      { s with
        run := { s.run with state := .standing, position := some stop.toNat, nextStop := none }
        roster := s.roster.map (Entry.zoned s.tables s.run.direction stop.toNat) } →
    (s.tables.deny.state = .loading →
      s.Answers slot tag (.arrive stop)
        { u with
          port :=
            { s.port with
              holds := s.port.holds.map fun h => if h.awaits = .placement then { h with awaits := .denyLoad } else h } }
        .done (le 1 RunState.standing.code ++ [stop, 0xFF, stop]) (s.zoneNotices stop.toNat) [(0x10, u.runMirror)]) ∧
    ∀ released : List Hold, s.tables.deny.state ≠ .loading →
      released = s.port.holds.filter (fun h => h.awaits == .placement) → (∀ h ∈ released, h.isInspect = true) →
      (∀ (copy : InspectCopy) (roster : List Entry), (judge copy { u with roster := roster }).stop = stop.toNat) ∧
      ∃ t m,
        t =
            State.requestDone
              { u with roster := (u.inspectedAll released).roster, port := s.port.holdsEnded released } slot
              ((s.zoneNotices stop.toNat).length + released.length + 1) m ∧
          exec (.arrive slot tag stop Env.quiet) s = .next t ∧ t.ShowsEnded u released ∧
          t.SlotAnswered slot tag (.arrive stop) .done (le 1 RunState.standing.code ++ [stop, 0xFF, stop]) ∧
          s.RingShows t (s.zoneNotices stop.toNat ++ answeredNotices released ++ [answeredNotice slot tag]) ∧
          t.shows (s.areaAddress + 0x10) t.runMirror ∧
          s.writesOnly t
            ([(s.slotAddress slot, 5), (s.slotAddress slot + 8, 120)] ++ s.answerRanges released
              ++ s.ringRanges ((s.zoneNotices stop.toNat).length + released.length + 1) ++ [(s.areaAddress + 0x10, 16)])

/-- CLOSE_RUN (R28, R29, R32, R93, R125). With no run open it is refused, with answer bytes of zero (the model's choice, log
entry 16). Otherwise every held INSPECT is judged as the state stands, recorded and answered DONE, in hold-list order and
before the CLOSE_RUN, with POSITION_ASSUMED at the last departed stop while the run is RUNNING_UNPLACED and with
DENY_NOT_CHECKED while the deny table is LOADING; then the proposals go without a notice, the run becomes CLOSED and the
answer is the summary: the entries, the entries of each verdict class, the lapsed watches and the marks committed. The holds
of LOAD_TABLE stay. -/
def Obligations.CloseRunAnswered : Prop :=
  ∀ (s : State) (slot : Slot) (tag : Half) (summary : List Entry → List Byte), Memory.wf s.hostMemory = true →
    s.isNext slot →
    (∀ r : List Entry,
      summary r =
        [4, 0] ++ le 2 r.length ++ le 2 (r.countP fun e => e.lastVerdict == .valid)
          ++ le 2 (r.countP fun e => e.lastVerdict == .noted) ++ le 2 (r.countP fun e => e.lastVerdict == .upgrade)
          ++ le 2 (r.countP fun e => e.lastVerdict == .suspect) ++ le 2 (r.countP fun e => e.lastVerdict == .invalid)
          ++ le 2 (r.countP fun e => e.lastVerdict == .revoked) ++ le 2 (r.countP fun e => e.lastVerdict == .unreadable)
          ++ le 2 (r.countP fun e => e.watch.stage == .lapsed)
          ++ le 2 (min 65535 (r.map fun e => e.mark.commitCount).sum)) →
    (s.runOpen = false → s.AnswersUnchanged slot tag .closeRun .refusedNoRun []) ∧
    (s.runOpen = true → (∀ h ∈ s.port.holds, h.isInspect = false) →
      s.Answers slot tag .closeRun
        { s with run := { s.run with state := .closed }, roster := s.roster.map Entry.discardProposal } .done
        (summary (s.roster.map Entry.discardProposal)) []
        [(0x10,
          State.runMirror { s with run := { s.run with state := .closed } })]) ∧
    (s.runOpen = true → (s.port.holds.map Hold.slot).Nodup →
      ∀ held : List Hold, held = s.port.holds.filter Hold.isInspect →
      ∃ t m,
        t =
            State.requestDone
              { s with
                run := { s.run with state := .closed }
                roster := (s.inspectedAll held).roster.map fun e => { e with mark := { e.mark with proposal := none } }
                port := s.port.holdsEnded held }
              slot (held.length + 1) m ∧
          exec (.closeRun slot tag Env.quiet) s = .next t ∧ t.ShowsEnded s held ∧
          t.SlotAnswered slot tag .closeRun .done (summary t.roster) ∧
          s.RingShows t (answeredNotices held ++ [answeredNotice slot tag]) ∧ t.shows (s.areaAddress + 0x10) t.runMirror ∧
          s.writesOnly t
            ([(s.slotAddress slot, 5), (s.slotAddress slot + 8, 120)] ++ s.answerRanges held
              ++ s.ringRanges (held.length + 1) ++ [(s.areaAddress + 0x10, 16)])) ∧
    ∀ (copy : InspectCopy) (roster : List Entry) (j : Judgement), j = judge copy { s with roster := roster } →
      (s.run.state = .runningUnplaced →
        hasReason j.reasons .positionAssumed = true ∧ j.stop = s.run.position.getD 0) ∧
      (s.tables.deny.state = .loading → hasReason j.reasons .denyNotChecked = true)

/-! ### The inspection -/

/-- The CRC of R34: from FFFFh, each byte into the upper eight bits, then eight shifts with the generator 1021h; its two
printed values; and a stored check lies low byte first, so that the record of a credential and the sixteen bytes of a mark
pass exactly with the CRC of the bytes before it. -/
def Obligations.CrcOfRecords : Prop :=
  crc [] = 0xFFFF#16 ∧
  (∀ (bs : List Byte) (b : Byte), crc (bs ++ [b]) = crcShift^[8] (crc bs ^^^ (b.setWidth 16 <<< 8))) ∧
  (∀ r : BitVec 16, (r.msb = true → crcShift r = (r <<< 1) ^^^ 0x1021#16) ∧ (r.msb = false → crcShift r = r <<< 1)) ∧
  crc [0x31, 0x32, 0x33, 0x34, 0x35, 0x36, 0x37, 0x38, 0x39] = 0x29B1#16 ∧ crc [0x00] = 0xE1F0#16 ∧
  (∀ record : List Byte, record.length = 46 →
    (checkGood record = true ↔ record.drop 44 = le 2 (crc (record.take 44)).toNat) ∧
    (crc (record.take 44) = 0xE1F0#16 → (checkGood record = true ↔ record.drop 44 = [0xF0, 0xE1]))) ∧
  ∀ mark : List Byte, mark.length = 16 →
    (crc (mark.take 14) = (Mark.ofBytes mark).check ↔ mark.drop 14 = le 2 (crc (mark.take 14)).toNat)

/-- A taken INSPECT that reaches no stage, or ends at stage 1, 2 or 3 (R35 to R37, R42, R52 to R54, R77): nothing changes;
the answer is that of R77 with the clock count in force. -/
def Obligations.InspectNotEvaluated : Prop :=
  ∀ (s : State) (slot : Slot) (tag : Half) (a : InspectArgs) (c : Credential), Memory.wf s.hostMemory = true →
    s.isNext slot → a.record.length = 46 → c = Credential.ofRecord a.record →
    (s.runOpen = false →
      s.AnswersUnchanged slot tag (.inspect a) .refusedNoRun (notEvaluated .valid 0 s.clockCount).bytes) ∧
    (s.runOpen = true → (a.coach = 0 ∨ s.run.coachCount < a.coach.toNat ∨ 9 < a.heads.toNat) →
      s.AnswersUnchanged slot tag (.inspect a) .refusedArgument (notEvaluated .valid 0 s.clockCount).bytes) ∧
    (s.runOpen = true → a.coach ≠ 0 → a.coach.toNat ≤ s.run.coachCount → a.heads.toNat ≤ 9 →
      (crc (a.record.take 44) ≠ c.check →
        s.AnswersUnchanged slot tag (.inspect a) .done (notEvaluated .unreadable 0x0001 s.clockCount).bytes) ∧
      (crc (a.record.take 44) = c.check → c.generalRanges = false →
        s.AnswersUnchanged slot tag (.inspect a) .done (notEvaluated .unreadable 0x0002 s.clockCount).bytes) ∧
      (crc (a.record.take 44) = c.check → c.generalRanges = true → s.tables.productWithCode c.productCode = none →
        s.AnswersUnchanged slot tag (.inspect a) .done (notEvaluated .unreadable 0x0004 s.clockCount).bytes) ∧
      ∀ p, crc (a.record.take 44) = c.check → c.generalRanges = true →
        s.tables.productWithCode c.productCode = some p → c.kindRanges p = false →
        s.AnswersUnchanged slot tag (.inspect a) .done (notEvaluated .unreadable 0x0002 s.clockCount).bytes)

/-- An INSPECT that has passed stage 3 is held (R55, R56, R150): for PLACEMENT while the run is RUNNING_UNPLACED, else for
DENY_LOAD while the deny table is LOADING; its hold stands last, with the hold limit count and what was read at take. -/
def Obligations.InspectHeld : Prop :=
  ∀ (s : State) (slot : Slot) (tag : Half) (a : InspectArgs) (c : Credential) (p : Product) (awaits : Awaits),
    Memory.wf s.hostMemory = true → s.isNext slot → a.record.length = 46 → c = Credential.ofRecord a.record →
    s.runOpen = true → a.coach ≠ 0 → a.coach.toNat ≤ s.run.coachCount → a.heads.toNat ≤ 9 →
    crc (a.record.take 44) = c.check → c.generalRanges = true → s.tables.productWithCode c.productCode = some p →
    c.kindRanges p = true →
    ((s.run.state = .runningUnplaced ∧ awaits = .placement) ∨
      (s.run.state ≠ .runningUnplaced ∧ s.tables.deny.state = .loading ∧ awaits = .denyLoad)) →
    s.Parks slot tag (.inspect a) s
      { slot := slot, tag := tag, awaits := awaits,
        work :=
          .inspect (s.clockCount + s.run.holdLimit)
            { coach := a.coach.toNat, heads := a.heads.toNat, record := a.record, product := p } } []

/-- An INSPECT that stage 4 does not hold is judged and recorded (R53, R61, R74 to R76, R80 to R83, R114): the judgement
holds the reasons of stages 5 to 10 together, folded, at the clock count in force; the entry of its credential id is updated
in place, or created at the next index with the run mirror rewritten, with a watch newly armed and a proposal made exactly
under the conditions of R114; with 512 entries and none of its id, the roster is unchanged and the answer has ROSTER_FULL
added and the set folded again. No notice but the ANSWERED one is written. -/
def Obligations.InspectRecorded : Prop :=
  ∀ (s : State) (slot : Slot) (tag : Half) (a : InspectArgs) (c : Credential) (p : Product) (copy : InspectCopy)
    (j : Judgement) (proposal : Option Proposal) (denied : Option Half),
    Memory.wf s.hostMemory = true → s.isNext slot → a.record.length = 46 → c = Credential.ofRecord a.record →
    s.runOpen = true → a.coach ≠ 0 → a.coach.toNat ≤ s.run.coachCount → a.heads.toNat ≤ 9 →
    crc (a.record.take 44) = c.check → c.generalRanges = true → s.tables.productWithCode c.productCode = some p →
    c.kindRanges p = true → s.run.state ≠ .runningUnplaced → s.tables.deny.state ≠ .loading →
    copy = { coach := a.coach.toNat, heads := a.heads.toNat, record := a.record, product := p } → j = judge copy s →
    proposal =
      (if (j.verdict = .valid ∨ j.verdict = .noted) ∧ p.markable = true ∧ c.media = 1 then
        some (composeProposal s.run j copy)
       else none) →
    denied = (if hasReason j.reasons .denied then some j.denyCode else none) →
    s.Answers slot tag (.inspect a) { s with roster := s.recordedRoster j copy } .done (s.recordedAnswer j copy) []
      (s.recordedMirrors j copy) ∧
    (j.reasons =
        reasonSet
          ((denyStage s.tables c.credentialId s.clockCount).1 ++ timeReasons s.run.skewTolerance p c s.clockCount
            ++ positionReasons s.run ++ placeReasons s.tables p c s.run.judgingStop
            ++ classReasons s.run a.coach.toNat p ++ headsReasons a.heads.toNat c
            ++ historyReasons s.run s.roster c a.coach.toNat s.clockCount) ∧
      j.verdict = foldVerdict j.reasons ∧ j.clockCount = s.clockCount ∧
      j.remaining = (p.endCount c : Int) - s.clockCount ∧ j.stop = s.run.judgingStop ∧
      j.coverage = coverageOf s.tables p c ∧ j.zonesAhead = zonesAhead s.tables s.run.direction j.coverage j.stop ∧
      j.denyCode = (denyStage s.tables c.credentialId s.clockCount).2 ∧ j.lapseCount = p.endCount c + p.grace) ∧
    (∀ (i : Nat) (e f : Entry), s.roster[i]? = some e → e.credentialId = c.credentialId →
      (∀ k < i, ∀ x, s.roster[k]? = some x → x.credentialId ≠ c.credentialId) →
      f =
        { index := e.index, credentialId := e.credentialId, productCode := c.productCode, passengers := c.passengers,
          headsMax := max e.headsMax a.heads.toNat, lastCoach := a.coach.toNat, lastStop := j.stop,
          inspections := min 255 (e.inspections + 1), firstCount := e.firstCount, lastCount := s.clockCount,
          lastVerdict := j.verdict, lastReasons := j.reasons, denyReason := denied, coverage := j.coverage,
          watch := armWatch s j p,
          mark := { proposal := proposal, commitCount := e.mark.commitCount, torn := e.mark.torn } } →
      s.recordedRoster j copy = s.roster.set i f ∧ s.recordedMirrors j copy = [] ∧
        s.recordedAnswer j copy = (recordedAnswer j i f (proposal.map Proposal.bytes)).bytes) ∧
    ((∀ x ∈ s.roster, x.credentialId ≠ c.credentialId) →
      (∀ f : Entry, s.roster.length < 512 →
        f =
          { index := s.roster.length, credentialId := c.credentialId, productCode := c.productCode,
            passengers := c.passengers, headsMax := a.heads.toNat, lastCoach := a.coach.toNat, lastStop := j.stop,
            inspections := 1, firstCount := s.clockCount, lastCount := s.clockCount, lastVerdict := j.verdict,
            lastReasons := j.reasons, denyReason := denied, coverage := j.coverage, watch := armWatch s j p,
            mark := { proposal := proposal, commitCount := 0, torn := false } } →
        s.recordedRoster j copy = s.roster ++ [f] ∧
          s.recordedMirrors j copy = [(0x10, State.runMirror { s with roster := s.roster ++ [f] })] ∧
          s.recordedAnswer j copy = (recordedAnswer j s.roster.length f (proposal.map Proposal.bytes)).bytes) ∧
      (512 ≤ s.roster.length →
        s.recordedRoster j copy = s.roster ∧ s.recordedMirrors j copy = [] ∧
          ∃ answer : InspectAnswer,
            answer =
                { verdict := foldVerdict (addReason j.reasons .rosterFull), watch := Watch.off,
                  reasons := addReason j.reasons .rosterFull, remaining := j.remaining, zonesAhead := j.zonesAhead,
                  rosterIndex := none, inspections := 0, proposal := none, denyCode := j.denyCode, stop := some j.stop,
                  clockCount := s.clockCount } ∧
              s.recordedAnswer j copy = answer.bytes)) ∧
    ∀ (i : Nat) (f : Entry) (bytes : Option (List Byte)),
      (recordedAnswer j i f bytes).bytes =
        le 1 j.verdict.rank ++ le 1 f.watch.kind.code ++ le 2 j.reasons.toNat ++ signed4 j.remaining ++ le 1 j.zonesAhead
          ++ le 1 f.watch.stage.code ++ le 2 i ++ le 1 f.inspections ++ [if bytes.isSome then 1 else 0]
          ++ padTo 16 (bytes.getD []) ++ le 2 j.denyCode.toNat ++ [BitVec.ofNat 8 j.stop] ++ zeros 3 ++ le 4 s.clockCount

/-- The fold of stage 11 (R74): the most severe class among the reasons present, VALID exactly when none of them has a
class; REPEAT does not raise it; and a set holds exactly the reasons put into it. -/
def Obligations.VerdictFold : Prop :=
  (∀ (w : Half) (r : Reason) (v : Verdict), hasReason w r = true → r.verdict? = some v → v.rank ≤ (foldVerdict w).rank) ∧
  (∀ w : Half, foldVerdict w ≠ .valid → ∃ r, hasReason w r = true ∧ r.verdict? = some (foldVerdict w)) ∧
  (∀ w : Half, foldVerdict w = .valid ↔ ∀ r, hasReason w r = true → r = .repeated) ∧
  (∀ w : Half, foldVerdict (addReason w .repeated) = foldVerdict w) ∧
  (∀ (rs : List Reason) (r : Reason), hasReason (reasonSet rs) r = true ↔ r ∈ rs) ∧
  ∀ (w : Half) (r q : Reason), hasReason (addReason w r) q = true ↔ q = r ∨ hasReason w q = true

/-- Stage 6 (R39, R43, R44, R64, R65): the end count, the skew test on the activation alone, and one band of the remaining
minutes; a credential judged NOT_YET_VALID receives no other time reason. -/
def Obligations.TimeStage : Prop :=
  ∀ (skew n : Nat) (p : Product) (c : Credential),
    c.activationCount = c.activationDay * 1440 + c.activationMinute ∧
    (p.period = .days → p.endCount c = (c.activationDay + p.days) * 1440) ∧
    (p.period = .minutes → p.kind = .zoneCount →
      p.endCount c = c.activationCount + min (p.baseMinutes + p.perZoneMinutes * (c.zoneCount - 1)) p.maxMinutes) ∧
    (p.period = .minutes → p.kind ≠ .zoneCount →
      p.endCount c = c.activationCount + min p.baseMinutes p.maxMinutes) ∧
    (Reason.notYetValid ∈ timeReasons skew p c n ↔ (skew : Int) < (c.activationCount : Int) - n) ∧
    (Reason.inGrace ∈ timeReasons skew p c n ↔ p.endCount c ≤ n ∧ n < p.endCount c + p.grace) ∧
    (Reason.expired ∈ timeReasons skew p c n ↔ p.endCount c + p.grace ≤ n) ∧
    (∀ r ∈ timeReasons skew p c n, r = .notYetValid ∨ r = .inGrace ∨ r = .expired) ∧
    (p.inRange = true → c.activationMinute ≤ 1439 → Reason.notYetValid ∈ timeReasons skew p c n →
      timeReasons skew p c n = [.notYetValid] ∧ 1 ≤ remainingMinutes p c n) ∧
    p.lapseCount c = p.endCount c + p.grace

/-- The walk of R69 gives for a ZONE_COUNT coverage the number of the formula of R70, on a line whose ordinals are those of
R14 and for an origin stop of the line. -/
def Obligations.ZonesAheadFormula : Prop :=
  ∀ (t : Tables) (p : Product) (c : Credential) (origin stop : Nat),
    t.ordinals = lineOrdinals ((t.entries .stops).map Stop.ofBytes) → (∀ o ∈ t.ordinals, o ≤ 63) →
    p.kind = .zoneCount → 1 ≤ c.zoneCount → t.stopWithCode c.originStop = some origin → stop < t.stopCount →
    (coverageOf t p c).covers t stop = true →
    (zonesAhead t .up (coverageOf t p c) stop : Int) =
        max 0
          (min ((t.ordinal origin : Int) + c.zoneCount - 1 - t.ordinal stop)
            ((t.ordinal (t.stopCount - 1) : Int) - t.ordinal stop)) ∧
      (zonesAhead t .down (coverageOf t p c) stop : Int) =
        max 0 (min ((t.ordinal stop : Int) - (t.ordinal origin - c.zoneCount + 1)) (t.ordinal stop))

/-- The place tests of stage 7 and the coverage record agree (R48, R67 to R69): a stop gives no place reason exactly when it
lies inside the coverage; outside it there are no zones ahead; the only place reasons are WRONG_NETWORK and OUT_OF_ZONE. -/
def Obligations.PlaceAgreesWithCoverage : Prop :=
  ∀ (t : Tables) (p : Product) (c : Credential) (d : Direction) (stop : Nat), (∀ o ∈ t.ordinals, o ≤ 63) →
    c.kindRanges p = true →
    (placeReasons t p c stop = [] ↔ (coverageOf t p c).covers t stop = true) ∧
    (placeReasons t p c stop ≠ [] → zonesAhead t d (coverageOf t p c) stop = 0) ∧
    (p.kind ≠ .zoneCount → (t.stopAt stop).network ≠ c.network → placeReasons t p c stop = [.wrongNetwork]) ∧
    (p.kind = .zoneRange → (t.stopAt stop).network = c.network →
      ((t.stopAt stop).zone < c.zoneLo ∨ c.zoneHi < (t.stopAt stop).zone) → placeReasons t p c stop = [.outOfZone]) ∧
    (p.kind = .zoneCount → (∀ o, t.stopWithCode c.originStop = some o →
        (c.zoneCount : Int) - 1 < |(t.ordinal stop : Int) - t.ordinal o|) →
      placeReasons t p c stop = [.outOfZone])

/-- The last sighting (R87) and what stage 10 makes of it (R85, R86, R88): REPEAT exactly when either sighting is present;
SEEN_ELSEWHERE for a single passenger seen in another coach less than the shared window before, of class SUSPECT; and step 1
of stage 12 makes the present inspection the entry's last. -/
def Obligations.HistoryStage : Prop :=
  (∀ seen card : Sighting,
    lastSighting none none = none ∧ lastSighting (some seen) none = some seen ∧ lastSighting none (some card) = some card ∧
    (seen.count < card.count → lastSighting (some seen) (some card) = some card) ∧
    (card.count ≤ seen.count → lastSighting (some seen) (some card) = some seen)) ∧
  (∀ (roster : List Entry) (id : LongWord) (seen : Sighting),
    rosterSighting roster id = some seen ↔
      ∃ e, entryOf roster id = some e ∧ seen = { coach := e.lastCoach, count := e.lastCount }) ∧
  (∀ (r : Run) (roster : List Entry) (c : Credential) (m : Mark), m = Mark.ofBytes c.lastMark →
    ((cardSighting r roster c).isSome = true ↔
      c.lastMarkPresent = true ∧ crc (c.lastMark.take 14) = m.check ∧ m.runId = r.runId ∧
        (m.terminal ≠ r.terminal ∨ entryOf roster c.credentialId = none)) ∧
    ∀ seen, cardSighting r roster c = some seen →
      seen = { coach := m.coach, count := m.serviceDay * 1440 + m.serviceMinute }) ∧
  ∀ (r : Run) (roster : List Entry) (c : Credential) (coach n : Nat),
    (Reason.repeated ∈ historyReasons r roster c coach n ↔
      (rosterSighting roster c.credentialId).isSome = true ∨ (cardSighting r roster c).isSome = true) ∧
    (Reason.seenElsewhere ∈ historyReasons r roster c coach n ↔
      ∃ seen, lastSighting (rosterSighting roster c.credentialId) (cardSighting r roster c) = some seen ∧
        c.passengers = 1 ∧ seen.coach ≠ coach ∧ max 0 ((n : Int) - seen.count) < r.sharedWindow) ∧
    Reason.seenElsewhere.verdict? = some .suspect ∧
    ∀ (index : Nat) (e : Entry) (j : Judgement) (i : InspectCopy),
      (e.reinspected j i).lastCoach = i.coach ∧ (e.reinspected j i).lastCount = j.clockCount ∧
        (newEntry index j i).lastCoach = i.coach ∧ (newEntry index j i).lastCount = j.clockCount

/-- Stages 5, 7 (its stop), 8 and 9 (R51, R62, R66, R71, R72): which reasons they add, and the deny reason code. -/
def Obligations.DenyClassAndHeadsStages : Prop :=
  (∀ (t : Tables) (id : LongWord) (n : Nat),
    (t.deny.state ≠ .valid → denyStage t id n = ([.denyNotChecked], 0)) ∧
    (t.deny.state = .valid → t.wiping = false →
      (∀ d, denyStage t id n = ([.denied], d) ↔
        ∃ e, ((t.entries .deny).map DenyEntry.ofBytes).find?
            (fun e => e.credentialId == id && decide (e.fromDay ≤ n / 1440) && decide (n / 1440 ≤ e.untilDay)) = some e ∧
          e.reason = d) ∧
      (denyStage t id n = ([], 0) ↔
        ∀ e ∈ (t.entries .deny).map DenyEntry.ofBytes,
          ¬(e.credentialId = id ∧ e.fromDay ≤ n / 1440 ∧ n / 1440 ≤ e.untilDay)))) ∧
  (∀ r : Run,
    (r.state = .standing → r.judgingStop = r.position.getD 0) ∧
    (∀ i, r.state = .running → r.nextStop = some i → r.judgingStop = i ∧ positionReasons r = []) ∧
    (∀ i, r.state = .standing → r.position = some i → positionReasons r = []) ∧
    (r.state = .runningUnplaced → r.judgingStop = r.position.getD 0 ∧ positionReasons r = [.positionAssumed])) ∧
  (∀ (r : Run) (p : Product) (coach cls : Nat), 1 ≤ coach → r.coachClasses[coach - 1]? = some cls →
    (cls = 1 ∧ p.accommodation = 2 → classReasons r coach p = [.wrongClass]) ∧
    (¬(cls = 1 ∧ p.accommodation = 2) → classReasons r coach p = [])) ∧
  ∀ (heads : Nat) (c : Credential),
    (c.passengers < heads → headsReasons heads c = [.headsExceed]) ∧ (heads ≤ c.passengers → headsReasons heads c = [])

/-! ### Watches, holds and marks -/

/-- WATCH_TIME_NEAR and WATCH_TIME_LAPSE (R103, R104, R111, R112): the watch of an entry that the clock count in force has
brought to the stage moves there, and by its watch class a WATCH notice is offered, in every port state. That each command
examines one entry against the clock count in force, and that a watch not due to reach the very stage of the command stays,
with everything else, is the model's choice (log entry 12). -/
def Obligations.TimeWatchMoves : Prop :=
  ∀ (s : State) (i : Nat) (stage : WatchStage) (c : Instr), Memory.wf s.hostMemory = true →
    ((stage = .near ∧ c = .watchTimeNear i Env.quiet) ∨ (stage = .lapsed ∧ c = .watchTimeLapse i Env.quiet)) →
    (∀ e, s.roster[i]? = some e → s.runOpen = true → e.watch.timeMove s.run.watchLead s.clockCount = some stage →
      ∃ ns m,
        (ns =
          if watchNotifies (watchClassOf s.tables e.productCode) stage then [watchNotice i stage e.credentialId] else []) ∧
        exec c s =
          .next
            (endStep
              { s with
                roster := s.roster.set i { e with watch := { e.watch with stage := stage } }
                port := s.port.told ns.length
                hostMemory := m }) ∧
        s.Told { s with hostMemory := m } ns []) ∧
    ((s.runOpen = false ∨ s.roster.length ≤ i ∨
        ∃ e, s.roster[i]? = some e ∧ e.watch.timeMove s.run.watchLead s.clockCount ≠ some stage) →
      exec c s = .next (endStep s))

/-- The table of the time advance (R104), the notices by watch class (R103), the table of the zone advance (R106), and R107:
a time advance and a zone advance on one entry end at the same stage in either order, the more advanced of the two; an entry
whose watch has no part, or stands at LAPSED or CLEARED, is moved by neither (R102, R110). -/
def Obligations.WatchAdvances : Prop :=
  ((∀ (w : Watch) (lead n l : Nat), w.kind = .time ∨ w.kind = .both → w.lapse = some l →
     (w.timeMove lead n = some .lapsed ↔ (w.stage = .armed ∨ w.stage = .near) ∧ l ≤ n) ∧
     (w.timeMove lead n = some .near ↔ w.stage = .armed ∧ n < l ∧ l ≤ n + lead) ∧
     w.timeMove lead n ≠ some .armed ∧ w.timeMove lead n ≠ some .cleared) ∧
   (∀ (w : Watch) (lead n : Nat), w.kind = .none ∨ w.kind = .zone → w.timeMove lead n = none) ∧
   (∀ (w : Watch) (lead n : Nat), w.stage = .cleared ∨ w.stage = .lapsed → w.timeMove lead n = none) ∧
   ∀ stage : WatchStage,
     watchNotifies .none stage = false ∧ (watchNotifies .lapse stage = true ↔ stage = .lapsed) ∧
       (watchNotifies .lead stage = true ↔ stage = .lapsed ∨ stage = .near)) ∧
  (∀ (t : Tables) (d : Direction) (stop : Nat) (e : Entry),
     (zoneMove t d stop e = some .lapsed ↔
       (e.watch.kind = .zone ∨ e.watch.kind = .both) ∧ (e.watch.stage = .armed ∨ e.watch.stage = .near) ∧
         e.coverage.covers t stop = false) ∧
     (zoneMove t d stop e = some .near ↔
       (e.watch.kind = .zone ∨ e.watch.kind = .both) ∧ e.watch.stage = .armed ∧ e.coverage.covers t stop = true ∧
         zonesAhead t d e.coverage stop = 0) ∧
     zoneMove t d stop e ≠ some .armed ∧ zoneMove t d stop e ≠ some .cleared) ∧
  ∀ (s : State) (t : Tables) (d : Direction) (stop n : Nat) (e : Entry),
    (Entry.zoned t d stop (Entry.ticked s n e)).watch = (Entry.ticked s n (Entry.zoned t d stop e)).watch ∧
    (Entry.zoned t d stop (Entry.ticked s n e)).watch.stage.code =
      max (Entry.zoned t d stop e).watch.stage.code (Entry.ticked s n e).watch.stage.code ∧
    (e.watch.stage = .lapsed ∨ e.watch.stage = .cleared ∨ e.watch.kind = .none →
      (Entry.zoned t d stop e).watch = e.watch ∧ (Entry.ticked s n e).watch = e.watch) ∧
    (Entry.zoned t d stop (Entry.ticked s n e)).watch.kind = e.watch.kind ∧
    (Entry.zoned t d stop (Entry.ticked s n e)).watch.lapse = e.watch.lapse

/-- What arming gives (R98 to R100): kind NONE with stage CLEARED for a verdict other than VALID and NOTED and for watch
class NONE; otherwise the time part while the lapse count can be reached, the zone part while some stop to the terminus lies
outside the coverage; NEAR or ARMED, never LAPSED; and a watch armed for a VALID or NOTED inspection of the clock count of
the evaluation lies ahead of its lapse count. -/
def Obligations.ArmingTable : Prop :=
  ∀ (s : State) (c : InspectCopy) (j : Judgement) (w : Watch), j = judge c s → w = armWatch s j c.product →
    ((j.verdict ≠ .valid ∧ j.verdict ≠ .noted) ∨ c.product.watchClass = .none → w = Watch.off) ∧
    ((j.verdict = .valid ∨ j.verdict = .noted) → c.product.watchClass ≠ .none →
      (w.kind.hasTime = true ↔ j.lapseCount ≤ s.clock.topCount) ∧
      (w.kind.hasZone = true ↔
        ∃ x ∈ s.run.position.getD 0 :: stopsAhead s.tables.stopCount s.run.direction (s.run.position.getD 0),
          j.coverage.covers s.tables x = false) ∧
      (w.kind ≠ .none →
        (w.stage = .near ↔
          (w.kind.hasTime = true ∧ j.lapseCount ≤ s.clockCount + s.run.watchLead) ∨
            (w.kind.hasZone = true ∧ j.zonesAhead = 0)) ∧
        (w.stage ≠ .near → w.stage = .armed))) ∧
    (w.lapse = if w.kind.hasTime then some j.lapseCount else none) ∧
    (w.kind.hasTime = true → s.clockCount < j.lapseCount) ∧
    (w.kind = .none → w = Watch.off)

/-- HOLD_LIMIT (R57, R59, R78, R149 to R151): a held INSPECT whose limit the clock count has reached is evaluated as the
state stands, recorded and answered DONE with its tag kept, and leaves the list with its ended-hold mark set; in STOPPED the
same, with nothing written to host memory; in FAULT nothing happens. An examination delivered with a clock count `n`, the one in
force or, after a step back, a greater one, ends the hold whose limit is at or below `n`, judged with `n` (R59, R151; shown in
STOPPED), and no hold whose limit is above it; that it may come after a step back is the model's reading (log entry 14). That the command examines the hold of one slot against
the clock count in force, and that nothing happens where no limit is reached, is the model's choice (log entry 12). -/
def Obligations.HoldLimitEndsTheHold : Prop :=
  ∀ (s : State) (slot : Slot), Memory.wf s.hostMemory = true →
    (∀ (h : Hold) (limit : Nat) (copy : InspectCopy), s.holdOf slot = some h → h.work = .inspect limit copy →
      limit ≤ s.clockCount →
      (s.port.state.writes = true →
        ∃ m,
          exec (.holdLimit slot Env.quiet) s =
              .next
                (endStep
                  { s with
                    roster := s.recordedRoster (judge copy s) copy
                    port := (s.port.offered 1).holdEnded slot
                    hostMemory := m }) ∧
            s.HoldAnswered { s with hostMemory := m } slot h.tag .done (s.recordedAnswer (judge copy s) copy) []
              (s.recordedMirrors (judge copy s) copy)) ∧
      (s.port.state = .stopped →
        exec (.holdLimit slot Env.quiet) s =
          .next
            (endStep
              { s with roster := s.recordedRoster (judge copy s) copy, port := s.port.holdEnded slot }))) ∧
    ((s.port.state = .fault ∨ s.holdOf slot = none ∨ ∃ h, s.holdOf slot = some h ∧ h.limitReached s.clockCount = false) →
      exec (.holdLimit slot Env.quiet) s = .next (endStep s)) ∧
    ∀ (n : Nat) (h : Hold) (limit : Nat) (copy : InspectCopy), s.holdOf slot = some h → h.work = .inspect limit copy →
      (n < limit → limitHold id n slot s = s) ∧
        (limit ≤ n → s.clockCount ≤ n → s.port.state = .stopped →
          limitHold id n slot s =
            { s with roster := s.recordedRoster (judgeAt n copy s) copy, port := s.port.holdEnded slot })

/-- PROPOSAL_LAPSED (R116, R117): a proposal whose expiry the clock count in force has reached is removed and a
PROPOSAL_LAPSED notice offered, in every port state; commit count, torn flag and watch stay. That the command examines one
entry, and that a live proposal stays with everything else, is the model's choice (log entry 12). A proposal that step 3 of
an inspection makes when the clock count has already reached its expiry, two above that of the evaluation, lapses at once,
with its notice. -/
def Obligations.ProposalLapses : Prop :=
  (∀ (s : State) (i : Nat), Memory.wf s.hostMemory = true →
     (∀ e p, s.roster[i]? = some e → e.mark.proposal = some p → p.expiry ≤ s.clockCount →
       ∃ m,
         exec (.proposalLapsed i Env.quiet) s =
             .next
               (endStep
                 { s with
                   roster := s.roster.set i { e with mark := { e.mark with proposal := none } }
                   port := s.port.told 1
                   hostMemory := m }) ∧
           s.Told { s with hostMemory := m } [lapsedNotice i] []) ∧
     ((s.roster.length ≤ i ∨ ∃ e, s.roster[i]? = some e ∧ ∀ p, e.mark.proposal = some p → s.clockCount < p.expiry) →
       exec (.proposalLapsed i Env.quiet) s = .next (endStep s))) ∧
  ∀ (s : State) (i : Nat) (j : Judgement) (c : InspectCopy) (e : Entry), mayPropose j c = true → s.roster[i]? = some e →
    (j.clockCount + 2 ≤ s.clockCount →
      proposeEntry i j c s =
        appendNotice (lapsedNotice i)
          { s with roster := s.roster.set i { e with mark := { e.mark with proposal := none } } }) ∧
    (s.clockCount < j.clockCount + 2 →
      proposeEntry i j c s =
        { s with
          roster := s.roster.set i { e with mark := { e.mark with proposal := some (composeProposal s.run j c) } } })

/-- CONFIRM_MARK (R119 to R123): its checks in order, and the judgment of the read-back by the first test that holds, with
the proposal, commit count and torn flag it leaves; the watch and every other field of the entry stay. -/
def Obligations.ConfirmMarkJudged : Prop :=
  ∀ (s : State) (slot : Slot) (tag : Half) (a : ConfirmMarkArgs), Memory.wf s.hostMemory = true → s.isNext slot →
    a.readBack.length = 16 →
    (s.runOpen = false →
      s.AnswersUnchanged slot tag (.confirmMark a) .refusedNoRun (confirmAnswer a.index .noResult MarkRecord.fresh)) ∧
    (s.runOpen = true → s.roster.length ≤ a.index.toNat →
      s.AnswersUnchanged slot tag (.confirmMark a) .notFound (confirmAnswer a.index .noResult MarkRecord.fresh)) ∧
    ∀ e, s.runOpen = true → s.roster[a.index.toNat]? = some e →
      (e.mark.proposal = none →
        s.AnswersUnchanged slot tag (.confirmMark a) .tooLate (confirmAnswer a.index .noResult e.mark)) ∧
      ∀ p (result : MarkResult) (after : MarkRecord), e.mark.proposal = some p →
        ((a.readBack = p.bytes ∧ result = .committed ∧
            after = { proposal := none, commitCount := min 255 (e.mark.commitCount + 1), torn := false }) ∨
          (a.readBack ≠ p.bytes ∧ (markCounterOf a.readBack : Int) = ((markCounterOf p.bytes : Int) - 1) % 65536 ∧
            result = .notWritten ∧ after = e.mark) ∨
          (a.readBack ≠ p.bytes ∧ (markCounterOf a.readBack : Int) ≠ ((markCounterOf p.bytes : Int) - 1) % 65536 ∧
            result = .torn ∧ after = { proposal := none, commitCount := e.mark.commitCount, torn := true })) →
        s.Answers slot tag (.confirmMark a) { s with roster := s.roster.set a.index.toNat { e with mark := after } } .done
          (confirmAnswer a.index result after) [] []

/-- A composed proposal (R115, R116, R126): sixteen bytes that pass their own check and name the run, whose fields are those
of the inspection, whose counter is one above the card's, and which expires two minutes after the evaluation; read back
unchanged it is judged COMMITTED, and the original counter of R120 is the card's. -/
def Obligations.ProposedMarkReadsBack : Prop :=
  ∀ (r : Run) (j : Judgement) (c : InspectCopy) (p : Proposal) (m : Mark), p = composeProposal r j c → m = Mark.ofBytes p.bytes →
    c.coach < 256 → j.stop < 256 → j.clockCount < 94371840 →
    p.bytes.length = 16 ∧ p.expiry = j.clockCount + 2 ∧
      m.runId = r.runId ∧ m.terminal = r.terminal ∧ m.coach = c.coach ∧ m.stop = j.stop ∧ m.verdict = j.verdict.rank ∧
      m.serviceDay = j.clockCount / 1440 ∧ m.serviceMinute = j.clockCount % 1440 ∧
      m.counter = ((Credential.ofRecord c.record).markCounter + 1) % 65536 ∧ m.check = crc (p.bytes.take 14) ∧
      markTrusted r p.bytes = true ∧ judgeReadBack p.bytes p.bytes = .committed ∧
      originalCounter p.bytes = (Credential.ofRecord c.record).markCounter

/-! ### The roster -/

/-- DISMISS (R89): an index beyond the entries is NOT_FOUND with nothing changed; otherwise the watch is CLEARED with its
kind and lapse count kept, the proposal goes without a notice, and everything else of the entry stays. -/
def Obligations.DismissClears : Prop :=
  ∀ (s : State) (slot : Slot) (tag : Half) (index : Half), Memory.wf s.hostMemory = true → s.isNext slot →
    (s.roster.length ≤ index.toNat →
      s.AnswersUnchanged slot tag (.dismiss index) .notFound (le 2 index.toNat ++ zeros 3)) ∧
    ∀ e, s.roster[index.toNat]? = some e →
      s.Answers slot tag (.dismiss index)
        { s with
          roster :=
            s.roster.set index.toNat
              { e with watch := { e.watch with stage := .cleared }, mark := { e.mark with proposal := none } } }
        .done (le 2 index.toNat ++ le 1 e.watch.kind.code ++ le 1 WatchStage.cleared.code ++ [flagByte e.mark.proposal.isSome])
        [] []

/-- READ_ROSTER (R91, R92): the count is clamped to the entries from the first index on; the images go to the destination 80
bytes apart, their addresses wrapping at 2^32 (the model's choice, log entry 8); the answer carries the number copied. Bytes
of the images that the answer and its notice write over read as those do, and every byte written by none of them reads as
the host left it when it posted the request. -/
def Obligations.ReadRosterCopies : Prop :=
  ∀ (s : State) (slot : Slot) (tag : Half) (a : ReadRosterArgs) (n : Nat) (after : List (Nat × Nat)),
    Memory.wf s.hostMemory = true → s.isNext slot → s.roster.length ≤ 512 →
    n = min a.count.toNat (s.roster.length - a.first.toNat) →
    after =
      [(s.slotAddress slot, 1), (s.slotAddress slot + 4, 1), (s.slotAddress slot + 72, 56)] ++ s.ringRanges 1 →
    ∃ m,
      exec (.readRoster slot tag a Env.quiet) s = .next (s.requestDone slot 1 m) ∧
        (∀ i e k, i < n → s.roster[a.first.toNat + i]? = some e → k < 80 →
          (∀ r ∈ after, ∀ l < r.2, (a.destination.toNat + 80 * i + k) % hostSize ≠ (r.1 + l) % hostSize) →
          Memory.read m ((a.destination.toNat + 80 * i + k) % hostSize) = e.image.getD k 0) ∧
        State.shows { s with hostMemory := m } (s.slotAddress slot) [SlotState.answered.code] ∧
        State.shows { s with hostMemory := m } (s.slotAddress slot + 4) [AnswerCode.done.code] ∧
        State.shows { s with hostMemory := m } (s.slotAddress slot + 72) (padTo 56 (le 2 n)) ∧
        s.RingShows { s with hostMemory := m } [answeredNotice slot tag] ∧
        (post slot tag (.readRoster a) s).writesOnly { s with hostMemory := m } ((a.destination.toNat, 80 * n) :: after)

/-! ### The table store -/

/-- LOAD_TABLE (R129, R130). Accepted: the descriptor is LOADING with the request's edition, count and sum and its level
kept, a stops descriptor drops its ordinals, the load is in progress from its first byte, the descriptor's mirror is
rewritten and the slot is HELD as the last entry of the hold list. Refused, in the order of R129: nothing changes, and the
answer carries the descriptor of the named table as it stood, with a kind byte of 0 (the model's choice, log entry 16). -/
def Obligations.LoadTableHeldOrRefused : Prop :=
  (∀ (s : State) (slot : Slot) (tag : Half) (a : LoadTableArgs) (k : TableKind) (d : Descriptor),
     Memory.wf s.hostMemory = true → s.isNext slot → TableKind.ofByte a.kind = some k → s.tables.load = none →
     s.tables.wiping = false → (k ≠ .deny → s.runOpen = false) →
     ((s.tables.descriptor k).level = 0 ∨ ((s.tables.descriptor k).level = 1 ∧ s.runOpen = false)) →
     a.count.toNat ≤ k.capacity → k.least ≤ a.count.toNat →
     d =
       { state := .loading, cause := .noCause, edition := a.edition, count := a.count.toNat, expectedSum := a.sum,
         level := (s.tables.descriptor k).level } →
     s.Parks slot tag (.loadTable a)
       { s with
         tables :=
           { s.tables.setDescriptor k d with
             load := some { kind := k, source := a.source.toNat, copied := 0 }
             ordinals := if k = .stops then [] else s.tables.ordinals } }
       { slot := slot, tag := tag, awaits := .ownCompletion, work := .loadTable } [(k.mirrorOffset, d.image)]) ∧
  ∀ (s : State) (slot : Slot) (tag : Half) (a : LoadTableArgs), Memory.wf s.hostMemory = true → s.isNext slot →
    (TableKind.ofByte a.kind = none → s.AnswersUnchanged slot tag (.loadTable a) .refusedArgument (zeros 20)) ∧
    ∀ (k : TableKind) (busy inUse locked : Prop), TableKind.ofByte a.kind = some k →
      (busy ↔ s.tables.load ≠ none ∨ s.tables.wiping = true) → (inUse ↔ k ≠ .deny ∧ s.runOpen = true) →
      (locked ↔ 2 ≤ (s.tables.descriptor k).level ∨ ((s.tables.descriptor k).level = 1 ∧ s.runOpen = true)) →
      (busy →
        s.AnswersUnchanged slot tag (.loadTable a) .refusedBusy (zeros 4 ++ (s.tables.descriptor k).image)) ∧
      (¬busy → inUse →
        s.AnswersUnchanged slot tag (.loadTable a) .refusedTableInUse (zeros 4 ++ (s.tables.descriptor k).image)) ∧
      (¬busy → ¬inUse → locked →
        s.AnswersUnchanged slot tag (.loadTable a) .refusedProtected (zeros 4 ++ (s.tables.descriptor k).image)) ∧
      (¬busy → ¬inUse → ¬locked → k.capacity < a.count.toNat →
        s.AnswersUnchanged slot tag (.loadTable a) .refusedTooLarge (zeros 4 ++ (s.tables.descriptor k).image)) ∧
      (¬busy → ¬inUse → ¬locked → a.count.toNat < k.least →
        s.AnswersUnchanged slot tag (.loadTable a) .refusedArgument (zeros 4 ++ (s.tables.descriptor k).image))

/-- LOAD_COMPLETION with a load in progress (R130, R133, R134), no hold awaiting it: whatever is left of the image is copied
when the command comes (the model's choice, log entry 1), the descriptor becomes VALID or DAMAGED, its mirror is rewritten,
and the load's hold is answered DONE with the computed sum and leaves the list. In STOPPED the same, with nothing written to
host memory. A port reset that comes before that answer, a point of the model's (log entry 6), leaves the table judged and
the load unanswered, and nothing but the mirror written. Without a load in progress nothing happens. -/
def Obligations.LoadCompletionJudges : Prop :=
  ∀ s : State, Memory.wf s.hostMemory = true →
    (s.tables.load = none → exec (.loadCompletion Env.quiet) s = .next (endStep s)) ∧
    ∀ (job : LoadJob) (h : Hold) (k : TableKind) (copied judged : Tables), s.tables.load = some job →
      s.port.holds.find? (fun h => h.work == .loadTable) = some h → (∀ x ∈ s.port.holds, x.awaits ≠ .denyLoad) →
      k = job.kind →
      copied =
        { s.tables with
          memory :=
            Memory.writeRun tableSize s.tables.memory (k.base + job.copied)
              (s.hostBytes (job.source + job.copied) ((s.tables.descriptor k).count * k.entrySize - job.copied)) } →
      judged =
        { copied.setDescriptor k
            (if judgeImage copied k = .noCause then { s.tables.descriptor k with state := .valid, cause := .noCause }
             else { s.tables.descriptor k with state := .damaged, cause := judgeImage copied k }) with
          load := none
          ordinals :=
            if k = .stops then
              if judgeImage copied .stops = .noCause then lineOrdinals ((copied.entries .stops).map Stop.ofBytes) else []
            else s.tables.ordinals } →
      (s.port.state.writes = true →
        ∃ m,
          exec (.loadCompletion Env.quiet) s =
              .next
                (endStep { s with tables := judged, port := (s.port.offered 1).holdEnded h.slot, hostMemory := m }) ∧
            s.HoldAnswered { s with hostMemory := m } h.slot h.tag .done
              (le 1 k.code ++ zeros 3 ++ (judged.descriptor k).image ++ le 2 (byteSum (copied.image k)).toNat) []
              [(k.mirrorOffset, (judged.descriptor k).image)]) ∧
      (s.port.state = .stopped →
        exec (.loadCompletion Env.quiet) s =
          .next (endStep { s with tables := judged, port := s.port.holdEnded h.slot })) ∧
      (s.port.state.writes = true ∨ s.port.state = .stopped →
        ∃ m,
          exec (.loadCompletion { Env.quiet with arrivals := [.portReset] }) s =
              .next (endStep { resetPort { s with tables := judged } with hostMemory := m }) ∧
            s.writesOnly { s with hostMemory := m } [(s.areaAddress + k.mirrorOffset, 16)])

/-- The completion of a deny load and the holds awaiting DENY_LOAD (R26, R58, R134): the rest of the image is copied when
the command comes (the model's choice, log entry 1) and judged, and the mirror is rewritten. Then, while the run is
RUNNING_UNPLACED, every such hold is carried over to PLACEMENT with its place and limit; otherwise the held inspections are
judged against the table as it now stands, recorded and answered in hold-list order. Last the load's own hold is answered,
and leaves the list. -/
def Obligations.DenyCompletionTakesUpItsHolds : Prop :=
  ∀ (s u : State) (job : LoadJob) (own : Hold) (copied judged : Tables) (answer : List Byte),
    Memory.wf s.hostMemory = true → s.tables.load = some job → job.kind = .deny → s.port.state.writes = true →
    (s.port.holds.map Hold.slot).Nodup → own ∈ s.port.holds → own.work = .loadTable → own.awaits = .ownCompletion →
    (∀ x ∈ s.port.holds, x.work = .loadTable → x = own) →
    copied =
      { s.tables with
        memory :=
          Memory.writeRun tableSize s.tables.memory (TableKind.deny.base + job.copied)
            (s.hostBytes (job.source + job.copied) (s.tables.deny.count * 16 - job.copied)) } →
    judged =
      { copied with
        deny :=
          if judgeImage copied .deny = .noCause then { s.tables.deny with state := .valid, cause := .noCause }
          else { s.tables.deny with state := .damaged, cause := judgeImage copied .deny }
        load := none } →
    u = { s with tables := judged } →
    answer = [3, 0, 0, 0] ++ judged.deny.image ++ le 2 (byteSum (copied.image .deny)).toNat →
    (s.run.state = .runningUnplaced →
      ∃ t m,
        t =
            endStep
              { u with
                port :=
                  { (s.port.offered 1).holdEnded own.slot with
                    holds :=
                      (s.port.holds.map fun h => if h.awaits = .denyLoad then { h with awaits := .placement } else h).filter
                        fun h => h.slot != own.slot }
                hostMemory := m } ∧
          exec (.loadCompletion Env.quiet) s = .next t ∧
          s.HoldAnswered t own.slot own.tag .done answer [] [(0x50, judged.deny.image)]) ∧
    ∀ released : List Hold, s.run.state ≠ .runningUnplaced →
      released = s.port.holds.filter (fun h => h.awaits == .denyLoad) → (∀ h ∈ released, h.isInspect = true) →
      ∃ t m,
        t =
            endStep
              { u with
                roster := (u.inspectedAll released).roster
                port := (s.port.offered (released.length + 1)).holdsEnded (released ++ [own])
                hostMemory := m } ∧
          exec (.loadCompletion Env.quiet) s = .next t ∧ t.ShowsEnded u released ∧
          t.shows (s.slotAddress own.slot) [SlotState.answered.code] ∧
          t.shows (s.slotAddress own.slot + 4) [AnswerCode.done.code] ∧
          t.shows (s.slotAddress own.slot + 72) (padTo 56 answer) ∧
          s.RingShows t (answeredNotices (released ++ [own])) ∧ t.shows (s.areaAddress + 0x50) judged.deny.image ∧
          (t.roster.length ≠ s.roster.length → t.shows (s.areaAddress + 0x10) t.runMirror) ∧
          s.writesOnly t
            (s.answerRanges (released ++ [own]) ++ s.ringRanges (released.length + 1)
              ++ [(s.areaAddress + 0x50, 16), (s.areaAddress + 0x10, 16)])

/-- The tests of a loaded image in the order of R133, each with its cause; the table is VALID when all pass. -/
def Obligations.TableJudgement : Prop :=
  ∀ t : Tables,
    (∀ k, byteSum (t.image k) ≠ (t.descriptor k).expectedSum → judgeImage t k = .sum) ∧
    (∀ (stops : List Stop), stops = (t.entries .stops).map Stop.ofBytes →
      byteSum (t.image .stops) = t.stops.expectedSum →
      ((∃ x ∈ stops, ¬(1 ≤ x.network ∧ x.network ≤ 4 ∧ 1 ≤ x.zone ∧ x.zone ≤ 63)) → judgeImage t .stops = .range) ∧
      ((∀ x ∈ stops, 1 ≤ x.network ∧ x.network ≤ 4 ∧ 1 ≤ x.zone ∧ x.zone ≤ 63) →
        (¬(stops.map Stop.code).Nodup → judgeImage t .stops = .duplicate) ∧
        ((stops.map Stop.code).Nodup →
          (63 < (lineOrdinals stops).getLastD 0 → judgeImage t .stops = .range) ∧
          ((lineOrdinals stops).getLastD 0 ≤ 63 → judgeImage t .stops = .noCause)))) ∧
    (byteSum (t.image .tariff) = t.tariff.expectedSum →
      ((∃ bs ∈ t.entries .tariff, ∀ p, Product.ofBytes bs = some p → p.inRange = false) →
        judgeImage t .tariff = .range) ∧
      ((∀ bs ∈ t.entries .tariff, ∃ p, Product.ofBytes bs = some p ∧ p.inRange = true) →
        (¬((t.entries .tariff).map fun e => field 0 2 e).Nodup → judgeImage t .tariff = .duplicate) ∧
        (((t.entries .tariff).map fun e => field 0 2 e).Nodup → judgeImage t .tariff = .noCause))) ∧
    ∀ (entries : List DenyEntry), entries = (t.entries .deny).map DenyEntry.ofBytes →
      byteSum (t.image .deny) = t.deny.expectedSum →
      ((∃ (i : Nat) (x y : DenyEntry), entries[i]? = some x ∧ entries[i + 1]? = some y ∧ y.credentialId < x.credentialId) →
        judgeImage t .deny = .order) ∧
      ((∀ (i : Nat) (x y : DenyEntry), entries[i]? = some x → entries[i + 1]? = some y → x.credentialId ≤ y.credentialId) →
        ((∃ d ∈ entries, d.untilDay < d.fromDay) → judgeImage t .deny = .range) ∧
        ((∀ d ∈ entries, d.fromDay ≤ d.untilDay) → judgeImage t .deny = .noCause))

/-- PROTECT_TABLE (R128, R136): its checks in order; the level becomes the greater of its own and the requested one and
never falls, and its mirror is rewritten when it changes. The answer of a refusal carries the kind as posted and the level
in force (the model's choice, log entry 17). -/
def Obligations.ProtectTableRaises : Prop :=
  ∀ (s : State) (slot : Slot) (tag : Half) (a : ProtectTableArgs), Memory.wf s.hostMemory = true → s.isNext slot →
    (TableKind.ofByte a.kind = none →
      s.AnswersUnchanged slot tag (.protectTable a) .refusedArgument [a.kind, 0]) ∧
    ∀ (k : TableKind) (d : Descriptor), TableKind.ofByte a.kind = some k → d = s.tables.descriptor k →
      (3 < a.level.toNat →
        s.AnswersUnchanged slot tag (.protectTable a) .refusedArgument [a.kind, BitVec.ofNat 8 d.level]) ∧
      (a.level.toNat ≤ 3 → (d.state = .loading ∨ s.tables.wiping = true) →
        s.AnswersUnchanged slot tag (.protectTable a) .refusedBusy [a.kind, BitVec.ofNat 8 d.level]) ∧
      (a.level.toNat ≤ 3 → d.state ≠ .loading → s.tables.wiping = false →
        (a.level.toNat ≤ d.level →
          s.AnswersUnchanged slot tag (.protectTable a) .done [a.kind, BitVec.ofNat 8 d.level]) ∧
        (d.level < a.level.toNat →
          s.Answers slot tag (.protectTable a)
            { s with tables := s.tables.setDescriptor k { d with level := a.level.toNat } } .done [a.kind, a.level] []
            [(k.mirrorOffset, Descriptor.image { d with level := a.level.toNat })]))

/-- READ_TABLE (R137): its checks in order; otherwise the stored image goes to the destination, its addresses wrapping at
2^32 (the model's choice, log entry 8), and the answer carries the count and the descriptor. Bytes of the image that the
answer and its notice write over read as those do, and every byte written by none of them reads as the host left it when it
posted the request. A refusal's answer bytes are zero (the model's choice, log entry 16). -/
def Obligations.ReadTableCopies : Prop :=
  ∀ (s : State) (slot : Slot) (tag : Half) (a : ReadTableArgs), Memory.wf s.hostMemory = true → s.isNext slot →
    (TableKind.ofByte a.kind = none → s.AnswersUnchanged slot tag (.readTable a) .refusedArgument []) ∧
    ∀ (k : TableKind) (d : Descriptor), TableKind.ofByte a.kind = some k → d = s.tables.descriptor k →
      (d.level = 3 → s.AnswersUnchanged slot tag (.readTable a) .refusedProtected []) ∧
      (d.level ≠ 3 → s.tables.wiping = true → s.AnswersUnchanged slot tag (.readTable a) .refusedBusy []) ∧
      (d.level ≠ 3 → s.tables.wiping = false → d.state = .absent →
        s.AnswersUnchanged slot tag (.readTable a) .notFound []) ∧
      (d.level ≠ 3 → s.tables.wiping = false → d.state = .loading →
        s.AnswersUnchanged slot tag (.readTable a) .refusedBusy []) ∧
      ∀ after, d.level ≠ 3 → s.tables.wiping = false → (d.state = .valid ∨ d.state = .damaged) →
        d.count ≤ k.capacity →
        after =
          [(s.slotAddress slot, 1), (s.slotAddress slot + 4, 1), (s.slotAddress slot + 72, 56)] ++ s.ringRanges 1 →
        ∃ m,
          exec (.readTable slot tag a Env.quiet) s = .next (s.requestDone slot 1 m) ∧
            (∀ i, i < d.count * k.entrySize →
              (∀ r ∈ after, ∀ l < r.2, (a.destination.toNat + i) % hostSize ≠ (r.1 + l) % hostSize) →
              Memory.read m ((a.destination.toNat + i) % hostSize) =
                Memory.read s.tables.memory ((k.base + i) % tableSize)) ∧
            State.shows { s with hostMemory := m } (s.slotAddress slot) [SlotState.answered.code] ∧
            State.shows { s with hostMemory := m } (s.slotAddress slot + 4) [AnswerCode.done.code] ∧
            State.shows { s with hostMemory := m } (s.slotAddress slot + 72)
              (padTo 56 (le 2 d.count ++ zeros 2 ++ d.image)) ∧
            s.RingShows { s with hostMemory := m } [answeredNotice slot tag] ∧
            (post slot tag (.readTable a) s).writesOnly { s with hostMemory := m }
              ((a.destination.toNat, d.count * k.entrySize) :: after)

/-- WIPE (R138) is refused while a run is open, or a load or another WIPE is in progress; otherwise it is in progress with
its slot HELD, and the descriptors, the roster and the run stay until it completes. WIPE_COMPLETION (R95, R140): table
memory is zero, every descriptor ABSENT with level 0, the roster empty and the run NO_RUN; the mirrors are rewritten, and
then the WIPE is answered DONE with the three descriptors. In STOPPED and FAULT nothing is written to host memory; in FAULT
the hold stays. Without a WIPE in progress nothing happens. A refused WIPE's answer bytes are zero (the model's choice, log
entry 16). -/
def Obligations.WipeBeginsAndCompletes : Prop :=
  (∀ (s : State) (slot : Slot) (tag : Half), Memory.wf s.hostMemory = true → s.isNext slot →
     (s.runOpen = true → s.AnswersUnchanged slot tag .wipe .refusedRunOpen []) ∧
     (s.runOpen = false → (s.tables.load ≠ none ∨ s.tables.wiping = true) →
       s.AnswersUnchanged slot tag .wipe .refusedBusy []) ∧
     (s.runOpen = false → s.tables.load = none → s.tables.wiping = false →
       s.Parks slot tag .wipe { s with tables := { s.tables with wiping := true } }
         { slot := slot, tag := tag, awaits := .ownCompletion, work := .wipe } [])) ∧
  ∀ s : State, Memory.wf s.hostMemory = true →
    (s.tables.wiping = false → exec (.wipeCompletion Env.quiet) s = .next (endStep s)) ∧
    ∀ u, s.tables.wiping = true → u = { s with tables := State.reset.tables, roster := [], run := State.reset.run } →
      (∀ h, s.port.state.writes = true → s.port.holds.find? (fun h => h.work == .wipe) = some h →
        ∃ m,
          exec (.wipeCompletion Env.quiet) s =
              .next (endStep { u with port := (s.port.offered 1).holdEnded h.slot, hostMemory := m }) ∧
            s.HoldAnswered { s with hostMemory := m } h.slot h.tag .done
              (Descriptor.reset.image ++ Descriptor.reset.image ++ Descriptor.reset.image) []
              [(0x30, Descriptor.reset.image), (0x40, Descriptor.reset.image), (0x50, Descriptor.reset.image),
               (0x10, u.runMirror)]) ∧
      (∀ h, s.port.state = .stopped → s.port.holds.find? (fun h => h.work == .wipe) = some h →
        exec (.wipeCompletion Env.quiet) s = .next (endStep { u with port := s.port.holdEnded h.slot })) ∧
      (s.port.state = .fault → exec (.wipeCompletion Env.quiet) s = .next (endStep u)) ∧
      ((∀ h ∈ s.port.holds, h.work ≠ .wipe) →
        ∃ t,
          exec (.wipeCompletion Env.quiet) s = .next t ∧ t.tables = u.tables ∧ t.roster = [] ∧ t.run = u.run ∧
            t.port = s.port)

/-! ### The exchange port's requests -/

/-- WITHDRAW (R152): its checks in order. A held INSPECT is answered WITHDRAWN with the fields of R77, leaves the list with
its ended-hold mark set, and then the WITHDRAW is answered DONE; a held LOAD_TABLE or WIPE refuses it; where the slot is not
held, the ended-hold mark tells TOO_LATE from NOT_FOUND. A request whose kind is none of the fourteen is answered MALFORMED
with 56 zero bytes, and nothing else changes (R148). -/
def Obligations.WithdrawAndMalformedAnswered : Prop :=
  (∀ (s : State) (slot : Slot) (tag : Half) (kind : Byte), Memory.wf s.hostMemory = true → s.isNext slot →
     (kind = 0 ∨ 14 < kind.toNat) → s.AnswersUnchanged slot tag (.malformed kind) .malformed (zeros 56)) ∧
  ∀ (s : State) (slot : Slot) (tag : Half) (named : Byte), Memory.wf s.hostMemory = true → s.isNext slot →
    (31 < named.toNat → s.AnswersUnchanged slot tag (.withdraw named) .refusedArgument [named]) ∧
    ∀ x : Slot, named.toNat = x.val →
      (s.holdOf x = none →
        (x ≠ slot → s.port.endedMarks.get x = true →
          s.AnswersUnchanged slot tag (.withdraw named) .tooLate [named]) ∧
        ((x = slot ∨ s.port.endedMarks.get x = false) →
          s.AnswersUnchanged slot tag (.withdraw named) .notFound [named])) ∧
      ∀ h, s.holdOf x = some h →
        (h.isInspect = false → s.AnswersUnchanged slot tag (.withdraw named) .refusedBusy [named]) ∧
        (h.isInspect = true →
          ∃ t m,
            t = State.requestDone { s with port := s.port.holdEnded x } slot 2 m ∧
              exec (.withdraw slot tag named Env.quiet) s = .next t ∧
              t.shows (s.slotAddress x) [SlotState.answered.code] ∧
              t.shows (s.slotAddress x + 4) [AnswerCode.withdrawn.code] ∧
              t.shows (s.slotAddress x + 72) (padTo 56 (notEvaluated .valid 0 s.clockCount).bytes) ∧
              t.SlotAnswered slot tag (.withdraw named) .done [named] ∧
              s.RingShows t [answeredNotice x h.tag, answeredNotice slot tag] ∧
              s.writesOnly t
                ([(s.slotAddress x, 1), (s.slotAddress x + 4, 1), (s.slotAddress x + 72, 56), (s.slotAddress slot, 5),
                  (s.slotAddress slot + 8, 120)] ++ s.ringRanges 2))

/-- A request posted in a slot whose turn it is not (the port is not sweeping, the slot is held, the sweep has passed it or
finds another posted slot first) stays POSTED: the request command changes nothing but the slot (R145 to R147, R161; that
the command posts it is the model's choice, log entry 3). -/
def Obligations.PostedRequestWaits : Prop :=
  ∀ (s : State) (slot : Slot) (tag : Half) (r : Request), Memory.wf s.hostMemory = true → ¬s.isNext slot →
    r.wellFormed = true →
    exec (r.command slot tag Env.quiet) s = .next (endStep (post slot tag r s)) ∧
      (post slot tag r s).isPosted slot = true

/-- What is posted in a slot is what is read from it: the kind byte and the argument bytes of 11.7 give back every
well-formed request with every operand (R145, R148). -/
def Obligations.SlotRoundTrip : Prop :=
  ∀ (r : Request) (s : State) (slot : Slot) (tag : Half), r.wellFormed = true → Memory.wf s.hostMemory = true →
    Request.ofSlot r.kindByte (padTo 64 r.argBytes) = r ∧ (post slot tag r s).slotRequest slot = r ∧
      (post slot tag r s).slotTag slot = tag ∧ r.argBytes.length ≤ 64

/-! ### The registers, the ring and the power states -/

/-- A write to Sweep by the port state and the power state (R147, R162), and the end of a sweep (R146, R147). -/
def Obligations.SweepWrites : Prop :=
  ∀ (s : State) (v : Word),
    (s.port.state = .idle → s.power ≠ .doze →
      exec (.sweep v Env.quiet) s =
        .next
          (endStep { s with port := { s.port with state := .sweeping, sweepNext := s.port.cursor, sweepLeft := 32 } })) ∧
    (s.port.state = .idle → s.power = .doze →
      exec (.sweep v Env.quiet) s =
        .next
          (endStep
            { s with
              power := .active
              port :=
                { s.port with
                  state := .sweeping, sweepNext := s.port.cursor, sweepLeft := 32, dozeRequest := false } })) ∧
    (s.port.state = .sweeping →
      exec (.sweep v Env.quiet) s = .next (endStep { s with port := { s.port with sweepAgain := true } })) ∧
    ((s.port.state = .stopped ∨ s.port.state = .fault) → exec (.sweep v Env.quiet) s = .next (endStep s)) ∧
    (s.port.state = .sweeping → s.port.sweepLeft = 0 →
      (s.port.sweepAgain = true →
        endSweep s =
          { s with
            port :=
              { s.port with
                state := .sweeping, sweepNext := s.port.cursor, sweepLeft := 32, sweepAgain := false } }) ∧
      (s.port.sweepAgain = false → endSweep s = { s with port := { s.port with state := .idle } })) ∧
    (0 < s.port.sweepLeft → endSweep s = s)

/-- PORT_ENABLE and PORT_DISABLE (R142 to R144): in STOPPED an enable moves the port to IDLE with cursor, write position and
notice count 0 and writes the whole header; in IDLE and SWEEPING a disable moves it to STOPPED, ends the sweep and keeps the
holds, ring, flags and marks; in any other port state neither moves the port. The other bits are stored, and the doze
request is judged on the state they leave. -/
def Obligations.PortEnableAndDisable : Prop :=
  ∀ (s : State) (v : Word), Memory.wf s.hostMemory = true → v.getLsbD 4 = false →
    (v.getLsbD 0 = true → s.port.state = .stopped →
      ∃ (t u : State) (m : Memory),
        u =
          { s with
            port := { s.port.stored v with state := .idle, cursor := 0, writePosition := 0, noticeCount := 0 } } ∧
        t = endStep { u with power := u.powerAfter v, hostMemory := m } ∧
        exec (.portEnable v Env.quiet) s = .next t ∧ t.shows s.areaAddress u.header ∧
        s.writesOnly t [(s.areaAddress, 256)]) ∧
    (v.getLsbD 0 = true → s.port.state ≠ .stopped →
      ∃ u : State,
        u = { s with port := s.port.stored v } ∧
          exec (.portEnable v Env.quiet) s = .next (endStep { u with power := u.powerAfter v })) ∧
    (v.getLsbD 0 = false → (s.port.state = .idle ∨ s.port.state = .sweeping) →
      ∃ u : State,
        u = { s with port := { s.port.stored v with state := .stopped, sweepLeft := 0, sweepAgain := false } } ∧
          exec (.portDisable v Env.quiet) s = .next (endStep { u with power := u.powerAfter v })) ∧
    (v.getLsbD 0 = false → (s.port.state = .stopped ∨ s.port.state = .fault) →
      ∃ u : State,
        u = { s with port := s.port.stored v } ∧
          exec (.portDisable v Env.quiet) s = .next (endStep { u with power := u.powerAfter v }))

/-- PORT_RESET (R157): in every port state the port is STOPPED, the sweep, the holds, the marks, the ring and the flags are
cleared, a load in progress is aborted to DAMAGED with cause ABORTED; the area base, the next sequence number and the fault
address stay, and so do the clock, the run, the roster and host memory; a WIPE goes on. -/
def Obligations.PortResetClearsThePort : Prop :=
  ∀ (s : State) (v : Word), v.getLsbD 4 = true →
    ∃ u t : State,
      exec (.portReset v Env.quiet) s = .next t ∧ t = endStep { u with power := u.powerAfter v } ∧
        u.port =
          { s.port.stored v with
            state := .stopped, cursor := 0, sweepLeft := 0, sweepAgain := false, inHand := none, holds := [],
            endedMarks := Vector.replicate 32 false, writePosition := 0, noticeCount := 0, overflow := false,
            faultFlag := false, faultCause := .noCause } ∧
        u = { s with port := u.port, tables := u.tables } ∧
        (s.tables.load = none → u.tables = s.tables) ∧
        ∀ job, s.tables.load = some job →
          u.tables.load = none ∧ u.tables.memory = s.tables.memory ∧ u.tables.wiping = s.tables.wiping ∧
            u.tables.ordinals = s.tables.ordinals ∧
            ∀ k,
              u.tables.descriptor k =
                if k = job.kind then { s.tables.descriptor k with state := .damaged, cause := .aborted }
                else s.tables.descriptor k

/-- ATTN is asserted exactly while one of the three conditions of R155 holds. ATTENTION_ENABLE, DOZE_REQUEST and DOZE_CLEAR
are Port Control writes, here such as leave the port where it is (R141, R155, R159, R162): the enables gate ATTN and nothing
more; the doze request is judged against the sweep, the load and the wipe; a clear wakes the part and starts no sweep.
DOZE_ENTRY enters DOZE from DOZE_PENDING exactly when no sweep, load or wipe is under way (R160). -/
def Obligations.AttentionAndDoze : Prop :=
  (∀ s : State,
     s.attention = true ↔
       (0 < s.port.noticeCount ∧ s.port.noticeAttention = true) ∨
         (s.port.overflow = true ∧ s.port.noticeAttention = true) ∨
           (s.port.state = .fault ∧ s.port.faultAttention = true)) ∧
  (∀ s : State, s.busLeft = none → s.arrivals = [] → s.owed = [] →
     (s.power = .dozePending → s.port.state ≠ .sweeping → s.tables.load = none → s.tables.wiping = false →
       exec .dozeEntry s = .next { s with power := .doze }) ∧
     ((s.power ≠ .dozePending ∨ s.port.state = .sweeping ∨ s.tables.load ≠ none ∨ s.tables.wiping = true) →
       exec .dozeEntry s = .next s)) ∧
  ∀ (s : State) (v : Word) (u : State), v.getLsbD 4 = false →
    ((v.getLsbD 0 = true ∧ s.port.state ≠ .stopped) ∨
      (v.getLsbD 0 = false ∧ (s.port.state = .stopped ∨ s.port.state = .fault))) →
    u = { s with port := s.port.stored v } →
    (v.getLsbD 3 = false →
      exec (.dozeClear v Env.quiet) s = .next (endStep { u with power := .active }) ∧
        exec (.attentionEnable v Env.quiet) s = .next (endStep { u with power := .active })) ∧
    (v.getLsbD 3 = true →
      exec (.dozeRequest v Env.quiet) s = exec (.attentionEnable v Env.quiet) s ∧
      (s.power = .active → s.port.state ≠ .sweeping → s.tables.load = none → s.tables.wiping = false →
        exec (.dozeRequest v Env.quiet) s = .next (endStep { u with power := .doze })) ∧
      (s.power = .active → (s.port.state = .sweeping ∨ s.tables.load ≠ none ∨ s.tables.wiping = true) →
        exec (.dozeRequest v Env.quiet) s = .next (endStep { u with power := .dozePending })) ∧
      (s.power ≠ .active → exec (.dozeRequest v Env.quiet) s = .next (endStep u)))

/-- The registers' fields lie at their places and the reserved bits read 0 (R141, R164, 11.2). OVERFLOW_CLEAR,
AREA_BASE_WRITE and REGISTER_WRITE (R141, R153): the overflow flag is cleared by 1; Area Base is stored in STOPPED with its
low 13 bits zero and ignored otherwise; 0 to the overflow flag, Notice Count, Fault Address and offsets that hold no
register (the model's choice, log entry 21) ignore a write. -/
def Obligations.RegistersReadAndWrite : Prop :=
  (∀ s : State, s.port.noticeCount ≤ 64 →
     s.readRegister 0x00 = s.port.areaBase ∧
     ((s.readRegister 0x04).getLsbD 0 = s.port.enable ∧ (s.readRegister 0x04).getLsbD 1 = s.port.noticeAttention ∧
       (s.readRegister 0x04).getLsbD 2 = s.port.faultAttention ∧ (s.readRegister 0x04).getLsbD 3 = s.port.dozeRequest ∧
       ∀ i, 4 ≤ i → (s.readRegister 0x04).getLsbD i = false) ∧
     (((s.readRegister 0x08).extractLsb' 0 2).toNat = s.port.state.code ∧
       ((s.readRegister 0x08).extractLsb' 2 2).toNat = s.power.code ∧
       (s.readRegister 0x08).getLsbD 4 = s.port.overflow ∧ (s.readRegister 0x08).getLsbD 5 = s.port.faultFlag ∧
       ((s.readRegister 0x08).extractLsb' 6 2).toNat = s.port.faultCause.code ∧
       (s.readRegister 0x08).getLsbD 8 = s.clock.isSet ∧
       ((s.readRegister 0x08).extractLsb' 9 3).toNat = s.run.state.code ∧
       ∀ i, 12 ≤ i → (s.readRegister 0x08).getLsbD i = false) ∧
     (s.readRegister 0x10).toNat = s.port.noticeCount ∧ s.readRegister 0x18 = s.port.faultAddress ∧
     s.readRegister 0x0C = 0 ∧ s.readRegister 0x14 = 0) ∧
  ∀ (s : State) (v : Word),
    (v.getLsbD 4 = true →
      exec (.overflowClear v) s = .next (endStep { s with port := { s.port with overflow := false } })) ∧
    (s.port.state = .stopped →
      ∃ b : Word,
        exec (.areaBaseWrite v) s = .next (endStep { s with port := { s.port with areaBase := b } }) ∧
          ∀ i, b.getLsbD i = (decide (13 ≤ i) && v.getLsbD i)) ∧
    (s.port.state ≠ .stopped → exec (.areaBaseWrite v) s = .next (endStep s)) ∧
    ∀ offset, ((offset = 0x08 ∧ v.getLsbD 4 = false) ∨ offset ∉ [0x00, 0x04, 0x08, 0x0C, 0x14]) →
      exec (.registerWrite offset v Env.quiet) s = .next (endStep s)

/-- A write of V to Notice Release lowers the notice count by V when V does not exceed it and sets it to 0 when V does, in
every port state; the write position and the sequence stay, so the oldest notices are the ones released (R154). -/
def Obligations.NoticeRelease : Prop :=
  ∀ (s : State) (v : Word),
    (v.toNat ≤ s.port.noticeCount →
      ∃ c, c + v.toNat = s.port.noticeCount ∧
        exec (.noticeRelease v) s = .next (endStep { s with port := { s.port with noticeCount := c } })) ∧
    (s.port.noticeCount < v.toNat →
      exec (.noticeRelease v) s = .next (endStep { s with port := { s.port with noticeCount := 0 } })) ∧
    (∀ n : Notice, s.port.noticeCount = 64 → s.port.state.writes = true → 1 ≤ v.toNat → v.toNat ≤ 64 →
      (releaseNotices v (appendNotice n s)).port = { s.port with noticeCount := 64 - v.toNat, overflow := true } ∧
        (releaseNotices v (appendNotice n s)).hostMemory = s.hostMemory ∧
        (s.busLeft = none →
          (appendNotice n (releaseNotices v s)).port.noticeCount = 64 - v.toNat + 1 ∧
            (appendNotice n (releaseNotices v s)).port.overflow = s.port.overflow))

/-- A notice appended by the port state and the notice count (R153): on a bus that does not fail; and on one that fails
within the notice's sixteen bytes or the four header bytes after them (log entry 5): the port enters FAULT with that
address, the notice is not counted, position and sequence stay, and the overflow flag is set. -/
def Obligations.NoticeAppend : Prop :=
  ∀ (s : State) (n : Notice) (ring header : List Byte), Memory.wf s.hostMemory = true →
    ring =
      le 2 s.port.nextSequence.toNat ++ [n.kind.code] ++ le 1 n.stage ++ le 2 n.subject ++ le 2 n.tag.toNat
        ++ le 4 s.clockCount ++ le 4 n.detail.toNat →
    header =
      le 1 ((s.port.writePosition.val + 1) % 64) ++ zeros 1 ++ le 2 ((s.port.nextSequence.toNat + 1) % 65536) →
    (s.busLeft = none → s.port.state.writes = true → s.port.noticeCount < 64 →
      ∃ m,
        appendNotice n s =
            { s with
              port :=
                { s.port with
                  writePosition := s.port.writePosition + 1
                  nextSequence := s.port.nextSequence + 1
                  noticeCount := s.port.noticeCount + 1 }
              hostMemory := m } ∧
          State.shows { s with hostMemory := m } (s.areaAddress + 0x100 + 16 * s.port.writePosition.val) ring ∧
          State.shows { s with hostMemory := m } (s.areaAddress + 0x08) header ∧
          s.writesOnly { s with hostMemory := m }
            [(s.areaAddress + 0x100 + 16 * s.port.writePosition.val, 16), (s.areaAddress + 0x08, 4)]) ∧
    (∀ left address, s.busLeft = some left → left < 20 → s.port.state.writes = true → s.port.noticeCount < 64 →
      address =
        (if left < 16 then s.areaAddress + 0x100 + 16 * s.port.writePosition.val + left
         else s.areaAddress + 0x08 + (left - 16)) →
      appendNotice n s =
        { s with
          port :=
            { s.port with
              state := .fault, faultFlag := true, faultCause := .write, faultAddress := BitVec.ofNat 32 address,
              sweepLeft := 0, sweepAgain := false, inHand := none, overflow := true }
          tables := s.tables.abortLoad
          busLeft := none
          hostMemory :=
            Memory.writeRun hostSize
              (Memory.writeRun hostSize s.hostMemory (s.areaAddress + 0x100 + 16 * s.port.writePosition.val)
                (ring.take left))
              (s.areaAddress + 0x08) (header.take (left - 16)) }) ∧
    (s.port.state.writes = true → 64 ≤ s.port.noticeCount →
      appendNotice n s = { s with port := { s.port with overflow := true } }) ∧
    (s.port.state = .stopped → appendNotice n s = s) ∧
    (s.port.state = .fault → appendNotice n s = { s with port := { s.port with overflow := true } })

/-- The entry to FAULT (R135, R156): BUS_FAULT (as a command the model's choice, log entry 20) latches the cause and the
address, abandons the request in hand, ends the sweep, aborts a load in progress and freezes the hold list; no access is
made in FAULT, and in STOPPED only the reads of a load. A write that fails inside a step (here after `left` of its bytes,
log entry 5) does the same. -/
def Obligations.BusFaultEntersFault : Prop :=
  ∀ (s : State) (isWrite : Bool) (address : Word) (p : Port),
    p =
      { s.port with
        state := .fault, faultFlag := true, faultCause := if isWrite then .write else .read, faultAddress := address,
        sweepLeft := 0, sweepAgain := false, inHand := none } →
    ((s.port.state = .idle ∨ s.port.state = .sweeping ∨
        (s.port.state = .stopped ∧ s.tables.load ≠ none ∧ isWrite = false)) →
      exec (.busFault isWrite address) s = .next (endStep { s with port := p, tables := s.tables.abortLoad })) ∧
    ((s.port.state = .fault ∨ (s.port.state = .stopped ∧ (s.tables.load = none ∨ isWrite = true))) →
      exec (.busFault isWrite address) s = .next (endStep s)) ∧
    (s.tables.load = none → s.tables.abortLoad = s.tables) ∧
    (∀ job k, s.tables.load = some job →
      s.tables.abortLoad.load = none ∧
        s.tables.abortLoad.descriptor k =
          if k = job.kind then { s.tables.descriptor k with state := .damaged, cause := .aborted }
          else s.tables.descriptor k) ∧
    ∀ (a left : Nat) (bs : List Byte), isWrite = true → s.port.state.writes = true → s.busLeft = some left →
      left < bs.length → address = BitVec.ofNat 32 (a + left) →
      busWrite a bs s =
        { s with
          port := p, tables := s.tables.abortLoad, busLeft := none
          hostMemory := Memory.writeRun hostSize s.hostMemory a (bs.take left) }

/-- An inspection abandoned by a port reset before stage 12 leaves the roster as it was, one interrupted after it keeps the
entry, and neither is answered (R60, R84, R157): an INSPECT in hand, where the reset comes just after the take, between
stage 5 and stage 12, or between stage 12 and the answer; and a held one that HOLD_LIMIT ends, where the reset, or a failing
access, which leaves the hold on the frozen list (R156), comes at one of the last two. That a reset or a failing access
arrives at these points and at no others is the model's choice (log entry 6). -/
def Obligations.InspectionMeetsAPortReset : Prop :=
  (∀ (s : State) (slot : Slot) (tag : Half) (a : InspectArgs) (c : Credential) (p : Product) (copy : InspectCopy),
     Memory.wf s.hostMemory = true → s.isNext slot → a.record.length = 46 → c = Credential.ofRecord a.record →
     s.runOpen = true → a.coach ≠ 0 → a.coach.toNat ≤ s.run.coachCount → a.heads.toNat ≤ 9 →
     crc (a.record.take 44) = c.check → c.generalRanges = true → s.tables.productWithCode c.productCode = some p →
     c.kindRanges p = true → s.run.state ≠ .runningUnplaced → s.tables.deny.state ≠ .loading →
     copy = { coach := a.coach.toNat, heads := a.heads.toNat, record := a.record, product := p } →
     (∀ before, (before = [.portReset] ∨ before = [.nothing, .portReset]) →
       ∃ t,
         exec (.inspect slot tag a { Env.quiet with arrivals := before }) s = .next t ∧
           t.roster = s.roster ∧ t.port.state = .stopped ∧ t.port.holds = [] ∧ t.port.noticeCount = 0 ∧
           t.shows (s.slotAddress slot) [SlotState.taken.code]) ∧
     ∃ t,
       exec (.inspect slot tag a { Env.quiet with arrivals := [.nothing, .nothing, .portReset] }) s = .next t ∧
         t.roster = s.recordedRoster (judge copy s) copy ∧ t.port.state = .stopped ∧ t.port.holds = [] ∧
         t.port.noticeCount = 0 ∧ t.shows (s.slotAddress slot) [SlotState.taken.code]) ∧
  ∀ (s : State) (slot : Slot) (h : Hold) (limit : Nat) (copy : InspectCopy), Memory.wf s.hostMemory = true →
    s.port.state.writes = true → s.holdOf slot = some h → h.work = .inspect limit copy → limit ≤ s.clockCount →
    (∃ t,
      exec (.holdLimit slot { Env.quiet with arrivals := [.portReset] }) s = .next t ∧
        t.roster = s.roster ∧ t.port.state = .stopped ∧ t.port.holds = [] ∧ t.hostMemory = s.hostMemory) ∧
    (∃ t,
      exec (.holdLimit slot { Env.quiet with arrivals := [.nothing, .portReset] }) s = .next t ∧
        t.roster = s.recordedRoster (judge copy s) copy ∧ t.port.state = .stopped ∧ t.port.holds = [] ∧
        s.writesOnly t [(s.areaAddress + 0x10, 16)]) ∧
    ∀ (isWrite : Bool) (address : Word),
      (∃ t,
        exec (.holdLimit slot { Env.quiet with arrivals := [.busFault isWrite address] }) s = .next t ∧
          t.roster = s.roster ∧ t.port.state = .fault ∧ t.port.faultAddress = address ∧ t.port.holds = s.port.holds ∧
          t.hostMemory = s.hostMemory) ∧
      ∃ t,
        exec (.holdLimit slot { Env.quiet with arrivals := [.nothing, .busFault isWrite address] }) s = .next t ∧
          t.roster = s.recordedRoster (judge copy s) copy ∧ t.port.state = .fault ∧ t.port.holds = s.port.holds ∧
          s.writesOnly t [(s.areaAddress + 0x10, 16)]

/-! ### Invariants -/

/-- Power-on reset meets every invariant. -/
def Obligations.ResetMeetsTheInvariants : Prop :=
  MemoryInvariant State.reset ∧ State.reset.clock.InRange ∧ PortInvariant State.reset ∧ RosterInvariant State.reset ∧
    TableInvariant State.reset ∧ RunInvariant State.reset

/-- Every step keeps both memories in canonical form and within their address spaces. -/
def Obligations.StepKeepsTheMemories : Prop :=
  ∀ s t : State, MemoryInvariant s → step s = .next t → MemoryInvariant t

/-- Every step keeps the clock's items in the ranges of 1.1, whatever arrives. -/
def Obligations.StepKeepsTheClockInRange : Prop :=
  ∀ s t : State, s.clock.InRange → step s = .next t → t.clock.InRange

/-- Every step keeps what always holds of the exchange port and the power state, whatever arrives and whatever fails. -/
def Obligations.StepKeepsThePort : Prop :=
  ∀ s t : State, PortInvariant s → step s = .next t → PortInvariant t

/-- Every step keeps what always holds of the roster, whatever arrives and whatever fails. -/
def Obligations.StepKeepsTheRoster : Prop :=
  ∀ s t : State, RosterInvariant s → step s = .next t → RosterInvariant t

/-- Every step keeps what always holds of the table store, whatever arrives and whatever fails. -/
def Obligations.StepKeepsTheTables : Prop :=
  ∀ s t : State, TableInvariant s → step s = .next t → TableInvariant t

/-- Every step keeps what always holds of the run, on a port and a table store that keep their own, whatever arrives and
whatever fails. -/
def Obligations.StepKeepsTheRun : Prop :=
  ∀ s t : State, RunInvariant s → PortInvariant s → TableInvariant s → step s = .next t → RunInvariant t

/-- While a run is open no step but the ones that close it, wipe the part or reset it changes its identity, and no step
changes the stops and tariff tables under an open run (R6, R13, R16, R42). -/
def Obligations.StepKeepsTheOpenRun : Prop :=
  ∀ s t : State, RunInvariant s → TableInvariant s → s.runOpen = true → t.runOpen = true → step s = .next t →
    t.run.runId = s.run.runId ∧ t.run.terminal = s.run.terminal ∧ t.run.direction = s.run.direction ∧
      t.run.coachCount = s.run.coachCount ∧ t.run.coachClasses = s.run.coachClasses ∧
      t.run.sharedWindow = s.run.sharedWindow ∧ t.run.watchLead = s.run.watchLead ∧
      t.run.skewTolerance = s.run.skewTolerance ∧ t.run.holdLimit = s.run.holdLimit ∧
      t.tables.stops.edition = s.tables.stops.edition ∧ t.tables.entries .stops = s.tables.entries .stops ∧
      t.tables.entries .tariff = s.tables.entries .tariff ∧ t.clock.isSet = true
end

