-- ==== Sys2Proof/Laws/State.lean ====
section
/-! SUPPORT. One lemma per field per plain update of the state, true by rfl, so that no proof unfolds a record update. -/

namespace Sys2Proof.Machine

/-! `setOverflow` -/

@[simp] theorem setOverflow_pending (s : State) : (setOverflow s).pending = s.pending := rfl
@[simp] theorem setOverflow_port (s : State) : (setOverflow s).port = { s.port with overflow := true } := rfl
@[simp] theorem setOverflow_clock (s : State) : (setOverflow s).clock = s.clock := rfl
@[simp] theorem setOverflow_run (s : State) : (setOverflow s).run = s.run := rfl
@[simp] theorem setOverflow_tables (s : State) : (setOverflow s).tables = s.tables := rfl
@[simp] theorem setOverflow_roster (s : State) : (setOverflow s).roster = s.roster := rfl
@[simp] theorem setOverflow_power (s : State) : (setOverflow s).power = s.power := rfl
@[simp] theorem setOverflow_hostMemory (s : State) : (setOverflow s).hostMemory = s.hostMemory := rfl
@[simp] theorem setOverflow_busLeft (s : State) : (setOverflow s).busLeft = s.busLeft := rfl
@[simp] theorem setOverflow_arrivals (s : State) : (setOverflow s).arrivals = s.arrivals := rfl
@[simp] theorem setOverflow_owed (s : State) : (setOverflow s).owed = s.owed := rfl
@[simp] theorem setOverflow_turns (s : State) : (setOverflow s).turns = s.turns := rfl

/-! `advanceRing` -/

@[simp] theorem advanceRing_pending (s : State) : (advanceRing s).pending = s.pending := rfl
@[simp] theorem advanceRing_port (s : State) :
    (advanceRing s).port = { s.port with
        writePosition := s.port.writePosition + 1
        nextSequence := s.port.nextSequence + 1
        noticeCount := s.port.noticeCount + 1 } := rfl
@[simp] theorem advanceRing_clock (s : State) : (advanceRing s).clock = s.clock := rfl
@[simp] theorem advanceRing_run (s : State) : (advanceRing s).run = s.run := rfl
@[simp] theorem advanceRing_tables (s : State) : (advanceRing s).tables = s.tables := rfl
@[simp] theorem advanceRing_roster (s : State) : (advanceRing s).roster = s.roster := rfl
@[simp] theorem advanceRing_power (s : State) : (advanceRing s).power = s.power := rfl
@[simp] theorem advanceRing_hostMemory (s : State) : (advanceRing s).hostMemory = s.hostMemory := rfl
@[simp] theorem advanceRing_busLeft (s : State) : (advanceRing s).busLeft = s.busLeft := rfl
@[simp] theorem advanceRing_arrivals (s : State) : (advanceRing s).arrivals = s.arrivals := rfl
@[simp] theorem advanceRing_owed (s : State) : (advanceRing s).owed = s.owed := rfl
@[simp] theorem advanceRing_turns (s : State) : (advanceRing s).turns = s.turns := rfl

/-! `finishInHand` -/

@[simp] theorem finishInHand_pending (slot : Slot) (s : State) :
    (finishInHand slot s).pending = s.pending := rfl
@[simp] theorem finishInHand_port (slot : Slot) (s : State) :
    (finishInHand slot s).port = { s.port with inHand := none, cursor := slot + 1 } := rfl
@[simp] theorem finishInHand_clock (slot : Slot) (s : State) : (finishInHand slot s).clock = s.clock := rfl
@[simp] theorem finishInHand_run (slot : Slot) (s : State) : (finishInHand slot s).run = s.run := rfl
@[simp] theorem finishInHand_tables (slot : Slot) (s : State) : (finishInHand slot s).tables = s.tables := rfl
@[simp] theorem finishInHand_roster (slot : Slot) (s : State) : (finishInHand slot s).roster = s.roster := rfl
@[simp] theorem finishInHand_power (slot : Slot) (s : State) : (finishInHand slot s).power = s.power := rfl
@[simp] theorem finishInHand_hostMemory (slot : Slot) (s : State) :
    (finishInHand slot s).hostMemory = s.hostMemory := rfl
@[simp] theorem finishInHand_busLeft (slot : Slot) (s : State) :
    (finishInHand slot s).busLeft = s.busLeft := rfl
@[simp] theorem finishInHand_arrivals (slot : Slot) (s : State) :
    (finishInHand slot s).arrivals = s.arrivals := rfl
@[simp] theorem finishInHand_owed (slot : Slot) (s : State) : (finishInHand slot s).owed = s.owed := rfl
@[simp] theorem finishInHand_turns (slot : Slot) (s : State) : (finishInHand slot s).turns = s.turns := rfl

/-! `appendHold` -/

@[simp] theorem appendHold_pending (h : Hold) (s : State) : (appendHold h s).pending = s.pending := rfl
@[simp] theorem appendHold_port (h : Hold) (s : State) :
    (appendHold h s).port = { s.port with holds := s.port.holds ++ [h] } := rfl
@[simp] theorem appendHold_clock (h : Hold) (s : State) : (appendHold h s).clock = s.clock := rfl
@[simp] theorem appendHold_run (h : Hold) (s : State) : (appendHold h s).run = s.run := rfl
@[simp] theorem appendHold_tables (h : Hold) (s : State) : (appendHold h s).tables = s.tables := rfl
@[simp] theorem appendHold_roster (h : Hold) (s : State) : (appendHold h s).roster = s.roster := rfl
@[simp] theorem appendHold_power (h : Hold) (s : State) : (appendHold h s).power = s.power := rfl
@[simp] theorem appendHold_hostMemory (h : Hold) (s : State) :
    (appendHold h s).hostMemory = s.hostMemory := rfl
@[simp] theorem appendHold_busLeft (h : Hold) (s : State) : (appendHold h s).busLeft = s.busLeft := rfl
@[simp] theorem appendHold_arrivals (h : Hold) (s : State) : (appendHold h s).arrivals = s.arrivals := rfl
@[simp] theorem appendHold_owed (h : Hold) (s : State) : (appendHold h s).owed = s.owed := rfl
@[simp] theorem appendHold_turns (h : Hold) (s : State) : (appendHold h s).turns = s.turns := rfl

/-! `dropHold` -/

@[simp] theorem dropHold_pending (slot : Slot) (s : State) : (dropHold slot s).pending = s.pending := rfl
@[simp] theorem dropHold_port (slot : Slot) (s : State) :
    (dropHold slot s).port = { s.port with
        holds := s.port.holds.filter fun h => h.slot != slot
        endedMarks := s.port.endedMarks.set slot.val true } := rfl
@[simp] theorem dropHold_clock (slot : Slot) (s : State) : (dropHold slot s).clock = s.clock := rfl
@[simp] theorem dropHold_run (slot : Slot) (s : State) : (dropHold slot s).run = s.run := rfl
@[simp] theorem dropHold_tables (slot : Slot) (s : State) : (dropHold slot s).tables = s.tables := rfl
@[simp] theorem dropHold_roster (slot : Slot) (s : State) : (dropHold slot s).roster = s.roster := rfl
@[simp] theorem dropHold_power (slot : Slot) (s : State) : (dropHold slot s).power = s.power := rfl
@[simp] theorem dropHold_hostMemory (slot : Slot) (s : State) :
    (dropHold slot s).hostMemory = s.hostMemory := rfl
@[simp] theorem dropHold_busLeft (slot : Slot) (s : State) : (dropHold slot s).busLeft = s.busLeft := rfl
@[simp] theorem dropHold_arrivals (slot : Slot) (s : State) : (dropHold slot s).arrivals = s.arrivals := rfl
@[simp] theorem dropHold_owed (slot : Slot) (s : State) : (dropHold slot s).owed = s.owed := rfl
@[simp] theorem dropHold_turns (slot : Slot) (s : State) : (dropHold slot s).turns = s.turns := rfl

/-! `carryHold` -/

@[simp] theorem carryHold_pending (slot : Slot) (a : Awaits) (s : State) :
    (carryHold slot a s).pending = s.pending := rfl
@[simp] theorem carryHold_port (slot : Slot) (a : Awaits) (s : State) :
    (carryHold slot a s).port = { s.port with holds := s.port.holds.map fun h => if h.slot == slot then { h with awaits := a } else h } := rfl
@[simp] theorem carryHold_clock (slot : Slot) (a : Awaits) (s : State) :
    (carryHold slot a s).clock = s.clock := rfl
@[simp] theorem carryHold_run (slot : Slot) (a : Awaits) (s : State) : (carryHold slot a s).run = s.run := rfl
@[simp] theorem carryHold_tables (slot : Slot) (a : Awaits) (s : State) :
    (carryHold slot a s).tables = s.tables := rfl
@[simp] theorem carryHold_roster (slot : Slot) (a : Awaits) (s : State) :
    (carryHold slot a s).roster = s.roster := rfl
@[simp] theorem carryHold_power (slot : Slot) (a : Awaits) (s : State) :
    (carryHold slot a s).power = s.power := rfl
@[simp] theorem carryHold_hostMemory (slot : Slot) (a : Awaits) (s : State) :
    (carryHold slot a s).hostMemory = s.hostMemory := rfl
@[simp] theorem carryHold_busLeft (slot : Slot) (a : Awaits) (s : State) :
    (carryHold slot a s).busLeft = s.busLeft := rfl
@[simp] theorem carryHold_arrivals (slot : Slot) (a : Awaits) (s : State) :
    (carryHold slot a s).arrivals = s.arrivals := rfl
@[simp] theorem carryHold_owed (slot : Slot) (a : Awaits) (s : State) :
    (carryHold slot a s).owed = s.owed := rfl
@[simp] theorem carryHold_turns (slot : Slot) (a : Awaits) (s : State) :
    (carryHold slot a s).turns = s.turns := rfl

/-! `spend` -/

@[simp] theorem spend_pending (n : Nat) (s : State) : (s.spend n).pending = s.pending := rfl
@[simp] theorem spend_port (n : Nat) (s : State) : (s.spend n).port = s.port := rfl
@[simp] theorem spend_clock (n : Nat) (s : State) : (s.spend n).clock = s.clock := rfl
@[simp] theorem spend_run (n : Nat) (s : State) : (s.spend n).run = s.run := rfl
@[simp] theorem spend_tables (n : Nat) (s : State) : (s.spend n).tables = s.tables := rfl
@[simp] theorem spend_roster (n : Nat) (s : State) : (s.spend n).roster = s.roster := rfl
@[simp] theorem spend_power (n : Nat) (s : State) : (s.spend n).power = s.power := rfl
@[simp] theorem spend_hostMemory (n : Nat) (s : State) : (s.spend n).hostMemory = s.hostMemory := rfl
@[simp] theorem spend_busLeft (n : Nat) (s : State) : (s.spend n).busLeft = s.busLeft.map (· - n) := rfl
@[simp] theorem spend_arrivals (n : Nat) (s : State) : (s.spend n).arrivals = s.arrivals := rfl
@[simp] theorem spend_owed (n : Nat) (s : State) : (s.spend n).owed = s.owed := rfl
@[simp] theorem spend_turns (n : Nat) (s : State) : (s.spend n).turns = s.turns := rfl

/-! `enterFault` -/

@[simp] theorem enterFault_pending (cause : FaultCause) (a : Nat) (s : State) :
    (enterFault cause a s).pending = s.pending := rfl
@[simp] theorem enterFault_port (cause : FaultCause) (a : Nat) (s : State) :
    (enterFault cause a s).port = { s.port with
        state := .fault
        faultFlag := true
        faultCause := cause
        faultAddress := BitVec.ofNat 32 a
        sweepLeft := 0
        sweepAgain := false
        inHand := none } := rfl
@[simp] theorem enterFault_clock (cause : FaultCause) (a : Nat) (s : State) :
    (enterFault cause a s).clock = s.clock := rfl
@[simp] theorem enterFault_run (cause : FaultCause) (a : Nat) (s : State) :
    (enterFault cause a s).run = s.run := rfl
@[simp] theorem enterFault_tables (cause : FaultCause) (a : Nat) (s : State) :
    (enterFault cause a s).tables = s.tables.abortLoad := rfl
@[simp] theorem enterFault_roster (cause : FaultCause) (a : Nat) (s : State) :
    (enterFault cause a s).roster = s.roster := rfl
@[simp] theorem enterFault_power (cause : FaultCause) (a : Nat) (s : State) :
    (enterFault cause a s).power = s.power := rfl
@[simp] theorem enterFault_hostMemory (cause : FaultCause) (a : Nat) (s : State) :
    (enterFault cause a s).hostMemory = s.hostMemory := rfl
@[simp] theorem enterFault_busLeft (cause : FaultCause) (a : Nat) (s : State) :
    (enterFault cause a s).busLeft = none := rfl
@[simp] theorem enterFault_arrivals (cause : FaultCause) (a : Nat) (s : State) :
    (enterFault cause a s).arrivals = s.arrivals := rfl
@[simp] theorem enterFault_owed (cause : FaultCause) (a : Nat) (s : State) :
    (enterFault cause a s).owed = s.owed := rfl
@[simp] theorem enterFault_turns (cause : FaultCause) (a : Nat) (s : State) :
    (enterFault cause a s).turns = s.turns := rfl

/-! `resetPort` -/

@[simp] theorem resetPort_pending (s : State) : (resetPort s).pending = s.pending := rfl
@[simp] theorem resetPort_clock (s : State) : (resetPort s).clock = s.clock := rfl
@[simp] theorem resetPort_run (s : State) : (resetPort s).run = s.run := rfl
@[simp] theorem resetPort_tables (s : State) : (resetPort s).tables = s.tables.abortLoad := rfl
@[simp] theorem resetPort_roster (s : State) : (resetPort s).roster = s.roster := rfl
@[simp] theorem resetPort_power (s : State) : (resetPort s).power = s.power := rfl
@[simp] theorem resetPort_hostMemory (s : State) : (resetPort s).hostMemory = s.hostMemory := rfl
@[simp] theorem resetPort_busLeft (s : State) : (resetPort s).busLeft = s.busLeft := rfl
@[simp] theorem resetPort_arrivals (s : State) : (resetPort s).arrivals = s.arrivals := rfl
@[simp] theorem resetPort_owed (s : State) : (resetPort s).owed = s.owed := rfl
@[simp] theorem resetPort_turns (s : State) : (resetPort s).turns = s.turns := rfl

/-! `setEntry` -/

@[simp] theorem setEntry_pending (i : Nat) (f : Entry → Entry) (s : State) :
    (setEntry i f s).pending = s.pending := rfl
@[simp] theorem setEntry_port (i : Nat) (f : Entry → Entry) (s : State) :
    (setEntry i f s).port = s.port := rfl
@[simp] theorem setEntry_clock (i : Nat) (f : Entry → Entry) (s : State) :
    (setEntry i f s).clock = s.clock := rfl
@[simp] theorem setEntry_run (i : Nat) (f : Entry → Entry) (s : State) : (setEntry i f s).run = s.run := rfl
@[simp] theorem setEntry_tables (i : Nat) (f : Entry → Entry) (s : State) :
    (setEntry i f s).tables = s.tables := rfl
@[simp] theorem setEntry_roster (i : Nat) (f : Entry → Entry) (s : State) :
    (setEntry i f s).roster = s.roster.modify i f := rfl
@[simp] theorem setEntry_power (i : Nat) (f : Entry → Entry) (s : State) :
    (setEntry i f s).power = s.power := rfl
@[simp] theorem setEntry_hostMemory (i : Nat) (f : Entry → Entry) (s : State) :
    (setEntry i f s).hostMemory = s.hostMemory := rfl
@[simp] theorem setEntry_busLeft (i : Nat) (f : Entry → Entry) (s : State) :
    (setEntry i f s).busLeft = s.busLeft := rfl
@[simp] theorem setEntry_arrivals (i : Nat) (f : Entry → Entry) (s : State) :
    (setEntry i f s).arrivals = s.arrivals := rfl
@[simp] theorem setEntry_owed (i : Nat) (f : Entry → Entry) (s : State) :
    (setEntry i f s).owed = s.owed := rfl
@[simp] theorem setEntry_turns (i : Nat) (f : Entry → Entry) (s : State) :
    (setEntry i f s).turns = s.turns := rfl

/-! `setSecond` -/

@[simp] theorem setSecond_pending (n : Nat) (s : State) : (setSecond n s).pending = s.pending := rfl
@[simp] theorem setSecond_port (n : Nat) (s : State) : (setSecond n s).port = s.port := rfl
@[simp] theorem setSecond_clock (n : Nat) (s : State) :
    (setSecond n s).clock = { s.clock with second := n } := rfl
@[simp] theorem setSecond_run (n : Nat) (s : State) : (setSecond n s).run = s.run := rfl
@[simp] theorem setSecond_tables (n : Nat) (s : State) : (setSecond n s).tables = s.tables := rfl
@[simp] theorem setSecond_roster (n : Nat) (s : State) : (setSecond n s).roster = s.roster := rfl
@[simp] theorem setSecond_power (n : Nat) (s : State) : (setSecond n s).power = s.power := rfl
@[simp] theorem setSecond_hostMemory (n : Nat) (s : State) : (setSecond n s).hostMemory = s.hostMemory := rfl
@[simp] theorem setSecond_busLeft (n : Nat) (s : State) : (setSecond n s).busLeft = s.busLeft := rfl
@[simp] theorem setSecond_arrivals (n : Nat) (s : State) : (setSecond n s).arrivals = s.arrivals := rfl
@[simp] theorem setSecond_owed (n : Nat) (s : State) : (setSecond n s).owed = s.owed := rfl
@[simp] theorem setSecond_turns (n : Nat) (s : State) : (setSecond n s).turns = s.turns := rfl

/-! `post` -/

@[simp] theorem post_pending (slot : Slot) (tag : Half) (r : Request) (s : State) :
    (post slot tag r s).pending = s.pending := rfl
@[simp] theorem post_port (slot : Slot) (tag : Half) (r : Request) (s : State) :
    (post slot tag r s).port = s.port := rfl
@[simp] theorem post_clock (slot : Slot) (tag : Half) (r : Request) (s : State) :
    (post slot tag r s).clock = s.clock := rfl
@[simp] theorem post_run (slot : Slot) (tag : Half) (r : Request) (s : State) :
    (post slot tag r s).run = s.run := rfl
@[simp] theorem post_tables (slot : Slot) (tag : Half) (r : Request) (s : State) :
    (post slot tag r s).tables = s.tables := rfl
@[simp] theorem post_roster (slot : Slot) (tag : Half) (r : Request) (s : State) :
    (post slot tag r s).roster = s.roster := rfl
@[simp] theorem post_power (slot : Slot) (tag : Half) (r : Request) (s : State) :
    (post slot tag r s).power = s.power := rfl
@[simp] theorem post_busLeft (slot : Slot) (tag : Half) (r : Request) (s : State) :
    (post slot tag r s).busLeft = s.busLeft := rfl
@[simp] theorem post_arrivals (slot : Slot) (tag : Half) (r : Request) (s : State) :
    (post slot tag r s).arrivals = s.arrivals := rfl
@[simp] theorem post_owed (slot : Slot) (tag : Half) (r : Request) (s : State) :
    (post slot tag r s).owed = s.owed := rfl
@[simp] theorem post_turns (slot : Slot) (tag : Half) (r : Request) (s : State) :
    (post slot tag r s).turns = s.turns := rfl

/-! `examined` -/

@[simp] theorem examined_pending (slot : Slot) (n : Nat) (s : State) :
    (examined slot n s).pending = s.pending := rfl
@[simp] theorem examined_port (slot : Slot) (n : Nat) (s : State) :
    (examined slot n s).port = { s.port with sweepNext := slot + 1, sweepLeft := s.port.sweepLeft - n } := rfl
@[simp] theorem examined_clock (slot : Slot) (n : Nat) (s : State) :
    (examined slot n s).clock = s.clock := rfl
@[simp] theorem examined_run (slot : Slot) (n : Nat) (s : State) : (examined slot n s).run = s.run := rfl
@[simp] theorem examined_tables (slot : Slot) (n : Nat) (s : State) :
    (examined slot n s).tables = s.tables := rfl
@[simp] theorem examined_roster (slot : Slot) (n : Nat) (s : State) :
    (examined slot n s).roster = s.roster := rfl
@[simp] theorem examined_power (slot : Slot) (n : Nat) (s : State) :
    (examined slot n s).power = s.power := rfl
@[simp] theorem examined_hostMemory (slot : Slot) (n : Nat) (s : State) :
    (examined slot n s).hostMemory = s.hostMemory := rfl
@[simp] theorem examined_busLeft (slot : Slot) (n : Nat) (s : State) :
    (examined slot n s).busLeft = s.busLeft := rfl
@[simp] theorem examined_arrivals (slot : Slot) (n : Nat) (s : State) :
    (examined slot n s).arrivals = s.arrivals := rfl
@[simp] theorem examined_owed (slot : Slot) (n : Nat) (s : State) : (examined slot n s).owed = s.owed := rfl
@[simp] theorem examined_turns (slot : Slot) (n : Nat) (s : State) :
    (examined slot n s).turns = s.turns := rfl

/-! `setInHand` -/

@[simp] theorem setInHand_pending (slot : Slot) (s : State) : (setInHand slot s).pending = s.pending := rfl
@[simp] theorem setInHand_port (slot : Slot) (s : State) :
    (setInHand slot s).port = { s.port with inHand := some slot } := rfl
@[simp] theorem setInHand_clock (slot : Slot) (s : State) : (setInHand slot s).clock = s.clock := rfl
@[simp] theorem setInHand_run (slot : Slot) (s : State) : (setInHand slot s).run = s.run := rfl
@[simp] theorem setInHand_tables (slot : Slot) (s : State) : (setInHand slot s).tables = s.tables := rfl
@[simp] theorem setInHand_roster (slot : Slot) (s : State) : (setInHand slot s).roster = s.roster := rfl
@[simp] theorem setInHand_power (slot : Slot) (s : State) : (setInHand slot s).power = s.power := rfl
@[simp] theorem setInHand_hostMemory (slot : Slot) (s : State) :
    (setInHand slot s).hostMemory = s.hostMemory := rfl
@[simp] theorem setInHand_busLeft (slot : Slot) (s : State) : (setInHand slot s).busLeft = s.busLeft := rfl
@[simp] theorem setInHand_arrivals (slot : Slot) (s : State) : (setInHand slot s).arrivals = s.arrivals := rfl
@[simp] theorem setInHand_owed (slot : Slot) (s : State) : (setInHand slot s).owed = s.owed := rfl
@[simp] theorem setInHand_turns (slot : Slot) (s : State) : (setInHand slot s).turns = s.turns := rfl

/-! `clearMark` -/

@[simp] theorem clearMark_pending (slot : Slot) (s : State) : (clearMark slot s).pending = s.pending := rfl
@[simp] theorem clearMark_port (slot : Slot) (s : State) :
    (clearMark slot s).port = { s.port with endedMarks := s.port.endedMarks.set slot.val false } := rfl
@[simp] theorem clearMark_clock (slot : Slot) (s : State) : (clearMark slot s).clock = s.clock := rfl
@[simp] theorem clearMark_run (slot : Slot) (s : State) : (clearMark slot s).run = s.run := rfl
@[simp] theorem clearMark_tables (slot : Slot) (s : State) : (clearMark slot s).tables = s.tables := rfl
@[simp] theorem clearMark_roster (slot : Slot) (s : State) : (clearMark slot s).roster = s.roster := rfl
@[simp] theorem clearMark_power (slot : Slot) (s : State) : (clearMark slot s).power = s.power := rfl
@[simp] theorem clearMark_hostMemory (slot : Slot) (s : State) :
    (clearMark slot s).hostMemory = s.hostMemory := rfl
@[simp] theorem clearMark_busLeft (slot : Slot) (s : State) : (clearMark slot s).busLeft = s.busLeft := rfl
@[simp] theorem clearMark_arrivals (slot : Slot) (s : State) : (clearMark slot s).arrivals = s.arrivals := rfl
@[simp] theorem clearMark_owed (slot : Slot) (s : State) : (clearMark slot s).owed = s.owed := rfl
@[simp] theorem clearMark_turns (slot : Slot) (s : State) : (clearMark slot s).turns = s.turns := rfl

/-! `startSweep` -/

@[simp] theorem startSweep_pending (s : State) : (startSweep s).pending = s.pending := rfl
@[simp] theorem startSweep_port (s : State) :
    (startSweep s).port = { s.port with state := .sweeping, sweepNext := s.port.cursor, sweepLeft := 32 } := rfl
@[simp] theorem startSweep_clock (s : State) : (startSweep s).clock = s.clock := rfl
@[simp] theorem startSweep_run (s : State) : (startSweep s).run = s.run := rfl
@[simp] theorem startSweep_tables (s : State) : (startSweep s).tables = s.tables := rfl
@[simp] theorem startSweep_roster (s : State) : (startSweep s).roster = s.roster := rfl
@[simp] theorem startSweep_power (s : State) : (startSweep s).power = s.power := rfl
@[simp] theorem startSweep_hostMemory (s : State) : (startSweep s).hostMemory = s.hostMemory := rfl
@[simp] theorem startSweep_busLeft (s : State) : (startSweep s).busLeft = s.busLeft := rfl
@[simp] theorem startSweep_arrivals (s : State) : (startSweep s).arrivals = s.arrivals := rfl
@[simp] theorem startSweep_owed (s : State) : (startSweep s).owed = s.owed := rfl
@[simp] theorem startSweep_turns (s : State) : (startSweep s).turns = s.turns := rfl

/-! `dropArrival` -/

@[simp] theorem dropArrival_pending (s : State) : (dropArrival s).pending = s.pending := rfl
@[simp] theorem dropArrival_port (s : State) : (dropArrival s).port = s.port := rfl
@[simp] theorem dropArrival_clock (s : State) : (dropArrival s).clock = s.clock := rfl
@[simp] theorem dropArrival_run (s : State) : (dropArrival s).run = s.run := rfl
@[simp] theorem dropArrival_tables (s : State) : (dropArrival s).tables = s.tables := rfl
@[simp] theorem dropArrival_roster (s : State) : (dropArrival s).roster = s.roster := rfl
@[simp] theorem dropArrival_power (s : State) : (dropArrival s).power = s.power := rfl
@[simp] theorem dropArrival_hostMemory (s : State) : (dropArrival s).hostMemory = s.hostMemory := rfl
@[simp] theorem dropArrival_busLeft (s : State) : (dropArrival s).busLeft = s.busLeft := rfl
@[simp] theorem dropArrival_arrivals (s : State) : (dropArrival s).arrivals = s.arrivals.tail := rfl
@[simp] theorem dropArrival_owed (s : State) : (dropArrival s).owed = s.owed := rfl
@[simp] theorem dropArrival_turns (s : State) : (dropArrival s).turns = s.turns := rfl

/-! `oweExamination` -/

@[simp] theorem oweExamination_pending (n : Nat) (s : State) : (oweExamination n s).pending = s.pending := rfl
@[simp] theorem oweExamination_port (n : Nat) (s : State) : (oweExamination n s).port = s.port := rfl
@[simp] theorem oweExamination_clock (n : Nat) (s : State) : (oweExamination n s).clock = s.clock := rfl
@[simp] theorem oweExamination_run (n : Nat) (s : State) : (oweExamination n s).run = s.run := rfl
@[simp] theorem oweExamination_tables (n : Nat) (s : State) : (oweExamination n s).tables = s.tables := rfl
@[simp] theorem oweExamination_roster (n : Nat) (s : State) : (oweExamination n s).roster = s.roster := rfl
@[simp] theorem oweExamination_power (n : Nat) (s : State) : (oweExamination n s).power = s.power := rfl
@[simp] theorem oweExamination_hostMemory (n : Nat) (s : State) :
    (oweExamination n s).hostMemory = s.hostMemory := rfl
@[simp] theorem oweExamination_busLeft (n : Nat) (s : State) : (oweExamination n s).busLeft = s.busLeft := rfl
@[simp] theorem oweExamination_arrivals (n : Nat) (s : State) :
    (oweExamination n s).arrivals = s.arrivals := rfl
@[simp] theorem oweExamination_owed (n : Nat) (s : State) : (oweExamination n s).owed = s.owed ++ [n] := rfl
@[simp] theorem oweExamination_turns (n : Nat) (s : State) : (oweExamination n s).turns = s.turns := rfl

/-! `discardProposals` -/

@[simp] theorem discardProposals_pending (s : State) : (discardProposals s).pending = s.pending := rfl
@[simp] theorem discardProposals_port (s : State) : (discardProposals s).port = s.port := rfl
@[simp] theorem discardProposals_clock (s : State) : (discardProposals s).clock = s.clock := rfl
@[simp] theorem discardProposals_run (s : State) : (discardProposals s).run = s.run := rfl
@[simp] theorem discardProposals_tables (s : State) : (discardProposals s).tables = s.tables := rfl
@[simp] theorem discardProposals_roster (s : State) :
    (discardProposals s).roster = s.roster.map Entry.discardProposal := rfl
@[simp] theorem discardProposals_power (s : State) : (discardProposals s).power = s.power := rfl
@[simp] theorem discardProposals_hostMemory (s : State) :
    (discardProposals s).hostMemory = s.hostMemory := rfl
@[simp] theorem discardProposals_busLeft (s : State) : (discardProposals s).busLeft = s.busLeft := rfl
@[simp] theorem discardProposals_arrivals (s : State) : (discardProposals s).arrivals = s.arrivals := rfl
@[simp] theorem discardProposals_owed (s : State) : (discardProposals s).owed = s.owed := rfl
@[simp] theorem discardProposals_turns (s : State) : (discardProposals s).turns = s.turns := rfl

/-! `storeControl` -/

@[simp] theorem storeControl_pending (v : Word) (s : State) : (storeControl v s).pending = s.pending := rfl
@[simp] theorem storeControl_port (v : Word) (s : State) :
    (storeControl v s).port = { s.port with
        enable := v.getLsbD 0
        noticeAttention := v.getLsbD 1
        faultAttention := v.getLsbD 2
        dozeRequest := v.getLsbD 3 } := rfl
@[simp] theorem storeControl_clock (v : Word) (s : State) : (storeControl v s).clock = s.clock := rfl
@[simp] theorem storeControl_run (v : Word) (s : State) : (storeControl v s).run = s.run := rfl
@[simp] theorem storeControl_tables (v : Word) (s : State) : (storeControl v s).tables = s.tables := rfl
@[simp] theorem storeControl_roster (v : Word) (s : State) : (storeControl v s).roster = s.roster := rfl
@[simp] theorem storeControl_power (v : Word) (s : State) : (storeControl v s).power = s.power := rfl
@[simp] theorem storeControl_hostMemory (v : Word) (s : State) :
    (storeControl v s).hostMemory = s.hostMemory := rfl
@[simp] theorem storeControl_busLeft (v : Word) (s : State) : (storeControl v s).busLeft = s.busLeft := rfl
@[simp] theorem storeControl_arrivals (v : Word) (s : State) : (storeControl v s).arrivals = s.arrivals := rfl
@[simp] theorem storeControl_owed (v : Word) (s : State) : (storeControl v s).owed = s.owed := rfl
@[simp] theorem storeControl_turns (v : Word) (s : State) : (storeControl v s).turns = s.turns := rfl

/-! `releaseNotices` -/

@[simp] theorem releaseNotices_pending (v : Word) (s : State) :
    (releaseNotices v s).pending = s.pending := rfl
@[simp] theorem releaseNotices_port (v : Word) (s : State) :
    (releaseNotices v s).port = { s.port with noticeCount := s.port.noticeCount - v.toNat } := rfl
@[simp] theorem releaseNotices_clock (v : Word) (s : State) : (releaseNotices v s).clock = s.clock := rfl
@[simp] theorem releaseNotices_run (v : Word) (s : State) : (releaseNotices v s).run = s.run := rfl
@[simp] theorem releaseNotices_tables (v : Word) (s : State) : (releaseNotices v s).tables = s.tables := rfl
@[simp] theorem releaseNotices_roster (v : Word) (s : State) : (releaseNotices v s).roster = s.roster := rfl
@[simp] theorem releaseNotices_power (v : Word) (s : State) : (releaseNotices v s).power = s.power := rfl
@[simp] theorem releaseNotices_hostMemory (v : Word) (s : State) :
    (releaseNotices v s).hostMemory = s.hostMemory := rfl
@[simp] theorem releaseNotices_busLeft (v : Word) (s : State) :
    (releaseNotices v s).busLeft = s.busLeft := rfl
@[simp] theorem releaseNotices_arrivals (v : Word) (s : State) :
    (releaseNotices v s).arrivals = s.arrivals := rfl
@[simp] theorem releaseNotices_owed (v : Word) (s : State) : (releaseNotices v s).owed = s.owed := rfl
@[simp] theorem releaseNotices_turns (v : Word) (s : State) : (releaseNotices v s).turns = s.turns := rfl

/-! `disablePort` -/

@[simp] theorem disablePort_pending (s : State) : (disablePort s).pending = s.pending := rfl
@[simp] theorem disablePort_port (s : State) :
    (disablePort s).port = { s.port with state := .stopped, sweepLeft := 0, sweepAgain := false } := rfl
@[simp] theorem disablePort_clock (s : State) : (disablePort s).clock = s.clock := rfl
@[simp] theorem disablePort_run (s : State) : (disablePort s).run = s.run := rfl
@[simp] theorem disablePort_tables (s : State) : (disablePort s).tables = s.tables := rfl
@[simp] theorem disablePort_roster (s : State) : (disablePort s).roster = s.roster := rfl
@[simp] theorem disablePort_power (s : State) : (disablePort s).power = s.power := rfl
@[simp] theorem disablePort_hostMemory (s : State) : (disablePort s).hostMemory = s.hostMemory := rfl
@[simp] theorem disablePort_busLeft (s : State) : (disablePort s).busLeft = s.busLeft := rfl
@[simp] theorem disablePort_arrivals (s : State) : (disablePort s).arrivals = s.arrivals := rfl
@[simp] theorem disablePort_owed (s : State) : (disablePort s).owed = s.owed := rfl
@[simp] theorem disablePort_turns (s : State) : (disablePort s).turns = s.turns := rfl

/-! `wipeState` -/

@[simp] theorem wipeState_pending (s : State) : (wipeState s).pending = s.pending := rfl
@[simp] theorem wipeState_port (s : State) : (wipeState s).port = s.port := rfl
@[simp] theorem wipeState_clock (s : State) : (wipeState s).clock = s.clock := rfl
@[simp] theorem wipeState_run (s : State) : (wipeState s).run = Run.reset := rfl
@[simp] theorem wipeState_tables (s : State) : (wipeState s).tables = Tables.reset := rfl
@[simp] theorem wipeState_roster (s : State) : (wipeState s).roster = [] := rfl
@[simp] theorem wipeState_power (s : State) : (wipeState s).power = s.power := rfl
@[simp] theorem wipeState_hostMemory (s : State) : (wipeState s).hostMemory = s.hostMemory := rfl
@[simp] theorem wipeState_busLeft (s : State) : (wipeState s).busLeft = s.busLeft := rfl
@[simp] theorem wipeState_arrivals (s : State) : (wipeState s).arrivals = s.arrivals := rfl
@[simp] theorem wipeState_owed (s : State) : (wipeState s).owed = s.owed := rfl
@[simp] theorem wipeState_turns (s : State) : (wipeState s).turns = s.turns := rfl

/-! `beginWipe` -/

@[simp] theorem beginWipe_pending (s : State) : (beginWipe s).pending = s.pending := rfl
@[simp] theorem beginWipe_port (s : State) : (beginWipe s).port = s.port := rfl
@[simp] theorem beginWipe_clock (s : State) : (beginWipe s).clock = s.clock := rfl
@[simp] theorem beginWipe_run (s : State) : (beginWipe s).run = s.run := rfl
@[simp] theorem beginWipe_tables (s : State) : (beginWipe s).tables = { s.tables with wiping := true } := rfl
@[simp] theorem beginWipe_roster (s : State) : (beginWipe s).roster = s.roster := rfl
@[simp] theorem beginWipe_power (s : State) : (beginWipe s).power = s.power := rfl
@[simp] theorem beginWipe_hostMemory (s : State) : (beginWipe s).hostMemory = s.hostMemory := rfl
@[simp] theorem beginWipe_busLeft (s : State) : (beginWipe s).busLeft = s.busLeft := rfl
@[simp] theorem beginWipe_arrivals (s : State) : (beginWipe s).arrivals = s.arrivals := rfl
@[simp] theorem beginWipe_owed (s : State) : (beginWipe s).owed = s.owed := rfl
@[simp] theorem beginWipe_turns (s : State) : (beginWipe s).turns = s.turns := rfl

/-! `beginStep` -/

@[simp] theorem beginStep_pending (env : Env) (s : State) : (beginStep env s).pending = s.pending := rfl
@[simp] theorem beginStep_port (env : Env) (s : State) : (beginStep env s).port = s.port := rfl
@[simp] theorem beginStep_clock (env : Env) (s : State) : (beginStep env s).clock = s.clock := rfl
@[simp] theorem beginStep_run (env : Env) (s : State) : (beginStep env s).run = s.run := rfl
@[simp] theorem beginStep_tables (env : Env) (s : State) : (beginStep env s).tables = s.tables := rfl
@[simp] theorem beginStep_roster (env : Env) (s : State) : (beginStep env s).roster = s.roster := rfl
@[simp] theorem beginStep_power (env : Env) (s : State) : (beginStep env s).power = s.power := rfl
@[simp] theorem beginStep_busLeft (env : Env) (s : State) : (beginStep env s).busLeft = env.bus := rfl
@[simp] theorem beginStep_arrivals (env : Env) (s : State) : (beginStep env s).arrivals = env.arrivals := rfl
@[simp] theorem beginStep_owed (env : Env) (s : State) : (beginStep env s).owed = [] := rfl
@[simp] theorem beginStep_turns (env : Env) (s : State) : (beginStep env s).turns = s.turns := rfl

/-! `resetPower` -/

@[simp] theorem resetPower_pending (s : State) : (resetPower s).pending = s.pending := rfl
@[simp] theorem resetPower_port (s : State) : (resetPower s).port = Port.reset := rfl
@[simp] theorem resetPower_clock (s : State) : (resetPower s).clock = Clock.reset := rfl
@[simp] theorem resetPower_run (s : State) : (resetPower s).run = Run.reset := rfl
@[simp] theorem resetPower_tables (s : State) : (resetPower s).tables = Tables.reset := rfl
@[simp] theorem resetPower_roster (s : State) : (resetPower s).roster = [] := rfl
@[simp] theorem resetPower_power (s : State) : (resetPower s).power = .active := rfl
@[simp] theorem resetPower_hostMemory (s : State) : (resetPower s).hostMemory = s.hostMemory := rfl
@[simp] theorem resetPower_busLeft (s : State) : (resetPower s).busLeft = none := rfl
@[simp] theorem resetPower_arrivals (s : State) : (resetPower s).arrivals = [] := rfl
@[simp] theorem resetPower_owed (s : State) : (resetPower s).owed = [] := rfl
@[simp] theorem resetPower_turns (s : State) : (resetPower s).turns = s.turns := rfl

end Sys2Proof.Machine
end

