-- ==== Sys2Proof/Laws/Frames.lean ====
section
/-! SUPPORT. What the shared operations leave alone: for each operation over the bus, the ring, the answers and the hold list,
one lemma per part of the state that it does not change, whatever the bus does. -/

namespace Sys2Proof.Machine

/-! Aborting a load changes one descriptor's state and cause and the load in progress, and nothing else (R135). -/

@[simp] theorem abortLoad_memory (t : Tables) : t.abortLoad.memory = t.memory := by
  unfold Tables.abortLoad Tables.setDescriptor
  split
  · rfl
  · split <;> rfl

@[simp] theorem abortLoad_ordinals (t : Tables) : t.abortLoad.ordinals = t.ordinals := by
  unfold Tables.abortLoad Tables.setDescriptor
  split
  · rfl
  · split <;> rfl

@[simp] theorem abortLoad_wiping (t : Tables) : t.abortLoad.wiping = t.wiping := by
  unfold Tables.abortLoad Tables.setDescriptor
  split
  · rfl
  · split <;> rfl

@[simp] theorem abortLoad_load (t : Tables) : t.abortLoad.load = none := by
  unfold Tables.abortLoad
  split
  · assumption
  · rfl

theorem descriptor_setDescriptor (t : Tables) (k k' : TableKind) (d : Descriptor) :
    (t.setDescriptor k d).descriptor k' = if k' = k then d else t.descriptor k' := by
  cases k <;> cases k' <;> rfl

@[simp] theorem setDescriptor_memory (t : Tables) (k : TableKind) (d : Descriptor) :
    (t.setDescriptor k d).memory = t.memory := by cases k <;> rfl

@[simp] theorem setDescriptor_ordinals (t : Tables) (k : TableKind) (d : Descriptor) :
    (t.setDescriptor k d).ordinals = t.ordinals := by cases k <;> rfl

@[simp] theorem setDescriptor_load (t : Tables) (k : TableKind) (d : Descriptor) :
    (t.setDescriptor k d).load = t.load := by cases k <;> rfl

@[simp] theorem setDescriptor_wiping (t : Tables) (k : TableKind) (d : Descriptor) :
    (t.setDescriptor k d).wiping = t.wiping := by cases k <;> rfl

/-- The descriptors after an abort (R135). -/
theorem abortLoad_descriptor (t : Tables) (k : TableKind) :
    t.abortLoad.descriptor k =
      match t.load with
      | none => t.descriptor k
      | some job =>
        if k = job.kind then { t.descriptor k with state := .damaged, cause := .aborted } else t.descriptor k := by
  have drop : ∀ (u : Tables), ({ u with load := none } : Tables).descriptor k = u.descriptor k := by intro u; cases k <;> rfl
  cases h : t.load with
  | none => simp [Tables.abortLoad, h]
  | some job =>
    simp only [Tables.abortLoad, h]
    rw [drop, descriptor_setDescriptor]
    split
    · rename_i hk; subst hk; rfl
    · rfl

/-! `busWrite` -/

@[simp] theorem busWrite_pending (a : Nat) (bs : List Byte) (s : State) :
    (busWrite a bs s).pending = s.pending := by unfold busWrite; split <;> [split <;> simp; rfl]
@[simp] theorem busWrite_clock (a : Nat) (bs : List Byte) (s : State) : (busWrite a bs s).clock = s.clock := by
  unfold busWrite; split <;> [split <;> simp; rfl]
@[simp] theorem busWrite_run (a : Nat) (bs : List Byte) (s : State) : (busWrite a bs s).run = s.run := by
  unfold busWrite; split <;> [split <;> simp; rfl]
@[simp] theorem busWrite_roster (a : Nat) (bs : List Byte) (s : State) :
    (busWrite a bs s).roster = s.roster := by unfold busWrite; split <;> [split <;> simp; rfl]
@[simp] theorem busWrite_power (a : Nat) (bs : List Byte) (s : State) : (busWrite a bs s).power = s.power := by
  unfold busWrite; split <;> [split <;> simp; rfl]
@[simp] theorem busWrite_arrivals (a : Nat) (bs : List Byte) (s : State) :
    (busWrite a bs s).arrivals = s.arrivals := by unfold busWrite; split <;> [split <;> simp; rfl]
@[simp] theorem busWrite_owed (a : Nat) (bs : List Byte) (s : State) : (busWrite a bs s).owed = s.owed := by
  unfold busWrite; split <;> [split <;> simp; rfl]
@[simp] theorem busWrite_turns (a : Nat) (bs : List Byte) (s : State) : (busWrite a bs s).turns = s.turns := by
  unfold busWrite; split <;> [split <;> simp; rfl]
@[simp] theorem busWrite_port_areaBase (a : Nat) (bs : List Byte) (s : State) :
    (busWrite a bs s).port.areaBase = s.port.areaBase := by unfold busWrite; split <;> [split <;> simp; rfl]
@[simp] theorem busWrite_port_enable (a : Nat) (bs : List Byte) (s : State) :
    (busWrite a bs s).port.enable = s.port.enable := by unfold busWrite; split <;> [split <;> simp; rfl]
@[simp] theorem busWrite_port_noticeAttention (a : Nat) (bs : List Byte) (s : State) :
    (busWrite a bs s).port.noticeAttention = s.port.noticeAttention := by
  unfold busWrite; split <;> [split <;> simp; rfl]
@[simp] theorem busWrite_port_faultAttention (a : Nat) (bs : List Byte) (s : State) :
    (busWrite a bs s).port.faultAttention = s.port.faultAttention := by
  unfold busWrite; split <;> [split <;> simp; rfl]
@[simp] theorem busWrite_port_dozeRequest (a : Nat) (bs : List Byte) (s : State) :
    (busWrite a bs s).port.dozeRequest = s.port.dozeRequest := by unfold busWrite; split <;> [split <;> simp; rfl]
@[simp] theorem busWrite_port_cursor (a : Nat) (bs : List Byte) (s : State) :
    (busWrite a bs s).port.cursor = s.port.cursor := by unfold busWrite; split <;> [split <;> simp; rfl]
@[simp] theorem busWrite_port_sweepNext (a : Nat) (bs : List Byte) (s : State) :
    (busWrite a bs s).port.sweepNext = s.port.sweepNext := by unfold busWrite; split <;> [split <;> simp; rfl]
@[simp] theorem busWrite_port_holds (a : Nat) (bs : List Byte) (s : State) :
    (busWrite a bs s).port.holds = s.port.holds := by unfold busWrite; split <;> [split <;> simp; rfl]
@[simp] theorem busWrite_port_endedMarks (a : Nat) (bs : List Byte) (s : State) :
    (busWrite a bs s).port.endedMarks = s.port.endedMarks := by unfold busWrite; split <;> [split <;> simp; rfl]
@[simp] theorem busWrite_port_writePosition (a : Nat) (bs : List Byte) (s : State) :
    (busWrite a bs s).port.writePosition = s.port.writePosition := by
  unfold busWrite; split <;> [split <;> simp; rfl]
@[simp] theorem busWrite_port_noticeCount (a : Nat) (bs : List Byte) (s : State) :
    (busWrite a bs s).port.noticeCount = s.port.noticeCount := by unfold busWrite; split <;> [split <;> simp; rfl]
@[simp] theorem busWrite_port_nextSequence (a : Nat) (bs : List Byte) (s : State) :
    (busWrite a bs s).port.nextSequence = s.port.nextSequence := by
  unfold busWrite; split <;> [split <;> simp; rfl]
@[simp] theorem busWrite_port_overflow (a : Nat) (bs : List Byte) (s : State) :
    (busWrite a bs s).port.overflow = s.port.overflow := by unfold busWrite; split <;> [split <;> simp; rfl]
@[simp] theorem busWrite_tables_memory (a : Nat) (bs : List Byte) (s : State) :
    (busWrite a bs s).tables.memory = s.tables.memory := by unfold busWrite; split <;> [split <;> simp; rfl]
@[simp] theorem busWrite_tables_ordinals (a : Nat) (bs : List Byte) (s : State) :
    (busWrite a bs s).tables.ordinals = s.tables.ordinals := by unfold busWrite; split <;> [split <;> simp; rfl]
@[simp] theorem busWrite_tables_wiping (a : Nat) (bs : List Byte) (s : State) :
    (busWrite a bs s).tables.wiping = s.tables.wiping := by unfold busWrite; split <;> [split <;> simp; rfl]

/-! `busRead` -/

@[simp] theorem busRead_pending (a n : Nat) (s : State) : (busRead a n s).pending = s.pending := by
  unfold busRead; split <;> [split <;> simp; rfl]
@[simp] theorem busRead_clock (a n : Nat) (s : State) : (busRead a n s).clock = s.clock := by
  unfold busRead; split <;> [split <;> simp; rfl]
@[simp] theorem busRead_run (a n : Nat) (s : State) : (busRead a n s).run = s.run := by
  unfold busRead; split <;> [split <;> simp; rfl]
@[simp] theorem busRead_roster (a n : Nat) (s : State) : (busRead a n s).roster = s.roster := by
  unfold busRead; split <;> [split <;> simp; rfl]
@[simp] theorem busRead_power (a n : Nat) (s : State) : (busRead a n s).power = s.power := by
  unfold busRead; split <;> [split <;> simp; rfl]
@[simp] theorem busRead_arrivals (a n : Nat) (s : State) : (busRead a n s).arrivals = s.arrivals := by
  unfold busRead; split <;> [split <;> simp; rfl]
@[simp] theorem busRead_owed (a n : Nat) (s : State) : (busRead a n s).owed = s.owed := by
  unfold busRead; split <;> [split <;> simp; rfl]
@[simp] theorem busRead_turns (a n : Nat) (s : State) : (busRead a n s).turns = s.turns := by
  unfold busRead; split <;> [split <;> simp; rfl]
@[simp] theorem busRead_port_areaBase (a n : Nat) (s : State) :
    (busRead a n s).port.areaBase = s.port.areaBase := by unfold busRead; split <;> [split <;> simp; rfl]
@[simp] theorem busRead_port_enable (a n : Nat) (s : State) : (busRead a n s).port.enable = s.port.enable := by
  unfold busRead; split <;> [split <;> simp; rfl]
@[simp] theorem busRead_port_noticeAttention (a n : Nat) (s : State) :
    (busRead a n s).port.noticeAttention = s.port.noticeAttention := by
  unfold busRead; split <;> [split <;> simp; rfl]
@[simp] theorem busRead_port_faultAttention (a n : Nat) (s : State) :
    (busRead a n s).port.faultAttention = s.port.faultAttention := by
  unfold busRead; split <;> [split <;> simp; rfl]
@[simp] theorem busRead_port_dozeRequest (a n : Nat) (s : State) :
    (busRead a n s).port.dozeRequest = s.port.dozeRequest := by unfold busRead; split <;> [split <;> simp; rfl]
@[simp] theorem busRead_port_cursor (a n : Nat) (s : State) : (busRead a n s).port.cursor = s.port.cursor := by
  unfold busRead; split <;> [split <;> simp; rfl]
@[simp] theorem busRead_port_sweepNext (a n : Nat) (s : State) :
    (busRead a n s).port.sweepNext = s.port.sweepNext := by unfold busRead; split <;> [split <;> simp; rfl]
@[simp] theorem busRead_port_holds (a n : Nat) (s : State) : (busRead a n s).port.holds = s.port.holds := by
  unfold busRead; split <;> [split <;> simp; rfl]
@[simp] theorem busRead_port_endedMarks (a n : Nat) (s : State) :
    (busRead a n s).port.endedMarks = s.port.endedMarks := by unfold busRead; split <;> [split <;> simp; rfl]
@[simp] theorem busRead_port_writePosition (a n : Nat) (s : State) :
    (busRead a n s).port.writePosition = s.port.writePosition := by unfold busRead; split <;> [split <;> simp; rfl]
@[simp] theorem busRead_port_noticeCount (a n : Nat) (s : State) :
    (busRead a n s).port.noticeCount = s.port.noticeCount := by unfold busRead; split <;> [split <;> simp; rfl]
@[simp] theorem busRead_port_nextSequence (a n : Nat) (s : State) :
    (busRead a n s).port.nextSequence = s.port.nextSequence := by unfold busRead; split <;> [split <;> simp; rfl]
@[simp] theorem busRead_port_overflow (a n : Nat) (s : State) :
    (busRead a n s).port.overflow = s.port.overflow := by unfold busRead; split <;> [split <;> simp; rfl]
@[simp] theorem busRead_tables_memory (a n : Nat) (s : State) :
    (busRead a n s).tables.memory = s.tables.memory := by unfold busRead; split <;> [split <;> simp; rfl]
@[simp] theorem busRead_tables_ordinals (a n : Nat) (s : State) :
    (busRead a n s).tables.ordinals = s.tables.ordinals := by unfold busRead; split <;> [split <;> simp; rfl]
@[simp] theorem busRead_tables_wiping (a n : Nat) (s : State) :
    (busRead a n s).tables.wiping = s.tables.wiping := by unfold busRead; split <;> [split <;> simp; rfl]
@[simp] theorem busRead_hostMemory (a n : Nat) (s : State) : (busRead a n s).hostMemory = s.hostMemory := by
  unfold busRead; split <;> [split <;> simp; rfl]

/-! `writeHeader` -/

@[simp] theorem writeHeader_pending (s : State) : (writeHeader s).pending = s.pending := by simp [writeHeader]
@[simp] theorem writeHeader_clock (s : State) : (writeHeader s).clock = s.clock := by simp [writeHeader]
@[simp] theorem writeHeader_run (s : State) : (writeHeader s).run = s.run := by simp [writeHeader]
@[simp] theorem writeHeader_roster (s : State) : (writeHeader s).roster = s.roster := by simp [writeHeader]
@[simp] theorem writeHeader_power (s : State) : (writeHeader s).power = s.power := by simp [writeHeader]
@[simp] theorem writeHeader_arrivals (s : State) : (writeHeader s).arrivals = s.arrivals := by simp [writeHeader]
@[simp] theorem writeHeader_owed (s : State) : (writeHeader s).owed = s.owed := by simp [writeHeader]
@[simp] theorem writeHeader_turns (s : State) : (writeHeader s).turns = s.turns := by simp [writeHeader]
@[simp] theorem writeHeader_port_areaBase (s : State) : (writeHeader s).port.areaBase = s.port.areaBase := by
  simp [writeHeader]
@[simp] theorem writeHeader_port_enable (s : State) : (writeHeader s).port.enable = s.port.enable := by
  simp [writeHeader]
@[simp] theorem writeHeader_port_noticeAttention (s : State) :
    (writeHeader s).port.noticeAttention = s.port.noticeAttention := by simp [writeHeader]
@[simp] theorem writeHeader_port_faultAttention (s : State) :
    (writeHeader s).port.faultAttention = s.port.faultAttention := by simp [writeHeader]
@[simp] theorem writeHeader_port_dozeRequest (s : State) :
    (writeHeader s).port.dozeRequest = s.port.dozeRequest := by simp [writeHeader]
@[simp] theorem writeHeader_port_cursor (s : State) : (writeHeader s).port.cursor = s.port.cursor := by
  simp [writeHeader]
@[simp] theorem writeHeader_port_sweepNext (s : State) : (writeHeader s).port.sweepNext = s.port.sweepNext := by
  simp [writeHeader]
@[simp] theorem writeHeader_port_holds (s : State) : (writeHeader s).port.holds = s.port.holds := by
  simp [writeHeader]
@[simp] theorem writeHeader_port_endedMarks (s : State) :
    (writeHeader s).port.endedMarks = s.port.endedMarks := by simp [writeHeader]
@[simp] theorem writeHeader_port_writePosition (s : State) :
    (writeHeader s).port.writePosition = s.port.writePosition := by simp [writeHeader]
@[simp] theorem writeHeader_port_noticeCount (s : State) :
    (writeHeader s).port.noticeCount = s.port.noticeCount := by simp [writeHeader]
@[simp] theorem writeHeader_port_nextSequence (s : State) :
    (writeHeader s).port.nextSequence = s.port.nextSequence := by simp [writeHeader]
@[simp] theorem writeHeader_port_overflow (s : State) : (writeHeader s).port.overflow = s.port.overflow := by
  simp [writeHeader]
@[simp] theorem writeHeader_tables_memory (s : State) : (writeHeader s).tables.memory = s.tables.memory := by
  simp [writeHeader]
@[simp] theorem writeHeader_tables_ordinals (s : State) :
    (writeHeader s).tables.ordinals = s.tables.ordinals := by simp [writeHeader]
@[simp] theorem writeHeader_tables_wiping (s : State) : (writeHeader s).tables.wiping = s.tables.wiping := by
  simp [writeHeader]

/-! `mirrorRun` -/

@[simp] theorem mirrorRun_pending (s : State) : (mirrorRun s).pending = s.pending := by simp [mirrorRun]
@[simp] theorem mirrorRun_clock (s : State) : (mirrorRun s).clock = s.clock := by simp [mirrorRun]
@[simp] theorem mirrorRun_run (s : State) : (mirrorRun s).run = s.run := by simp [mirrorRun]
@[simp] theorem mirrorRun_roster (s : State) : (mirrorRun s).roster = s.roster := by simp [mirrorRun]
@[simp] theorem mirrorRun_power (s : State) : (mirrorRun s).power = s.power := by simp [mirrorRun]
@[simp] theorem mirrorRun_arrivals (s : State) : (mirrorRun s).arrivals = s.arrivals := by simp [mirrorRun]
@[simp] theorem mirrorRun_owed (s : State) : (mirrorRun s).owed = s.owed := by simp [mirrorRun]
@[simp] theorem mirrorRun_turns (s : State) : (mirrorRun s).turns = s.turns := by simp [mirrorRun]
@[simp] theorem mirrorRun_port_areaBase (s : State) : (mirrorRun s).port.areaBase = s.port.areaBase := by
  simp [mirrorRun]
@[simp] theorem mirrorRun_port_enable (s : State) : (mirrorRun s).port.enable = s.port.enable := by
  simp [mirrorRun]
@[simp] theorem mirrorRun_port_noticeAttention (s : State) :
    (mirrorRun s).port.noticeAttention = s.port.noticeAttention := by simp [mirrorRun]
@[simp] theorem mirrorRun_port_faultAttention (s : State) :
    (mirrorRun s).port.faultAttention = s.port.faultAttention := by simp [mirrorRun]
@[simp] theorem mirrorRun_port_dozeRequest (s : State) :
    (mirrorRun s).port.dozeRequest = s.port.dozeRequest := by simp [mirrorRun]
@[simp] theorem mirrorRun_port_cursor (s : State) : (mirrorRun s).port.cursor = s.port.cursor := by
  simp [mirrorRun]
@[simp] theorem mirrorRun_port_sweepNext (s : State) : (mirrorRun s).port.sweepNext = s.port.sweepNext := by
  simp [mirrorRun]
@[simp] theorem mirrorRun_port_holds (s : State) : (mirrorRun s).port.holds = s.port.holds := by simp [mirrorRun]
@[simp] theorem mirrorRun_port_endedMarks (s : State) : (mirrorRun s).port.endedMarks = s.port.endedMarks := by
  simp [mirrorRun]
@[simp] theorem mirrorRun_port_writePosition (s : State) :
    (mirrorRun s).port.writePosition = s.port.writePosition := by simp [mirrorRun]
@[simp] theorem mirrorRun_port_noticeCount (s : State) :
    (mirrorRun s).port.noticeCount = s.port.noticeCount := by simp [mirrorRun]
@[simp] theorem mirrorRun_port_nextSequence (s : State) :
    (mirrorRun s).port.nextSequence = s.port.nextSequence := by simp [mirrorRun]
@[simp] theorem mirrorRun_port_overflow (s : State) : (mirrorRun s).port.overflow = s.port.overflow := by
  simp [mirrorRun]
@[simp] theorem mirrorRun_tables_memory (s : State) : (mirrorRun s).tables.memory = s.tables.memory := by
  simp [mirrorRun]
@[simp] theorem mirrorRun_tables_ordinals (s : State) : (mirrorRun s).tables.ordinals = s.tables.ordinals := by
  simp [mirrorRun]
@[simp] theorem mirrorRun_tables_wiping (s : State) : (mirrorRun s).tables.wiping = s.tables.wiping := by
  simp [mirrorRun]

/-! `mirrorClock` -/

@[simp] theorem mirrorClock_pending (s : State) : (mirrorClock s).pending = s.pending := by simp [mirrorClock]
@[simp] theorem mirrorClock_clock (s : State) : (mirrorClock s).clock = s.clock := by simp [mirrorClock]
@[simp] theorem mirrorClock_run (s : State) : (mirrorClock s).run = s.run := by simp [mirrorClock]
@[simp] theorem mirrorClock_roster (s : State) : (mirrorClock s).roster = s.roster := by simp [mirrorClock]
@[simp] theorem mirrorClock_power (s : State) : (mirrorClock s).power = s.power := by simp [mirrorClock]
@[simp] theorem mirrorClock_arrivals (s : State) : (mirrorClock s).arrivals = s.arrivals := by simp [mirrorClock]
@[simp] theorem mirrorClock_owed (s : State) : (mirrorClock s).owed = s.owed := by simp [mirrorClock]
@[simp] theorem mirrorClock_turns (s : State) : (mirrorClock s).turns = s.turns := by simp [mirrorClock]
@[simp] theorem mirrorClock_port_areaBase (s : State) : (mirrorClock s).port.areaBase = s.port.areaBase := by
  simp [mirrorClock]
@[simp] theorem mirrorClock_port_enable (s : State) : (mirrorClock s).port.enable = s.port.enable := by
  simp [mirrorClock]
@[simp] theorem mirrorClock_port_noticeAttention (s : State) :
    (mirrorClock s).port.noticeAttention = s.port.noticeAttention := by simp [mirrorClock]
@[simp] theorem mirrorClock_port_faultAttention (s : State) :
    (mirrorClock s).port.faultAttention = s.port.faultAttention := by simp [mirrorClock]
@[simp] theorem mirrorClock_port_dozeRequest (s : State) :
    (mirrorClock s).port.dozeRequest = s.port.dozeRequest := by simp [mirrorClock]
@[simp] theorem mirrorClock_port_cursor (s : State) : (mirrorClock s).port.cursor = s.port.cursor := by
  simp [mirrorClock]
@[simp] theorem mirrorClock_port_sweepNext (s : State) : (mirrorClock s).port.sweepNext = s.port.sweepNext := by
  simp [mirrorClock]
@[simp] theorem mirrorClock_port_holds (s : State) : (mirrorClock s).port.holds = s.port.holds := by
  simp [mirrorClock]
@[simp] theorem mirrorClock_port_endedMarks (s : State) :
    (mirrorClock s).port.endedMarks = s.port.endedMarks := by simp [mirrorClock]
@[simp] theorem mirrorClock_port_writePosition (s : State) :
    (mirrorClock s).port.writePosition = s.port.writePosition := by simp [mirrorClock]
@[simp] theorem mirrorClock_port_noticeCount (s : State) :
    (mirrorClock s).port.noticeCount = s.port.noticeCount := by simp [mirrorClock]
@[simp] theorem mirrorClock_port_nextSequence (s : State) :
    (mirrorClock s).port.nextSequence = s.port.nextSequence := by simp [mirrorClock]
@[simp] theorem mirrorClock_port_overflow (s : State) : (mirrorClock s).port.overflow = s.port.overflow := by
  simp [mirrorClock]
@[simp] theorem mirrorClock_tables_memory (s : State) : (mirrorClock s).tables.memory = s.tables.memory := by
  simp [mirrorClock]
@[simp] theorem mirrorClock_tables_ordinals (s : State) :
    (mirrorClock s).tables.ordinals = s.tables.ordinals := by simp [mirrorClock]
@[simp] theorem mirrorClock_tables_wiping (s : State) : (mirrorClock s).tables.wiping = s.tables.wiping := by
  simp [mirrorClock]

/-! `mirrorDescriptor` -/

@[simp] theorem mirrorDescriptor_pending (k : TableKind) (s : State) :
    (mirrorDescriptor k s).pending = s.pending := by simp [mirrorDescriptor]
@[simp] theorem mirrorDescriptor_clock (k : TableKind) (s : State) :
    (mirrorDescriptor k s).clock = s.clock := by simp [mirrorDescriptor]
@[simp] theorem mirrorDescriptor_run (k : TableKind) (s : State) : (mirrorDescriptor k s).run = s.run := by
  simp [mirrorDescriptor]
@[simp] theorem mirrorDescriptor_roster (k : TableKind) (s : State) :
    (mirrorDescriptor k s).roster = s.roster := by simp [mirrorDescriptor]
@[simp] theorem mirrorDescriptor_power (k : TableKind) (s : State) :
    (mirrorDescriptor k s).power = s.power := by simp [mirrorDescriptor]
@[simp] theorem mirrorDescriptor_arrivals (k : TableKind) (s : State) :
    (mirrorDescriptor k s).arrivals = s.arrivals := by simp [mirrorDescriptor]
@[simp] theorem mirrorDescriptor_owed (k : TableKind) (s : State) : (mirrorDescriptor k s).owed = s.owed := by
  simp [mirrorDescriptor]
@[simp] theorem mirrorDescriptor_turns (k : TableKind) (s : State) :
    (mirrorDescriptor k s).turns = s.turns := by simp [mirrorDescriptor]
@[simp] theorem mirrorDescriptor_port_areaBase (k : TableKind) (s : State) :
    (mirrorDescriptor k s).port.areaBase = s.port.areaBase := by simp [mirrorDescriptor]
@[simp] theorem mirrorDescriptor_port_enable (k : TableKind) (s : State) :
    (mirrorDescriptor k s).port.enable = s.port.enable := by simp [mirrorDescriptor]
@[simp] theorem mirrorDescriptor_port_noticeAttention (k : TableKind) (s : State) :
    (mirrorDescriptor k s).port.noticeAttention = s.port.noticeAttention := by simp [mirrorDescriptor]
@[simp] theorem mirrorDescriptor_port_faultAttention (k : TableKind) (s : State) :
    (mirrorDescriptor k s).port.faultAttention = s.port.faultAttention := by simp [mirrorDescriptor]
@[simp] theorem mirrorDescriptor_port_dozeRequest (k : TableKind) (s : State) :
    (mirrorDescriptor k s).port.dozeRequest = s.port.dozeRequest := by simp [mirrorDescriptor]
@[simp] theorem mirrorDescriptor_port_cursor (k : TableKind) (s : State) :
    (mirrorDescriptor k s).port.cursor = s.port.cursor := by simp [mirrorDescriptor]
@[simp] theorem mirrorDescriptor_port_sweepNext (k : TableKind) (s : State) :
    (mirrorDescriptor k s).port.sweepNext = s.port.sweepNext := by simp [mirrorDescriptor]
@[simp] theorem mirrorDescriptor_port_holds (k : TableKind) (s : State) :
    (mirrorDescriptor k s).port.holds = s.port.holds := by simp [mirrorDescriptor]
@[simp] theorem mirrorDescriptor_port_endedMarks (k : TableKind) (s : State) :
    (mirrorDescriptor k s).port.endedMarks = s.port.endedMarks := by simp [mirrorDescriptor]
@[simp] theorem mirrorDescriptor_port_writePosition (k : TableKind) (s : State) :
    (mirrorDescriptor k s).port.writePosition = s.port.writePosition := by simp [mirrorDescriptor]
@[simp] theorem mirrorDescriptor_port_noticeCount (k : TableKind) (s : State) :
    (mirrorDescriptor k s).port.noticeCount = s.port.noticeCount := by simp [mirrorDescriptor]
@[simp] theorem mirrorDescriptor_port_nextSequence (k : TableKind) (s : State) :
    (mirrorDescriptor k s).port.nextSequence = s.port.nextSequence := by simp [mirrorDescriptor]
@[simp] theorem mirrorDescriptor_port_overflow (k : TableKind) (s : State) :
    (mirrorDescriptor k s).port.overflow = s.port.overflow := by simp [mirrorDescriptor]
@[simp] theorem mirrorDescriptor_tables_memory (k : TableKind) (s : State) :
    (mirrorDescriptor k s).tables.memory = s.tables.memory := by simp [mirrorDescriptor]
@[simp] theorem mirrorDescriptor_tables_ordinals (k : TableKind) (s : State) :
    (mirrorDescriptor k s).tables.ordinals = s.tables.ordinals := by simp [mirrorDescriptor]
@[simp] theorem mirrorDescriptor_tables_wiping (k : TableKind) (s : State) :
    (mirrorDescriptor k s).tables.wiping = s.tables.wiping := by simp [mirrorDescriptor]

/-! `putNotice` -/

@[simp] theorem putNotice_pending (n : Notice) (s : State) : (putNotice n s).pending = s.pending := by
  simp [putNotice]
@[simp] theorem putNotice_clock (n : Notice) (s : State) : (putNotice n s).clock = s.clock := by simp [putNotice]
@[simp] theorem putNotice_run (n : Notice) (s : State) : (putNotice n s).run = s.run := by simp [putNotice]
@[simp] theorem putNotice_roster (n : Notice) (s : State) : (putNotice n s).roster = s.roster := by
  simp [putNotice]
@[simp] theorem putNotice_power (n : Notice) (s : State) : (putNotice n s).power = s.power := by simp [putNotice]
@[simp] theorem putNotice_arrivals (n : Notice) (s : State) : (putNotice n s).arrivals = s.arrivals := by
  simp [putNotice]
@[simp] theorem putNotice_owed (n : Notice) (s : State) : (putNotice n s).owed = s.owed := by simp [putNotice]
@[simp] theorem putNotice_turns (n : Notice) (s : State) : (putNotice n s).turns = s.turns := by simp [putNotice]
@[simp] theorem putNotice_port_areaBase (n : Notice) (s : State) :
    (putNotice n s).port.areaBase = s.port.areaBase := by simp [putNotice]
@[simp] theorem putNotice_port_enable (n : Notice) (s : State) :
    (putNotice n s).port.enable = s.port.enable := by simp [putNotice]
@[simp] theorem putNotice_port_noticeAttention (n : Notice) (s : State) :
    (putNotice n s).port.noticeAttention = s.port.noticeAttention := by simp [putNotice]
@[simp] theorem putNotice_port_faultAttention (n : Notice) (s : State) :
    (putNotice n s).port.faultAttention = s.port.faultAttention := by simp [putNotice]
@[simp] theorem putNotice_port_dozeRequest (n : Notice) (s : State) :
    (putNotice n s).port.dozeRequest = s.port.dozeRequest := by simp [putNotice]
@[simp] theorem putNotice_port_cursor (n : Notice) (s : State) :
    (putNotice n s).port.cursor = s.port.cursor := by simp [putNotice]
@[simp] theorem putNotice_port_sweepNext (n : Notice) (s : State) :
    (putNotice n s).port.sweepNext = s.port.sweepNext := by simp [putNotice]
@[simp] theorem putNotice_port_holds (n : Notice) (s : State) : (putNotice n s).port.holds = s.port.holds := by
  simp [putNotice]
@[simp] theorem putNotice_port_endedMarks (n : Notice) (s : State) :
    (putNotice n s).port.endedMarks = s.port.endedMarks := by simp [putNotice]
@[simp] theorem putNotice_port_writePosition (n : Notice) (s : State) :
    (putNotice n s).port.writePosition = s.port.writePosition := by simp [putNotice]
@[simp] theorem putNotice_port_noticeCount (n : Notice) (s : State) :
    (putNotice n s).port.noticeCount = s.port.noticeCount := by simp [putNotice]
@[simp] theorem putNotice_port_nextSequence (n : Notice) (s : State) :
    (putNotice n s).port.nextSequence = s.port.nextSequence := by simp [putNotice]
@[simp] theorem putNotice_port_overflow (n : Notice) (s : State) :
    (putNotice n s).port.overflow = s.port.overflow := by simp [putNotice]
@[simp] theorem putNotice_tables_memory (n : Notice) (s : State) :
    (putNotice n s).tables.memory = s.tables.memory := by simp [putNotice]
@[simp] theorem putNotice_tables_ordinals (n : Notice) (s : State) :
    (putNotice n s).tables.ordinals = s.tables.ordinals := by simp [putNotice]
@[simp] theorem putNotice_tables_wiping (n : Notice) (s : State) :
    (putNotice n s).tables.wiping = s.tables.wiping := by simp [putNotice]

/-! `writeNotice` -/

@[simp] theorem writeNotice_pending (n : Notice) (s : State) : (writeNotice n s).pending = s.pending := by
  unfold writeNotice; split <;> [skip; split] <;> simp
@[simp] theorem writeNotice_clock (n : Notice) (s : State) : (writeNotice n s).clock = s.clock := by
  unfold writeNotice; split <;> [skip; split] <;> simp
@[simp] theorem writeNotice_run (n : Notice) (s : State) : (writeNotice n s).run = s.run := by
  unfold writeNotice; split <;> [skip; split] <;> simp
@[simp] theorem writeNotice_roster (n : Notice) (s : State) : (writeNotice n s).roster = s.roster := by
  unfold writeNotice; split <;> [skip; split] <;> simp
@[simp] theorem writeNotice_power (n : Notice) (s : State) : (writeNotice n s).power = s.power := by
  unfold writeNotice; split <;> [skip; split] <;> simp
@[simp] theorem writeNotice_arrivals (n : Notice) (s : State) : (writeNotice n s).arrivals = s.arrivals := by
  unfold writeNotice; split <;> [skip; split] <;> simp
@[simp] theorem writeNotice_owed (n : Notice) (s : State) : (writeNotice n s).owed = s.owed := by
  unfold writeNotice; split <;> [skip; split] <;> simp
@[simp] theorem writeNotice_turns (n : Notice) (s : State) : (writeNotice n s).turns = s.turns := by
  unfold writeNotice; split <;> [skip; split] <;> simp
@[simp] theorem writeNotice_port_areaBase (n : Notice) (s : State) :
    (writeNotice n s).port.areaBase = s.port.areaBase := by unfold writeNotice; split <;> [skip; split] <;> simp
@[simp] theorem writeNotice_port_enable (n : Notice) (s : State) :
    (writeNotice n s).port.enable = s.port.enable := by unfold writeNotice; split <;> [skip; split] <;> simp
@[simp] theorem writeNotice_port_noticeAttention (n : Notice) (s : State) :
    (writeNotice n s).port.noticeAttention = s.port.noticeAttention := by
  unfold writeNotice; split <;> [skip; split] <;> simp
@[simp] theorem writeNotice_port_faultAttention (n : Notice) (s : State) :
    (writeNotice n s).port.faultAttention = s.port.faultAttention := by
  unfold writeNotice; split <;> [skip; split] <;> simp
@[simp] theorem writeNotice_port_dozeRequest (n : Notice) (s : State) :
    (writeNotice n s).port.dozeRequest = s.port.dozeRequest := by
  unfold writeNotice; split <;> [skip; split] <;> simp
@[simp] theorem writeNotice_port_cursor (n : Notice) (s : State) :
    (writeNotice n s).port.cursor = s.port.cursor := by unfold writeNotice; split <;> [skip; split] <;> simp
@[simp] theorem writeNotice_port_sweepNext (n : Notice) (s : State) :
    (writeNotice n s).port.sweepNext = s.port.sweepNext := by unfold writeNotice; split <;> [skip; split] <;> simp
@[simp] theorem writeNotice_port_holds (n : Notice) (s : State) :
    (writeNotice n s).port.holds = s.port.holds := by unfold writeNotice; split <;> [skip; split] <;> simp
@[simp] theorem writeNotice_port_endedMarks (n : Notice) (s : State) :
    (writeNotice n s).port.endedMarks = s.port.endedMarks := by
  unfold writeNotice; split <;> [skip; split] <;> simp
@[simp] theorem writeNotice_tables_memory (n : Notice) (s : State) :
    (writeNotice n s).tables.memory = s.tables.memory := by unfold writeNotice; split <;> [skip; split] <;> simp
@[simp] theorem writeNotice_tables_ordinals (n : Notice) (s : State) :
    (writeNotice n s).tables.ordinals = s.tables.ordinals := by
  unfold writeNotice; split <;> [skip; split] <;> simp
@[simp] theorem writeNotice_tables_wiping (n : Notice) (s : State) :
    (writeNotice n s).tables.wiping = s.tables.wiping := by unfold writeNotice; split <;> [skip; split] <;> simp

/-! `appendNotice` -/

@[simp] theorem appendNotice_pending (n : Notice) (s : State) : (appendNotice n s).pending = s.pending := by
  unfold appendNotice; split <;> simp
@[simp] theorem appendNotice_clock (n : Notice) (s : State) : (appendNotice n s).clock = s.clock := by
  unfold appendNotice; split <;> simp
@[simp] theorem appendNotice_run (n : Notice) (s : State) : (appendNotice n s).run = s.run := by
  unfold appendNotice; split <;> simp
@[simp] theorem appendNotice_roster (n : Notice) (s : State) : (appendNotice n s).roster = s.roster := by
  unfold appendNotice; split <;> simp
@[simp] theorem appendNotice_power (n : Notice) (s : State) : (appendNotice n s).power = s.power := by
  unfold appendNotice; split <;> simp
@[simp] theorem appendNotice_arrivals (n : Notice) (s : State) : (appendNotice n s).arrivals = s.arrivals := by
  unfold appendNotice; split <;> simp
@[simp] theorem appendNotice_owed (n : Notice) (s : State) : (appendNotice n s).owed = s.owed := by
  unfold appendNotice; split <;> simp
@[simp] theorem appendNotice_turns (n : Notice) (s : State) : (appendNotice n s).turns = s.turns := by
  unfold appendNotice; split <;> simp
@[simp] theorem appendNotice_port_areaBase (n : Notice) (s : State) :
    (appendNotice n s).port.areaBase = s.port.areaBase := by unfold appendNotice; split <;> simp
@[simp] theorem appendNotice_port_enable (n : Notice) (s : State) :
    (appendNotice n s).port.enable = s.port.enable := by unfold appendNotice; split <;> simp
@[simp] theorem appendNotice_port_noticeAttention (n : Notice) (s : State) :
    (appendNotice n s).port.noticeAttention = s.port.noticeAttention := by unfold appendNotice; split <;> simp
@[simp] theorem appendNotice_port_faultAttention (n : Notice) (s : State) :
    (appendNotice n s).port.faultAttention = s.port.faultAttention := by unfold appendNotice; split <;> simp
@[simp] theorem appendNotice_port_dozeRequest (n : Notice) (s : State) :
    (appendNotice n s).port.dozeRequest = s.port.dozeRequest := by unfold appendNotice; split <;> simp
@[simp] theorem appendNotice_port_cursor (n : Notice) (s : State) :
    (appendNotice n s).port.cursor = s.port.cursor := by unfold appendNotice; split <;> simp
@[simp] theorem appendNotice_port_sweepNext (n : Notice) (s : State) :
    (appendNotice n s).port.sweepNext = s.port.sweepNext := by unfold appendNotice; split <;> simp
@[simp] theorem appendNotice_port_holds (n : Notice) (s : State) :
    (appendNotice n s).port.holds = s.port.holds := by unfold appendNotice; split <;> simp
@[simp] theorem appendNotice_port_endedMarks (n : Notice) (s : State) :
    (appendNotice n s).port.endedMarks = s.port.endedMarks := by unfold appendNotice; split <;> simp
@[simp] theorem appendNotice_tables_memory (n : Notice) (s : State) :
    (appendNotice n s).tables.memory = s.tables.memory := by unfold appendNotice; split <;> simp
@[simp] theorem appendNotice_tables_ordinals (n : Notice) (s : State) :
    (appendNotice n s).tables.ordinals = s.tables.ordinals := by unfold appendNotice; split <;> simp
@[simp] theorem appendNotice_tables_wiping (n : Notice) (s : State) :
    (appendNotice n s).tables.wiping = s.tables.wiping := by unfold appendNotice; split <;> simp

/-! `noticeDayChanged` -/

@[simp] theorem noticeDayChanged_pending (s : State) : (noticeDayChanged s).pending = s.pending := by
  simp [noticeDayChanged]
@[simp] theorem noticeDayChanged_clock (s : State) : (noticeDayChanged s).clock = s.clock := by
  simp [noticeDayChanged]
@[simp] theorem noticeDayChanged_run (s : State) : (noticeDayChanged s).run = s.run := by simp [noticeDayChanged]
@[simp] theorem noticeDayChanged_roster (s : State) : (noticeDayChanged s).roster = s.roster := by
  simp [noticeDayChanged]
@[simp] theorem noticeDayChanged_power (s : State) : (noticeDayChanged s).power = s.power := by
  simp [noticeDayChanged]
@[simp] theorem noticeDayChanged_arrivals (s : State) : (noticeDayChanged s).arrivals = s.arrivals := by
  simp [noticeDayChanged]
@[simp] theorem noticeDayChanged_owed (s : State) : (noticeDayChanged s).owed = s.owed := by
  simp [noticeDayChanged]
@[simp] theorem noticeDayChanged_turns (s : State) : (noticeDayChanged s).turns = s.turns := by
  simp [noticeDayChanged]
@[simp] theorem noticeDayChanged_port_areaBase (s : State) :
    (noticeDayChanged s).port.areaBase = s.port.areaBase := by simp [noticeDayChanged]
@[simp] theorem noticeDayChanged_port_enable (s : State) :
    (noticeDayChanged s).port.enable = s.port.enable := by simp [noticeDayChanged]
@[simp] theorem noticeDayChanged_port_noticeAttention (s : State) :
    (noticeDayChanged s).port.noticeAttention = s.port.noticeAttention := by simp [noticeDayChanged]
@[simp] theorem noticeDayChanged_port_faultAttention (s : State) :
    (noticeDayChanged s).port.faultAttention = s.port.faultAttention := by simp [noticeDayChanged]
@[simp] theorem noticeDayChanged_port_dozeRequest (s : State) :
    (noticeDayChanged s).port.dozeRequest = s.port.dozeRequest := by simp [noticeDayChanged]
@[simp] theorem noticeDayChanged_port_cursor (s : State) :
    (noticeDayChanged s).port.cursor = s.port.cursor := by simp [noticeDayChanged]
@[simp] theorem noticeDayChanged_port_sweepNext (s : State) :
    (noticeDayChanged s).port.sweepNext = s.port.sweepNext := by simp [noticeDayChanged]
@[simp] theorem noticeDayChanged_port_holds (s : State) : (noticeDayChanged s).port.holds = s.port.holds := by
  simp [noticeDayChanged]
@[simp] theorem noticeDayChanged_port_endedMarks (s : State) :
    (noticeDayChanged s).port.endedMarks = s.port.endedMarks := by simp [noticeDayChanged]
@[simp] theorem noticeDayChanged_tables_memory (s : State) :
    (noticeDayChanged s).tables.memory = s.tables.memory := by simp [noticeDayChanged]
@[simp] theorem noticeDayChanged_tables_ordinals (s : State) :
    (noticeDayChanged s).tables.ordinals = s.tables.ordinals := by simp [noticeDayChanged]
@[simp] theorem noticeDayChanged_tables_wiping (s : State) :
    (noticeDayChanged s).tables.wiping = s.tables.wiping := by simp [noticeDayChanged]

/-! `noticeClockStepped` -/

@[simp] theorem noticeClockStepped_pending (d : Int) (s : State) :
    (noticeClockStepped d s).pending = s.pending := by simp [noticeClockStepped]
@[simp] theorem noticeClockStepped_clock (d : Int) (s : State) : (noticeClockStepped d s).clock = s.clock := by
  simp [noticeClockStepped]
@[simp] theorem noticeClockStepped_run (d : Int) (s : State) : (noticeClockStepped d s).run = s.run := by
  simp [noticeClockStepped]
@[simp] theorem noticeClockStepped_roster (d : Int) (s : State) :
    (noticeClockStepped d s).roster = s.roster := by simp [noticeClockStepped]
@[simp] theorem noticeClockStepped_power (d : Int) (s : State) : (noticeClockStepped d s).power = s.power := by
  simp [noticeClockStepped]
@[simp] theorem noticeClockStepped_arrivals (d : Int) (s : State) :
    (noticeClockStepped d s).arrivals = s.arrivals := by simp [noticeClockStepped]
@[simp] theorem noticeClockStepped_owed (d : Int) (s : State) : (noticeClockStepped d s).owed = s.owed := by
  simp [noticeClockStepped]
@[simp] theorem noticeClockStepped_turns (d : Int) (s : State) : (noticeClockStepped d s).turns = s.turns := by
  simp [noticeClockStepped]
@[simp] theorem noticeClockStepped_port_areaBase (d : Int) (s : State) :
    (noticeClockStepped d s).port.areaBase = s.port.areaBase := by simp [noticeClockStepped]
@[simp] theorem noticeClockStepped_port_enable (d : Int) (s : State) :
    (noticeClockStepped d s).port.enable = s.port.enable := by simp [noticeClockStepped]
@[simp] theorem noticeClockStepped_port_noticeAttention (d : Int) (s : State) :
    (noticeClockStepped d s).port.noticeAttention = s.port.noticeAttention := by simp [noticeClockStepped]
@[simp] theorem noticeClockStepped_port_faultAttention (d : Int) (s : State) :
    (noticeClockStepped d s).port.faultAttention = s.port.faultAttention := by simp [noticeClockStepped]
@[simp] theorem noticeClockStepped_port_dozeRequest (d : Int) (s : State) :
    (noticeClockStepped d s).port.dozeRequest = s.port.dozeRequest := by simp [noticeClockStepped]
@[simp] theorem noticeClockStepped_port_cursor (d : Int) (s : State) :
    (noticeClockStepped d s).port.cursor = s.port.cursor := by simp [noticeClockStepped]
@[simp] theorem noticeClockStepped_port_sweepNext (d : Int) (s : State) :
    (noticeClockStepped d s).port.sweepNext = s.port.sweepNext := by simp [noticeClockStepped]
@[simp] theorem noticeClockStepped_port_holds (d : Int) (s : State) :
    (noticeClockStepped d s).port.holds = s.port.holds := by simp [noticeClockStepped]
@[simp] theorem noticeClockStepped_port_endedMarks (d : Int) (s : State) :
    (noticeClockStepped d s).port.endedMarks = s.port.endedMarks := by simp [noticeClockStepped]
@[simp] theorem noticeClockStepped_tables_memory (d : Int) (s : State) :
    (noticeClockStepped d s).tables.memory = s.tables.memory := by simp [noticeClockStepped]
@[simp] theorem noticeClockStepped_tables_ordinals (d : Int) (s : State) :
    (noticeClockStepped d s).tables.ordinals = s.tables.ordinals := by simp [noticeClockStepped]
@[simp] theorem noticeClockStepped_tables_wiping (d : Int) (s : State) :
    (noticeClockStepped d s).tables.wiping = s.tables.wiping := by simp [noticeClockStepped]

/-! `noticeProposalLapsed` -/

@[simp] theorem noticeProposalLapsed_pending (i : Nat) (s : State) :
    (noticeProposalLapsed i s).pending = s.pending := by simp [noticeProposalLapsed]
@[simp] theorem noticeProposalLapsed_clock (i : Nat) (s : State) :
    (noticeProposalLapsed i s).clock = s.clock := by simp [noticeProposalLapsed]
@[simp] theorem noticeProposalLapsed_run (i : Nat) (s : State) : (noticeProposalLapsed i s).run = s.run := by
  simp [noticeProposalLapsed]
@[simp] theorem noticeProposalLapsed_roster (i : Nat) (s : State) :
    (noticeProposalLapsed i s).roster = s.roster := by simp [noticeProposalLapsed]
@[simp] theorem noticeProposalLapsed_power (i : Nat) (s : State) :
    (noticeProposalLapsed i s).power = s.power := by simp [noticeProposalLapsed]
@[simp] theorem noticeProposalLapsed_arrivals (i : Nat) (s : State) :
    (noticeProposalLapsed i s).arrivals = s.arrivals := by simp [noticeProposalLapsed]
@[simp] theorem noticeProposalLapsed_owed (i : Nat) (s : State) : (noticeProposalLapsed i s).owed = s.owed := by
  simp [noticeProposalLapsed]
@[simp] theorem noticeProposalLapsed_turns (i : Nat) (s : State) :
    (noticeProposalLapsed i s).turns = s.turns := by simp [noticeProposalLapsed]
@[simp] theorem noticeProposalLapsed_port_areaBase (i : Nat) (s : State) :
    (noticeProposalLapsed i s).port.areaBase = s.port.areaBase := by simp [noticeProposalLapsed]
@[simp] theorem noticeProposalLapsed_port_enable (i : Nat) (s : State) :
    (noticeProposalLapsed i s).port.enable = s.port.enable := by simp [noticeProposalLapsed]
@[simp] theorem noticeProposalLapsed_port_noticeAttention (i : Nat) (s : State) :
    (noticeProposalLapsed i s).port.noticeAttention = s.port.noticeAttention := by simp [noticeProposalLapsed]
@[simp] theorem noticeProposalLapsed_port_faultAttention (i : Nat) (s : State) :
    (noticeProposalLapsed i s).port.faultAttention = s.port.faultAttention := by simp [noticeProposalLapsed]
@[simp] theorem noticeProposalLapsed_port_dozeRequest (i : Nat) (s : State) :
    (noticeProposalLapsed i s).port.dozeRequest = s.port.dozeRequest := by simp [noticeProposalLapsed]
@[simp] theorem noticeProposalLapsed_port_cursor (i : Nat) (s : State) :
    (noticeProposalLapsed i s).port.cursor = s.port.cursor := by simp [noticeProposalLapsed]
@[simp] theorem noticeProposalLapsed_port_sweepNext (i : Nat) (s : State) :
    (noticeProposalLapsed i s).port.sweepNext = s.port.sweepNext := by simp [noticeProposalLapsed]
@[simp] theorem noticeProposalLapsed_port_holds (i : Nat) (s : State) :
    (noticeProposalLapsed i s).port.holds = s.port.holds := by simp [noticeProposalLapsed]
@[simp] theorem noticeProposalLapsed_port_endedMarks (i : Nat) (s : State) :
    (noticeProposalLapsed i s).port.endedMarks = s.port.endedMarks := by simp [noticeProposalLapsed]
@[simp] theorem noticeProposalLapsed_tables_memory (i : Nat) (s : State) :
    (noticeProposalLapsed i s).tables.memory = s.tables.memory := by simp [noticeProposalLapsed]
@[simp] theorem noticeProposalLapsed_tables_ordinals (i : Nat) (s : State) :
    (noticeProposalLapsed i s).tables.ordinals = s.tables.ordinals := by simp [noticeProposalLapsed]
@[simp] theorem noticeProposalLapsed_tables_wiping (i : Nat) (s : State) :
    (noticeProposalLapsed i s).tables.wiping = s.tables.wiping := by simp [noticeProposalLapsed]

/-! `noticeWatch` -/

@[simp] theorem noticeWatch_pending (i : Nat) (st : WatchStage) (id : LongWord) (s : State) :
    (noticeWatch i st id s).pending = s.pending := by simp [noticeWatch]
@[simp] theorem noticeWatch_clock (i : Nat) (st : WatchStage) (id : LongWord) (s : State) :
    (noticeWatch i st id s).clock = s.clock := by simp [noticeWatch]
@[simp] theorem noticeWatch_run (i : Nat) (st : WatchStage) (id : LongWord) (s : State) :
    (noticeWatch i st id s).run = s.run := by simp [noticeWatch]
@[simp] theorem noticeWatch_roster (i : Nat) (st : WatchStage) (id : LongWord) (s : State) :
    (noticeWatch i st id s).roster = s.roster := by simp [noticeWatch]
@[simp] theorem noticeWatch_power (i : Nat) (st : WatchStage) (id : LongWord) (s : State) :
    (noticeWatch i st id s).power = s.power := by simp [noticeWatch]
@[simp] theorem noticeWatch_arrivals (i : Nat) (st : WatchStage) (id : LongWord) (s : State) :
    (noticeWatch i st id s).arrivals = s.arrivals := by simp [noticeWatch]
@[simp] theorem noticeWatch_owed (i : Nat) (st : WatchStage) (id : LongWord) (s : State) :
    (noticeWatch i st id s).owed = s.owed := by simp [noticeWatch]
@[simp] theorem noticeWatch_turns (i : Nat) (st : WatchStage) (id : LongWord) (s : State) :
    (noticeWatch i st id s).turns = s.turns := by simp [noticeWatch]
@[simp] theorem noticeWatch_port_areaBase (i : Nat) (st : WatchStage) (id : LongWord) (s : State) :
    (noticeWatch i st id s).port.areaBase = s.port.areaBase := by simp [noticeWatch]
@[simp] theorem noticeWatch_port_enable (i : Nat) (st : WatchStage) (id : LongWord) (s : State) :
    (noticeWatch i st id s).port.enable = s.port.enable := by simp [noticeWatch]
@[simp] theorem noticeWatch_port_noticeAttention (i : Nat) (st : WatchStage) (id : LongWord) (s : State) :
    (noticeWatch i st id s).port.noticeAttention = s.port.noticeAttention := by simp [noticeWatch]
@[simp] theorem noticeWatch_port_faultAttention (i : Nat) (st : WatchStage) (id : LongWord) (s : State) :
    (noticeWatch i st id s).port.faultAttention = s.port.faultAttention := by simp [noticeWatch]
@[simp] theorem noticeWatch_port_dozeRequest (i : Nat) (st : WatchStage) (id : LongWord) (s : State) :
    (noticeWatch i st id s).port.dozeRequest = s.port.dozeRequest := by simp [noticeWatch]
@[simp] theorem noticeWatch_port_cursor (i : Nat) (st : WatchStage) (id : LongWord) (s : State) :
    (noticeWatch i st id s).port.cursor = s.port.cursor := by simp [noticeWatch]
@[simp] theorem noticeWatch_port_sweepNext (i : Nat) (st : WatchStage) (id : LongWord) (s : State) :
    (noticeWatch i st id s).port.sweepNext = s.port.sweepNext := by simp [noticeWatch]
@[simp] theorem noticeWatch_port_holds (i : Nat) (st : WatchStage) (id : LongWord) (s : State) :
    (noticeWatch i st id s).port.holds = s.port.holds := by simp [noticeWatch]
@[simp] theorem noticeWatch_port_endedMarks (i : Nat) (st : WatchStage) (id : LongWord) (s : State) :
    (noticeWatch i st id s).port.endedMarks = s.port.endedMarks := by simp [noticeWatch]
@[simp] theorem noticeWatch_tables_memory (i : Nat) (st : WatchStage) (id : LongWord) (s : State) :
    (noticeWatch i st id s).tables.memory = s.tables.memory := by simp [noticeWatch]
@[simp] theorem noticeWatch_tables_ordinals (i : Nat) (st : WatchStage) (id : LongWord) (s : State) :
    (noticeWatch i st id s).tables.ordinals = s.tables.ordinals := by simp [noticeWatch]
@[simp] theorem noticeWatch_tables_wiping (i : Nat) (st : WatchStage) (id : LongWord) (s : State) :
    (noticeWatch i st id s).tables.wiping = s.tables.wiping := by simp [noticeWatch]

/-! `writeAnswer` -/

@[simp] theorem writeAnswer_pending (slot : Slot) (tag : Half) (code : AnswerCode) (bs : List Byte) (s : State) :
    (writeAnswer slot tag code bs s).pending = s.pending := by simp only [writeAnswer]; split <;> simp
@[simp] theorem writeAnswer_clock (slot : Slot) (tag : Half) (code : AnswerCode) (bs : List Byte) (s : State) :
    (writeAnswer slot tag code bs s).clock = s.clock := by simp only [writeAnswer]; split <;> simp
@[simp] theorem writeAnswer_run (slot : Slot) (tag : Half) (code : AnswerCode) (bs : List Byte) (s : State) :
    (writeAnswer slot tag code bs s).run = s.run := by simp only [writeAnswer]; split <;> simp
@[simp] theorem writeAnswer_roster (slot : Slot) (tag : Half) (code : AnswerCode) (bs : List Byte) (s : State) :
    (writeAnswer slot tag code bs s).roster = s.roster := by simp only [writeAnswer]; split <;> simp
@[simp] theorem writeAnswer_power (slot : Slot) (tag : Half) (code : AnswerCode) (bs : List Byte) (s : State) :
    (writeAnswer slot tag code bs s).power = s.power := by simp only [writeAnswer]; split <;> simp
@[simp] theorem writeAnswer_arrivals (slot : Slot) (tag : Half) (code : AnswerCode) (bs : List Byte) (s : State) :
    (writeAnswer slot tag code bs s).arrivals = s.arrivals := by simp only [writeAnswer]; split <;> simp
@[simp] theorem writeAnswer_owed (slot : Slot) (tag : Half) (code : AnswerCode) (bs : List Byte) (s : State) :
    (writeAnswer slot tag code bs s).owed = s.owed := by simp only [writeAnswer]; split <;> simp
@[simp] theorem writeAnswer_turns (slot : Slot) (tag : Half) (code : AnswerCode) (bs : List Byte) (s : State) :
    (writeAnswer slot tag code bs s).turns = s.turns := by simp only [writeAnswer]; split <;> simp
@[simp] theorem writeAnswer_port_areaBase (slot : Slot) (tag : Half) (code : AnswerCode) (bs : List Byte) (s : State) :
    (writeAnswer slot tag code bs s).port.areaBase = s.port.areaBase := by simp only [writeAnswer]; split <;> simp
@[simp] theorem writeAnswer_port_enable (slot : Slot) (tag : Half) (code : AnswerCode) (bs : List Byte) (s : State) :
    (writeAnswer slot tag code bs s).port.enable = s.port.enable := by simp only [writeAnswer]; split <;> simp
@[simp] theorem writeAnswer_port_noticeAttention (slot : Slot) (tag : Half) (code : AnswerCode) (bs : List Byte) (s : State) :
    (writeAnswer slot tag code bs s).port.noticeAttention = s.port.noticeAttention := by
  simp only [writeAnswer]; split <;> simp
@[simp] theorem writeAnswer_port_faultAttention (slot : Slot) (tag : Half) (code : AnswerCode) (bs : List Byte) (s : State) :
    (writeAnswer slot tag code bs s).port.faultAttention = s.port.faultAttention := by
  simp only [writeAnswer]; split <;> simp
@[simp] theorem writeAnswer_port_dozeRequest (slot : Slot) (tag : Half) (code : AnswerCode) (bs : List Byte) (s : State) :
    (writeAnswer slot tag code bs s).port.dozeRequest = s.port.dozeRequest := by
  simp only [writeAnswer]; split <;> simp
@[simp] theorem writeAnswer_port_cursor (slot : Slot) (tag : Half) (code : AnswerCode) (bs : List Byte) (s : State) :
    (writeAnswer slot tag code bs s).port.cursor = s.port.cursor := by simp only [writeAnswer]; split <;> simp
@[simp] theorem writeAnswer_port_sweepNext (slot : Slot) (tag : Half) (code : AnswerCode) (bs : List Byte) (s : State) :
    (writeAnswer slot tag code bs s).port.sweepNext = s.port.sweepNext := by
  simp only [writeAnswer]; split <;> simp
@[simp] theorem writeAnswer_port_holds (slot : Slot) (tag : Half) (code : AnswerCode) (bs : List Byte) (s : State) :
    (writeAnswer slot tag code bs s).port.holds = s.port.holds := by simp only [writeAnswer]; split <;> simp
@[simp] theorem writeAnswer_port_endedMarks (slot : Slot) (tag : Half) (code : AnswerCode) (bs : List Byte) (s : State) :
    (writeAnswer slot tag code bs s).port.endedMarks = s.port.endedMarks := by
  simp only [writeAnswer]; split <;> simp
@[simp] theorem writeAnswer_tables_memory (slot : Slot) (tag : Half) (code : AnswerCode) (bs : List Byte) (s : State) :
    (writeAnswer slot tag code bs s).tables.memory = s.tables.memory := by simp only [writeAnswer]; split <;> simp
@[simp] theorem writeAnswer_tables_ordinals (slot : Slot) (tag : Half) (code : AnswerCode) (bs : List Byte) (s : State) :
    (writeAnswer slot tag code bs s).tables.ordinals = s.tables.ordinals := by
  simp only [writeAnswer]; split <;> simp
@[simp] theorem writeAnswer_tables_wiping (slot : Slot) (tag : Half) (code : AnswerCode) (bs : List Byte) (s : State) :
    (writeAnswer slot tag code bs s).tables.wiping = s.tables.wiping := by simp only [writeAnswer]; split <;> simp

/-! `answerNow` -/

@[simp] theorem answerNow_pending (slot : Slot) (tag : Half) (code : AnswerCode) (bs : List Byte) (s : State) :
    (answerNow slot tag code bs s).pending = s.pending := by unfold answerNow; split <;> simp
@[simp] theorem answerNow_clock (slot : Slot) (tag : Half) (code : AnswerCode) (bs : List Byte) (s : State) :
    (answerNow slot tag code bs s).clock = s.clock := by unfold answerNow; split <;> simp
@[simp] theorem answerNow_run (slot : Slot) (tag : Half) (code : AnswerCode) (bs : List Byte) (s : State) :
    (answerNow slot tag code bs s).run = s.run := by unfold answerNow; split <;> simp
@[simp] theorem answerNow_roster (slot : Slot) (tag : Half) (code : AnswerCode) (bs : List Byte) (s : State) :
    (answerNow slot tag code bs s).roster = s.roster := by unfold answerNow; split <;> simp
@[simp] theorem answerNow_power (slot : Slot) (tag : Half) (code : AnswerCode) (bs : List Byte) (s : State) :
    (answerNow slot tag code bs s).power = s.power := by unfold answerNow; split <;> simp
@[simp] theorem answerNow_arrivals (slot : Slot) (tag : Half) (code : AnswerCode) (bs : List Byte) (s : State) :
    (answerNow slot tag code bs s).arrivals = s.arrivals := by unfold answerNow; split <;> simp
@[simp] theorem answerNow_owed (slot : Slot) (tag : Half) (code : AnswerCode) (bs : List Byte) (s : State) :
    (answerNow slot tag code bs s).owed = s.owed := by unfold answerNow; split <;> simp
@[simp] theorem answerNow_turns (slot : Slot) (tag : Half) (code : AnswerCode) (bs : List Byte) (s : State) :
    (answerNow slot tag code bs s).turns = s.turns := by unfold answerNow; split <;> simp
@[simp] theorem answerNow_port_areaBase (slot : Slot) (tag : Half) (code : AnswerCode) (bs : List Byte) (s : State) :
    (answerNow slot tag code bs s).port.areaBase = s.port.areaBase := by unfold answerNow; split <;> simp
@[simp] theorem answerNow_port_enable (slot : Slot) (tag : Half) (code : AnswerCode) (bs : List Byte) (s : State) :
    (answerNow slot tag code bs s).port.enable = s.port.enable := by unfold answerNow; split <;> simp
@[simp] theorem answerNow_port_noticeAttention (slot : Slot) (tag : Half) (code : AnswerCode) (bs : List Byte) (s : State) :
    (answerNow slot tag code bs s).port.noticeAttention = s.port.noticeAttention := by
  unfold answerNow; split <;> simp
@[simp] theorem answerNow_port_faultAttention (slot : Slot) (tag : Half) (code : AnswerCode) (bs : List Byte) (s : State) :
    (answerNow slot tag code bs s).port.faultAttention = s.port.faultAttention := by
  unfold answerNow; split <;> simp
@[simp] theorem answerNow_port_dozeRequest (slot : Slot) (tag : Half) (code : AnswerCode) (bs : List Byte) (s : State) :
    (answerNow slot tag code bs s).port.dozeRequest = s.port.dozeRequest := by unfold answerNow; split <;> simp
@[simp] theorem answerNow_port_sweepNext (slot : Slot) (tag : Half) (code : AnswerCode) (bs : List Byte) (s : State) :
    (answerNow slot tag code bs s).port.sweepNext = s.port.sweepNext := by unfold answerNow; split <;> simp
@[simp] theorem answerNow_port_holds (slot : Slot) (tag : Half) (code : AnswerCode) (bs : List Byte) (s : State) :
    (answerNow slot tag code bs s).port.holds = s.port.holds := by unfold answerNow; split <;> simp
@[simp] theorem answerNow_port_endedMarks (slot : Slot) (tag : Half) (code : AnswerCode) (bs : List Byte) (s : State) :
    (answerNow slot tag code bs s).port.endedMarks = s.port.endedMarks := by unfold answerNow; split <;> simp
@[simp] theorem answerNow_tables_memory (slot : Slot) (tag : Half) (code : AnswerCode) (bs : List Byte) (s : State) :
    (answerNow slot tag code bs s).tables.memory = s.tables.memory := by unfold answerNow; split <;> simp
@[simp] theorem answerNow_tables_ordinals (slot : Slot) (tag : Half) (code : AnswerCode) (bs : List Byte) (s : State) :
    (answerNow slot tag code bs s).tables.ordinals = s.tables.ordinals := by unfold answerNow; split <;> simp
@[simp] theorem answerNow_tables_wiping (slot : Slot) (tag : Half) (code : AnswerCode) (bs : List Byte) (s : State) :
    (answerNow slot tag code bs s).tables.wiping = s.tables.wiping := by unfold answerNow; split <;> simp

/-! `holdNow` -/

@[simp] theorem holdNow_pending (h : Hold) (s : State) : (holdNow h s).pending = s.pending := by
  simp only [holdNow]; split <;> simp
@[simp] theorem holdNow_clock (h : Hold) (s : State) : (holdNow h s).clock = s.clock := by
  simp only [holdNow]; split <;> simp
@[simp] theorem holdNow_run (h : Hold) (s : State) : (holdNow h s).run = s.run := by
  simp only [holdNow]; split <;> simp
@[simp] theorem holdNow_roster (h : Hold) (s : State) : (holdNow h s).roster = s.roster := by
  simp only [holdNow]; split <;> simp
@[simp] theorem holdNow_power (h : Hold) (s : State) : (holdNow h s).power = s.power := by
  simp only [holdNow]; split <;> simp
@[simp] theorem holdNow_arrivals (h : Hold) (s : State) : (holdNow h s).arrivals = s.arrivals := by
  simp only [holdNow]; split <;> simp
@[simp] theorem holdNow_owed (h : Hold) (s : State) : (holdNow h s).owed = s.owed := by
  simp only [holdNow]; split <;> simp
@[simp] theorem holdNow_turns (h : Hold) (s : State) : (holdNow h s).turns = s.turns := by
  simp only [holdNow]; split <;> simp
@[simp] theorem holdNow_port_areaBase (h : Hold) (s : State) :
    (holdNow h s).port.areaBase = s.port.areaBase := by simp only [holdNow]; split <;> simp
@[simp] theorem holdNow_port_enable (h : Hold) (s : State) : (holdNow h s).port.enable = s.port.enable := by
  simp only [holdNow]; split <;> simp
@[simp] theorem holdNow_port_noticeAttention (h : Hold) (s : State) :
    (holdNow h s).port.noticeAttention = s.port.noticeAttention := by simp only [holdNow]; split <;> simp
@[simp] theorem holdNow_port_faultAttention (h : Hold) (s : State) :
    (holdNow h s).port.faultAttention = s.port.faultAttention := by simp only [holdNow]; split <;> simp
@[simp] theorem holdNow_port_dozeRequest (h : Hold) (s : State) :
    (holdNow h s).port.dozeRequest = s.port.dozeRequest := by simp only [holdNow]; split <;> simp
@[simp] theorem holdNow_port_sweepNext (h : Hold) (s : State) :
    (holdNow h s).port.sweepNext = s.port.sweepNext := by simp only [holdNow]; split <;> simp
@[simp] theorem holdNow_port_endedMarks (h : Hold) (s : State) :
    (holdNow h s).port.endedMarks = s.port.endedMarks := by simp only [holdNow]; split <;> simp
@[simp] theorem holdNow_tables_memory (h : Hold) (s : State) :
    (holdNow h s).tables.memory = s.tables.memory := by simp only [holdNow]; split <;> simp
@[simp] theorem holdNow_tables_ordinals (h : Hold) (s : State) :
    (holdNow h s).tables.ordinals = s.tables.ordinals := by simp only [holdNow]; split <;> simp
@[simp] theorem holdNow_tables_wiping (h : Hold) (s : State) :
    (holdNow h s).tables.wiping = s.tables.wiping := by simp only [holdNow]; split <;> simp

/-! `endHold` -/

@[simp] theorem endHold_pending (h : Hold) (code : AnswerCode) (bs : List Byte) (s : State) :
    (endHold h code bs s).pending = s.pending := by unfold endHold; split <;> simp
@[simp] theorem endHold_clock (h : Hold) (code : AnswerCode) (bs : List Byte) (s : State) :
    (endHold h code bs s).clock = s.clock := by unfold endHold; split <;> simp
@[simp] theorem endHold_run (h : Hold) (code : AnswerCode) (bs : List Byte) (s : State) :
    (endHold h code bs s).run = s.run := by unfold endHold; split <;> simp
@[simp] theorem endHold_roster (h : Hold) (code : AnswerCode) (bs : List Byte) (s : State) :
    (endHold h code bs s).roster = s.roster := by unfold endHold; split <;> simp
@[simp] theorem endHold_power (h : Hold) (code : AnswerCode) (bs : List Byte) (s : State) :
    (endHold h code bs s).power = s.power := by unfold endHold; split <;> simp
@[simp] theorem endHold_arrivals (h : Hold) (code : AnswerCode) (bs : List Byte) (s : State) :
    (endHold h code bs s).arrivals = s.arrivals := by unfold endHold; split <;> simp
@[simp] theorem endHold_owed (h : Hold) (code : AnswerCode) (bs : List Byte) (s : State) :
    (endHold h code bs s).owed = s.owed := by unfold endHold; split <;> simp
@[simp] theorem endHold_turns (h : Hold) (code : AnswerCode) (bs : List Byte) (s : State) :
    (endHold h code bs s).turns = s.turns := by unfold endHold; split <;> simp
@[simp] theorem endHold_port_areaBase (h : Hold) (code : AnswerCode) (bs : List Byte) (s : State) :
    (endHold h code bs s).port.areaBase = s.port.areaBase := by unfold endHold; split <;> simp
@[simp] theorem endHold_port_enable (h : Hold) (code : AnswerCode) (bs : List Byte) (s : State) :
    (endHold h code bs s).port.enable = s.port.enable := by unfold endHold; split <;> simp
@[simp] theorem endHold_port_noticeAttention (h : Hold) (code : AnswerCode) (bs : List Byte) (s : State) :
    (endHold h code bs s).port.noticeAttention = s.port.noticeAttention := by unfold endHold; split <;> simp
@[simp] theorem endHold_port_faultAttention (h : Hold) (code : AnswerCode) (bs : List Byte) (s : State) :
    (endHold h code bs s).port.faultAttention = s.port.faultAttention := by unfold endHold; split <;> simp
@[simp] theorem endHold_port_dozeRequest (h : Hold) (code : AnswerCode) (bs : List Byte) (s : State) :
    (endHold h code bs s).port.dozeRequest = s.port.dozeRequest := by unfold endHold; split <;> simp
@[simp] theorem endHold_port_cursor (h : Hold) (code : AnswerCode) (bs : List Byte) (s : State) :
    (endHold h code bs s).port.cursor = s.port.cursor := by unfold endHold; split <;> simp
@[simp] theorem endHold_port_sweepNext (h : Hold) (code : AnswerCode) (bs : List Byte) (s : State) :
    (endHold h code bs s).port.sweepNext = s.port.sweepNext := by unfold endHold; split <;> simp
@[simp] theorem endHold_tables_memory (h : Hold) (code : AnswerCode) (bs : List Byte) (s : State) :
    (endHold h code bs s).tables.memory = s.tables.memory := by unfold endHold; split <;> simp
@[simp] theorem endHold_tables_ordinals (h : Hold) (code : AnswerCode) (bs : List Byte) (s : State) :
    (endHold h code bs s).tables.ordinals = s.tables.ordinals := by unfold endHold; split <;> simp
@[simp] theorem endHold_tables_wiping (h : Hold) (code : AnswerCode) (bs : List Byte) (s : State) :
    (endHold h code bs s).tables.wiping = s.tables.wiping := by unfold endHold; split <;> simp

/-! `failAccess` -/

@[simp] theorem failAccess_pending (w : Bool) (a : Word) (s : State) :
    (failAccess w a s).pending = s.pending := by unfold failAccess; split <;> simp
@[simp] theorem failAccess_clock (w : Bool) (a : Word) (s : State) : (failAccess w a s).clock = s.clock := by
  unfold failAccess; split <;> simp
@[simp] theorem failAccess_run (w : Bool) (a : Word) (s : State) : (failAccess w a s).run = s.run := by
  unfold failAccess; split <;> simp
@[simp] theorem failAccess_roster (w : Bool) (a : Word) (s : State) : (failAccess w a s).roster = s.roster := by
  unfold failAccess; split <;> simp
@[simp] theorem failAccess_power (w : Bool) (a : Word) (s : State) : (failAccess w a s).power = s.power := by
  unfold failAccess; split <;> simp
@[simp] theorem failAccess_arrivals (w : Bool) (a : Word) (s : State) :
    (failAccess w a s).arrivals = s.arrivals := by unfold failAccess; split <;> simp
@[simp] theorem failAccess_owed (w : Bool) (a : Word) (s : State) : (failAccess w a s).owed = s.owed := by
  unfold failAccess; split <;> simp
@[simp] theorem failAccess_turns (w : Bool) (a : Word) (s : State) : (failAccess w a s).turns = s.turns := by
  unfold failAccess; split <;> simp
@[simp] theorem failAccess_port_areaBase (w : Bool) (a : Word) (s : State) :
    (failAccess w a s).port.areaBase = s.port.areaBase := by unfold failAccess; split <;> simp
@[simp] theorem failAccess_port_enable (w : Bool) (a : Word) (s : State) :
    (failAccess w a s).port.enable = s.port.enable := by unfold failAccess; split <;> simp
@[simp] theorem failAccess_port_noticeAttention (w : Bool) (a : Word) (s : State) :
    (failAccess w a s).port.noticeAttention = s.port.noticeAttention := by unfold failAccess; split <;> simp
@[simp] theorem failAccess_port_faultAttention (w : Bool) (a : Word) (s : State) :
    (failAccess w a s).port.faultAttention = s.port.faultAttention := by unfold failAccess; split <;> simp
@[simp] theorem failAccess_port_dozeRequest (w : Bool) (a : Word) (s : State) :
    (failAccess w a s).port.dozeRequest = s.port.dozeRequest := by unfold failAccess; split <;> simp
@[simp] theorem failAccess_port_cursor (w : Bool) (a : Word) (s : State) :
    (failAccess w a s).port.cursor = s.port.cursor := by unfold failAccess; split <;> simp
@[simp] theorem failAccess_port_sweepNext (w : Bool) (a : Word) (s : State) :
    (failAccess w a s).port.sweepNext = s.port.sweepNext := by unfold failAccess; split <;> simp
@[simp] theorem failAccess_port_holds (w : Bool) (a : Word) (s : State) :
    (failAccess w a s).port.holds = s.port.holds := by unfold failAccess; split <;> simp
@[simp] theorem failAccess_port_endedMarks (w : Bool) (a : Word) (s : State) :
    (failAccess w a s).port.endedMarks = s.port.endedMarks := by unfold failAccess; split <;> simp
@[simp] theorem failAccess_port_writePosition (w : Bool) (a : Word) (s : State) :
    (failAccess w a s).port.writePosition = s.port.writePosition := by unfold failAccess; split <;> simp
@[simp] theorem failAccess_port_noticeCount (w : Bool) (a : Word) (s : State) :
    (failAccess w a s).port.noticeCount = s.port.noticeCount := by unfold failAccess; split <;> simp
@[simp] theorem failAccess_port_nextSequence (w : Bool) (a : Word) (s : State) :
    (failAccess w a s).port.nextSequence = s.port.nextSequence := by unfold failAccess; split <;> simp
@[simp] theorem failAccess_port_overflow (w : Bool) (a : Word) (s : State) :
    (failAccess w a s).port.overflow = s.port.overflow := by unfold failAccess; split <;> simp
@[simp] theorem failAccess_tables_memory (w : Bool) (a : Word) (s : State) :
    (failAccess w a s).tables.memory = s.tables.memory := by unfold failAccess; split <;> simp
@[simp] theorem failAccess_tables_ordinals (w : Bool) (a : Word) (s : State) :
    (failAccess w a s).tables.ordinals = s.tables.ordinals := by unfold failAccess; split <;> simp
@[simp] theorem failAccess_tables_wiping (w : Bool) (a : Word) (s : State) :
    (failAccess w a s).tables.wiping = s.tables.wiping := by unfold failAccess; split <;> simp
@[simp] theorem failAccess_hostMemory (w : Bool) (a : Word) (s : State) :
    (failAccess w a s).hostMemory = s.hostMemory := by unfold failAccess; split <;> simp

/-! The steps of stage 12 and of the advances change the roster, and by their notices host memory, the ring and the
port's state, and nothing else. -/

/-! `moveWatch` -/

@[simp] theorem moveWatch_pending (i : Nat) (st : WatchStage) (s : State) :
    (moveWatch i st s).pending = s.pending := by unfold moveWatch; split <;> [rfl; split <;> simp]
@[simp] theorem moveWatch_clock (i : Nat) (st : WatchStage) (s : State) :
    (moveWatch i st s).clock = s.clock := by unfold moveWatch; split <;> [rfl; split <;> simp]
@[simp] theorem moveWatch_run (i : Nat) (st : WatchStage) (s : State) : (moveWatch i st s).run = s.run := by
  unfold moveWatch; split <;> [rfl; split <;> simp]
@[simp] theorem moveWatch_arrivals (i : Nat) (st : WatchStage) (s : State) :
    (moveWatch i st s).arrivals = s.arrivals := by unfold moveWatch; split <;> [rfl; split <;> simp]
@[simp] theorem moveWatch_owed (i : Nat) (st : WatchStage) (s : State) : (moveWatch i st s).owed = s.owed := by
  unfold moveWatch; split <;> [rfl; split <;> simp]
@[simp] theorem moveWatch_turns (i : Nat) (st : WatchStage) (s : State) :
    (moveWatch i st s).turns = s.turns := by unfold moveWatch; split <;> [rfl; split <;> simp]
@[simp] theorem moveWatch_port_areaBase (i : Nat) (st : WatchStage) (s : State) :
    (moveWatch i st s).port.areaBase = s.port.areaBase := by unfold moveWatch; split <;> [rfl; split <;> simp]
@[simp] theorem moveWatch_port_holds (i : Nat) (st : WatchStage) (s : State) :
    (moveWatch i st s).port.holds = s.port.holds := by unfold moveWatch; split <;> [rfl; split <;> simp]
@[simp] theorem moveWatch_port_endedMarks (i : Nat) (st : WatchStage) (s : State) :
    (moveWatch i st s).port.endedMarks = s.port.endedMarks := by unfold moveWatch; split <;> [rfl; split <;> simp]
@[simp] theorem moveWatch_tables_memory (i : Nat) (st : WatchStage) (s : State) :
    (moveWatch i st s).tables.memory = s.tables.memory := by unfold moveWatch; split <;> [rfl; split <;> simp]

/-! `timeAdvance` -/

@[simp] theorem timeAdvance_pending (n i : Nat) (s : State) : (timeAdvance n i s).pending = s.pending := by
  unfold timeAdvance; split <;> simp
@[simp] theorem timeAdvance_clock (n i : Nat) (s : State) : (timeAdvance n i s).clock = s.clock := by
  unfold timeAdvance; split <;> simp
@[simp] theorem timeAdvance_run (n i : Nat) (s : State) : (timeAdvance n i s).run = s.run := by
  unfold timeAdvance; split <;> simp
@[simp] theorem timeAdvance_arrivals (n i : Nat) (s : State) : (timeAdvance n i s).arrivals = s.arrivals := by
  unfold timeAdvance; split <;> simp
@[simp] theorem timeAdvance_owed (n i : Nat) (s : State) : (timeAdvance n i s).owed = s.owed := by
  unfold timeAdvance; split <;> simp
@[simp] theorem timeAdvance_turns (n i : Nat) (s : State) : (timeAdvance n i s).turns = s.turns := by
  unfold timeAdvance; split <;> simp
@[simp] theorem timeAdvance_port_areaBase (n i : Nat) (s : State) :
    (timeAdvance n i s).port.areaBase = s.port.areaBase := by unfold timeAdvance; split <;> simp
@[simp] theorem timeAdvance_port_holds (n i : Nat) (s : State) :
    (timeAdvance n i s).port.holds = s.port.holds := by unfold timeAdvance; split <;> simp
@[simp] theorem timeAdvance_port_endedMarks (n i : Nat) (s : State) :
    (timeAdvance n i s).port.endedMarks = s.port.endedMarks := by unfold timeAdvance; split <;> simp
@[simp] theorem timeAdvance_tables_memory (n i : Nat) (s : State) :
    (timeAdvance n i s).tables.memory = s.tables.memory := by unfold timeAdvance; split <;> simp

/-! `zoneAdvanceAt` -/

@[simp] theorem zoneAdvanceAt_pending (stop i : Nat) (s : State) :
    (zoneAdvanceAt stop i s).pending = s.pending := by unfold zoneAdvanceAt; split <;> simp
@[simp] theorem zoneAdvanceAt_clock (stop i : Nat) (s : State) : (zoneAdvanceAt stop i s).clock = s.clock := by
  unfold zoneAdvanceAt; split <;> simp
@[simp] theorem zoneAdvanceAt_run (stop i : Nat) (s : State) : (zoneAdvanceAt stop i s).run = s.run := by
  unfold zoneAdvanceAt; split <;> simp
@[simp] theorem zoneAdvanceAt_arrivals (stop i : Nat) (s : State) :
    (zoneAdvanceAt stop i s).arrivals = s.arrivals := by unfold zoneAdvanceAt; split <;> simp
@[simp] theorem zoneAdvanceAt_owed (stop i : Nat) (s : State) : (zoneAdvanceAt stop i s).owed = s.owed := by
  unfold zoneAdvanceAt; split <;> simp
@[simp] theorem zoneAdvanceAt_turns (stop i : Nat) (s : State) : (zoneAdvanceAt stop i s).turns = s.turns := by
  unfold zoneAdvanceAt; split <;> simp
@[simp] theorem zoneAdvanceAt_port_areaBase (stop i : Nat) (s : State) :
    (zoneAdvanceAt stop i s).port.areaBase = s.port.areaBase := by unfold zoneAdvanceAt; split <;> simp
@[simp] theorem zoneAdvanceAt_port_holds (stop i : Nat) (s : State) :
    (zoneAdvanceAt stop i s).port.holds = s.port.holds := by unfold zoneAdvanceAt; split <;> simp
@[simp] theorem zoneAdvanceAt_port_endedMarks (stop i : Nat) (s : State) :
    (zoneAdvanceAt stop i s).port.endedMarks = s.port.endedMarks := by unfold zoneAdvanceAt; split <;> simp
@[simp] theorem zoneAdvanceAt_tables_memory (stop i : Nat) (s : State) :
    (zoneAdvanceAt stop i s).tables.memory = s.tables.memory := by unfold zoneAdvanceAt; split <;> simp

/-! `lapseProposal` -/

@[simp] theorem lapseProposal_pending (n i : Nat) (s : State) : (lapseProposal n i s).pending = s.pending := by
  unfold lapseProposal; split <;> simp
@[simp] theorem lapseProposal_clock (n i : Nat) (s : State) : (lapseProposal n i s).clock = s.clock := by
  unfold lapseProposal; split <;> simp
@[simp] theorem lapseProposal_run (n i : Nat) (s : State) : (lapseProposal n i s).run = s.run := by
  unfold lapseProposal; split <;> simp
@[simp] theorem lapseProposal_arrivals (n i : Nat) (s : State) :
    (lapseProposal n i s).arrivals = s.arrivals := by unfold lapseProposal; split <;> simp
@[simp] theorem lapseProposal_owed (n i : Nat) (s : State) : (lapseProposal n i s).owed = s.owed := by
  unfold lapseProposal; split <;> simp
@[simp] theorem lapseProposal_turns (n i : Nat) (s : State) : (lapseProposal n i s).turns = s.turns := by
  unfold lapseProposal; split <;> simp
@[simp] theorem lapseProposal_port_areaBase (n i : Nat) (s : State) :
    (lapseProposal n i s).port.areaBase = s.port.areaBase := by unfold lapseProposal; split <;> simp
@[simp] theorem lapseProposal_port_holds (n i : Nat) (s : State) :
    (lapseProposal n i s).port.holds = s.port.holds := by unfold lapseProposal; split <;> simp
@[simp] theorem lapseProposal_port_endedMarks (n i : Nat) (s : State) :
    (lapseProposal n i s).port.endedMarks = s.port.endedMarks := by unfold lapseProposal; split <;> simp
@[simp] theorem lapseProposal_tables_memory (n i : Nat) (s : State) :
    (lapseProposal n i s).tables.memory = s.tables.memory := by unfold lapseProposal; split <;> simp

/-! `armEntry` -/

@[simp] theorem armEntry_pending (i : Nat) (j : Judgement) (p : Product) (s : State) :
    (armEntry i j p s).pending = s.pending := by simp only [armEntry]; split <;> simp
@[simp] theorem armEntry_clock (i : Nat) (j : Judgement) (p : Product) (s : State) :
    (armEntry i j p s).clock = s.clock := by simp only [armEntry]; split <;> simp
@[simp] theorem armEntry_run (i : Nat) (j : Judgement) (p : Product) (s : State) :
    (armEntry i j p s).run = s.run := by simp only [armEntry]; split <;> simp
@[simp] theorem armEntry_arrivals (i : Nat) (j : Judgement) (p : Product) (s : State) :
    (armEntry i j p s).arrivals = s.arrivals := by simp only [armEntry]; split <;> simp
@[simp] theorem armEntry_owed (i : Nat) (j : Judgement) (p : Product) (s : State) :
    (armEntry i j p s).owed = s.owed := by simp only [armEntry]; split <;> simp
@[simp] theorem armEntry_turns (i : Nat) (j : Judgement) (p : Product) (s : State) :
    (armEntry i j p s).turns = s.turns := by simp only [armEntry]; split <;> simp
@[simp] theorem armEntry_port_areaBase (i : Nat) (j : Judgement) (p : Product) (s : State) :
    (armEntry i j p s).port.areaBase = s.port.areaBase := by simp only [armEntry]; split <;> simp
@[simp] theorem armEntry_port_holds (i : Nat) (j : Judgement) (p : Product) (s : State) :
    (armEntry i j p s).port.holds = s.port.holds := by simp only [armEntry]; split <;> simp
@[simp] theorem armEntry_port_endedMarks (i : Nat) (j : Judgement) (p : Product) (s : State) :
    (armEntry i j p s).port.endedMarks = s.port.endedMarks := by simp only [armEntry]; split <;> simp
@[simp] theorem armEntry_tables_memory (i : Nat) (j : Judgement) (p : Product) (s : State) :
    (armEntry i j p s).tables.memory = s.tables.memory := by simp only [armEntry]; split <;> simp

/-! `proposeEntry` -/

@[simp] theorem proposeEntry_pending (i : Nat) (j : Judgement) (c : InspectCopy) (s : State) :
    (proposeEntry i j c s).pending = s.pending := by unfold proposeEntry; split <;> simp
@[simp] theorem proposeEntry_clock (i : Nat) (j : Judgement) (c : InspectCopy) (s : State) :
    (proposeEntry i j c s).clock = s.clock := by unfold proposeEntry; split <;> simp
@[simp] theorem proposeEntry_run (i : Nat) (j : Judgement) (c : InspectCopy) (s : State) :
    (proposeEntry i j c s).run = s.run := by unfold proposeEntry; split <;> simp
@[simp] theorem proposeEntry_arrivals (i : Nat) (j : Judgement) (c : InspectCopy) (s : State) :
    (proposeEntry i j c s).arrivals = s.arrivals := by unfold proposeEntry; split <;> simp
@[simp] theorem proposeEntry_owed (i : Nat) (j : Judgement) (c : InspectCopy) (s : State) :
    (proposeEntry i j c s).owed = s.owed := by unfold proposeEntry; split <;> simp
@[simp] theorem proposeEntry_turns (i : Nat) (j : Judgement) (c : InspectCopy) (s : State) :
    (proposeEntry i j c s).turns = s.turns := by unfold proposeEntry; split <;> simp
@[simp] theorem proposeEntry_port_areaBase (i : Nat) (j : Judgement) (c : InspectCopy) (s : State) :
    (proposeEntry i j c s).port.areaBase = s.port.areaBase := by unfold proposeEntry; split <;> simp
@[simp] theorem proposeEntry_port_holds (i : Nat) (j : Judgement) (c : InspectCopy) (s : State) :
    (proposeEntry i j c s).port.holds = s.port.holds := by unfold proposeEntry; split <;> simp
@[simp] theorem proposeEntry_port_endedMarks (i : Nat) (j : Judgement) (c : InspectCopy) (s : State) :
    (proposeEntry i j c s).port.endedMarks = s.port.endedMarks := by unfold proposeEntry; split <;> simp
@[simp] theorem proposeEntry_tables_memory (i : Nat) (j : Judgement) (c : InspectCopy) (s : State) :
    (proposeEntry i j c s).tables.memory = s.tables.memory := by unfold proposeEntry; split <;> simp

/-! `recordInspection` -/

@[simp] theorem recordInspection_pending (j : Judgement) (c : InspectCopy) (s : State) :
    (recordInspection j c s).pending = s.pending := by unfold recordInspection watchAndMark; split <;> simp
@[simp] theorem recordInspection_clock (j : Judgement) (c : InspectCopy) (s : State) :
    (recordInspection j c s).clock = s.clock := by unfold recordInspection watchAndMark; split <;> simp
@[simp] theorem recordInspection_run (j : Judgement) (c : InspectCopy) (s : State) :
    (recordInspection j c s).run = s.run := by unfold recordInspection watchAndMark; split <;> simp
@[simp] theorem recordInspection_arrivals (j : Judgement) (c : InspectCopy) (s : State) :
    (recordInspection j c s).arrivals = s.arrivals := by unfold recordInspection watchAndMark; split <;> simp
@[simp] theorem recordInspection_owed (j : Judgement) (c : InspectCopy) (s : State) :
    (recordInspection j c s).owed = s.owed := by unfold recordInspection watchAndMark; split <;> simp
@[simp] theorem recordInspection_turns (j : Judgement) (c : InspectCopy) (s : State) :
    (recordInspection j c s).turns = s.turns := by unfold recordInspection watchAndMark; split <;> simp
@[simp] theorem recordInspection_port_areaBase (j : Judgement) (c : InspectCopy) (s : State) :
    (recordInspection j c s).port.areaBase = s.port.areaBase := by
  unfold recordInspection watchAndMark; split <;> simp
@[simp] theorem recordInspection_port_holds (j : Judgement) (c : InspectCopy) (s : State) :
    (recordInspection j c s).port.holds = s.port.holds := by unfold recordInspection watchAndMark; split <;> simp
@[simp] theorem recordInspection_port_endedMarks (j : Judgement) (c : InspectCopy) (s : State) :
    (recordInspection j c s).port.endedMarks = s.port.endedMarks := by
  unfold recordInspection watchAndMark; split <;> simp
@[simp] theorem recordInspection_tables_memory (j : Judgement) (c : InspectCopy) (s : State) :
    (recordInspection j c s).tables.memory = s.tables.memory := by
  unfold recordInspection watchAndMark; split <;> simp

end Sys2Proof.Machine
end

