-- ==== Sys2Proof/Laws/Memory.lean ====
section
/-! SUPPORT. Memory: a read after a write gives the byte written, a write leaves every other place alone, and every memory
operation keeps the canonical form. -/

namespace Sys2Proof.Machine

theorem Memory.wf_cons {k : Nat} {b : Byte} {m : Memory} :
    Memory.wf ((k, b) :: m) = true ↔ b ≠ unlistedByte ∧ (∀ c ∈ m, k < c.1) ∧ Memory.wf m = true := by
  simp [Memory.wf, and_assoc]

/-- An address below every listed one reads as an unlisted byte. -/
theorem Memory.read_below {m : Memory} {a : Nat} (h : ∀ c ∈ m, a < c.1) : Memory.read m a = unlistedByte := by
  induction m with
  | nil => rfl
  | cons c m ih =>
    obtain ⟨k, b⟩ := c
    have hk : a < k := h (k, b) (by simp)
    rw [Memory.read, if_neg (by omega)]
    exact ih fun c hc => h c (by simp [hc])

theorem Memory.read_put_same {m : Memory} {a : Nat} {b : Byte} (h : ∀ c ∈ m, a < c.1) :
    Memory.read (Memory.put a b m) a = b := by
  unfold Memory.put
  split
  · rename_i hb
    rw [Memory.read_below h, hb]
  · simp [Memory.read]

theorem Memory.read_put_other {m : Memory} {a x : Nat} {b : Byte} (hx : x ≠ a) :
    Memory.read (Memory.put a b m) x = Memory.read m x := by
  unfold Memory.put
  split
  · rfl
  · simp [Memory.read, hx]

/-- A read after a write to the same address gives the byte written. -/
theorem Memory.read_write_same {m : Memory} {a : Nat} {b : Byte} (h : Memory.wf m = true) :
    Memory.read (Memory.write m a b) a = b := by
  induction m with
  | nil => exact Memory.read_put_same (by simp)
  | cons c m ih =>
    obtain ⟨k, v⟩ := c
    obtain ⟨-, hk, hm⟩ := Memory.wf_cons.mp h
    rw [Memory.write]
    split
    · rename_i hak
      refine Memory.read_put_same ?_
      intro c hc
      rcases List.mem_cons.mp hc with rfl | hc
      · exact hak
      · exact lt_trans hak (hk c hc)
    · split
      · rename_i hak
        exact Memory.read_put_same (by subst hak; exact hk)
      · rename_i hak
        rw [Memory.read, if_neg hak]
        exact ih hm

/-- A write leaves every other address as it was. -/
theorem Memory.read_write_other {m : Memory} {a x : Nat} {b : Byte} (hx : x ≠ a) :
    Memory.read (Memory.write m a b) x = Memory.read m x := by
  induction m with
  | nil => exact Memory.read_put_other hx
  | cons c m ih =>
    obtain ⟨k, v⟩ := c
    rw [Memory.write]
    split
    · exact Memory.read_put_other hx
    · split
      · rename_i hak
        rw [Memory.read_put_other hx, Memory.read, if_neg (by omega)]
      · rw [Memory.read, Memory.read, ih]

theorem Memory.mem_put {m : Memory} {a : Nat} {b : Byte} {c : Host.Cell} (h : c ∈ Memory.put a b m) :
    c.1 = a ∨ c ∈ m := by
  unfold Memory.put at h
  split at h
  · exact .inr h
  · rcases List.mem_cons.mp h with rfl | h
    · exact .inl rfl
    · exact .inr h

theorem Memory.mem_write {m : Memory} {a : Nat} {b : Byte} {c : Host.Cell} (h : c ∈ Memory.write m a b) :
    c.1 = a ∨ c ∈ m := by
  induction m with
  | nil => exact Memory.mem_put h
  | cons d m ih =>
    obtain ⟨k, v⟩ := d
    rw [Memory.write] at h
    split at h
    · exact Memory.mem_put h
    · split at h
      · rcases Memory.mem_put h with h | h
        · exact .inl h
        · exact .inr (by simp [h])
      · rcases List.mem_cons.mp h with rfl | h
        · exact .inr (by simp)
        · rcases ih h with h | h
          · exact .inl h
          · exact .inr (by simp [h])

theorem Memory.wf_put {m : Memory} {a : Nat} {b : Byte} (h : Memory.wf m = true) (hm : ∀ c ∈ m, a < c.1) :
    Memory.wf (Memory.put a b m) = true := by
  unfold Memory.put
  split
  · exact h
  · rename_i hb
    exact Memory.wf_cons.mpr ⟨hb, hm, h⟩

/-- A write keeps the canonical form. -/
theorem Memory.wf_write {m : Memory} {a : Nat} {b : Byte} (h : Memory.wf m = true) :
    Memory.wf (Memory.write m a b) = true := by
  induction m with
  | nil => exact Memory.wf_put h (by simp)
  | cons d m ih =>
    obtain ⟨k, v⟩ := d
    obtain ⟨hv, hk, hm⟩ := Memory.wf_cons.mp h
    rw [Memory.write]
    split
    · rename_i hak
      refine Memory.wf_put h fun c hc => ?_
      rcases List.mem_cons.mp hc with rfl | hc
      · exact hak
      · exact lt_trans hak (hk c hc)
    · split
      · rename_i hak
        exact Memory.wf_put hm (by subst hak; exact hk)
      · rename_i h1 h2
        refine Memory.wf_cons.mpr ⟨hv, fun c hc => ?_, ih hm⟩
        rcases Memory.mem_write hc with hc | hc
        · omega
        · exact hk c hc

/-- A run of writes keeps the canonical form. -/
theorem Memory.wf_writeRun {size : Nat} {bs : List Byte} {m : Memory} {a : Nat} (h : Memory.wf m = true) :
    Memory.wf (Memory.writeRun size m a bs) = true := by
  induction bs generalizing m a with
  | nil => exact h
  | cons b bs ih => exact ih (Memory.wf_write h)

/-- A run of writes lists no address outside the address space. -/
theorem Memory.bound_writeRun {size : Nat} (hs : 0 < size) {bs : List Byte} {m : Memory} {a : Nat}
    (h : ∀ c ∈ m, c.1 < size) : ∀ c ∈ Memory.writeRun size m a bs, c.1 < size := by
  induction bs generalizing m a with
  | nil => exact h
  | cons b bs ih =>
    refine ih fun c hc => ?_
    rcases Memory.mem_write hc with hc | hc
    · rw [hc]; exact Nat.mod_lt _ hs
    · exact h c hc

/-- The writes of the host keep the canonical form. -/
theorem Memory.wf_foldl_write {ws : List Host.Cell} {size : Nat} {m : Memory} (h : Memory.wf m = true) :
    Memory.wf (ws.foldl (fun m c => Memory.write m (c.1 % size) c.2) m) = true := by
  induction ws generalizing m with
  | nil => exact h
  | cons c ws ih => exact ih (Memory.wf_write h)

theorem Memory.bound_foldl_write {ws : List Host.Cell} {size : Nat} (hs : 0 < size) {m : Memory}
    (h : ∀ c ∈ m, c.1 < size) : ∀ c ∈ ws.foldl (fun m c => Memory.write m (c.1 % size) c.2) m, c.1 < size := by
  induction ws generalizing m with
  | nil => exact h
  | cons w ws ih =>
    refine ih fun c hc => ?_
    rcases Memory.mem_write hc with hc | hc
    · rw [hc]; exact Nat.mod_lt _ hs
    · exact h c hc

/-- A run of writes leaves every address outside the run as it was. -/
theorem Memory.read_writeRun_other {size : Nat} {bs : List Byte} {m : Memory} {a x : Nat}
    (h : ∀ i < bs.length, x ≠ (a + i) % size) : Memory.read (Memory.writeRun size m a bs) x = Memory.read m x := by
  induction bs generalizing m a with
  | nil => rfl
  | cons b bs ih =>
    rw [Memory.writeRun, ih fun i hi => ?_, Memory.read_write_other (by simpa using h 0 (by simp))]
    have := h (i + 1) (by simpa using hi)
    rwa [show a + (i + 1) = a + 1 + i by omega] at this

/-- Two addresses of one run that is not longer than the address space differ. -/
theorem Memory.run_injective {size a i j : Nat} (hi : i < size) (hj : j < size) (h : (a + i) % size = (a + j) % size) :
    i = j := by
  have h' : i ≡ j [MOD size] := (Nat.ModEq.add_left_cancel' a h)
  have := h'
  unfold Nat.ModEq at this
  rwa [Nat.mod_eq_of_lt hi, Nat.mod_eq_of_lt hj] at this

/-- A read inside a run of writes gives the byte written. -/
theorem Memory.read_writeRun_at {size : Nat} {bs : List Byte} {m : Memory} {a : Nat} (hm : Memory.wf m = true)
    (hs : bs.length ≤ size) {i : Nat} (hi : i < bs.length) :
    Memory.read (Memory.writeRun size m a bs) ((a + i) % size) = bs[i] := by
  induction bs generalizing m a i with
  | nil => simp at hi
  | cons b bs ih =>
    rw [Memory.writeRun]
    simp only [List.length_cons] at hs hi
    cases i with
    | zero =>
      rw [Memory.read_writeRun_other fun j hj h => ?_, Nat.add_zero, Memory.read_write_same hm]
      · rfl
      · have := Memory.run_injective (size := size) (i := 0) (j := j + 1) (a := a) (by omega) (by omega)
          (by rw [h]; congr 1; omega)
        omega
    | succ i =>
      have := ih (m := Memory.write m (a % size) b) (a := a + 1) (i := i) (Memory.wf_write hm) (by omega) (by omega)
      rw [show a + (i + 1) = a + 1 + i by omega, this]
      rfl

@[simp] theorem Memory.readRun_length {size : Nat} {m : Memory} {a n : Nat} : (Memory.readRun size m a n).length = n := by
  simp [Memory.readRun]

/-- Reading a run just written gives the bytes written. -/
theorem Memory.readRun_writeRun_same {size : Nat} {bs : List Byte} {m : Memory} {a : Nat} (hm : Memory.wf m = true)
    (hs : bs.length ≤ size) : Memory.readRun size (Memory.writeRun size m a bs) a bs.length = bs := by
  refine List.ext_getElem (by simp) fun i h1 h2 => ?_
  simp only [Memory.readRun, List.getElem_map, List.getElem_range]
  exact Memory.read_writeRun_at hm hs h2

/-- Two memories that read the same at every address of a run give the same run. -/
theorem Memory.readRun_congr {size : Nat} {m m' : Memory} {a n : Nat}
    (h : ∀ i < n, Memory.read m ((a + i) % size) = Memory.read m' ((a + i) % size)) :
    Memory.readRun size m a n = Memory.readRun size m' a n := by
  refine List.ext_getElem (by simp) fun i h1 h2 => ?_
  simp only [Memory.readRun, List.getElem_map, List.getElem_range]
  exact h i (by simpa using h1)

/-- A run of writes leaves a disjoint run as it was. -/
theorem Memory.readRun_writeRun_other {size : Nat} {bs : List Byte} {m : Memory} {a b n : Nat}
    (h : ∀ i < n, ∀ j < bs.length, (b + i) % size ≠ (a + j) % size) :
    Memory.readRun size (Memory.writeRun size m a bs) b n = Memory.readRun size m b n :=
  Memory.readRun_congr fun i hi => Memory.read_writeRun_other (h i hi)

end Sys2Proof.Machine
end

