-- ==== Sys2Proof/Laws/Quiet.lean ====
section
/-! SUPPORT. The shared operations in closed form when no access fails and nothing arrives: what each one does, said once. -/

namespace Sys2Proof.Machine

/-! ### The bus -/

/-- A write on a bus that does not fail, made by a port that writes. -/
theorem busWrite_quiet {s : State} (hb : s.busLeft = none) (hw : s.port.state.writes = true) (a : Nat) (bs : List Byte) :
    busWrite a bs s = { s with hostMemory := Memory.writeRun hostSize s.hostMemory a bs } := by
  obtain ⟨pending, port, clock, run, tables, roster, power, hostMemory, busLeft, arrivals, owed, turns⟩ := s
  subst hb
  simp_all [busWrite, State.transferred, State.spend]

/-- A write asked of a port that is STOPPED or FAULT does nothing. -/
theorem busWrite_silent {s : State} (hw : s.port.state.writes = false) (a : Nat) (bs : List Byte) :
    busWrite a bs s = s := by simp [busWrite, hw]

/-- A read on a bus that does not fail changes nothing. -/
theorem busRead_quiet {s : State} (hb : s.busLeft = none) (a n : Nat) : busRead a n s = s := by
  obtain ⟨pending, port, clock, run, tables, roster, power, hostMemory, busLeft, arrivals, owed, turns⟩ := s
  subst hb
  simp [busRead, State.transferred, State.spend]

/-- A failing write: the bytes before the failing one are written, and the port enters FAULT (R156). -/
theorem busWrite_fails {s : State} {left : Nat} (hb : s.busLeft = some left) (hw : s.port.state.writes = true) {a : Nat}
    {bs : List Byte} (hl : left < bs.length) :
    busWrite a bs s =
      enterFault .write (a + left)
        { s with hostMemory := Memory.writeRun hostSize s.hostMemory a (bs.take left) } := by
  have h : min bs.length left = left := by omega
  have h' : left ≠ bs.length := by omega
  simp [busWrite, State.transferred, hb, hw, h, h']

/-- A failing read: the port enters FAULT (R156). -/
theorem busRead_fails {s : State} {left n : Nat} (hb : s.busLeft = some left) (hw : s.port.state.writes = true) {a : Nat}
    (hl : left < n) : busRead a n s = enterFault .read (a + left) s := by
  have h : min n left = left := by omega
  have h' : left ≠ n := by omega
  simp [busRead, State.transferred, hb, hw, h, h']

theorem mirrorRun_quiet {s : State} (hb : s.busLeft = none) (hw : s.port.state.writes = true) :
    mirrorRun s =
      { s with hostMemory := Memory.writeRun hostSize s.hostMemory (s.areaAddress + 0x10) s.runMirror } :=
  busWrite_quiet hb hw _ _

theorem mirrorClock_quiet {s : State} (hb : s.busLeft = none) (hw : s.port.state.writes = true) :
    mirrorClock s =
      { s with hostMemory := Memory.writeRun hostSize s.hostMemory (s.areaAddress + 0x20) s.clock.mirror } :=
  busWrite_quiet hb hw _ _

theorem mirrorDescriptor_quiet {s : State} (hb : s.busLeft = none) (hw : s.port.state.writes = true) (k : TableKind) :
    mirrorDescriptor k s =
      { s with
        hostMemory :=
          Memory.writeRun hostSize s.hostMemory (s.areaAddress + k.mirrorOffset) (s.tables.descriptor k).image } :=
  busWrite_quiet hb hw _ _

/-! ### Notices -/

/-- Host memory after one offered notice: its ring slot and the ring fields of the header, or nothing at a full ring. -/
def State.noticeMemory (s : State) (n : Notice) : Memory :=
  if 64 ≤ s.port.noticeCount then s.hostMemory
  else
    Memory.writeRun hostSize
      (Memory.writeRun hostSize s.hostMemory (s.ringAddress s.port.writePosition)
        (n.bytes s.port.nextSequence s.clockCount))
      (s.areaAddress + 0x08) (ringMirror (s.port.writePosition + 1) (s.port.nextSequence + 1))

@[simp] theorem offered_zero (p : Port) : p.offered 0 = p := by
  obtain ⟨⟩ := p
  simp [Port.offered, Port.room, Port.ringSlot, Port.sequence]

theorem offered_one_room {p : Port} (h : p.noticeCount < 64) :
    p.offered 1 =
      { p with
        writePosition := p.writePosition + 1
        nextSequence := p.nextSequence + 1
        noticeCount := p.noticeCount + 1 } := by
  have : p.room 1 = 1 := by simp only [Port.room]; omega
  obtain ⟨⟩ := p
  simp only [Port.offered, this, Port.ringSlot, Port.sequence]
  simp
  rfl

theorem offered_one_full {p : Port} (h : 64 ≤ p.noticeCount) : p.offered 1 = { p with overflow := true } := by
  have : p.room 1 = 0 := by simp only [Port.room]; omega
  obtain ⟨⟩ := p
  simp [Port.offered, this, Port.ringSlot, Port.sequence]

/-- A notice appended in IDLE or SWEEPING on a bus that does not fail (R153). -/
theorem appendNotice_quiet {s : State} (hb : s.busLeft = none) (hw : s.port.state.writes = true) (n : Notice) :
    appendNotice n s = { s with port := s.port.offered 1, hostMemory := s.noticeMemory n } := by
  have happ : appendNotice n s = writeNotice n s := by
    unfold appendNotice
    split <;> simp_all [PortState.writes]
  rw [happ, writeNotice]
  by_cases hc : 64 ≤ s.port.noticeCount
  · rw [if_pos hc, offered_one_full hc]
    simp [setOverflow, State.noticeMemory, hc]
  · rw [if_neg hc]
    have hput : putNotice n s = { s with hostMemory := s.noticeMemory n } := by
      simp only [putNotice, State.noticeMemory, if_neg hc]
      rw [busWrite_quiet hb hw, busWrite_quiet (by exact hb) (by exact hw)]
    have hf : (putNotice n s).port.state ≠ .fault := by
      rw [hput]
      intro h
      simp [show s.port.state = .fault from h, PortState.writes] at hw
    rw [if_neg hf, hput, offered_one_room (by omega)]
    rfl

/-- A notice appended in STOPPED changes nothing (R153). -/
theorem appendNotice_stopped {s : State} (h : s.port.state = .stopped) (n : Notice) : appendNotice n s = s := by
  simp [appendNotice, h]

/-- A notice appended in FAULT sets the overflow flag (R153). -/
theorem appendNotice_fault {s : State} (h : s.port.state = .fault) (n : Notice) : appendNotice n s = setOverflow s := by
  simp [appendNotice, h]

theorem noticeDayChanged_eq (s : State) : noticeDayChanged s = appendNotice (dayNotice s.clock.serviceDay) s := rfl
theorem noticeClockStepped_eq (d : Int) (s : State) : noticeClockStepped d s = appendNotice (steppedNotice d) s := rfl
theorem noticeProposalLapsed_eq (i : Nat) (s : State) : noticeProposalLapsed i s = appendNotice (lapsedNotice i) s := rfl
theorem noticeWatch_eq (i : Nat) (st : WatchStage) (id : LongWord) (s : State) :
    noticeWatch i st id s = appendNotice (watchNotice i st id) s := rfl

@[simp] theorem offered_state (p : Port) (n : Nat) : (p.offered n).state = p.state := rfl
@[simp] theorem offered_areaBase (p : Port) (n : Nat) : (p.offered n).areaBase = p.areaBase := rfl
@[simp] theorem offered_inHand (p : Port) (n : Nat) : (p.offered n).inHand = p.inHand := rfl
@[simp] theorem offered_holds (p : Port) (n : Nat) : (p.offered n).holds = p.holds := rfl

/-- Offering notices one after another. -/
theorem offered_offered (p : Port) (a b : Nat) : (p.offered a).offered b = p.offered (a + b) := by
  have hroom : (p.offered a).room b = p.room (a + b) - p.room a := by
    simp only [Port.offered, Port.room]; omega
  have hle : p.room a ≤ p.room (a + b) := by simp only [Port.room]; omega
  have h1 : (p.offered a).ringSlot ((p.offered a).room b) = p.ringSlot (p.room (a + b)) := by
    rw [hroom]
    simp only [Port.offered, Port.ringSlot, Fin.ext_iff, Fin.val_add, Fin.val_ofNat]
    omega
  have h2 : (p.offered a).sequence ((p.offered a).room b) = p.sequence (p.room (a + b)) := by
    rw [hroom]
    simp only [Port.offered, Port.sequence]
    rw [BitVec.add_assoc, ← BitVec.ofNat_add]
    congr 2
    omega
  have h3 : (p.offered a).noticeCount + (p.offered a).room b = p.noticeCount + p.room (a + b) := by
    rw [hroom]; simp only [Port.offered]; omega
  have h4 : ((p.offered a).overflow || decide ((p.offered a).room b < b)) = (p.overflow || decide (p.room (a + b) < a + b)) := by
    rw [hroom]
    simp only [Port.offered, Bool.or_assoc]
    congr 1
    rw [← Bool.decide_or]
    apply decide_eq_decide.mpr
    simp only [Port.room]
    omega
  have e1 : (p.offered a).offered b =
      { p.offered a with
        writePosition := (p.offered a).ringSlot ((p.offered a).room b)
        nextSequence := (p.offered a).sequence ((p.offered a).room b)
        noticeCount := (p.offered a).noticeCount + (p.offered a).room b
        overflow := (p.offered a).overflow || decide ((p.offered a).room b < b) } := rfl
  rw [e1, h1, h2, h3, h4]
  rfl

/-! ### Answers -/

/-- Host memory after an answer's outcome, answer bytes and state (R149). -/
def State.answerMemory (s : State) (slot : Slot) (code : AnswerCode) (bytes : List Byte) : Memory :=
  Memory.writeRun hostSize
    (Memory.writeRun hostSize (Memory.writeRun hostSize s.hostMemory (s.slotAddress slot + 4) [code.code])
      (s.slotAddress slot + 72) (padTo 56 bytes))
    (s.slotAddress slot) [SlotState.answered.code]

/-- An answer written in IDLE or SWEEPING on a bus that does not fail (R149). -/
theorem writeAnswer_quiet {s : State} (hb : s.busLeft = none) (hw : s.port.state.writes = true) (slot : Slot) (tag : Half)
    (code : AnswerCode) (bytes : List Byte) :
    writeAnswer slot tag code bytes s =
      { s with
        port := s.port.offered 1
        hostMemory :=
          State.noticeMemory { s with hostMemory := s.answerMemory slot code bytes } (answeredNotice slot tag) } := by
  have h3 : busWrite (s.slotAddress slot) [SlotState.answered.code]
      (busWrite (s.slotAddress slot + 72) (padTo 56 bytes) (busWrite (s.slotAddress slot + 4) [code.code] s)) =
      { s with hostMemory := s.answerMemory slot code bytes } := by
    rw [busWrite_quiet hb hw (s.slotAddress slot + 4), busWrite_quiet (by exact hb) (by exact hw) (s.slotAddress slot + 72),
      busWrite_quiet (by exact hb) (by exact hw)]
    rfl
  simp only [writeAnswer, h3]
  rw [if_pos (by exact hw), show ({ kind := .answered, stage := 0, subject := slot.val, tag := tag, detail := 0 } : Notice) =
    answeredNotice slot tag from rfl, appendNotice_quiet (by exact hb) (by exact hw)]

/-- In STOPPED and FAULT no answer is written (R149). -/
theorem writeAnswer_silent {s : State} (hw : s.port.state.writes = false) (slot : Slot) (tag : Half) (code : AnswerCode)
    (bytes : List Byte) : writeAnswer slot tag code bytes s = s := by
  simp [writeAnswer, busWrite_silent hw, hw]

theorem writes_ne_fault {p : PortState} (h : p.writes = true) : p ≠ .fault := by
  rintro rfl; simp [PortState.writes] at h

/-- The answer of the request in hand on a bus that does not fail: the answer, and the cursor one past the slot. -/
theorem answerNow_quiet {s : State} (hb : s.busLeft = none) (hw : s.port.state.writes = true) (slot : Slot) (tag : Half)
    (code : AnswerCode) (bytes : List Byte) :
    answerNow slot tag code bytes s =
      { s with
        port := { s.port.offered 1 with inHand := none, cursor := slot + 1 }
        hostMemory :=
          State.noticeMemory { s with hostMemory := s.answerMemory slot code bytes } (answeredNotice slot tag) } := by
  rw [answerNow, writeAnswer_quiet hb hw, if_neg (by exact writes_ne_fault hw)]
  rfl

/-- With nothing arriving, a point at which events may be taken changes nothing. -/
theorem pollPoint_quiet {takes : Arrival → Bool} {receive : Arrival → State → State} {s : State} (h : s.arrivals = []) :
    pollPoint takes receive s = s := by simp [pollPoint, takeArrivals, closePoint, h]

theorem pollAll_quiet {s : State} (h : s.arrivals = []) : pollAll s = s := pollPoint_quiet h
theorem pollInspection_quiet {s : State} (h : s.arrivals = []) (finish : State → State) : pollInspection finish s = s :=
  pollPoint_quiet h
theorem pollCompletion_quiet {s : State} (h : s.arrivals = []) : pollCompletion s = s := pollPoint_quiet h
theorem pollPassage_quiet {s : State} (h : s.arrivals = []) : pollPassage s = s := pollPoint_quiet h

/-- With no examination of the hold list waiting, there is none to make. -/
theorem examineOwed_none {mid : State → State} {s : State} (h : s.owed = []) (fuel : Nat) :
    examineOwed mid fuel s = s := by cases fuel <;> simp [examineOwed, h]

theorem afterEvaluations_none {mid : State → State} {s : State} (h : s.owed = []) : afterEvaluations mid s = s :=
  examineOwed_none h _

/-- With nothing arriving, a zone advance examines the entries one after another (R106). -/
theorem zoneAdvance_quiet {s : State} (h : s.arrivals = []) (stop : Nat) (is : List Nat) :
    zoneAdvance stop is s = is.foldl (fun s i => zoneAdvanceAt stop i s) s := by
  induction is generalizing s with
  | nil => exact pollPassage_quiet h
  | cons i is ih =>
    have ha : (zoneAdvanceAt stop i s).arrivals = [] := by simp [h]
    simp [zoneAdvance, takeArrivals, closePoint, h, ih ha]

/-- The answer of the request in hand, its bytes those of the moment, with nothing arriving and no access failing. -/
theorem answerInHandWith_quiet {s : State} (ha : s.arrivals = []) (slot : Slot) (tag : Half) (code : AnswerCode)
    (bytes : State → List Byte) : answerInHandWith slot tag code bytes s = answerInHand slot tag code (bytes s) s := by
  simp [answerInHand, answerInHandWith, pollAll_quiet ha]

/-- The answer of the request in hand with nothing arriving and no access failing. -/
theorem answerInHand_quiet {s : State} (hb : s.busLeft = none) (ha : s.arrivals = []) (hw : s.port.state.writes = true)
    {slot : Slot} (hh : s.port.inHand = some slot) (tag : Half) (code : AnswerCode) (bytes : List Byte) :
    answerInHand slot tag code bytes s =
      { s with
        port := { s.port.offered 1 with inHand := none, cursor := slot + 1 }
        hostMemory :=
          State.noticeMemory { s with hostMemory := s.answerMemory slot code bytes } (answeredNotice slot tag) } := by
  rw [answerInHand, answerInHandWith, pollAll_quiet ha, if_pos (by simp [State.hasInHand, hh]), answerNow_quiet hb hw]

/-- The request in hand is held on a bus that does not fail (R150). -/
theorem holdNow_quiet {s : State} (hb : s.busLeft = none) (hw : s.port.state.writes = true) (h : Hold) :
    holdNow h s =
      { s with
        port := { s.port with holds := s.port.holds ++ [h], inHand := none, cursor := h.slot + 1 }
        hostMemory := Memory.writeRun hostSize s.hostMemory (s.slotAddress h.slot) [SlotState.held.code] } := by
  simp only [holdNow]
  rw [busWrite_quiet (s := appendHold h s) (by exact hb) (by exact hw), if_neg (by exact writes_ne_fault hw)]
  rfl

/-- The end of a hold with an answer on a bus that does not fail. -/
theorem endHold_quiet {s : State} (hb : s.busLeft = none) (hw : s.port.state.writes = true) (h : Hold) (code : AnswerCode)
    (bytes : List Byte) :
    endHold h code bytes s =
      { s with
        port := (s.port.offered 1).holdEnded h.slot
        hostMemory :=
          State.noticeMemory { s with hostMemory := s.answerMemory h.slot code bytes } (answeredNotice h.slot h.tag) } := by
  rw [endHold, writeAnswer_quiet hb hw, if_neg (by exact writes_ne_fault hw)]
  rfl

/-- In STOPPED a hold ends without a written answer (R149). -/
theorem endHold_stopped {s : State} (hs : s.port.state = .stopped) (h : Hold) (code : AnswerCode) (bytes : List Byte) :
    endHold h code bytes s = dropHold h.slot s := by
  have hw : s.port.state.writes = false := by rw [hs]; rfl
  rw [endHold, writeAnswer_silent hw, if_neg (by rw [hs]; exact PortState.noConfusion)]

/-! ### Evaluations and deliveries with nothing arriving -/

@[simp] theorem answerHold_arrivals (h : Hold) (bs : List Byte) (s : State) :
    (answerHold id h bs s).arrivals = s.arrivals := by unfold answerHold; split <;> simp
@[simp] theorem answerHold_owed (h : Hold) (bs : List Byte) (s : State) :
    (answerHold id h bs s).owed = s.owed := by unfold answerHold; split <;> simp
@[simp] theorem releaseHold_arrivals (n : Nat) (h : Hold) (c : InspectCopy) (s : State) :
    (releaseHold id n h c s).arrivals = s.arrivals := by unfold releaseHold; split <;> simp
@[simp] theorem releaseHold_owed (n : Nat) (h : Hold) (c : InspectCopy) (s : State) :
    (releaseHold id n h c s).owed = s.owed := by unfold releaseHold; split <;> simp

/-- The frame of a release with nothing arriving: neither the arrivals nor the examinations that wait change. -/
theorem releaseSlot_frame (n : Nat) (slot : Slot) (s : State) :
    (releaseSlot id n slot s).arrivals = s.arrivals ∧ (releaseSlot id n slot s).owed = s.owed := by
  unfold releaseSlot
  split
  · simp
  · split
    · simp
    · split <;> simp

theorem limitHold_frame (n : Nat) (slot : Slot) (s : State) :
    (limitHold id n slot s).arrivals = s.arrivals ∧ (limitHold id n slot s).owed = s.owed := by
  unfold limitHold
  split
  · exact releaseSlot_frame n slot s
  · simp

theorem runTask_frame (n : Nat) (s : State) (k : TickTask) :
    (runTask id n s k).arrivals = s.arrivals ∧ (runTask id n s k).owed = s.owed := by
  cases k <;> simp [runTask, limitHold_frame]

/-- With nothing arriving, what `pollInspection` lets in during a release is nothing. -/
theorem releaseSlot_quiet {s : State} (h : s.arrivals = []) (finish : State → State) (n : Nat) (slot : Slot) :
    releaseSlot (pollInspection finish) n slot s = releaseSlot id n slot s := by
  have hr : ∀ x c, releaseHold (pollInspection finish) n x c s = releaseHold id n x c s := by
    intro x c
    simp only [releaseHold, answerHold, pollInspection_quiet h, id]
    rw [pollInspection_quiet (s := recordInspection (judgeAt n c s) c s) (by simp [h])]
  simp only [releaseSlot, hr]

theorem limitHold_quiet {s : State} (h : s.arrivals = []) (finish : State → State) (n : Nat) (slot : Slot) :
    limitHold (pollInspection finish) n slot s = limitHold id n slot s := by
  simp only [limitHold, releaseSlot_quiet h]

theorem runTask_quiet {s : State} (h : s.arrivals = []) (finish : State → State) (n : Nat) (k : TickTask) :
    runTask (pollInspection finish) n s k = runTask id n s k := by
  cases k <;> simp [runTask, limitHold_quiet h]

theorem foldl_runTask_frame (n : Nat) (ks : List TickTask) (s : State) :
    (ks.foldl (runTask id n) s).arrivals = s.arrivals ∧ (ks.foldl (runTask id n) s).owed = s.owed := by
  induction ks generalizing s with
  | nil => simp
  | cons k ks ih => simp [ih, runTask_frame]

/-- With nothing arriving, the work of a tick is done piece by piece: none of it is brought forward. -/
theorem runTasks_quiet {s : State} (h : s.arrivals = []) (n : Nat) (ks : List TickTask) :
    runTasks pollInspection s.owed.length n ks s = ks.foldl (runTask id n) s := by
  induction ks generalizing s with
  | nil => rfl
  | cons k ks ih =>
    have hk := ih (s := runTask id n s k) (by simp [runTask_frame, h])
    simp only [runTask_frame] at hk
    simpa [runTasks, runTask_quiet h] using hk

/-- A delivery with nothing arriving and no examination waiting: the work of the lists in the order chosen, and nothing left
over (R3, R10). -/
theorem delivery_quiet {s : State} (h : s.arrivals = []) (ho : s.owed = []) (n : Nat) (lists : List (List TickTask)) :
    deliver freeEvaluator n lists s =
      (taskOrder s.turns lists).1.foldl (runTask id n) { s with turns := (taskOrder s.turns lists).2 } := by
  have hd := runTasks_quiet (s := { s with turns := (taskOrder s.turns lists).2 }) h n (taskOrder s.turns lists).1
  simp only [deliver, freeEvaluator]
  rw [hd]
  exact afterEvaluations_none (by simpa [foldl_runTask_frame] using ho)

/-! ### The take -/

/-- The state in which a request is handed to its owner when nothing arrives and no access fails (R146): posted by the host,
its slot TAKEN, the slots up to it examined, its ended-hold mark clear, the request in hand. -/
def State.handed (s : State) (slot : Slot) (tag : Half) (r : Request) : State :=
  { s with
    port :=
      { s.port with
        sweepNext := slot + 1
        sweepLeft := s.port.sweepLeft - ((slot - s.port.sweepNext).val + 1)
        inHand := some slot
        endedMarks := s.port.endedMarks.set slot.val false }
    hostMemory :=
      Memory.writeRun hostSize (post slot tag r s).hostMemory (s.slotAddress slot) [SlotState.taken.code]
    busLeft := none
    arrivals := []
    owed := [] }

theorem passOver_quiet {s : State} (hb : s.busLeft = none) (slot : Slot) : passOver s slot = s := by
  unfold passOver; split
  · rfl
  · exact busRead_quiet hb _ _

theorem foldl_passOver_quiet {s : State} (hb : s.busLeft = none) (slots : List Slot) : slots.foldl passOver s = s := by
  induction slots with
  | nil => rfl
  | cons x xs ih => rw [List.foldl_cons, passOver_quiet hb, ih]

theorem beginStep_quiet (s : State) : beginStep Env.quiet s = { s with busLeft := none, arrivals := [], owed := [] } := rfl

/-- A slot's bytes lie apart from another slot's state byte. -/
theorem slot_state_apart {base : Nat} {x slot : Slot} (h : x ≠ slot) {i : Nat} (hi : i < 128) :
    (base + 0x500 + 128 * x.val) % hostSize ≠ (base + 0x500 + 128 * slot.val + i) % hostSize := by
  intro e
  have hx := x.isLt
  have hs := slot.isLt
  have := Memory.run_injective (size := hostSize) (a := base) (i := 0x500 + 128 * x.val) (j := 0x500 + 128 * slot.val + i)
    (by unfold hostSize; omega) (by unfold hostSize; omega) (by simpa [Nat.add_assoc] using e)
  exact h (Fin.ext (by omega))

@[simp] theorem padTo_length (n : Nat) (bs : List Byte) : (padTo n bs).length = n := by
  simp [padTo]; omega

@[simp] theorem le_length (n v : Nat) : (le n v).length = n := by
  induction n generalizing v with
  | zero => rfl
  | succ n ih => simp [le, ih]

/-- Posting a request leaves every other slot posted or not as it was. -/
theorem isPosted_post (s : State) (slot x : Slot) (tag : Half) (r : Request) (h : x ≠ slot) :
    (post slot tag r s).isPosted x = s.isPosted x := by
  have ha : (post slot tag r s).slotAddress x = s.slotAddress x := rfl
  simp only [State.isPosted, ha]
  congr 1
  simp only [post, State.slotAddress]
  rw [Memory.read_writeRun_other fun i hi => slot_state_apart h (by simp at hi; omega),
    Memory.read_writeRun_other fun i hi => by
      have := slot_state_apart (base := s.areaAddress) h (i := 8 + i) (by simp at hi; omega)
      simpa [Nat.add_assoc] using this]

theorem mem_slotsBefore_ne {s : State} {slot x : Slot} (h : x ∈ s.slotsBefore slot) : x ≠ slot := by
  simp only [State.slotsBefore, State.sweepDistance, List.mem_map, List.mem_range] at h
  obtain ⟨i, hi, rfl⟩ := h
  intro e
  rw [← e] at hi
  have h1 : (s.port.sweepNext + Fin.ofNat 32 i - s.port.sweepNext) = Fin.ofNat 32 i := by
    rw [add_sub_cancel_left]
  rw [h1] at hi
  have : (Fin.ofNat 32 i : Fin 32).val ≤ i := by simp; exact Nat.mod_le _ _
  omega

/-- Whether a slot is next in turn does not depend on what is posted in that slot itself. -/
theorem takesNext_post (s : State) (slot : Slot) (tag : Half) (r : Request) :
    (post slot tag r s).takesNext slot = s.takesNext slot := by
  have hb : (post slot tag r s).slotsBefore slot = s.slotsBefore slot := rfl
  have hall : ((s.slotsBefore slot).all fun x => (post slot tag r s).isHeld x || !(post slot tag r s).isPosted x) =
      (s.slotsBefore slot).all fun x => s.isHeld x || !s.isPosted x := by
    rw [Bool.eq_iff_iff]
    simp only [List.all_eq_true]
    refine forall₂_congr fun x hx => ?_
    rw [isPosted_post s slot x tag r (mem_slotsBefore_ne hx)]
    rfl
  unfold State.takesNext
  rw [hb, hall]
  rfl

/-- On a bus that does not fail the reading of the arguments changes nothing. -/
theorem readArguments_quiet {s : State} (hb : s.busLeft = none) (slot : Slot) (ranges : List (Nat × Nat)) :
    readArguments slot ranges s = s := by
  unfold readArguments
  induction ranges with
  | nil => rfl
  | cons r ranges ih => rw [List.foldl_cons, busRead_quiet hb, ih]

/-- The take of a slot that is next in turn, with no failing access. -/
theorem takeSlot_quiet {s : State} (hb : s.busLeft = none) (hst : s.port.state = .sweeping) (slot : Slot)
    (ranges : List (Nat × Nat)) :
    takeSlot slot ranges s =
      { s with
        port :=
          { s.port with
            sweepNext := slot + 1
            sweepLeft := s.port.sweepLeft - ((slot - s.port.sweepNext).val + 1)
            inHand := some slot
            endedMarks := s.port.endedMarks.set slot.val false }
        hostMemory := Memory.writeRun hostSize s.hostMemory (s.slotAddress slot) [SlotState.taken.code] } := by
  simp only [takeSlot]
  rw [foldl_passOver_quiet hb, busRead_quiet hb, if_pos (by exact hst)]
  rw [busWrite_quiet (s := setInHand slot (examined slot (s.sweepDistance slot + 1) s)) (by exact hb)
    (by simp [hst, PortState.writes])]
  rw [busRead_quiet (by exact hb) (s.slotAddress slot + 1), readArguments_quiet (by exact hb)]
  rfl

/-- A request command with nothing arriving and no failing access, when its slot is next in turn: the owner acts on the state
it is handed, the sweep goes on or ends, and the step ends. -/
theorem requestStep_quiet {s : State} {slot : Slot} (h : s.isNext slot) (tag : Half) (r : Request)
    (owner : State → State → State) :
    requestStep slot tag r Env.quiet owner s =
      endStep (endSweep (owner (s.handed slot tag r) (s.handed slot tag r))) := by
  have hn : (post slot tag r (beginStep Env.quiet s)).takesNext slot = true := by
    rw [takesNext_post]; exact h
  have hst : s.port.state = .sweeping := by
    have := h
    simp only [State.isNext, State.takesNext, Bool.and_eq_true, beq_iff_eq] at this
    exact this.1.1.1
  simp only [requestStep, hn, if_true, carryOut]
  rw [takeSlot_quiet (s := post slot tag r (beginStep Env.quiet s)) rfl (by exact hst)]
  have e : ({ post slot tag r (beginStep Env.quiet s) with
        port :=
          { (post slot tag r (beginStep Env.quiet s)).port with
            sweepNext := slot + 1
            sweepLeft :=
              (post slot tag r (beginStep Env.quiet s)).port.sweepLeft -
                ((slot - (post slot tag r (beginStep Env.quiet s)).port.sweepNext).val + 1)
            inHand := some slot
            endedMarks := (post slot tag r (beginStep Env.quiet s)).port.endedMarks.set slot.val false }
        hostMemory :=
          Memory.writeRun hostSize (post slot tag r (beginStep Env.quiet s)).hostMemory
            ((post slot tag r (beginStep Env.quiet s)).slotAddress slot) [SlotState.taken.code] } : State) =
      s.handed slot tag r := rfl
  rw [e, pollAll_quiet rfl]
  simp [State.hasInHand, State.handed]

end Sys2Proof.Machine
end

