-- ==== Sys2Proof/Laws/Delivery.lean ====
section
/-! SUPPORT. What the host finds in its memory, followed write by write: `Progress s u` says what a step begun in `s` has
written by the time it stands at `u`. -/

namespace Sys2Proof.Machine

/-- Two ranges of one area that do not overlap stay apart in the address space. -/
theorem area_apart {base o n o' n' : Nat} (hd : o + n ≤ o' ∨ o' + n' ≤ o) (h : o + n ≤ hostSize) (h' : o' + n' ≤ hostSize)
    {i j : Nat} (hi : i < n) (hj : j < n') : (base + o + i) % hostSize ≠ (base + o' + j) % hostSize := by
  intro e
  have := Memory.run_injective (size := hostSize) (a := base) (i := o + i) (j := o' + j) (by omega) (by omega)
    (by simpa [Nat.add_assoc] using e)
  omega

/-- The bytes of a run after a write that lies apart from it in the area. -/
theorem readRun_area {base o n o' : Nat} {m : Memory} {bs : List Byte} (hd : o + n ≤ o' ∨ o' + bs.length ≤ o)
    (h : o + n ≤ hostSize) (h' : o' + bs.length ≤ hostSize) :
    Memory.readRun hostSize (Memory.writeRun hostSize m (base + o') bs) (base + o) n =
      Memory.readRun hostSize m (base + o) n :=
  Memory.readRun_writeRun_other fun _ hi _ hj => area_apart hd h h' hi hj

/-! ### Lengths of the records written -/

@[simp] theorem zeros_length (n : Nat) : (zeros n).length = n := by simp [zeros]

@[simp] theorem ringMirror_length (p : Fin 64) (q : Half) : (ringMirror p q).length = 4 := by simp [ringMirror]

@[simp] theorem notice_length (n : Notice) (q : Half) (c : Nat) : (n.bytes q c).length = 16 := by
  simp [Notice.bytes]

@[simp] theorem runMirror_length (s : State) : s.runMirror.length = 16 := by simp [State.runMirror]

@[simp] theorem clockMirror_length (c : Clock) : c.mirror.length = 16 := by simp [Clock.mirror]

@[simp] theorem image_length (d : Descriptor) : d.image.length = 16 := by simp [Descriptor.image]

/-! ### The ring -/

theorem ringSlot_val (p : Port) (i : Nat) : (p.ringSlot i).val = (p.writePosition.val + i) % 64 := by
  simp [Port.ringSlot, Fin.val_add]

/-- Two notices written since a state stand in different ring slots, if there are at most 64 of them. -/
theorem ringSlot_ne {p : Port} {i j : Nat} (hi : i < 64) (hj : j < 64) (h : i ≠ j) :
    (p.ringSlot i).val ≠ (p.ringSlot j).val := by
  rw [ringSlot_val, ringSlot_val]; omega

theorem room_le (p : Port) (n : Nat) : p.room n ≤ 64 := by simp only [Port.room]; omega

theorem room_succ_room {p : Port} {n : Nat} (h : p.noticeCount + n < 64) : p.room (n + 1) = n + 1 ∧ p.room n = n := by
  simp only [Port.room]; omega

theorem room_succ_full {p : Port} {n : Nat} (h : 64 ≤ p.noticeCount + n) : p.room (n + 1) = p.room n := by
  simp only [Port.room]; omega

/-! ### Progress -/

/-- What a step begun in `s` has written to host memory by the time it stands at `u`, no access having failed: the notices
`ns` offered so far, the header parts `mirrors`, and nothing else outside `ranges`. -/
structure Progress (s u : State) (ranges : List (Nat × Nat)) (ns : List Notice) (mirrors : List (Nat × List Byte)) :
    Prop where
  canonical : Memory.wf u.hostMemory = true
  area : u.port.areaBase = s.port.areaBase
  position : u.port.writePosition = (s.port.offered ns.length).writePosition
  sequence : u.port.nextSequence = (s.port.offered ns.length).nextSequence
  count : u.port.noticeCount = (s.port.offered ns.length).noticeCount
  ring : s.RingShows u ns
  header : ∀ m ∈ mirrors, u.shows (s.areaAddress + m.1) m.2
  others :
    s.writesOnly u (ranges ++ s.ringRanges ns.length ++ mirrors.map fun m => (s.areaAddress + m.1, m.2.length))

theorem Progress.areaAddress {s u : State} {rs ns ms} (h : Progress s u rs ns ms) : u.areaAddress = s.areaAddress := by
  simp [State.areaAddress, h.area]

theorem Progress.slotAddress {s u : State} {rs ns ms} (h : Progress s u rs ns ms) (slot : Slot) :
    u.slotAddress slot = s.slotAddress slot := by
  simp [State.slotAddress, h.areaAddress]

theorem Progress.ringAddress {s u : State} {rs ns ms} (h : Progress s u rs ns ms) (i : Fin 64) :
    u.ringAddress i = s.ringAddress i := by
  simp [State.ringAddress, h.areaAddress]

/-- Nothing written yet. -/
theorem progress_refl {s : State} (h : Memory.wf s.hostMemory = true) : Progress s s [] [] [] where
  canonical := h
  area := rfl
  position := by simp
  sequence := by simp
  count := by simp
  ring := ⟨by simp [Port.room], by simp [Port.room]⟩
  header := by simp
  others := fun x _ => rfl

/-- Any change that touches neither host memory nor the ring nor the clock count keeps the progress. -/
theorem Progress.change {s u v : State} {rs ns ms} (h : Progress s u rs ns ms) (hm : v.hostMemory = u.hostMemory)
    (ha : v.port.areaBase = u.port.areaBase) (hp : v.port.writePosition = u.port.writePosition)
    (hq : v.port.nextSequence = u.port.nextSequence) (hc : v.port.noticeCount = u.port.noticeCount)
    (hn : ns = [] ∨ v.clockCount = u.clockCount) : Progress s v rs ns ms where
  canonical := by rw [hm]; exact h.canonical
  area := by rw [ha]; exact h.area
  position := by rw [hp]; exact h.position
  sequence := by rw [hq]; exact h.sequence
  count := by rw [hc]; exact h.count
  ring := by
    constructor
    · intro i hi n hin
      rcases hn with rfl | hn
      · simp at hin
      · have := h.ring.notices i hi n hin
        simpa [State.shows, State.hostBytes, hm, hn] using this
    · intro h0
      have := h.ring.header h0
      simpa [State.shows, State.hostBytes, hm] using this
  header := by
    intro m hmm
    have := h.header m hmm
    simpa [State.shows, State.hostBytes, hm] using this
  others := by
    intro x hx
    rw [hm]
    exact h.others x hx

/-- A run of bytes written inside the slots (500h..14FFh), which no notice and no header part overlaps. -/
theorem Progress.write {s u : State} {rs ns} {ms : List (Nat × List Byte)} (h : Progress s u rs ns ms) {o : Nat}
    {bs : List Byte} (ho : 0x500 ≤ o) (ho' : o + bs.length ≤ 0x1500) (hms : ∀ m ∈ ms, m.1 + m.2.length ≤ 0x100) :
    Progress s { u with hostMemory := Memory.writeRun hostSize u.hostMemory (s.areaAddress + o) bs }
      ((s.areaAddress + o, bs.length) :: rs) ns ms where
  canonical := Memory.wf_writeRun h.canonical
  area := h.area
  position := h.position
  sequence := h.sequence
  count := h.count
  ring := by
    constructor
    · intro i hi n hin
      have hp := (s.port.ringSlot i).isLt
      have := h.ring.notices i hi n hin
      simp only [State.shows, State.hostBytes, State.ringAddress] at this ⊢
      rw [show s.areaAddress + 0x100 + 16 * (s.port.ringSlot i).val = s.areaAddress + (0x100 + 16 * (s.port.ringSlot i).val) by omega] at this ⊢
      rw [readRun_area (.inl (by simp; omega)) (by simp [hostSize]; omega) (by simp [hostSize]; omega)]
      exact this
    · intro h0
      have := h.ring.header h0
      simp only [State.shows, State.hostBytes] at this ⊢
      rw [readRun_area (.inl (by simp; omega)) (by simp [hostSize]) (by simp [hostSize]; omega)]
      exact this
  header := by
    intro m hm
    have := h.header m hm
    have := hms m hm
    simp only [State.shows, State.hostBytes] at *
    rw [readRun_area (.inl (by omega)) (by simp [hostSize]; omega) (by simp [hostSize]; omega)]
    assumption
  others := by
    intro x hx
    rw [Memory.read_writeRun_other fun i hi => ?_]
    · exact h.others x fun r hr => hx r (by simp at hr ⊢; tauto)
    · exact hx (s.areaAddress + o, bs.length) (by simp) i hi

/-- Bytes shown in the slots stay shown through a write elsewhere in the area. -/
theorem shows_write {u : State} {base o o' : Nat} {bs bs' : List Byte} (h : u.shows (base + o) bs)
    (hd : o + bs.length ≤ o' ∨ o' + bs'.length ≤ o) (ho : o + bs.length ≤ 0x1500) (ho' : o' + bs'.length ≤ 0x1500) :
    State.shows { u with hostMemory := Memory.writeRun hostSize u.hostMemory (base + o') bs' } (base + o) bs := by
  simp only [State.shows, State.hostBytes] at *
  rw [readRun_area hd (by simp [hostSize]; omega) (by simp [hostSize]; omega)]
  exact h

/-- Bytes just written are shown. -/
theorem shows_written {u : State} (h : Memory.wf u.hostMemory = true) {a : Nat} {bs : List Byte}
    (hl : bs.length ≤ 0x1500) :
    State.shows { u with hostMemory := Memory.writeRun hostSize u.hostMemory a bs } a bs :=
  Memory.readRun_writeRun_same h (by simp [hostSize]; omega)

/-- A header part rewritten (offsets 0Ch..FFh). A part rewritten twice is shown as it was written last. -/
theorem Progress.mirror {s u : State} {rs ns} {ms : List (Nat × List Byte)} (h : Progress s u rs ns ms) {o : Nat}
    {bs : List Byte} (ho : 0x0C ≤ o) (ho' : o + bs.length ≤ 0x100)
    (hms : ∀ m ∈ ms, m.1 + m.2.length ≤ o ∨ o + bs.length ≤ m.1 ∧ m.1 + m.2.length ≤ 0x100) :
    Progress s { u with hostMemory := Memory.writeRun hostSize u.hostMemory (s.areaAddress + o) bs } rs ns
      (ms ++ [(o, bs)]) where
  canonical := Memory.wf_writeRun h.canonical
  area := h.area
  position := h.position
  sequence := h.sequence
  count := h.count
  ring := by
    constructor
    · intro i hi n hin
      have hp := (s.port.ringSlot i).isLt
      have := h.ring.notices i hi n hin
      simp only [State.shows, State.hostBytes, State.ringAddress] at this ⊢
      rw [show s.areaAddress + 0x100 + 16 * (s.port.ringSlot i).val = s.areaAddress + (0x100 + 16 * (s.port.ringSlot i).val) by omega] at this ⊢
      rw [readRun_area (.inr (by omega)) (by simp [hostSize]; omega) (by simp [hostSize]; omega)]
      exact this
    · intro h0
      have := h.ring.header h0
      simp only [State.shows, State.hostBytes] at this ⊢
      rw [readRun_area (.inl (by simp; omega)) (by simp [hostSize]) (by simp [hostSize]; omega)]
      exact this
  header := by
    intro m hm
    rcases List.mem_append.mp hm with hm | hm
    · have h1 := h.header m hm
      have h2 := hms m hm
      simp only [State.shows, State.hostBytes] at *
      rw [readRun_area (by omega) (by simp [hostSize]; omega) (by simp [hostSize]; omega)]
      assumption
    · obtain rfl := List.mem_singleton.mp hm
      exact shows_written h.canonical (by omega)
  others := by
    intro x hx
    rw [Memory.read_writeRun_other fun i hi => ?_]
    · exact h.others x fun r hr => hx r (by
        rw [List.map_append, ← List.append_assoc]
        exact List.mem_append_left _ hr)
    · exact hx (s.areaAddress + o, bs.length) (by simp) i hi

/-- Bytes shown in the slots (500h..14FFh) stay shown when a notice is offered. -/
theorem shows_notice {u : State} {o : Nat} {bs : List Byte} (n : Notice) (h : u.shows (u.areaAddress + o) bs)
    (ho : 0x500 ≤ o) (ho' : o + bs.length ≤ 0x1500) :
    State.shows { u with hostMemory := u.noticeMemory n } (u.areaAddress + o) bs := by
  have hp := u.port.writePosition.isLt
  simp only [State.shows, State.hostBytes, State.noticeMemory, State.ringAddress] at *
  split
  · exact h
  · rw [readRun_area (.inr (by simp; omega)) (by simp [hostSize]; omega) (by simp [hostSize])]
    rw [show u.areaAddress + 0x100 + 16 * u.port.writePosition.val = u.areaAddress + (0x100 + 16 * u.port.writePosition.val) by omega]
    rw [readRun_area (.inr (by simp; omega)) (by simp [hostSize]; omega) (by simp [hostSize]; omega)]
    exact h

/-- Host memory after a notice that finds room, in terms of the state the step began in. -/
theorem Progress.noticeMemory {s u : State} {rs ns} {ms : List (Nat × List Byte)} (h : Progress s u rs ns ms) (n : Notice)
    (hlt : s.port.noticeCount + ns.length < 64) :
    u.noticeMemory n =
      Memory.writeRun hostSize
        (Memory.writeRun hostSize u.hostMemory (s.areaAddress + (0x100 + 16 * (s.port.ringSlot ns.length).val))
          (n.bytes (s.port.sequence ns.length) u.clockCount))
        (s.areaAddress + 0x08) (ringMirror (s.port.ringSlot (ns.length + 1)) (s.port.sequence (ns.length + 1))) := by
  obtain ⟨-, hr0⟩ := room_succ_room hlt
  have hwp : u.port.writePosition = s.port.ringSlot ns.length := by rw [h.position]; simp [Port.offered, hr0]
  have hsq : u.port.nextSequence = s.port.sequence ns.length := by rw [h.sequence]; simp [Port.offered, hr0]
  have hwp1 : s.port.ringSlot ns.length + 1 = s.port.ringSlot (ns.length + 1) := by
    apply Fin.ext; rw [Fin.val_add, ringSlot_val, ringSlot_val]; simp; omega
  have hsq1 : s.port.sequence ns.length + 1 = s.port.sequence (ns.length + 1) := by
    rw [Port.sequence, Port.sequence, BitVec.ofNat_add, BitVec.add_assoc]; rfl
  have hc : ¬ 64 ≤ u.port.noticeCount := by
    rw [h.count]; simp only [Port.offered, hr0]; omega
  simp only [State.noticeMemory, if_neg hc, State.ringAddress, h.areaAddress, hwp, hsq, hwp1, hsq1, Nat.add_assoc]

/-- A ring slot's bytes lie apart from the ring fields of the header. -/
theorem ring_header_apart {base : Nat} {m : Memory} {p : Fin 64} {bs : List Byte} (h : bs.length = 4) :
    Memory.readRun hostSize (Memory.writeRun hostSize m (base + 0x08) bs) (base + (0x100 + 16 * p.val)) 16 =
      Memory.readRun hostSize m (base + (0x100 + 16 * p.val)) 16 := by
  have hp := p.isLt
  exact readRun_area (.inr (by omega)) (by simp [hostSize]; omega) (by simp [hostSize]; omega)

/-- Two ring slots lie apart. -/
theorem ring_ring_apart {base : Nat} {m : Memory} {p q : Fin 64} {bs : List Byte} (h : bs.length = 16) (hpq : p.val ≠ q.val) :
    Memory.readRun hostSize (Memory.writeRun hostSize m (base + (0x100 + 16 * q.val)) bs) (base + (0x100 + 16 * p.val)) 16 =
      Memory.readRun hostSize m (base + (0x100 + 16 * p.val)) 16 := by
  have hp := p.isLt
  have hq := q.isLt
  exact readRun_area (by omega) (by simp [hostSize]; omega) (by simp [hostSize]; omega)

/-- A header part lies apart from the ring slots and from the ring fields of the header. -/
theorem part_apart {base o n : Nat} {m : Memory} {q : Fin 64} {bs bs' : List Byte} (h : bs.length = 16) (h' : bs'.length = 4)
    (ho : 0x0C ≤ o) (ho' : o + n ≤ 0x100) :
    Memory.readRun hostSize
        (Memory.writeRun hostSize (Memory.writeRun hostSize m (base + (0x100 + 16 * q.val)) bs) (base + 0x08) bs')
        (base + o) n =
      Memory.readRun hostSize m (base + o) n := by
  have hq := q.isLt
  rw [readRun_area (.inr (by omega)) (by simp [hostSize]; omega) (by simp [hostSize]; omega),
    readRun_area (.inl (by omega)) (by simp [hostSize]; omega) (by simp [hostSize]; omega)]

/-- The ring after a notice that finds room. -/
theorem Progress.ringShows_room {s u : State} {rs ns} {ms : List (Nat × List Byte)} (h : Progress s u rs ns ms) (n : Notice)
    (hlt : s.port.noticeCount + ns.length < 64) (p : Port) :
    s.RingShows { u with port := p, hostMemory := u.noticeMemory n } (ns ++ [n]) := by
  obtain ⟨hr1, hr0⟩ := room_succ_room hlt
  have hlen : (ns ++ [n]).length = ns.length + 1 := by simp
  constructor
  · intro i hi k hk
    rw [hlen, hr1] at hi
    simp only [State.shows, State.hostBytes, h.noticeMemory n hlt, State.ringAddress, notice_length, Nat.add_assoc]
    rw [ring_header_apart (by simp)]
    by_cases hin : i = ns.length
    · subst hin
      rw [List.getElem?_append_right (le_refl _)] at hk
      simp only [Nat.sub_self, List.getElem?_cons_zero, Option.some.injEq] at hk
      subst hk
      have := Memory.readRun_writeRun_same (size := hostSize) (a := s.areaAddress + (0x100 + 16 * (s.port.ringSlot ns.length).val))
        (bs := n.bytes (s.port.sequence ns.length) u.clockCount) h.canonical (by simp [hostSize])
      rwa [notice_length] at this
    · rw [List.getElem?_append_left (by omega)] at hk
      have := h.ring.notices i (by omega) k hk
      simp only [State.shows, State.hostBytes, State.ringAddress, notice_length, Nat.add_assoc] at this
      rw [ring_ring_apart (by simp) (ringSlot_ne (by omega) (by omega) hin)]
      exact this
  · intro _
    rw [hlen, hr1]
    simp only [State.shows, State.hostBytes, h.noticeMemory n hlt]
    exact Memory.readRun_writeRun_same (Memory.wf_writeRun h.canonical) (by simp [hostSize])

/-- The bytes outside the ranges after a notice that finds room. -/
theorem Progress.others_room {s u : State} {rs ns} {ms : List (Nat × List Byte)} (h : Progress s u rs ns ms) (n : Notice)
    (hlt : s.port.noticeCount + ns.length < 64) (p : Port) :
    s.writesOnly { u with port := p, hostMemory := u.noticeMemory n }
      (rs ++ s.ringRanges (ns ++ [n]).length ++ ms.map fun m => (s.areaAddress + m.1, m.2.length)) := by
  obtain ⟨hr1, hr0⟩ := room_succ_room hlt
  have hrange : s.ringRanges (ns ++ [n]).length =
      (s.areaAddress + 0x08, 4) :: (List.range (ns.length + 1)).map fun i => (s.ringAddress (s.port.ringSlot i), 16) := by
    simp [State.ringRanges, hr1]
  intro x hx
  rw [hrange] at hx
  show Memory.read (u.noticeMemory n) x = _
  rw [h.noticeMemory n hlt, Memory.read_writeRun_other fun i hi => ?_, Memory.read_writeRun_other fun i hi => ?_]
  · refine h.others x fun r hr => hx r ?_
    simp only [List.mem_append] at hr ⊢
    rcases hr with (hr | hr) | hr
    · exact .inl (.inl hr)
    · left; right
      simp only [State.ringRanges, hr0] at hr
      split at hr
      · simp at hr
      · simp only [List.mem_cons, List.mem_map, List.mem_range] at hr ⊢
        rcases hr with hr | ⟨i, hi, hr⟩
        · exact .inl hr
        · exact .inr ⟨i, by omega, hr⟩
    · exact .inr hr
  · have hmem : (s.ringAddress (s.port.ringSlot ns.length), 16) ∈
        rs ++ ((s.areaAddress + 0x08, 4) ::
          (List.range (ns.length + 1)).map fun i => (s.ringAddress (s.port.ringSlot i), 16))
          ++ ms.map fun m => (s.areaAddress + m.1, m.2.length) := by
      refine List.mem_append_left _ (List.mem_append_right _ (List.mem_cons_of_mem _ ?_))
      exact List.mem_map.mpr ⟨ns.length, List.mem_range.mpr (by omega), rfl⟩
    have := hx _ hmem i (by simpa using hi)
    simpa only [State.ringAddress, Nat.add_assoc] using this
  · exact hx (s.areaAddress + 0x08, 4) (List.mem_append_left _ (List.mem_append_right _ (List.mem_cons_self ..))) i
      (by simpa using hi)

/-- A notice offered in IDLE or SWEEPING (R153). -/
theorem Progress.notice {s u : State} {rs ns} {ms : List (Nat × List Byte)} (h : Progress s u rs ns ms) (n : Notice)
    (hms : ∀ m ∈ ms, 0x0C ≤ m.1 ∧ m.1 + m.2.length ≤ 0x100) :
    Progress s { u with port := u.port.offered 1, hostMemory := u.noticeMemory n } rs (ns ++ [n]) ms := by
  have e : ∀ (v : Port), v.noticeCount = u.port.noticeCount → v.writePosition = u.port.writePosition →
      v.nextSequence = u.port.nextSequence →
      (v.offered 1).writePosition = (u.port.offered 1).writePosition ∧
      (v.offered 1).nextSequence = (u.port.offered 1).nextSequence ∧
      (v.offered 1).noticeCount = (u.port.offered 1).noticeCount := by
    intro v h1 h2 h3
    simp [Port.offered, Port.room, Port.ringSlot, Port.sequence, h1, h2, h3]
  have e' := e (s.port.offered ns.length) h.count.symm h.position.symm h.sequence.symm
  rw [offered_offered] at e'
  have hlen : (ns ++ [n]).length = ns.length + 1 := by simp
  by_cases hfull : 64 ≤ s.port.noticeCount + ns.length
  · have hroom : s.port.room (ns.length + 1) = s.port.room ns.length := room_succ_full hfull
    have hc : 64 ≤ u.port.noticeCount := by
      rw [h.count]; simp only [Port.offered, Port.room]; omega
    have hnm : u.noticeMemory n = u.hostMemory := by simp [State.noticeMemory, hc]
    have hrm : s.port.room ns.length ≤ ns.length := by simp only [Port.room]; omega
    refine ⟨by rw [hnm]; exact h.canonical, h.area, ?_, ?_, ?_, ⟨?_, ?_⟩, ?_, ?_⟩
    · rw [hlen]; exact e'.1.symm
    · rw [hlen]; exact e'.2.1.symm
    · rw [hlen]; exact e'.2.2.symm
    · intro i hi k hk
      rw [hlen, hroom] at hi
      rw [List.getElem?_append_left (by omega)] at hk
      have := h.ring.notices i hi k hk
      simp only [State.shows, State.hostBytes, hnm] at this ⊢
      exact this
    · rw [hlen, hroom]
      intro h0
      have := h.ring.header h0
      simp only [State.shows, State.hostBytes, hnm] at this ⊢
      exact this
    · intro m hm
      have := h.header m hm
      simp only [State.shows, State.hostBytes, hnm] at this ⊢
      exact this
    · intro x hx
      show Memory.read (u.noticeMemory n) x = _
      rw [hnm]
      refine h.others x fun r hr => hx r ?_
      rw [hlen]
      simpa [State.ringRanges, hroom] using hr
  · have hlt : s.port.noticeCount + ns.length < 64 := by omega
    refine ⟨?_, h.area, ?_, ?_, ?_, h.ringShows_room n hlt _, ?_, h.others_room n hlt _⟩
    · show Memory.wf (u.noticeMemory n) = true
      rw [h.noticeMemory n hlt]; exact Memory.wf_writeRun (Memory.wf_writeRun h.canonical)
    · rw [hlen]; exact e'.1.symm
    · rw [hlen]; exact e'.2.1.symm
    · rw [hlen]; exact e'.2.2.symm
    · intro m hm
      have h1 := h.header m hm
      have h2 := hms m hm
      simp only [State.shows, State.hostBytes, h.noticeMemory n hlt] at *
      rw [part_apart (by simp) (by simp) h2.1 h2.2]
      exact h1

/-! ### Several held inspections ended by one event -/

theorem State.inspected_eq (s : State) (h : Hold) : s.inspected h = { s with roster := (s.inspected h).roster } := by
  unfold State.inspected
  split <;> rfl

@[simp] theorem State.inspectedAll_nil (s : State) : s.inspectedAll [] = s := rfl
@[simp] theorem State.inspectedAll_cons (s : State) (h : Hold) (hs : List Hold) :
    s.inspectedAll (h :: hs) = (s.inspected h).inspectedAll hs := rfl

/-- The evaluations of held inspections change the roster and nothing else of the state. -/
theorem State.inspectedAll_eq (s : State) (hs : List Hold) :
    s.inspectedAll hs = { s with roster := (s.inspectedAll hs).roster } := by
  induction hs generalizing s with
  | nil => rfl
  | cons h hs ih => rw [State.inspectedAll_cons, ih, State.inspected_eq]

@[simp] theorem Port.holdsEnded_nil (p : Port) : p.holdsEnded [] = p := rfl
@[simp] theorem Port.holdsEnded_cons (p : Port) (h : Hold) (hs : List Hold) :
    p.holdsEnded (h :: hs) = (p.holdEnded h.slot).holdsEnded hs := rfl

/-- The holds that leave the list change the list and the ended-hold marks and nothing else of the port. -/
theorem Port.holdsEnded_eq (p : Port) (hs : List Hold) :
    p.holdsEnded hs =
      { p with
        holds := p.holds.filter fun h => hs.all fun g => h.slot != g.slot
        endedMarks := (p.holdsEnded hs).endedMarks } := by
  induction hs generalizing p with
  | nil => simp
  | cons h hs ih =>
    rw [Port.holdsEnded_cons, ih]
    simp [Port.holdEnded, List.filter_filter, Bool.and_comm]

@[simp] theorem answeredNotices_length (hs : List Hold) : (answeredNotices hs).length = hs.length := by
  simp [answeredNotices]

end Sys2Proof.Machine
end

