-- ==== Sys2Proof/Laws/Requests.lean ====
section
/-! SUPPORT. A request from its take to its answer or its hold, with nothing arriving and no access failing: `Working` is what
holds of the state while the owner acts, and two lemmas say what the step leaves. -/

namespace Sys2Proof.Machine

theorem isNext_sweeping {s : State} {slot : Slot} (h : s.isNext slot) : s.port.state = .sweeping := by
  simp only [State.isNext, State.takesNext, Bool.and_eq_true, beq_iff_eq] at h
  exact h.1.1.1

theorem isNext_not_held {s : State} {slot : Slot} (h : s.isNext slot) : s.isHeld slot = false := by
  simp only [State.isNext, State.takesNext, Bool.and_eq_true, Bool.not_eq_true'] at h
  exact h.1.2

/-- What holds of the state `u` while the owner of a request taken in `s` acts: the request is in hand, the slot shows it
TAKEN, `ns` were offered and `ms` rewritten. `u.port` may differ from the port at the take in its holds and marks too. -/
structure Working (s u : State) (slot : Slot) (tag : Half) (r : Request) (ns : List Notice) (ms : List (Nat × List Byte)) :
    Prop where
  bus : u.busLeft = none
  arrivals : u.arrivals = []
  sweeping : u.port.state = .sweeping
  inHand : u.port.inHand = some slot
  progress : Progress s u [(s.slotAddress slot, 4), (s.slotAddress slot + 8, 64)] ns ms
  parts : ∀ m ∈ ms, 0x0C ≤ m.1 ∧ m.1 + m.2.length ≤ 0x100
  head : u.shows (s.slotAddress slot) ([SlotState.taken.code, r.kindByte] ++ le 2 tag.toNat)
  arguments : u.shows (s.slotAddress slot + 8) (padTo 64 r.argBytes)

theorem Working.writes {s u : State} {slot tag r ns ms} (h : Working s u slot tag r ns ms) : u.port.state.writes = true := by
  rw [h.sweeping]; rfl

/-- The offset of a slot in the area (9.3). -/
theorem slotAddress_eq (s : State) (slot : Slot) : s.slotAddress slot = s.areaAddress + (0x500 + 128 * slot.val) := by
  simp [State.slotAddress, Nat.add_assoc]

/-- The owner begins. -/
theorem working_handed {s : State} {slot : Slot} (hw : Memory.wf s.hostMemory = true) (h : s.isNext slot) (tag : Half)
    (r : Request) : Working s (s.handed slot tag r) slot tag r [] [] := by
  have hslot := slot.isLt
  have hmem : (s.handed slot tag r).hostMemory =
      Memory.writeRun hostSize
        (Memory.writeRun hostSize
          (Memory.writeRun hostSize s.hostMemory (s.areaAddress + (0x500 + 128 * slot.val + 8)) (padTo 64 r.argBytes))
          (s.areaAddress + (0x500 + 128 * slot.val)) ([SlotState.posted.code, r.kindByte] ++ le 2 tag.toNat))
        (s.areaAddress + (0x500 + 128 * slot.val)) [SlotState.taken.code] := by
    simp only [State.handed, post, State.slotAddress, Nat.add_assoc]
  have hwf1 := Memory.wf_writeRun (size := hostSize) (a := s.areaAddress + (0x500 + 128 * slot.val + 8))
    (bs := padTo 64 r.argBytes) hw
  have hwf2 := Memory.wf_writeRun (size := hostSize) (a := s.areaAddress + (0x500 + 128 * slot.val))
    (bs := [SlotState.posted.code, r.kindByte] ++ le 2 tag.toNat) hwf1
  refine ⟨rfl, rfl, show s.port.state = .sweeping from isNext_sweeping h, rfl, ⟨?_, rfl, ?_, ?_, ?_, ⟨?_, ?_⟩, ?_, ?_⟩, ?_, ?_, ?_⟩
  · rw [hmem]; exact Memory.wf_writeRun hwf2
  · simp [State.handed]
  · simp [State.handed]
  · simp [State.handed]
  · simp [Port.room]
  · simp [Port.room]
  · simp
  · intro x hx
    rw [hmem]
    simp only [slotAddress_eq] at hx
    rw [Memory.read_writeRun_other fun i hi => ?_, Memory.read_writeRun_other fun i hi => ?_,
      Memory.read_writeRun_other fun i hi => ?_]
    · have := hx (s.areaAddress + (0x500 + 128 * slot.val) + 8, 64) (by simp) i (by simpa using hi)
      simpa [Nat.add_assoc] using this
    · exact hx (s.areaAddress + (0x500 + 128 * slot.val), 4) (by simp) i (by simpa using hi)
    · exact hx (s.areaAddress + (0x500 + 128 * slot.val), 4) (by simp) i (by simp at hi; simp; omega)
  · simp
  · simp only [State.shows, State.hostBytes, hmem, slotAddress_eq]
    -- the state byte from the last write, the other three from the write before it
    refine List.ext_getElem (by simp) fun i h1 h2 => ?_
    simp only [Memory.readRun, List.getElem_map, List.getElem_range]
    simp only [List.length_append, List.length_cons, List.length_nil, le_length] at h2
    by_cases hi : i = 0
    · subst hi
      rw [Memory.read_writeRun_at (i := 0) hwf2 (by simp [hostSize]) (by simp)]
      rfl
    · rw [Memory.read_writeRun_other fun j hj e => ?_, Memory.read_writeRun_at hwf1 (by simp [hostSize]) (by simp; omega)]
      · obtain ⟨i, rfl⟩ := Nat.exists_eq_succ_of_ne_zero hi
        rfl
      · simp at hj
        subst hj
        have := Memory.run_injective (size := hostSize) (by unfold hostSize; omega) (by unfold hostSize; omega) e
        omega
  · simp only [State.shows, State.hostBytes, hmem, slotAddress_eq]
    rw [show s.areaAddress + (0x500 + 128 * slot.val) + 8 = s.areaAddress + (0x500 + 128 * slot.val + 8) by omega]
    rw [readRun_area (.inr (by simp)) (by simp [hostSize]; omega) (by simp [hostSize]; omega),
      readRun_area (.inr (by simp)) (by simp [hostSize]; omega) (by simp [hostSize]; omega)]
    exact Memory.readRun_writeRun_same hw (by simp [hostSize])

/-- A change of the owner's that touches neither host memory nor the port nor the clock count. -/
theorem Working.change {s u v : State} {slot tag r ns ms} (h : Working s u slot tag r ns ms)
    (hm : v.hostMemory = u.hostMemory) (hb : v.busLeft = u.busLeft) (ha : v.arrivals = u.arrivals) (hp : v.port = u.port)
    (hn : ns = [] ∨ v.clockCount = u.clockCount) : Working s v slot tag r ns ms where
  bus := by rw [hb]; exact h.bus
  arrivals := by rw [ha]; exact h.arrivals
  sweeping := by rw [hp]; exact h.sweeping
  inHand := by rw [hp]; exact h.inHand
  progress := h.progress.change hm (by rw [hp]) (by rw [hp]) (by rw [hp]) (by rw [hp]) hn
  parts := h.parts
  head := by have := h.head; simpa only [State.shows, State.hostBytes, hm] using this
  arguments := by have := h.arguments; simpa only [State.shows, State.hostBytes, hm] using this

/-- A notice offered by the owner. -/
theorem Working.notice {s u : State} {slot tag r ns ms} (h : Working s u slot tag r ns ms) (n : Notice) :
    Working s (appendNotice n u) slot tag r (ns ++ [n]) ms := by
  have hslot := slot.isLt
  rw [appendNotice_quiet h.bus h.writes]
  have ha := h.progress.areaAddress
  have hslots := slotAddress_eq s slot
  have h1 := h.head
  have h2 := h.arguments
  rw [hslots, ← ha] at h1 h2
  rw [Nat.add_assoc] at h2
  have h1' := shows_notice n h1 (by omega) (by simp; omega)
  have h2' := shows_notice n h2 (by omega) (by simp; omega)
  rw [← Nat.add_assoc] at h2'
  rw [ha, ← hslots] at h1' h2'
  exact ⟨h.bus, h.arrivals, h.sweeping, h.inHand, h.progress.notice n h.parts, h.parts, h1', h2'⟩

/-- A header part rewritten by the owner. -/
theorem Working.mirror {s u : State} {slot tag r ns ms} (h : Working s u slot tag r ns ms) {o : Nat} {bs : List Byte}
    (ho : 0x0C ≤ o) (ho' : o + bs.length ≤ 0x100) (hms : ∀ m ∈ ms, m.1 + m.2.length ≤ o ∨ o + bs.length ≤ m.1) :
    Working s (busWrite (u.areaAddress + o) bs u) slot tag r ns (ms ++ [(o, bs)]) := by
  have hslot := slot.isLt
  rw [busWrite_quiet h.bus h.writes, h.progress.areaAddress]
  have hslots := slotAddress_eq s slot
  have h1 := h.head
  have h2 := h.arguments
  rw [hslots] at h1 h2
  rw [Nat.add_assoc] at h2
  have h1' := shows_write (o' := o) (bs' := bs) h1 (by omega) (by simp; omega) (by omega)
  have h2' := shows_write (o' := o) (bs' := bs) h2 (by omega) (by simp; omega) (by omega)
  rw [← Nat.add_assoc] at h2'
  rw [← hslots] at h1' h2'
  refine ⟨h.bus, h.arrivals, h.sweeping, h.inHand, ?_, ?_, h1', h2'⟩
  · refine h.progress.mirror ho ho' fun m hm => ?_
    have := h.parts m hm
    rcases hms m hm with h | h
    · exact .inl h
    · exact .inr ⟨h, this.2⟩
  · intro m hm
    rcases List.mem_append.mp hm with hm | hm
    · exact h.parts m hm
    · obtain rfl := List.mem_singleton.mp hm
      exact ⟨ho, ho'⟩

/-- The end of a sweep and the fields the host sees of the port. -/
theorem endSweep_eq {s : State} (h : s.port.state = .sweeping) : endSweep s = { s with port := s.port.sweepEnded } := by
  unfold endSweep Port.sweepEnded
  by_cases hl : s.port.sweepLeft = 0
  · rw [if_pos ⟨h, hl⟩, if_pos hl]
    by_cases hg : s.port.sweepAgain = true
    · rw [if_pos hg, if_pos hg]
      simp only [startSweep, ← h]
    · rw [if_neg hg, if_neg hg]
  · rw [if_neg fun hc => hl hc.2, if_neg hl]

@[simp] theorem sweepEnded_areaBase (p : Port) : p.sweepEnded.areaBase = p.areaBase := by
  unfold Port.sweepEnded; split <;> [split; skip] <;> rfl

@[simp] theorem endStep_port (s : State) : (endStep s).port = s.port := by
  simp only [endStep, enterDoze]; split <;> rfl

@[simp] theorem endStep_hostMemory (s : State) : (endStep s).hostMemory = s.hostMemory := by
  simp only [endStep, enterDoze]; split <;> rfl

@[simp] theorem endStep_clock (s : State) : (endStep s).clock = s.clock := by
  simp only [endStep, enterDoze]; split <;> rfl

@[simp] theorem endStep_run (s : State) : (endStep s).run = s.run := by
  simp only [endStep, enterDoze]; split <;> rfl

@[simp] theorem endStep_roster (s : State) : (endStep s).roster = s.roster := by
  simp only [endStep, enterDoze]; split <;> rfl

@[simp] theorem endStep_tables (s : State) : (endStep s).tables = s.tables := by
  simp only [endStep, enterDoze]; split <;> rfl

@[simp] theorem requestDone_hostMemory (s : State) (slot : Slot) (n : Nat) (m : Memory) :
    (s.requestDone slot n m).hostMemory = m := by simp [State.requestDone]

@[simp] theorem requestDone_clock (s : State) (slot : Slot) (n : Nat) (m : Memory) :
    (s.requestDone slot n m).clock = s.clock := by simp [State.requestDone]

@[simp] theorem requestDone_areaBase (s : State) (slot : Slot) (n : Nat) (m : Memory) :
    (s.requestDone slot n m).port.areaBase = s.port.areaBase := by simp [State.requestDone, Port.swept]

/-- The answer of a request: what the step leaves, and what the host finds (R145 to R149). -/
theorem Working.answered {s u : State} {slot tag r ns ms} (h : Working s u slot tag r ns ms) (p : Port)
    (hp : { u.port with inHand := none, cursor := slot + 1 } = (p.swept slot).offered ns.length) (code : AnswerCode)
    (answer : List Byte) :
    ∃ m,
      endStep (endSweep (answerInHand slot tag code answer u)) =
          State.requestDone { u with port := p } slot (ns.length + 1) m ∧
        s.Delivered (State.requestDone { u with port := p } slot (ns.length + 1) m) slot tag r code answer ns ms := by
  have hslot := slot.isLt
  have hwr := h.writes
  rw [answerInHand_quiet h.bus h.arrivals hwr h.inHand, endSweep_eq (by exact h.sweeping)]
  refine ⟨State.noticeMemory { u with hostMemory := u.answerMemory slot code answer } (answeredNotice slot tag), ?_, ?_⟩
  · have : ({ u.port.offered 1 with inHand := none, cursor := slot + 1 } : Port) =
        (p.swept slot).offered (ns.length + 1) := by
      rw [← offered_offered, ← hp]; rfl
    simp only [State.requestDone, ← this]
  · -- the writes of the answer, one by one
    have hs := slotAddress_eq s slot
    have hus : u.slotAddress slot = s.slotAddress slot := h.progress.slotAddress slot
    set o := 0x500 + 128 * slot.val with ho
    have h1 := h.head
    have h2 := h.arguments
    rw [hs] at h1 h2
    -- outcome
    have p1 := h.progress.write (o := o + 4) (bs := [code.code]) (by omega) (by simp; omega)
      (fun m hm => (h.parts m hm).2)
    have h1a := shows_write (o' := o + 4) (bs' := [code.code]) h1 (by simp) (by simp; omega) (by simp; omega)
    rw [Nat.add_assoc] at h2
    have h2a := shows_write (o' := o + 4) (bs' := [code.code]) h2 (by simp) (by simp; omega) (by simp; omega)
    have h3a : State.shows { u with hostMemory := Memory.writeRun hostSize u.hostMemory (s.areaAddress + (o + 4)) [code.code] }
        (s.areaAddress + (o + 4)) [code.code] := shows_written h.progress.canonical (by simp)
    -- answer bytes
    have p2 := p1.write (o := o + 72) (bs := padTo 56 answer) (by omega) (by simp; omega) (fun m hm => (h.parts m hm).2)
    have h1b := shows_write (o' := o + 72) (bs' := padTo 56 answer) h1a (by simp) (by simp; omega) (by simp; omega)
    have h2b := shows_write (o' := o + 72) (bs' := padTo 56 answer) h2a (by simp) (by simp; omega) (by simp; omega)
    have h3b := shows_write (o' := o + 72) (bs' := padTo 56 answer) h3a (by simp) (by simp; omega) (by simp; omega)
    have h4b := shows_written (u := { u with
      hostMemory := Memory.writeRun hostSize u.hostMemory (s.areaAddress + (o + 4)) [code.code] })
      (a := s.areaAddress + (o + 72)) (bs := padTo 56 answer) p1.canonical (by simp)
    -- state
    have p3 := p2.write (o := o) (bs := [SlotState.answered.code]) (by omega) (by simp; omega) (fun m hm => (h.parts m hm).2)
    have h2c := shows_write (o' := o) (bs' := [SlotState.answered.code]) h2b (by simp) (by simp; omega) (by simp; omega)
    have h3c := shows_write (o' := o) (bs' := [SlotState.answered.code]) h3b (by simp) (by simp; omega) (by simp; omega)
    have h4c := shows_write (o' := o) (bs' := [SlotState.answered.code]) h4b (by simp) (by simp; omega) (by simp; omega)
    set m3 := Memory.writeRun hostSize (Memory.writeRun hostSize (Memory.writeRun hostSize u.hostMemory
      (s.areaAddress + (o + 4)) [code.code]) (s.areaAddress + (o + 72)) (padTo 56 answer)) (s.areaAddress + o)
      [SlotState.answered.code] with hm3
    have hm3' : u.answerMemory slot code answer = m3 := by
      simp only [State.answerMemory, hus, hs, Nat.add_assoc, hm3]
    -- the head as it stands after the state byte: state, kind, tag, outcome
    have h1c : State.shows { u with hostMemory := m3 } (s.areaAddress + o)
        ([SlotState.answered.code, r.kindByte] ++ le 2 tag.toNat ++ [code.code]) := by
      simp only [State.shows, State.hostBytes] at h1b h3c ⊢
      refine List.ext_getElem (by simp) fun i hi1 hi2 => ?_
      simp only [Memory.readRun, List.getElem_map, List.getElem_range]
      simp only [List.length_append, List.length_cons, List.length_nil, le_length] at hi2
      by_cases hi : i = 0
      · subst hi
        rw [hm3, Memory.read_writeRun_at (i := 0) p2.canonical (by simp [hostSize]) (by simp)]
        rfl
      · by_cases hi4 : i = 4
        · subst hi4
          have := congrArg (fun l => l[0]?) h3c
          simp only [Memory.readRun, List.getElem?_map] at this
          simpa [le, Nat.add_assoc] using this
        · have hb := congrArg (fun l => l[i]?) h1b
          simp only [Memory.readRun, List.getElem?_map] at hb
          rw [hm3, Memory.read_writeRun_other fun j hj e => ?_]
          · rw [List.getElem?_range (by simp; omega)] at hb
            simp only [Option.map_some] at hb
            have hlt : i < 4 := by omega
            interval_cases i <;> simp_all [le]
          · simp at hj
            subst hj
            have := Memory.run_injective (size := hostSize) (by unfold hostSize; omega) (by unfold hostSize; omega) e
            omega
    -- the notice
    have p4 := p3.notice (answeredNotice slot tag) h.parts
    have hua : u.areaAddress = s.areaAddress := h.progress.areaAddress
    have n1 := shows_notice (u := { u with hostMemory := m3 }) (answeredNotice slot tag) (o := o)
      (by show State.shows { u with hostMemory := m3 } (u.areaAddress + o) _; rw [hua]; exact h1c) (by omega) (by simp; omega)
    have n2 := shows_notice (u := { u with hostMemory := m3 }) (answeredNotice slot tag) (o := o + 8)
      (by show State.shows { u with hostMemory := m3 } (u.areaAddress + (o + 8)) _; rw [hua]; exact h2c) (by omega) (by simp; omega)
    have n4 := shows_notice (u := { u with hostMemory := m3 }) (answeredNotice slot tag) (o := o + 72)
      (by show State.shows { u with hostMemory := m3 } (u.areaAddress + (o + 72)) _; rw [hua]; exact h4c) (by omega) (by simp; omega)
    have hua3 : State.areaAddress { u with hostMemory := m3 } = s.areaAddress := hua
    rw [hua3] at n1 n2 n4
    rw [hm3']
    have hmem := requestDone_hostMemory { u with port := p } slot (ns.length + 1)
      (State.noticeMemory { u with hostMemory := m3 } (answeredNotice slot tag))
    have hclock := requestDone_clock { u with port := p } slot (ns.length + 1)
      (State.noticeMemory { u with hostMemory := m3 } (answeredNotice slot tag))
    have hpa : p.areaBase = s.port.areaBase := by
      have := congrArg Port.areaBase hp
      simp only [Port.swept, Port.offered] at this
      rw [← this]; exact h.progress.area
    have haddr : (State.requestDone { u with port := p } slot (ns.length + 1)
        (State.noticeMemory { u with hostMemory := m3 } (answeredNotice slot tag))).areaAddress = s.areaAddress := by
      simp only [State.areaAddress, requestDone_areaBase, hpa]
    have hsaddr : (State.requestDone { u with port := p } slot (ns.length + 1)
        (State.noticeMemory { u with hostMemory := m3 } (answeredNotice slot tag))).slotAddress slot = s.slotAddress slot := by
      simp only [State.slotAddress, haddr]
    have hcc : (State.requestDone { u with port := p } slot (ns.length + 1)
        (State.noticeMemory { u with hostMemory := m3 } (answeredNotice slot tag))).clockCount = u.clockCount := by
      simp only [State.clockCount, hclock]
    generalize State.requestDone { u with port := p } slot (ns.length + 1)
        (State.noticeMemory { u with hostMemory := m3 } (answeredNotice slot tag)) = t at *
    refine ⟨⟨?_, ?_, ?_⟩, ⟨?_, ?_⟩, ?_, ?_⟩
    · simp only [State.shows, State.hostBytes, hmem, hsaddr, hs]
      exact n1
    · simp only [State.shows, State.hostBytes, hmem, hsaddr, hs, Nat.add_assoc]
      exact n2
    · simp only [State.shows, State.hostBytes, hmem, hsaddr, hs, Nat.add_assoc]
      exact n4
    · intro i hi k hk
      have := p4.ring.notices i hi k hk
      simp only [State.shows, State.hostBytes, hmem, hcc] at this ⊢
      exact this
    · intro h0
      have := p4.ring.header h0
      simp only [State.shows, State.hostBytes, hmem] at this ⊢
      exact this
    · intro m hm
      have := p4.header m hm
      simp only [State.shows, State.hostBytes, hmem] at this ⊢
      exact this
    · intro x hx
      rw [hmem]
      refine p4.others x fun q hq => ?_
      rw [hs] at hx
      simp only [List.mem_append, List.mem_cons, List.not_mem_nil, or_false] at hq hx
      have hx5 : ∀ i < 5, x ≠ (s.areaAddress + o + i) % hostSize := fun i hi =>
        hx (s.areaAddress + o, 5) (by simp) i hi
      have hx120 : ∀ i < 120, x ≠ (s.areaAddress + o + 8 + i) % hostSize := fun i hi =>
        hx (s.areaAddress + o + 8, 120) (by simp) i hi
      rcases hq with ((rfl | rfl | rfl | hq) | hq) | hq
      · intro i hi; exact hx5 i (by simp at hi; omega)
      · intro i hi
        simp at hi
        rw [show s.areaAddress + (o + 72) + i = s.areaAddress + o + 8 + (64 + i) by omega]
        exact hx120 (64 + i) (by omega)
      · intro i hi
        simp at hi
        subst hi
        simpa [Nat.add_assoc] using hx5 4 (by omega)
      · rw [hs] at hq
        rcases hq with rfl | rfl
        · intro i hi; exact hx5 i (by simp at hi; omega)
        · intro i hi; exact hx120 i (by simp at hi; omega)
      · exact hx q (by left; right; simpa using hq)
      · exact hx q (by right; exact hq)

/-- The hold of a request: what the step leaves, and what the host finds (R150). -/
theorem Working.held {s u : State} {slot tag r ms} (h : Working s u slot tag r [] ms) (p : Port)
    (hp : { u.port with inHand := none, cursor := slot + 1 } = p.swept slot) (hold : Hold) (hh : hold.slot = slot) :
    ∃ m,
      endStep (endSweep (holdNow hold u)) =
          State.requestDone { u with port := { p with holds := p.holds ++ [hold] } } slot 0 m ∧
        s.ShownHeld (State.requestDone { u with port := { p with holds := p.holds ++ [hold] } } slot 0 m) slot tag r ms := by
  subst hh
  have hslot := hold.slot.isLt
  rw [holdNow_quiet h.bus h.writes, endSweep_eq (by exact h.sweeping)]
  refine ⟨Memory.writeRun hostSize u.hostMemory (u.slotAddress hold.slot) [SlotState.held.code], ?_, ?_⟩
  · have hph : p.holds = u.port.holds := by
      have := congrArg Port.holds hp
      simpa [Port.swept] using this.symm
    have : ({ u.port with holds := u.port.holds ++ [hold], inHand := none, cursor := hold.slot + 1 } : Port) =
        (({ p with holds := p.holds ++ [hold] } : Port).swept hold.slot).offered 0 := by
      rw [offered_zero]
      have e : (({ p with holds := p.holds ++ [hold] } : Port).swept hold.slot) =
          { p.swept hold.slot with holds := p.holds ++ [hold] } := rfl
      rw [e, ← hp, hph]
    simp only [State.requestDone, ← this]
  · have hs := slotAddress_eq s hold.slot
    have hus : u.slotAddress hold.slot = s.slotAddress hold.slot := h.progress.slotAddress hold.slot
    set o := 0x500 + 128 * hold.slot.val with ho
    have h1 := h.head
    have h2 := h.arguments
    rw [hs] at h1 h2
    rw [Nat.add_assoc] at h2
    have p1 := h.progress.write (o := o) (bs := [SlotState.held.code]) (by omega) (by simp; omega)
      (fun m hm => (h.parts m hm).2)
    have h2a := shows_write (o' := o) (bs' := [SlotState.held.code]) h2 (by simp) (by simp; omega) (by simp; omega)
    rw [hus, hs]
    set m1 := Memory.writeRun hostSize u.hostMemory (s.areaAddress + o) [SlotState.held.code] with hm1
    have h1a : State.shows { u with hostMemory := m1 } (s.areaAddress + o)
        ([SlotState.held.code, r.kindByte] ++ le 2 tag.toNat) := by
      simp only [State.shows, State.hostBytes] at h1 ⊢
      refine List.ext_getElem (by simp) fun i hi1 hi2 => ?_
      simp only [Memory.readRun, List.getElem_map, List.getElem_range]
      simp only [List.length_append, List.length_cons, List.length_nil, le_length] at hi2
      by_cases hi : i = 0
      · subst hi
        rw [hm1, Memory.read_writeRun_at (i := 0) h.progress.canonical (by simp [hostSize]) (by simp)]
        rfl
      · have hb := congrArg (fun l => l[i]?) h1
        simp only [Memory.readRun, List.getElem?_map] at hb
        rw [hm1, Memory.read_writeRun_other fun j hj e => ?_]
        · rw [List.getElem?_range (by simp; omega)] at hb
          simp only [Option.map_some] at hb
          have hlt : i < 4 := by omega
          interval_cases i <;> simp_all [le]
        · simp at hj
          subst hj
          have := Memory.run_injective (size := hostSize) (by unfold hostSize; omega) (by unfold hostSize; omega) e
          omega
    have hmem := requestDone_hostMemory { u with port := { p with holds := p.holds ++ [hold] } } hold.slot 0 m1
    have hpa : p.areaBase = s.port.areaBase := by
      have := congrArg Port.areaBase hp
      simp only [Port.swept] at this
      rw [← this]; exact h.progress.area
    have haddr : (State.requestDone { u with port := { p with holds := p.holds ++ [hold] } } hold.slot 0 m1).areaAddress =
        s.areaAddress := by
      simp only [State.areaAddress, requestDone_areaBase, hpa]
    have hsaddr : (State.requestDone { u with port := { p with holds := p.holds ++ [hold] } } hold.slot 0 m1).slotAddress
        hold.slot = s.slotAddress hold.slot := by
      simp only [State.slotAddress, haddr]
    generalize State.requestDone { u with port := { p with holds := p.holds ++ [hold] } } hold.slot 0 m1 = t at *
    refine ⟨?_, ?_, ?_, ?_⟩
    · simp only [State.shows, State.hostBytes, hmem, hsaddr, hs]
      exact h1a
    · simp only [State.shows, State.hostBytes, hmem, hsaddr, hs, Nat.add_assoc]
      exact h2a
    · intro m hm
      have := p1.header m hm
      simp only [State.shows, State.hostBytes, hmem] at this ⊢
      exact this
    · intro x hx
      rw [hmem]
      refine p1.others x fun q hq => ?_
      rw [hs] at hx
      have hr0 : s.ringRanges ([] : List Notice).length = [] := by simp [State.ringRanges, Port.room]
      simp only [hr0, List.append_nil, List.mem_append, List.mem_cons, List.not_mem_nil, or_false] at hq
      rcases hq with (rfl | hq) | hq
      · intro i hi; exact hx (s.areaAddress + o, 4) (by simp) i (by simp at hi; simp; omega)
      · rw [hs] at hq
        rcases hq with rfl | rfl
        · exact hx (s.areaAddress + o, 4) (by simp)
        · exact hx (s.areaAddress + o + 8, 64) (by simp)
      · exact hx q (List.mem_append_right _ hq)

end Sys2Proof.Machine
end

