-- ==== Sys2Proof/Laws/Answers.lean ====
section
/-! SUPPORT. A request taken with nothing arriving and no access failing: when its owner answers or holds it, what the step
leaves and what the host finds. A statement `State.Answers` or `State.Parks` about a request follows from what its owner does
with the state it is handed. -/

namespace Sys2Proof.Machine

/-- What a finished request leaves depends on the owner's state in everything but host memory and the surroundings. -/
theorem requestDone_congr {u v : State} (hp : v.pending = u.pending) (hport : v.port = u.port) (hc : v.clock = u.clock)
    (hr : v.run = u.run) (ht : v.tables = u.tables) (hro : v.roster = u.roster) (hpw : v.power = u.power)
    (htu : v.turns = u.turns) (slot : Slot) (n : Nat) (m : Memory) : v.requestDone slot n m = u.requestDone slot n m := by
  obtain ⟨⟩ := u
  obtain ⟨⟩ := v
  simp only at hp hport hc hr ht hro hpw htu
  subst hp hport hc hr ht hro hpw htu
  rfl

/-- The port of the handed state, its request ended, is the swept port. -/
theorem handed_port (s : State) (slot : Slot) (tag : Half) (r : Request) :
    { (s.handed slot tag r).port with inHand := none, cursor := slot + 1 } = s.port.swept slot := rfl

/-- An owner that answers the request in hand on a state in which `Working` holds. -/
theorem answers_of {s u v : State} {slot : Slot} {tag : Half} {r : Request} {owner : State → State → State} {code : AnswerCode}
    {answer : List Byte} {ns : List Notice} {ms : List (Nat × List Byte)} (hn : s.isNext slot)
    (hexec : exec (r.command slot tag Env.quiet) s = .next (requestStep slot tag r Env.quiet owner s))
    (howner : owner (s.handed slot tag r) (s.handed slot tag r) = answerInHand slot tag code answer v)
    (hv : Working s v slot tag r ns ms)
    (hport : { v.port with inHand := none, cursor := slot + 1 } = (u.port.swept slot).offered ns.length)
    (hp : v.pending = u.pending) (hc : v.clock = u.clock) (hr : v.run = u.run) (ht : v.tables = u.tables)
    (hro : v.roster = u.roster) (hpw : v.power = u.power) (htu : v.turns = u.turns) :
    s.Answers slot tag r u code answer ns ms := by
  obtain ⟨m, he, hd⟩ := hv.answered u.port hport code answer
  have hcong : State.requestDone { v with port := u.port } slot (ns.length + 1) m = u.requestDone slot (ns.length + 1) m :=
    requestDone_congr (v := { v with port := u.port }) hp rfl hc hr ht hro hpw htu slot _ m
  rw [hcong] at he hd
  exact ⟨m, by rw [hexec, requestStep_quiet hn, howner, he], hd⟩

/-- An owner that answers the state it is handed, unchanged. -/
theorem answersUnchanged_of {s : State} {slot : Slot} {tag : Half} {r : Request} {owner : State → State → State}
    {code : AnswerCode} {answer : List Byte} (hw : Memory.wf s.hostMemory = true) (hn : s.isNext slot)
    (hexec : exec (r.command slot tag Env.quiet) s = .next (requestStep slot tag r Env.quiet owner s))
    (howner :
      owner (s.handed slot tag r) (s.handed slot tag r) = answerInHand slot tag code answer (s.handed slot tag r)) :
    s.AnswersUnchanged slot tag r code answer :=
  answers_of hn hexec howner (working_handed hw hn tag r) (by simp [handed_port]) rfl rfl rfl rfl rfl rfl rfl

/-- An owner that holds the request in hand on a state in which `Working` holds. -/
theorem parks_of {s u v : State} {slot : Slot} {tag : Half} {r : Request} {owner : State → State → State} {hold : Hold}
    {ms : List (Nat × List Byte)} (hn : s.isNext slot) (hs : hold.slot = slot)
    (hexec : exec (r.command slot tag Env.quiet) s = .next (requestStep slot tag r Env.quiet owner s))
    (howner : owner (s.handed slot tag r) (s.handed slot tag r) = holdNow hold v) (hv : Working s v slot tag r [] ms)
    (hport : { v.port with inHand := none, cursor := slot + 1 } = u.port.swept slot)
    (hp : v.pending = u.pending) (hc : v.clock = u.clock) (hr : v.run = u.run) (ht : v.tables = u.tables)
    (hro : v.roster = u.roster) (hpw : v.power = u.power) (htu : v.turns = u.turns) :
    s.Parks slot tag r u hold ms := by
  obtain ⟨m, he, hd⟩ := hv.held u.port hport hold hs
  have hcong :
      State.requestDone { v with port := { u.port with holds := u.port.holds ++ [hold] } } slot 0 m =
        State.requestDone { u with port := { u.port with holds := u.port.holds ++ [hold] } } slot 0 m :=
    requestDone_congr (u := { u with port := { u.port with holds := u.port.holds ++ [hold] } })
      (v := { v with port := { u.port with holds := u.port.holds ++ [hold] } }) hp rfl hc hr ht hro hpw htu slot _ m
  rw [hcong] at he hd
  exact ⟨m, by rw [hexec, requestStep_quiet hn, howner, he], hd⟩

end Sys2Proof.Machine
end

