-- ==== Sys2Proof/Tests/Slice0.lean ====
section
/-! SUPPORT. The model's own tests: well-formedness, the slot's words, small steps whose results the manual prints, and for
every statement that has hypotheses a state and operands that meet them. -/

namespace Sys2Proof.Machine

-- One theorem after another: side by side, the kernel's evaluations take too much memory.
set_option Elab.async false

/-! ### Well-formedness: one ill-formed term for each check -/

theorem test_wf_hostWrite : (Instr.minuteTick { hostWrites := [(4294967296, 1)] }).wellFormed = false := by decide
theorem test_wf_openRun_classes :
    (Instr.openRun 0 0
      { runId := 1, terminal := 1, direction := 0, startStop := 0, coachCount := 1, classes := [1], sharedWindow := 0,
        watchLead := 0, skewTolerance := 0, holdLimit := 0 } Env.quiet).wellFormed = false := by decide
theorem test_wf_inspect_record :
    (Instr.inspect 0 0 { coach := 1, heads := 1, record := zeros 45 } Env.quiet).wellFormed = false := by decide
theorem test_wf_confirm_readBack :
    (Instr.confirmMark 0 0 { index := 0, readBack := zeros 15 } Env.quiet).wellFormed = false := by decide
theorem test_wf_malformed_kind : (Instr.malformed 0 0 14 Env.quiet).wellFormed = false := by decide
theorem test_wf_portEnable : (Instr.portEnable 0 Env.quiet).wellFormed = false := by decide
theorem test_wf_portEnable_reset : (Instr.portEnable 0x11 Env.quiet).wellFormed = false := by decide
theorem test_wf_portDisable : (Instr.portDisable 1 Env.quiet).wellFormed = false := by decide
theorem test_wf_portDisable_reset : (Instr.portDisable 0x10 Env.quiet).wellFormed = false := by decide
theorem test_wf_portReset : (Instr.portReset 1 Env.quiet).wellFormed = false := by decide
theorem test_wf_attentionEnable : (Instr.attentionEnable 0x16 Env.quiet).wellFormed = false := by decide
theorem test_wf_dozeRequest : (Instr.dozeRequest 1 Env.quiet).wellFormed = false := by decide
theorem test_wf_dozeClear : (Instr.dozeClear 9 Env.quiet).wellFormed = false := by decide
theorem test_wf_overflowClear : (Instr.overflowClear 0).wellFormed = false := by decide
theorem test_wf_registerWrite : (Instr.registerWrite 0x08 0x10 Env.quiet).wellFormed = false := by decide
theorem test_wf_registerWrite_base : (Instr.registerWrite 0x00 0 Env.quiet).wellFormed = false := by decide
theorem test_wf_good : (Instr.registerWrite 0x10 7 { hostWrites := [(4294967295, 1)] }).wellFormed = true := by decide

/-! ### The slot: bytes written out from 11.7 and 11.8 -/

theorem test_decodeTableWord (nbits w : Nat) : decodeTableWord nbits w = none := rfl

/-- SET_CLOCK of 1.5: clock day 20,100 = 4E84h, minute 1420 = 058Ch, second 10, no day-change minute. -/
theorem test_slot_setClock :
    Request.ofSlot 1 [0x84, 0x4E, 0x8C, 0x05, 10, 0, 0, 0] =
      .setClock { day := 20100, minute := 1420, second := 10, presentFlag := 0, dayChange := 0 } := by decide
theorem test_slot_depart_unknown : Request.ofSlot 3 [0xFF] = .depart 0xFF := by decide
theorem test_slot_loadTable :
    Request.ofSlot 10 [3, 0, 0, 0, 0x78, 0x56, 0x34, 0x12, 0x60, 0x1E, 0xCD, 0xAB, 1, 0, 0, 0] =
      .loadTable { kind := 3, source := 0x12345678, count := 7776, sum := 0xABCD, edition := 1 } := by decide
theorem test_slot_readRoster :
    Request.ofSlot 8 [2, 0, 0, 2, 0, 0, 2, 0] = .readRoster { first := 2, count := 512, destination := 0x20000 } := by decide
theorem test_slot_malformed : Request.ofSlot 15 [1] = .malformed 15 := by decide

/-! ### The states the tests use -/

/-- The clock of the worked cases at a clock count, P = 180, second 0. -/
def clockAt (n : Nat) : Clock := Clock.atCount { day := 1, minute := 0, second := 0, dayChange := 180, isSet := true } n 0

/-- The example line of 2.1: stop code, network, zone. -/
def lineImage : List Byte :=
  ([(4101, 1, 10), (4102, 1, 10), (4107, 1, 11), (4110, 1, 12), (4115, 1, 12), (6201, 2, 3), (6204, 2, 3), (6209, 2, 4),
    (6212, 2, 5), (6220, 2, 5)].map fun (c, n, z) => le 2 c ++ le 1 n ++ le 1 z).flatten

/-- A product entry (11.5): code, kind, period, base, per-zone, maximum, days, grace, class, max zones, watch class,
markable. -/
def productBytes (code kind period base perZone most days grace cls zones watch markable : Nat) : List Byte :=
  le 2 code ++ le 1 kind ++ le 1 period ++ le 2 base ++ le 2 perZone ++ le 2 most ++ le 2 days ++ le 1 grace ++ le 1 cls
    ++ le 1 zones ++ le 1 watch ++ le 1 markable ++ zeros 31

/-- Two products: the ZONE_COUNT ticket of 4.12 (code 2, LEAD) and a NETWORK pass of one day, class 2, markable (code 3,
LAPSE). -/
def tariffImage : List Byte :=
  productBytes 2 2 1 60 20 120 0 5 2 63 2 0 ++ productBytes 3 3 2 0 0 0 1 10 2 0 1 1

/-- The deny entries of 3.3 for the id 40,517. -/
def denyImage : List Byte :=
  ([(12, 20050, 20080), (7, 20090, 65535), (3, 20095, 20120)].map fun (r, f, u) =>
    le 8 40517 ++ le 2 r ++ le 2 f ++ le 2 u ++ zeros 2).flatten

/-- A VALID descriptor of a table image. -/
def validFor (k : TableKind) (image : List Byte) : Descriptor where
  state := .valid
  cause := .noCause
  edition := 7
  count := image.length / k.entrySize
  expectedSum := byteSum image
  level := 0

/-- The table store with the example line, the two products and the deny entries VALID. -/
def fullTables : Tables where
  memory :=
    Memory.writeRun tableSize
      (Memory.writeRun tableSize (Memory.writeRun tableSize [] 0 lineImage) 512 tariffImage) 6656 denyImage
  stops := validFor .stops lineImage
  tariff := validFor .tariff tariffImage
  deny := validFor .deny denyImage
  ordinals := [0, 0, 1, 2, 2, 3, 3, 4, 5, 5]
  load := none
  wiping := false

/-- A run UP on the line with coaches of classes 1, 2, 2, shared window 20, watch lead 10, skew tolerance 5. -/
def openRun7 (state : RunState) (position : Nat) (next : Option Nat) : Run where
  state := state
  runId := 7310042
  terminal := 1
  direction := .up
  coachCount := 3
  coachClasses := [1, 2, 2]
  sharedWindow := 20
  watchLead := 10
  skewTolerance := 5
  holdLimit := 10
  position := some position
  nextStop := next

/-- A port in the middle of a sweep of slots that all stand empty, with the area at 4000h. -/
def sweepingPort : Port :=
  { Port.reset with state := .sweeping, areaBase := 0x4000, enable := true, sweepLeft := 32 }

/-- No run, the tables VALID, the clock set, a sweep under way. -/
def desk : State :=
  { State.reset with port := sweepingPort, clock := clockAt 28945005, tables := fullTables }

/-- The train standing at stop 1, at clock count 28,945,005 (6.7). -/
def aboard : State := { desk with run := openRun7 .standing 1 none }

/-- The train running from stop 6 to stop 7 at 28,945,345 (4.12). -/
def running : State := { desk with run := openRun7 .running 6 (some 7), clock := clockAt 28945345 }

/-- The train gone from stop 4 without a next stop. -/
def unplaced : State := { desk with run := openRun7 .runningUnplaced 4 none }

/-- In a sweep of empty slots every slot that is not held is next in turn. -/
theorem isNext_of_empty {s : State} {slot : Slot} (h1 : s.port.state = .sweeping) (h2 : s.port.sweepLeft = 32)
    (h3 : s.hostMemory = []) (h4 : s.isHeld slot = false) : s.isNext slot := by
  have hp : ∀ x : Slot, s.isPosted x = false := by
    intro x
    simp [State.isPosted, h3, Memory.read, unlistedByte, SlotState.code]
  have hd : s.sweepDistance slot < 32 := (slot - s.port.sweepNext).isLt
  simp [State.isNext, State.takesNext, h1, h2, h4, hd, hp]

/-- The two premises that every statement about a taken request has. -/
theorem taken {s : State} {slot : Slot} (h1 : s.port.state = .sweeping) (h2 : s.port.sweepLeft = 32)
    (h3 : s.hostMemory = []) (h4 : s.isHeld slot = false) : Memory.wf s.hostMemory = true ∧ s.isNext slot :=
  ⟨by rw [h3]; rfl, isNext_of_empty h1 h2 h3 h4⟩

theorem desk_takes (slot : Slot) : Memory.wf desk.hostMemory = true ∧ desk.isNext slot := taken rfl rfl rfl rfl
theorem aboard_takes (slot : Slot) : Memory.wf aboard.hostMemory = true ∧ aboard.isNext slot := taken rfl rfl rfl rfl
theorem running_takes (slot : Slot) : Memory.wf running.hostMemory = true ∧ running.isNext slot := taken rfl rfl rfl rfl
theorem unplaced_takes (slot : Slot) : Memory.wf unplaced.hostMemory = true ∧ unplaced.isNext slot := taken rfl rfl rfl rfl

/-- The state a command leaves. -/
def after (c : Instr) (s : State) : State :=
  match exec c s with
  | .next t => t
  | .fault _ => s
  | .refused _ => s

/-- A credential record with its check (11.4). -/
def recordBytes (media product id network zoneLo zoneHi zoneCount origin day minute cls passengers counter : Nat) : List Byte :=
  withCheck
    (le 1 1 ++ le 1 media ++ le 2 product ++ le 8 id ++ le 1 network ++ le 1 zoneLo ++ le 1 zoneHi ++ le 1 zoneCount
      ++ le 2 origin ++ le 2 day ++ le 2 minute ++ le 1 cls ++ le 1 passengers ++ le 2 counter ++ zeros 18)

/-- The late ticket of 4.12: ZONE_COUNT, k = 3, origin 4110, activated at 20,100, service minute 1250. -/
def lateTicket : InspectArgs where
  coach := 3
  heads := 1
  record := recordBytes 3 2 99 0 0 0 3 4110 20100 1250 2 1 0

/-- A NETWORK day pass of service day 20,100 on a markable card with mark counter 41. -/
def dayPass (network id : Nat) : InspectArgs where
  coach := 3
  heads := 1
  record := recordBytes 1 3 id network 0 0 0 0 20100 600 2 1 41

/-! ### Records, codes and arithmetic that the manual prints -/

theorem test_crc_digits : crc [0x31, 0x32, 0x33, 0x34, 0x35, 0x36, 0x37, 0x38, 0x39] = 0x29B1 := by decide +kernel
theorem test_crc_zero : crc [0] = 0xE1F0 := by decide +kernel
theorem test_line_ordinals :
    lineOrdinals ((fullTables.entries .stops).map Stop.ofBytes) = [0, 0, 1, 2, 2, 3, 3, 4, 5, 5] := by decide +kernel
theorem test_zonesAhead_example :
    zonesAhead fullTables .up (.zoneRange 1 11 12) 2 = 1 ∧ zonesAhead fullTables .down (.zoneRange 1 11 12) 4 = 1 ∧
      zonesAhead fullTables .up (.network 1) 1 = 2 ∧ zonesAhead fullTables .down (.network 2) 9 = 2 ∧
      zonesAhead fullTables .up (.zoneCount 0 3) 2 = 2 ∧ zonesAhead fullTables .down (.zoneCount 0 3) 2 = 1 := by
  decide +kernel
/-- 3.3, "A deny lookup". -/
theorem test_deny_lookup :
    (denyStage fullTables 40517 (20070 * 1440)).2 = 12 ∧ denyStage fullTables 40517 (20085 * 1440) = ([], 0) ∧
      (denyStage fullTables 40517 (20100 * 1440)).2 = 7 ∧ (denyStage fullTables 40517 (20125 * 1440)).2 = 7 := by
  decide +kernel
/-- 4.12, "Reasons folded". -/
theorem test_fold :
    foldVerdict (reasonSet [.repeated]) = .valid ∧ foldVerdict (reasonSet [.inGrace, .repeated]) = .noted ∧
      foldVerdict (reasonSet [.wrongClass, .headsExceed, .denyNotChecked]) = .upgrade ∧
      foldVerdict (reasonSet [.seenElsewhere, .wrongClass, .repeated]) = .suspect ∧
      foldVerdict (reasonSet [.outOfZone, .wrongClass]) = .invalid ∧
      foldVerdict (reasonSet [.denied, .expired, .positionAssumed]) = .revoked := by decide +kernel
/-- 5.4, "Sighting cases", lines six to eight. -/
theorem test_lastSighting :
    lastSighting (some ⟨3, 28945010⟩) (some ⟨4, 28945030⟩) = some ⟨4, 28945030⟩ ∧
      lastSighting (some ⟨5, 28945032⟩) (some ⟨4, 28945030⟩) = some ⟨5, 28945032⟩ := by decide

/-! ### The clock -/

/-- 1.5: from 20,101, minute 2 a request for 20,100, minute 1420 is clamped to −15 and gives minute 1427. -/
theorem test_setClock_back_across_midnight :
    let s := { aboard with clock := clockAt 28945262 }
    let t := after (.setClock 0 9 { day := 20100, minute := 1420, second := 10, presentFlag := 0, dayChange := 0 } Env.quiet) s
    s.clock.day = 20101 ∧ s.clock.minute = 2 ∧ t.clock = { s.clock with day := 20100, minute := 1427, second := 10 } ∧
      t.port.nextSequence = 2 := by decide +kernel
/-- 1.5, "Setting the day-change minute": the service day goes from 20,101 to 20,100 and the count down by sixty. -/
theorem test_setClock_dayChange :
    let s := { desk with clock := { clockAt 28945460 with second := 7 } }
    let t := after (.setClock 0 9 { day := 20101, minute := 200, second := 7, presentFlag := 1, dayChange := 240 } Env.quiet) s
    t.clock.serviceDay = 20100 ∧ t.clockCount = 28945400 ∧ t.port.nextSequence = 2 := by decide +kernel
theorem test_secondAdvance : (after (.secondAdvance Env.quiet) desk).clock.second = 1 := by decide +kernel
theorem test_secondAdvance_saturates :
    let s := { desk with clock := { desk.clock with day := 65535, minute := 1439, second := 59 } }
    (after (.secondAdvance Env.quiet) s).clock = s.clock := by decide +kernel

/-- An entry whose LEAD watch lapses by time at a count. -/
def watched (index lapse : Nat) (stage : WatchStage) (proposal : Option Proposal) : Entry where
  index := index
  credentialId := BitVec.ofNat 64 (100 + index)
  productCode := 2
  passengers := 1
  headsMax := 1
  lastCoach := 3
  lastStop := 1
  inspections := 1
  firstCount := 28945000
  lastCount := 28945000
  lastVerdict := .valid
  lastReasons := 0
  denyReason := none
  coverage := .zoneCount 0 2
  watch := { kind := .both, lapse := some lapse, stage := stage }
  mark := { proposal := proposal, commitCount := 0, torn := false }

/-- A proposal that expires at a count. -/
def proposalAt (expiry : Nat) : Proposal where
  bytes := withCheck (markBody 7310042 1 3 28945003 1 .valid 42)
  expiry := expiry

/-- 9.7, "A ring filling": at count 62 and position 40 three LEAD watches lapse; two notices fit. -/
theorem test_minuteTick_fills_the_ring :
    let s :=
      { aboard with
        port := { aboard.port with noticeCount := 62, writePosition := 40 }
        roster := [watched 0 28945006 .near none, watched 1 28945006 .near none, watched 2 28945006 .near none] }
    let t := after (.minuteTick Env.quiet) s
    t.port.noticeCount = 64 ∧ t.port.writePosition = 42 ∧ t.port.overflow = true ∧
      t.roster.map (fun e => e.watch.stage) = [.lapsed, .lapsed, .lapsed] := by decide +kernel
theorem test_watchTimeNear :
    let t := after (.watchTimeNear 0 Env.quiet) { aboard with roster := [watched 0 28945015 .armed none] }
    t.roster.map (fun e => e.watch.stage) = [.near] ∧ t.port.noticeCount = 1 := by decide +kernel
theorem test_watchTimeLapse :
    let t := after (.watchTimeLapse 0 Env.quiet) { aboard with roster := [watched 0 28945005 .armed none] }
    t.roster.map (fun e => e.watch.stage) = [.lapsed] ∧ t.port.noticeCount = 1 := by decide +kernel
theorem test_proposalLapsed :
    let t := after (.proposalLapsed 0 Env.quiet) { aboard with roster := [watched 0 28945080 .armed (some (proposalAt 28945005))] }
    t.roster.map (fun e => e.mark.proposal) = [none] ∧ t.port.noticeCount = 1 := by decide +kernel

/-! ### The run -/

/-- An OPEN_RUN of the worked journey. -/
def openArgs : OpenRunArgs where
  runId := 7310042
  terminal := 1
  direction := 0
  startStop := 1
  coachCount := 3
  classes := [1, 2, 2] ++ zeros 13
  sharedWindow := 61
  watchLead := 10
  skewTolerance := 5
  holdLimit := 0

/-- The hold limit 0 becomes 10, and the shared window 61 is clamped to 60 (R18). -/
theorem test_openRun_settings :
    let t := after (.openRun 0 1 openArgs Env.quiet) desk
    t.run.state = .standing ∧ t.run.holdLimit = 10 ∧ t.run.sharedWindow = 60 ∧
      t.hostBytes (t.slotAddress 0 + 4) 1 = [AnswerCode.clamped.code] := by decide +kernel
theorem test_openRun_no_clock :
    let t := after (.openRun 0 1 openArgs Env.quiet) { desk with clock := Clock.reset }
    t.run.state = .noRun ∧ t.hostBytes (t.slotAddress 0 + 4) 1 = [11] := by decide +kernel
/-- 6.7, event 4: the DEPART to stop 5 lapses a watch of coverage 0..2, and its notice stands before the answer's. -/
theorem test_depart_lapses_a_zone_watch :
    let t := after (.depart 0 1 5 Env.quiet) { aboard with roster := [watched 0 28945105 .armed none] }
    t.run.nextStop = some 5 ∧ t.roster.map (fun e => e.watch.stage) = [.lapsed] ∧
      t.hostBytes (t.ringAddress 0 + 2) 4 = [2, 3, 0, 0] ∧ t.hostBytes (t.ringAddress 1 + 2) 1 = [1] := by decide +kernel
theorem test_depart_backwards :
    let t := after (.depart 0 1 1 Env.quiet) aboard
    t.run = aboard.run ∧ t.hostBytes (t.slotAddress 0 + 4) 1 = [8] := by decide +kernel

/-- A held INSPECT of the day pass in a slot. -/
def passHold (slot : Slot) (awaits : Awaits) (limit : Nat) : Hold where
  slot := slot
  tag := 5
  awaits := awaits
  work :=
    .inspect limit
      { coach := 3, heads := 1, record := (dayPass 2 77).record,
        product := ((Product.ofBytes (productBytes 3 3 2 0 0 0 1 10 2 0 1 1)).getD
          { code := 0, kind := .network, period := .days, baseMinutes := 0, perZoneMinutes := 0, maxMinutes := 0, days := 0,
            grace := 0, accommodation := 0, maxZones := 0, watchClass := .none, markable := false }) }

/-- The train gone from stop 4, with one inspection held for a position until 28,945,015. -/
def withHold (awaits : Awaits) : State :=
  { unplaced with port := { sweepingPort with holds := [passHold 5 awaits 28945015] } }

/-- 4.12, "Held …": the ARRIVE at stop 7 releases the hold, which is judged there, and both slots are answered. -/
theorem test_arrive_releases :
    let t := after (.arrive 0 1 7 Env.quiet) (withHold .placement)
    t.port.holds = [] ∧ t.roster.map (fun e => (e.lastStop, e.lastVerdict)) = [(7, .valid)] ∧
      t.hostBytes (t.slotAddress 5) 1 = [4] ∧ t.hostBytes (t.slotAddress 0) 1 = [4] := by decide +kernel
theorem test_arrive_at_the_stop_left :
    let t := after (.arrive 0 1 4 Env.quiet) unplaced
    t.run = unplaced.run ∧ t.hostBytes (t.slotAddress 0 + 4) 1 = [8] := by decide +kernel
/-- 4.12: past its limit the hold ends at the tick, judged at the last departed stop with POSITION_ASSUMED. Stop 4 lies in
network 1, so the pass of network 2 is WRONG_NETWORK as well. -/
theorem test_holdLimit_degraded :
    let t := after (.holdLimit 5 Env.quiet) { withHold .placement with clock := clockAt 28945015 }
    t.port.holds = [] ∧
      t.roster.map (fun e => (e.lastStop, hasReason e.lastReasons .positionAssumed, e.lastVerdict)) =
        [(4, true, .invalid)] := by decide +kernel
theorem test_closeRun_summary :
    let t := after (.closeRun 0 1 Env.quiet)
      { aboard with roster := [watched 0 28945105 .lapsed none, watched 1 28945105 .armed (some (proposalAt 28945007))] }
    t.run.state = .closed ∧ t.roster.map (fun e => e.mark.proposal) = [none, none] ∧
      t.hostBytes (t.slotAddress 0 + 72) 6 = [4, 0, 2, 0, 2, 0] ∧
      t.hostBytes (t.slotAddress 0 + 90) 4 = [1, 0, 0, 0] := by decide +kernel

/-! ### The inspection, the roster and the marks -/

/-- 4.12, "A late ticket across midnight": VALID, R = 5, zones ahead 0, stop 7, clock count 28,945,345, armed in NEAR. -/
theorem test_inspect_late_ticket :
    let t := after (.inspect 0 1 lateTicket Env.quiet) running
    t.hostBytes (t.slotAddress 0 + 72) 13 = [0, 3, 0, 0, 5, 0, 0, 0, 0, 2, 0, 0, 1] ∧
      t.hostBytes (t.slotAddress 0 + 104) 8 = [7, 0, 0, 0] ++ le 4 28945345 := by decide +kernel
/-- The same ticket at 28,945,355: R = −5, INVALID (EXPIRED, bit 5). -/
theorem test_inspect_expired :
    let t := after (.inspect 0 1 lateTicket Env.quiet) { running with clock := clockAt 28945355 }
    t.hostBytes (t.slotAddress 0 + 72) 8 = [4, 0, 0x20, 0, 0xFB, 0xFF, 0xFF, 0xFF] := by decide +kernel
theorem test_dismiss :
    let t := after (.dismiss 0 1 0 Env.quiet) { aboard with roster := [watched 0 28945105 .near (some (proposalAt 28945007))] }
    t.roster.map (fun e => (e.watch.stage, e.watch.lapse, e.mark.proposal)) = [(.cleared, some 28945105, none)] := by
  decide +kernel
theorem test_dismiss_notFound :
    let t := after (.dismiss 0 1 0xFFFF Env.quiet) desk
    t.hostBytes (t.slotAddress 0 + 4) 1 = [4] ∧ t.hostBytes (t.slotAddress 0 + 72) 5 = [0xFF, 0xFF, 0, 0, 0] := by
  decide +kernel
theorem test_readRoster_clamped :
    let t := after (.readRoster 0 1 { first := 1, count := 9, destination := 0x20000 } Env.quiet)
      { aboard with roster := [watched 0 28945105 .near none, watched 1 28945105 .near none] }
    t.hostBytes (t.slotAddress 0 + 72) 2 = [1, 0] ∧ t.hostBytes 0x20000 12 = [1, 0, 2, 0, 101, 0, 0, 0, 0, 0, 0, 0] := by
  decide +kernel
/-- 7.7: a read-back with counter 41 is NOT_WRITTEN and the proposal stays. -/
theorem test_confirm_notWritten :
    let s := { aboard with roster := [watched 0 28945105 .armed (some (proposalAt 28945007))] }
    let t := after (.confirmMark 0 1 { index := 0, readBack := zeros 12 ++ le 2 41 ++ zeros 2 } Env.quiet) s
    t.roster = s.roster ∧ t.hostBytes (t.slotAddress 0 + 72) 6 = [0, 0, 2, 0, 0, 1] := by decide +kernel
/-- 7.7: a read-back equal to the proposal is COMMITTED. -/
theorem test_confirm_committed :
    let s := { aboard with roster := [watched 0 28945105 .armed (some (proposalAt 28945007))] }
    let t := after (.confirmMark 0 1 { index := 0, readBack := (proposalAt 28945007).bytes } Env.quiet) s
    t.roster.map (fun e => e.mark) = [{ proposal := none, commitCount := 1, torn := false }] := by decide +kernel

/-! ### The table store -/

/-- The desk with the deny image in host memory at 20000h. -/
def withImage : State := { desk with hostMemory := Memory.writeRun hostSize [] 0x20000 denyImage }

/-- A LOAD_TABLE of the deny image. -/
def loadArgs : LoadTableArgs where
  kind := 3
  source := 0x20000
  count := 3
  sum := byteSum denyImage
  edition := 9

/-- The hold of a LOAD_TABLE or a WIPE. -/
def ownHold (slot : Slot) (work : HoldWork) : Hold where
  slot := slot
  tag := 7
  awaits := .ownCompletion
  work := work

/-- A load of the deny table in progress, nothing copied yet, with the hold list as given. -/
def loading (s : State) (holds : List Hold) : State :=
  { s with
    port := { s.port with holds := holds }
    tables :=
      { s.tables with
        deny := { s.tables.deny with state := .loading, expectedSum := byteSum denyImage }
        load := some { kind := .deny, source := 0x20000, copied := 0 } } }

theorem test_loadTable_held :
    let t := after (.loadTable 4 7 loadArgs Env.quiet) desk
    t.port.holds = [ownHold 4 .loadTable] ∧ t.tables.deny.state = .loading ∧ t.tables.deny.edition = 9 ∧
      t.tables.load = some { kind := .deny, source := 0x20000, copied := 0 } ∧ t.hostBytes (t.slotAddress 4) 1 = [3] := by
  decide +kernel
/-- R129: the stops table holds at most 128 entries. -/
theorem test_loadTable_tooLarge :
    let t := after (.loadTable 4 7 { loadArgs with kind := 1, count := 129 } Env.quiet) desk
    t.tables = desk.tables ∧ t.hostBytes (t.slotAddress 4 + 4) 1 = [15] := by decide +kernel
theorem test_loadCompletion_valid :
    let t := after (.loadCompletion Env.quiet) (loading withImage [ownHold 4 .loadTable])
    t.tables.deny.state = .valid ∧ t.port.holds = [] ∧
      t.hostBytes (t.slotAddress 4 + 72) 6 = [3, 0, 0, 0, 2, 0] ∧
      t.hostBytes (t.slotAddress 4 + 92) 2 = le 2 (byteSum denyImage).toNat := by decide +kernel
/-- An image of zeros does not give the expected sum: DAMAGED, cause SUM (1). R134: a port reset before the load's own answer
drops its hold unanswered, and the table stays judged. -/
theorem test_loadCompletion_sum :
    let s := loading desk [ownHold 4 .loadTable]
    let t := after (.loadCompletion Env.quiet) s
    let u := after (.loadCompletion { arrivals := [.portReset] }) s
    t.tables.deny.state = .damaged ∧ t.tables.deny.cause = .sum ∧ t.hostBytes (t.slotAddress 4 + 76) 2 = [3, 1] ∧
      u.tables.deny.cause = .sum ∧ u.port.holds = [] ∧ u.port.state = .stopped ∧
      u.hostBytes (u.slotAddress 4) 1 = [0] := by decide +kernel
/-- 8.5: a level only rises. -/
theorem test_protectTable :
    let t := after (.protectTable 0 1 { kind := 2, level := 3 } Env.quiet) desk
    let u := after (.protectTable 0 1 { kind := 2, level := 1 } Env.quiet) t
    t.tables.tariff.level = 3 ∧ u.tables.tariff.level = 3 := by decide +kernel
theorem test_protectTable_answer :
    let t := after (.protectTable 0 1 { kind := 2, level := 4 } Env.quiet) desk
    t.hostBytes (t.slotAddress 0 + 4) 1 = [16] ∧ t.hostBytes (t.slotAddress 0 + 72) 3 = [2, 0, 0] := by decide +kernel
theorem test_readTable :
    let t := after (.readTable 0 1 { kind := 1, destination := 0x30000 } Env.quiet) desk
    t.hostBytes 0x30000 8 = [0x05, 0x10, 1, 10, 0x06, 0x10, 1, 10] ∧
      t.hostBytes (t.slotAddress 0 + 72) 5 = [10, 0, 0, 0, 2] := by decide +kernel
theorem test_readTable_level3 :
    let t := after (.readTable 0 1 { kind := 2, destination := 0x30000 } Env.quiet)
      { desk with tables := { desk.tables with tariff := { desk.tables.tariff with level := 3 } } }
    t.hostBytes (t.slotAddress 0 + 4) 1 = [14] ∧ t.hostBytes 0x30000 2 = [0, 0] := by decide +kernel
theorem test_wipe_held :
    let t := after (.wipe 2 7 Env.quiet) desk
    t.tables.wiping = true ∧ t.port.holds = [ownHold 2 .wipe] ∧ t.tables.stops.state = .valid := by decide +kernel
theorem test_wipe_run_open :
    let t := after (.wipe 2 7 Env.quiet) aboard
    t.tables = aboard.tables ∧ t.hostBytes (t.slotAddress 2 + 4) 1 = [7] := by decide +kernel

/-- A WIPE in progress, with the hold list as given. -/
def wiping (s : State) (holds : List Hold) : State :=
  { s with port := { s.port with holds := holds }, tables := { s.tables with wiping := true } }

theorem test_wipeCompletion :
    let t := after (.wipeCompletion Env.quiet) (wiping desk [ownHold 2 .wipe])
    t.tables = Tables.reset ∧ t.port.holds = [] ∧ t.hostBytes (t.slotAddress 2) 1 = [4] ∧
      t.clock = desk.clock := by decide +kernel
theorem test_wipeCompletion_none : after (.wipeCompletion Env.quiet) desk = desk := by decide +kernel

/-! ### The port's requests and registers -/

theorem test_withdraw :
    let t := after (.withdraw 0 1 5 Env.quiet) (withHold .placement)
    t.port.holds = [] ∧ t.port.endedMarks.get 5 = true ∧ t.hostBytes (t.slotAddress 5 + 4) 1 = [2] ∧
      t.port.nextSequence = 2 := by decide +kernel
theorem test_withdraw_load :
    let t := after (.withdraw 0 1 4 Env.quiet) (loading desk [ownHold 4 .loadTable])
    t.port.holds = [ownHold 4 .loadTable] ∧ t.hostBytes (t.slotAddress 0 + 4) 1 = [12] := by decide +kernel
theorem test_malformed :
    let t := after (.malformed 31 9 0xEE Env.quiet) desk
    t.hostBytes (t.slotAddress 31) 6 = [4, 0xEE, 9, 0, 5, 0] ∧ t.port.cursor = 0 := by decide +kernel
theorem test_sweep :
    let s := { desk with port := { sweepingPort with state := .idle, sweepLeft := 0, cursor := 30 } }
    let t := after (.sweep 0 Env.quiet) s
    t.port.state = .sweeping ∧ t.port.sweepNext = 30 ∧ t.port.sweepLeft = 32 := by decide +kernel
theorem test_sweep_again : (after (.sweep 7 Env.quiet) desk).port.sweepAgain = true := by decide +kernel

/-- A stopped port with the area at 4000h. -/
def stoppedPort : Port := { Port.reset with areaBase := 0x4000 }

/-- 9.3 and 11.3: the first sixteen header bytes are written with the next sequence number carried on. -/
theorem test_portEnable :
    let s := { desk with port := { stoppedPort with nextSequence := 0x0102, noticeCount := 9 } }
    let t := after (.portEnable 0x03 Env.quiet) s
    t.port.state = .idle ∧ t.port.noticeCount = 0 ∧
      t.hostBytes 0x4000 12 = [1, 0, 32, 64, 0x80, 0, 16, 0, 0, 0, 2, 1] := by decide +kernel
theorem test_portDisable :
    let t := after (.portDisable 0x02 Env.quiet) (withHold .placement)
    t.port.state = .stopped ∧ t.port.holds.length = 1 ∧ t.port.noticeAttention = true := by decide +kernel
theorem test_portReset :
    let t := after (.portReset 0x11 Env.quiet) (loading (withHold .placement) [passHold 5 .placement 28945015])
    t.port.state = .stopped ∧ t.port.holds = [] ∧ t.tables.deny.cause = .aborted ∧ t.run = unplaced.run ∧
      t.port.enable = true := by decide +kernel
theorem test_attentionEnable :
    let s := { desk with port := { sweepingPort with noticeCount := 1 } }
    s.attention = false ∧ (after (.attentionEnable 0x03 Env.quiet) s).attention = true := by decide +kernel
theorem test_dozeRequest_pending :
    (after (.dozeRequest 0x09 Env.quiet) desk).power = .dozePending ∧
      (after (.dozeRequest 0x09 Env.quiet) { desk with port := { sweepingPort with state := .idle, sweepLeft := 0 } }).power =
        .doze := by decide +kernel
theorem test_dozeClear : (after (.dozeClear 0x01 Env.quiet) { desk with power := .dozePending }).power = .active := by
  decide +kernel
theorem test_dozeEntry :
    (after .dozeEntry { State.reset with power := .dozePending }).power = .doze ∧
      (after .dozeEntry { desk with power := .dozePending }).power = .dozePending := by decide +kernel
theorem test_overflowClear :
    (after (.overflowClear 0x10) { desk with port := { sweepingPort with overflow := true } }).port.overflow = false := by
  decide +kernel
theorem test_noticeRelease :
    (after (.noticeRelease 3) { desk with port := { sweepingPort with noticeCount := 5 } }).port.noticeCount = 2 ∧
      (after (.noticeRelease 9) { desk with port := { sweepingPort with noticeCount := 5 } }).port.noticeCount = 0 := by
  decide +kernel
theorem test_areaBaseWrite :
    (after (.areaBaseWrite 0x12345678) { desk with port := stoppedPort }).port.areaBase = 0x12344000 ∧
      (after (.areaBaseWrite 0x12345678) desk).port.areaBase = 0x4000 := by decide +kernel
theorem test_registerWrite : after (.registerWrite 0x10 5 Env.quiet) desk = desk := by decide +kernel
theorem test_busFault :
    let t := after (.busFault true 0x4500) (loading desk [ownHold 4 .loadTable])
    t.port.state = .fault ∧ t.port.faultCause = .write ∧ t.port.faultAddress = 0x4500 ∧
      t.tables.deny.cause = .aborted ∧ t.port.holds.length = 1 ∧ t.readRegister 0x08 = 0x1A3 := by decide +kernel
theorem test_powerOnReset :
    let t := after .powerOnReset aboard
    t.clock = Clock.reset ∧ t.tables = Tables.reset ∧ t.run.state = .noRun ∧ t.port = Port.reset := by decide +kernel

/-- With nothing in the queue the sweep goes on by one slot. -/
theorem test_idle_examines :
    (match step desk with
      | .next t => t.port.sweepLeft
      | .fault _ => 0
      | .refused _ => 0) = 31 := by decide +kernel

/-! ### What arrives inside a step -/

/-- R116: two ticks between stage 5 and stage 12 bring the clock to the new proposal's expiry. It lapses at once with its
notice before the ANSWERED notice, and the answer still reports it. -/
theorem test_inspect_two_ticks :
    let t := after (.inspect 0 1 (dayPass 2 77) { arrivals := [.nothing, .minuteTick, .minuteTick] }) running
    t.clockCount = 28945347 ∧ t.roster.map (fun e => (e.lastCount, e.mark.proposal)) = [(28945345, none)] ∧
      t.hostBytes (t.ringAddress 0 + 2) 1 = [3] ∧ t.hostBytes (t.ringAddress 1 + 2) 1 = [1] ∧
      t.hostBytes (t.slotAddress 0 + 85) 1 = [1] := by decide +kernel
/-- A tick and a clock step back inside the inspection in hand. R101: after the step the watch is not examined again. R59:
the tick was delivered with 28,945,346, the hold limit of slot 5, which ends with that clock count after the inspection. -/
theorem test_inspect_tick_and_step_back :
    let s := { running with port := { running.port with holds := [passHold 5 .denyLoad 28945346] } }
    let t := after (.inspect 0 1 lateTicket { arrivals := [.nothing, .minuteTick, .clockStep (-20) 7] }) s
    t.clockCount = 28945331 ∧ t.clock.second = 7 ∧ t.port.holds = [] ∧
      t.roster.map (fun e => (e.lastCount, e.watch.stage)) = [(28945345, .near), (28945346, .armed)] := by decide +kernel
/-- R151: a step back inside the first of two evaluations of a tick leaves the second the tick's clock count. -/
theorem test_tick_releases_at_its_count :
    let s := { unplaced with port := { sweepingPort with holds := [passHold 5 .placement 28945000, passHold 3 .placement 28945006] } }
    let t := after (.minuteTick { arrivals := [.clockStep (-9) 0] }) s
    t.clockCount = 28944997 ∧ t.port.holds = [] ∧ t.roster.map (fun e => (e.lastCount, e.inspections)) = [(28945006, 2)] := by
  decide +kernel
/-- R3, R4: a tick that comes inside the evaluation of a hold finds the prompt work of the tick before it done. The watch
lapses at 28,945,007 and is NEAR one minute before; DAY_CHANGED and NEAR carry 28,945,006, LAPSED the next count. -/
theorem test_tick_finds_the_tick_before_done :
    let s :=
      { unplaced with
        run := { unplaced.run with watchLead := 1 }
        clock := clockAt 28945006
        roster := [watched 0 28945007 .armed none]
        port := { sweepingPort with holds := [passHold 5 .placement 28945006] }
        arrivals := [.minuteTick] }
    let t := runTasks pollInspection 0 28945006 [.hold 5, .watch 0, .dayChanged] s
    [0, 1, 2, 3].map (fun i => t.hostBytes (t.ringAddress i + 2) 2 ++ t.hostBytes (t.ringAddress i + 8) 4) =
        [[2, 2] ++ le 4 28945006, [5, 0] ++ le 4 28945006, [2, 3] ++ le 4 28945007, [1, 0] ++ le 4 28945007] ∧
      t.port.noticeCount = 4 ∧ t.owed = [28945007] := by decide +kernel
/-- R161: the limit ends a hold in DOZE, and no clock step comes there. -/
theorem test_holdLimit_doze :
    let s := withHold .placement
    let t := after (.holdLimit 5 { arrivals := [.clockStep (-9) 7] })
      { s with clock := clockAt 28945015, power := .doze, port := { s.port with state := .idle } }
    t.clock = clockAt 28945015 ∧ t.power = .doze ∧ t.port.holds = [] ∧ t.port.noticeCount = 1 := by decide +kernel
/-- R60: in a release at a tick, a port reset before stage 12 leaves no trace, and one after it leaves the entry unanswered.
R156: an access that fails there leaves the hold on the frozen list and no entry. -/
theorem test_tick_release_stops :
    let s := { withHold .placement with clock := clockAt 28945014 }
    let t := after (.minuteTick { arrivals := [.portReset] }) s
    let u := after (.minuteTick { arrivals := [.nothing, .portReset] }) s
    let v := after (.minuteTick { arrivals := [.busFault false 0x20000] }) s
    t.port.state = .stopped ∧ t.roster = [] ∧ t.port.holds = [] ∧ u.port.state = .stopped ∧ u.roster.length = 1 ∧
      u.port.holds = [] ∧ u.hostBytes (u.slotAddress 5) 1 = [0] ∧ v.port.state = .fault ∧ v.port.faultAddress = 0x20000 ∧
      v.roster = [] ∧ v.port.holds = s.port.holds ∧ v.clockCount = 28945015 := by decide +kernel
/-- R77: a refused INSPECT shows the clock count of its answer, an unreadable one that of its take (R61). -/
theorem test_inspect_clock_counts :
    let t := after (.inspect 0 1 { lateTicket with coach := 0 } { arrivals := [.nothing, .minuteTick] }) running
    let u := after (.inspect 0 1 { lateTicket with record := zeros 46 } { arrivals := [.minuteTick] }) running
    t.hostBytes (t.slotAddress 0 + 108) 4 = le 4 28945346 ∧ u.hostBytes (u.slotAddress 0 + 108) 4 = le 4 28945345 ∧
      u.clockCount = 28945346 := by decide +kernel
/-- R91: the answer counts the images copied, of which a WIPE completed under the copy leaves one. -/
theorem test_readRoster_wiped :
    let s := wiping { desk with roster := [watched 0 28945105 .cleared none, watched 1 28945105 .cleared none] } []
    let t := after (.readRoster 0 1 { first := 0, count := 9, destination := 0x20000 } { arrivals := [.nothing, .wipeCompletion] }) s
    t.roster = [] ∧ t.hostBytes (t.slotAddress 0 + 72) 2 = [1, 0] := by decide +kernel
/-- R163: a LOAD_TABLE reads byte 0 of its arguments and then byte 4. After the slot's state, its TAKEN and its kind and tag
five bytes have passed; the sixth is argument byte 0, and the failing seventh is byte 4. -/
theorem test_loadTable_skips_zero_bytes :
    let t := after (.loadTable 0 7 loadArgs { bus := some 6 }) desk
    t.port.state = .fault ∧ t.port.faultAddress = 0x450C ∧ t.tables = desk.tables := by decide +kernel
/-- R134: the idle part leaves the last block of a load to its completion. -/
theorem test_idle_leaves_the_last_block :
    (match step (loading { desk with port := stoppedPort } []) with
      | .next t => t.tables.load.map LoadJob.copied
      | .fault _ => none
      | .refused _ => none) = some 0 := by decide +kernel
/-- R109: a deny load completed between two entries of a zone advance releases its hold there. -/
theorem test_depart_completion_between_entries :
    let s := loading
      { aboard with
        roster := [watched 0 28945105 .armed none, watched 1 28945105 .armed none], hostMemory := withImage.hostMemory }
      [passHold 5 .denyLoad 28945015, ownHold 4 .loadTable]
    let t := after (.depart 0 1 5 { arrivals := [.nothing, .nothing, .loadCompletion] }) s
    t.port.holds = [] ∧ t.tables.deny.state = .valid ∧
      t.roster.map (fun e => (e.lastStop, e.watch.stage)) = [(1, .lapsed), (1, .lapsed), (5, .armed)] ∧
      [0, 1, 2].map (fun i => t.hostBytes (t.ringAddress i + 2) 3) = [[2, 3, 0], [1, 0, 5], [1, 0, 4]] ∧
      t.hostBytes (t.ringAddress 3 + 2) 3 = [2, 3, 1] := by decide +kernel

/-! ### A state and operands that meet the hypotheses of each statement, clause by clause -/

/-- The two premises that every statement about a taken request has. -/
def Ready (s : State) (slot : Slot) : Prop := Memory.wf s.hostMemory = true ∧ s.isNext slot

theorem desk_ready (slot : Slot) : Ready desk slot := desk_takes slot
theorem aboard_ready (slot : Slot) : Ready aboard slot := aboard_takes slot
theorem running_ready (slot : Slot) : Ready running slot := running_takes slot
theorem unplaced_ready (slot : Slot) : Ready unplaced slot := unplaced_takes slot

/-- The last examination of a sweep, at slot 0. -/
theorem witness_SweepCarriesOutThePostedSlot_posted :
    let s : State := { desk with port := { sweepingPort with sweepLeft := 1 } }
    Memory.wf s.hostMemory = true ∧ s.pending = [] ∧ s.port.state = .sweeping ∧ 0 < s.port.sweepLeft ∧
      s.port.sweepNext = 0 ∧ s.isHeld 0 = false ∧ Request.wipe.wellFormed = true := by decide +kernel
theorem witness_SweepCarriesOutThePostedSlot_idle :
    State.reset.pending = [] ∧ State.reset.port.state ≠ .sweeping ∧ State.reset.busLeft = none ∧
      State.reset.arrivals = [] ∧ State.reset.owed = [] ∧ State.reset.tables.load = none ∧ State.reset.power ≠ .dozePending := by decide
/-- 33 deny entries are 528 bytes, one block and 16 bytes more. -/
theorem witness_SweepCarriesOutThePostedSlot_copy :
    let job : LoadJob := { kind := .deny, source := 0x20000, copied := 0 }
    let s : State :=
      { State.reset with
        tables := { Tables.reset with deny := { Descriptor.reset with state := .loading, count := 33 }, load := some job } }
    s.pending = [] ∧ s.port.state ≠ .sweeping ∧ s.busLeft = none ∧ s.arrivals = [] ∧ s.owed = [] ∧ s.tables.load = some job ∧
      min 512 (s.tables.toCopy job) < s.tables.toCopy job := by decide

theorem clockAt_inRange : (clockAt 28945005).InRange := by constructor <;> decide
theorem witness_ClockCountDerivation_same : (clockAt 28945005).InRange ∧ (clockAt 28945005).dayChange ≤ (clockAt 28945005).minute :=
  ⟨clockAt_inRange, by decide⟩
theorem witness_ClockCountDerivation_before :
    Clock.reset.InRange ∧ Clock.reset.minute < Clock.reset.dayChange ∧ Clock.reset.day = 1 ∧ Clock.reset.minute = 0 :=
  ⟨by constructor <;> decide, by decide⟩
theorem witness_ClockCountDerivation_top :
    let c : Clock := { day := 65535, minute := 1439, second := 59, dayChange := 359, isSet := true }
    c.InRange ∧ c.day = 65535 ∧ c.minute = 1439 := ⟨by constructor <;> decide, by decide⟩
theorem witness_ClockCountDerivation_inverse :
    28944000 % 1440 + Clock.reset.dayChange < 1440 ∧ 1440 ≤ (28944000 + 1260) % 1440 + Clock.reset.dayChange := by decide

theorem witness_SecondAdvances :
    ({ desk with clock := { desk.clock with second := 58 } } : State).clock.second < 59 ∧
      ({ desk with clock := { desk.clock with second := 59 } } : State).clock.second = 59 ∧
      ({ desk with clock := { desk.clock with day := 65535, minute := 1439 } } : State).clock.isTop = true := by decide

theorem witness_MinuteTickDelivers :
    let s : State := { aboard with roster := [watched 0 28945006 .near (some (proposalAt 28945006))] }
    Memory.wf s.hostMemory = true ∧ ¬(s.clock.day = 65535 ∧ s.clock.minute = 1439) ∧
      s.dueHolds s.clock.advance.count = [] := by decide
theorem witness_MinuteTickDelivers_last :
    let s : State := { aboard with clock := { desk.clock with day := 65535, minute := 1438 } }
    Memory.wf s.hostMemory = true ∧ ¬(s.clock.day = 65535 ∧ s.clock.minute = 1439) ∧
      s.dueHolds s.clock.advance.count = [] := by decide

/-- Two inspections held for a position, one from before the limit and one whose limit the next tick reaches. -/
def twoHolds (awaits : Awaits) : List Hold := [passHold 5 awaits 28945000, passHold 3 awaits 28945006]

/-- The train gone from stop 4 with both of them held, and a third that is not due. -/
def withHolds (awaits : Awaits) : State :=
  { unplaced with port := { sweepingPort with holds := twoHolds awaits ++ [passHold 9 awaits 28945007] } }

theorem witness_MinuteTickDelivers_due :
    let s := withHolds .placement
    let u : State := { s with port := { s.port with state := .stopped } }
    Memory.wf s.hostMemory = true ∧ ¬(s.clock.day = 65535 ∧ s.clock.minute = 1439) ∧ s.clock.advance.count = 28945006 ∧
      s.clock.isSet = true ∧ s.clock.advance.serviceDay = s.clock.serviceDay ∧
      (∀ e ∈ s.roster, Entry.ticked s 28945006 e = e) ∧ (s.port.holds.map Hold.slot).Nodup ∧
      s.port.holds.filter (fun h => h.limitReached 28945006) = twoHolds .placement ∧ s.port.state.writes = true ∧
      u.port.state = .stopped := by decide +kernel
/-- The same with an entry aboard on which nothing is due. -/
theorem witness_MinuteTickDelivers_entry :
    let e := watched 0 28945105 .armed (some (proposalAt 28945007))
    Entry.ticked { withHolds .placement with roster := [e] } 28945006 e = e := by decide +kernel

/-- A SET_CLOCK. -/
def setArgs (day minute second present dayChange : Nat) : SetClockArgs where
  day := BitVec.ofNat 16 day
  minute := BitVec.ofNat 16 minute
  second := BitVec.ofNat 8 second
  presentFlag := BitVec.ofNat 8 present
  dayChange := BitVec.ofNat 16 dayChange

theorem witness_SetClockOutrightOrRefused_set :
    let a := setArgs 65535 1439 59 1 359
    Ready desk 0 ∧ desk.runOpen = false ∧ 1 ≤ a.day.toNat ∧ a.minute.toNat ≤ 1439 ∧ a.second.toNat ≤ 59 ∧
      (flagSet a.presentFlag = true → a.dayChange.toNat ≤ 359) := ⟨desk_ready 0, by decide⟩
theorem witness_SetClockOutrightOrRefused_keep :
    let a := setArgs 1 0 0 0 400
    Ready desk 31 ∧ desk.runOpen = false ∧ 1 ≤ a.day.toNat ∧ a.minute.toNat ≤ 1439 ∧ a.second.toNat ≤ 59 ∧
      (flagSet a.presentFlag = true → a.dayChange.toNat ≤ 359) := ⟨desk_ready 31, by decide⟩
theorem witness_SetClockOutrightOrRefused_arguments :
    Ready desk 0 ∧ (setArgs 0 0 0 0 0).day.toNat = 0 ∧ 1439 < (setArgs 1 1440 0 0 0).minute.toNat ∧
      59 < (setArgs 1 0 60 0 0).second.toNat ∧
      (flagSet (setArgs 1 0 0 1 360).presentFlag = true ∧ 359 < (setArgs 1 0 0 1 360).dayChange.toNat) :=
  ⟨desk_ready 0, by decide⟩
theorem witness_SetClockOutrightOrRefused_runOpen :
    let a := setArgs 20100 0 0 1 359
    Ready aboard 0 ∧ 1 ≤ a.day.toNat ∧ a.minute.toNat ≤ 1439 ∧ a.second.toNat ≤ 59 ∧ flagSet a.presentFlag = true ∧
      a.dayChange.toNat ≤ 359 ∧ a.dayChange.toNat ≠ aboard.clock.dayChange ∧ aboard.runOpen = true :=
  ⟨aboard_ready 0, by decide⟩

/-- The premises of a SET_CLOCK during a run: the request, the reading it leads to, and how far the clock goes. -/
def Steps (s : State) (a : SetClockArgs) (c : Clock) (requested delta : Int) : Prop :=
  s.clock.InRange ∧ s.runOpen = true ∧ 1 ≤ a.day.toNat ∧ a.minute.toNat ≤ 1439 ∧ a.second.toNat ≤ 59 ∧
    (flagSet a.presentFlag = true → a.dayChange.toNat = s.clock.dayChange) ∧
    requested = (a.day.toNat : Int) * 1440 + a.minute.toNat - s.clock.dayChange - s.clock.count ∧
    delta =
      max (1440 - (s.clock.dayChange : Int))
          (min (94371839 - (s.clock.dayChange : Int)) (s.clock.count + max (-15) (min 15 requested)))
        - s.clock.count ∧
    c.count = (s.clock.count : Int) + delta ∧ c.InRange ∧ c.second = a.second.toNat ∧ c.dayChange = s.clock.dayChange ∧
    c.isSet = s.clock.isSet

/-- The reading in force is 20,100, minute 1185: the same minute is asked for with another second. -/
theorem witness_SetClockSteps_zero :
    Ready aboard 0 ∧ Steps aboard (setArgs 20100 1185 33 1 180) { aboard.clock with second := 33 } 0 0 :=
  ⟨aboard_ready 0, clockAt_inRange, by decide, by decide, by decide, by decide, by decide, by decide, by decide, by decide,
    by constructor <;> decide, by decide, by decide, by decide⟩
/-- Sixteen minutes back are limited to fifteen. -/
theorem witness_SetClockSteps_back :
    Ready aboard 0 ∧ Steps aboard (setArgs 20100 1169 0 0 0) (clockAt 28944990) (-16) (-15) ∧
      aboard.dueHolds (clockAt 28944990).count = [] :=
  ⟨aboard_ready 0, ⟨clockAt_inRange, by decide, by decide, by decide, by decide, by decide, by decide, by decide, by decide,
    by constructor <;> decide, by decide, by decide, by decide⟩, by decide⟩
/-- At the top reading a step forward has no room: from one minute below it fifteen minutes forward are one. -/
theorem witness_SetClockSteps_top :
    let s : State := { aboard with clock := { day := 65535, minute := 1438, second := 0, dayChange := 180, isSet := true } }
    let c : Clock := { day := 65535, minute := 1439, second := 0, dayChange := 180, isSet := true }
    Ready s 0 ∧ Steps s (setArgs 65535 1439 0 0 0) c 1 1 ∧ s.dueHolds c.count = [] :=
  ⟨taken rfl rfl rfl rfl, ⟨by constructor <;> decide, by decide, by decide, by decide, by decide, by decide, by decide,
    by decide, by decide, by constructor <;> decide, by decide, by decide, by decide⟩, by decide⟩

theorem witness_LineGeometry :
    let stops := (fullTables.entries .stops).map Stop.ofBytes
    stops[1]? = some { code := 4102, network := 1, zone := 10 } ∧ stops[2]? = some { code := 4107, network := 1, zone := 11 } ∧
      0 ≤ 9 ∧ 9 < stops.length := by decide +kernel

theorem witness_OpenRunAnswered_opened :
    let a := { openArgs with coachCount := 16, classes := List.replicate 16 2, direction := 1, startStop := 9 }
    Ready desk 0 ∧ desk.runOpen = false ∧ desk.tables.stops.state = .valid ∧ desk.tables.tariff.state = .valid ∧
      desk.tables.wiping = false ∧ desk.clock.isSet = true ∧ a.classes.length = 16 ∧ a.runId ≠ 0 ∧ a.terminal ≠ 0 ∧
      Direction.ofByte a.direction = some .down ∧ a.startStop.toNat < desk.tables.stopCount ∧ 1 ≤ a.coachCount.toNat ∧
      a.coachCount.toNat ≤ 16 ∧ (∀ c ∈ a.classes.take a.coachCount.toNat, c = 1 ∨ c = 2) := ⟨desk_ready 0, by decide +kernel⟩
theorem witness_OpenRunAnswered_runOpen : Ready aboard 0 ∧ openArgs.classes.length = 16 ∧ aboard.runOpen = true :=
  ⟨aboard_ready 0, by decide⟩
theorem witness_OpenRunAnswered_tables :
    let s : State := { desk with tables := Tables.reset }
    let u : State := { desk with tables := { fullTables with tariff := Descriptor.reset } }
    let v : State := { desk with tables := { fullTables with wiping := true } }
    Ready s 0 ∧ Ready u 0 ∧ Ready v 0 ∧ s.runOpen = false ∧ u.runOpen = false ∧ v.runOpen = false ∧
      s.tables.stops.state ≠ .valid ∧ u.tables.tariff.state ≠ .valid ∧ v.tables.wiping = true :=
  ⟨taken rfl rfl rfl rfl, taken rfl rfl rfl rfl, taken rfl rfl rfl rfl, by decide⟩
theorem witness_OpenRunAnswered_clock :
    let s : State := { desk with clock := Clock.reset }
    Ready s 0 ∧ s.runOpen = false ∧ s.tables.stops.state = .valid ∧ s.tables.tariff.state = .valid ∧
      s.tables.wiping = false ∧ s.clock.isSet = false := ⟨taken rfl rfl rfl rfl, by decide⟩
theorem witness_OpenRunAnswered_arguments :
    Ready desk 0 ∧ desk.runOpen = false ∧ desk.clock.isSet = true ∧ desk.tables.stops.state = .valid ∧
      desk.tables.tariff.state = .valid ∧ desk.tables.wiping = false ∧
      ((2 : Byte) ≠ 0 ∧ (2 : Byte) ≠ 1) ∧ desk.tables.stopCount ≤ (10 : Byte).toNat ∧ 16 < (17 : Byte).toNat ∧
      ∃ c ∈ ([1, 2, 3] ++ zeros 13 : List Byte).take 3, c ≠ 1 ∧ c ≠ 2 :=
  ⟨desk_ready 0, by decide +kernel⟩

theorem witness_DepartAccepted :
    Ready aboard 0 ∧ aboard.run.state = .standing ∧ aboard.run.position = some 1 ∧
      1 ≠ aboard.run.direction.terminus aboard.tables.stopCount ∧ (9 : Byte) ≠ 0xFF ∧
      (9 : Byte).toNat < aboard.tables.stopCount ∧ (2 : Byte).toNat < aboard.tables.stopCount ∧
      aboard.run.direction.isAhead 1 (2 : Byte).toNat = true ∧ aboard.run.direction.isAhead 1 (9 : Byte).toNat = true :=
  ⟨aboard_ready 0, by decide +kernel⟩

theorem witness_PassagesRefused_run :
    Ready desk 0 ∧ desk.run.state = .noRun ∧ Ready running 0 ∧ running.run.state = .running ∧ Ready unplaced 0 ∧
      unplaced.run.state = .runningUnplaced ∧ Ready aboard 0 ∧ aboard.run.state = .standing :=
  ⟨desk_ready 0, by decide, running_ready 0, by decide, unplaced_ready 0, by decide, aboard_ready 0, by decide⟩
theorem witness_PassagesRefused_endOfLine :
    let s : State := { desk with run := openRun7 .standing 9 none }
    Ready s 0 ∧ s.run.state = .standing ∧ s.run.position = some 9 ∧ 9 = s.run.direction.terminus s.tables.stopCount :=
  ⟨taken rfl rfl rfl rfl, by decide +kernel⟩
theorem witness_PassagesRefused_depart :
    Ready aboard 0 ∧ aboard.run.state = .standing ∧ aboard.run.position = some 1 ∧
      1 ≠ aboard.run.direction.terminus aboard.tables.stopCount ∧ (10 : Byte) ≠ 0xFF ∧
      aboard.tables.stopCount ≤ (10 : Byte).toNat ∧ (1 : Byte) ≠ 0xFF ∧ (1 : Byte).toNat < aboard.tables.stopCount ∧
      aboard.run.direction.isAhead 1 (1 : Byte).toNat = false := ⟨aboard_ready 0, by decide +kernel⟩
theorem witness_PassagesRefused_arrive :
    Ready running 0 ∧ running.run.state = .running ∧ running.run.position = some 6 ∧
      running.tables.stopCount ≤ (10 : Byte).toNat ∧ (6 : Byte).toNat < running.tables.stopCount ∧
      running.run.direction.isAhead 6 (6 : Byte).toNat = false := ⟨running_ready 0, by decide +kernel⟩

theorem witness_ArriveAccepted_alone :
    Ready running 0 ∧ running.run.state = .running ∧ running.run.position = some 6 ∧
      (9 : Byte).toNat < running.tables.stopCount ∧ running.run.direction.isAhead 6 (9 : Byte).toNat = true ∧
      running.run.direction.isAhead 6 (7 : Byte).toNat = true ∧ (∀ h ∈ running.port.holds, h.awaits ≠ .placement) :=
  ⟨running_ready 0, by decide +kernel⟩
theorem witness_ArriveAccepted_loading :
    let s := loading (withHold .placement) [passHold 5 .placement 28945015, ownHold 4 .loadTable]
    Ready s 0 ∧ s.run.state = .runningUnplaced ∧ s.run.position = some 4 ∧ (5 : Byte).toNat < s.tables.stopCount ∧
      s.run.direction.isAhead 4 (5 : Byte).toNat = true ∧ (s.port.holds.map Hold.slot).Nodup ∧
      s.tables.deny.state = .loading := ⟨taken rfl rfl rfl (by decide), by decide +kernel⟩

/-- The tariff entry of the day pass. -/
def passProduct : Product where
  code := 3
  kind := .network
  period := .days
  baseMinutes := 0
  perZoneMinutes := 0
  maxMinutes := 0
  days := 1
  grace := 10
  accommodation := 2
  maxZones := 0
  watchClass := .lapse
  markable := true

/-- The tariff entry of the late ticket. -/
def ticketProduct : Product where
  code := 2
  kind := .zoneCount
  period := .minutes
  baseMinutes := 60
  perZoneMinutes := 20
  maxMinutes := 120
  days := 0
  grace := 5
  accommodation := 2
  maxZones := 63
  watchClass := .lead
  markable := false

/-- What is kept of the day pass when it is read. -/
def passCopy : InspectCopy where
  coach := 3
  heads := 1
  record := (dayPass 2 77).record
  product := passProduct

theorem witness_ArriveAccepted_released :
    let s := withHolds .placement
    Ready s 0 ∧ s.run.state = .runningUnplaced ∧ s.run.position = some 4 ∧ (9 : Byte).toNat < s.tables.stopCount ∧
      s.run.direction.isAhead 4 (9 : Byte).toNat = true ∧ (s.port.holds.map Hold.slot).Nodup ∧
      s.tables.deny.state ≠ .loading ∧
      s.port.holds.filter (fun h => h.awaits == .placement) = s.port.holds ∧ s.port.holds.length = 3 ∧
      (∀ h ∈ s.port.holds, h.isInspect = true) ∧
      (passHold 5 .placement 28945000).work = .inspect 28945000 passCopy :=
  ⟨taken rfl rfl rfl (by decide), by decide +kernel⟩

theorem witness_CloseRunAnswered :
    Ready desk 0 ∧ desk.runOpen = false ∧ Ready aboard 0 ∧ aboard.runOpen = true ∧
      (∀ h ∈ aboard.port.holds, h.isInspect = false) := ⟨desk_ready 0, by decide, aboard_ready 0, by decide⟩
theorem witness_CloseRunAnswered_held :
    let s := loading (withHolds .placement) (twoHolds .placement ++ [ownHold 4 .loadTable])
    Ready s 0 ∧ s.runOpen = true ∧ (s.port.holds.map Hold.slot).Nodup ∧
      s.port.holds.filter Hold.isInspect = twoHolds .placement ∧ s.run.state = .runningUnplaced ∧
      s.tables.deny.state = .loading := ⟨taken rfl rfl rfl (by decide), by decide +kernel⟩

theorem witness_CrcOfRecords :
    crcShift 0x8000#16 = 0x1021#16 ∧ (0x8000#16).msb = true ∧ (0x4000#16).msb = false ∧ lateTicket.record.length = 46 ∧
      (proposalAt 28945007).bytes.length = 16 := by decide +kernel

/-- The premises of a taken INSPECT that stage 1 reads. -/
def Examined (s : State) (a : InspectArgs) : Prop :=
  a.record.length = 46 ∧ s.runOpen = true ∧ a.coach ≠ 0 ∧ a.coach.toNat ≤ s.run.coachCount ∧ a.heads.toNat ≤ 9

/-- The premises of an INSPECT that passes stage 3. -/
def Readable (s : State) (a : InspectArgs) (p : Product) : Prop :=
  Examined s a ∧ crc (a.record.take 44) = (Credential.ofRecord a.record).check ∧
    (Credential.ofRecord a.record).generalRanges = true ∧
    s.tables.productWithCode (Credential.ofRecord a.record).productCode = some p ∧
    (Credential.ofRecord a.record).kindRanges p = true

theorem witness_InspectNotEvaluated_refused :
    Ready desk 0 ∧ desk.runOpen = false ∧ Ready aboard 0 ∧ aboard.runOpen = true ∧ lateTicket.record.length = 46 ∧
      aboard.run.coachCount < (4 : Byte).toNat ∧ 9 < (10 : Byte).toNat :=
  ⟨desk_ready 0, by decide, aboard_ready 0, by decide⟩
theorem witness_InspectNotEvaluated_check :
    let a := { lateTicket with record := zeros 46 }
    Ready aboard 0 ∧ Examined aboard a ∧ crc (a.record.take 44) ≠ (Credential.ofRecord a.record).check :=
  ⟨aboard_ready 0, ⟨by decide, by decide, by decide, by decide, by decide⟩, by decide +kernel⟩
/-- Travel class 3. -/
theorem witness_InspectNotEvaluated_general :
    let a := { lateTicket with record := recordBytes 3 2 99 0 0 0 3 4110 20100 1250 3 1 0 }
    Ready aboard 0 ∧ Examined aboard a ∧ crc (a.record.take 44) = (Credential.ofRecord a.record).check ∧
      (Credential.ofRecord a.record).generalRanges = false :=
  ⟨aboard_ready 0, ⟨by decide +kernel, by decide, by decide, by decide, by decide⟩, by decide +kernel⟩
/-- Product 4 is not in the tariff. -/
theorem witness_InspectNotEvaluated_product :
    let a := { lateTicket with record := recordBytes 3 4 99 0 0 0 3 4110 20100 1250 2 1 0 }
    Ready aboard 0 ∧ Examined aboard a ∧ crc (a.record.take 44) = (Credential.ofRecord a.record).check ∧
      (Credential.ofRecord a.record).generalRanges = true ∧
      aboard.tables.productWithCode (Credential.ofRecord a.record).productCode = none :=
  ⟨aboard_ready 0, ⟨by decide +kernel, by decide, by decide, by decide, by decide⟩, by decide +kernel⟩
/-- A zone count of 0 on a ZONE_COUNT product. -/
theorem witness_InspectNotEvaluated_kind :
    let a := { lateTicket with record := recordBytes 3 2 99 0 0 0 0 4110 20100 1250 2 1 0 }
    Ready aboard 0 ∧ Examined aboard a ∧ crc (a.record.take 44) = (Credential.ofRecord a.record).check ∧
      (Credential.ofRecord a.record).generalRanges = true ∧
      aboard.tables.productWithCode (Credential.ofRecord a.record).productCode = some ticketProduct ∧
      (Credential.ofRecord a.record).kindRanges ticketProduct = false :=
  ⟨aboard_ready 0, ⟨by decide +kernel, by decide, by decide, by decide, by decide⟩, by decide +kernel⟩

theorem witness_InspectHeld_placement :
    Ready unplaced 0 ∧ Readable unplaced (dayPass 2 77) passProduct ∧ unplaced.run.state = .runningUnplaced :=
  ⟨unplaced_ready 0, ⟨⟨by decide +kernel, by decide, by decide, by decide, by decide⟩, by decide +kernel⟩, by decide⟩
theorem witness_InspectHeld_denyLoad :
    let s := loading aboard [ownHold 4 .loadTable]
    Ready s 0 ∧ Readable s (dayPass 2 77) passProduct ∧ s.run.state ≠ .runningUnplaced ∧ s.tables.deny.state = .loading :=
  ⟨taken rfl rfl rfl (by decide), ⟨⟨by decide +kernel, by decide, by decide, by decide, by decide⟩, by decide +kernel⟩,
    by decide⟩
theorem witness_InspectRecorded :
    Ready running 0 ∧ Readable running lateTicket ticketProduct ∧ running.run.state ≠ .runningUnplaced ∧
      running.tables.deny.state ≠ .loading :=
  ⟨running_ready 0, ⟨⟨by decide +kernel, by decide, by decide, by decide, by decide⟩, by decide +kernel⟩, by decide⟩

/-- The id stands at an index, or it stands nowhere and there is room. -/
theorem witness_InspectRecorded_room :
    let c := Credential.ofRecord lateTicket.record
    let e := { watched 0 28945105 .near none with credentialId := 99 }
    let s : State := { running with roster := [watched 0 28945105 .near none, e] }
    s.roster[1]? = some e ∧ e.credentialId = c.credentialId ∧
      (s.roster.take 1).all (fun x => x.credentialId != c.credentialId) = true ∧ running.roster = [] := by decide +kernel
/-- The roster is full of others. -/
theorem witness_InspectRecorded_full :
    let s : State := { running with roster := List.replicate 512 (watched 0 28945105 .near none) }
    Ready s 0 ∧ 512 ≤ s.roster.length ∧
      ∀ x ∈ s.roster, x.credentialId ≠ (Credential.ofRecord lateTicket.record).credentialId := by
  refine ⟨taken rfl rfl rfl rfl, Nat.le_of_eq List.length_replicate.symm, fun x hx => ?_⟩
  rw [(List.mem_replicate.mp hx).2]
  decide +kernel
/-- A markable pass on a card of medium 1 has a proposal, the late ticket has none. -/
theorem witness_InspectRecorded_proposal :
    (judge passCopy running).verdict = .valid ∧ passCopy.product.markable = true ∧
      (Credential.ofRecord passCopy.record).media = 1 ∧ ticketProduct.markable = false := by decide +kernel

theorem witness_InspectionMeetsAPortReset :
    Ready aboard 31 ∧ Readable aboard (dayPass 1 77) passProduct ∧ aboard.run.state ≠ .runningUnplaced ∧
      aboard.tables.deny.state ≠ .loading :=
  ⟨aboard_ready 31, ⟨⟨by decide +kernel, by decide, by decide, by decide, by decide⟩, by decide +kernel⟩, by decide⟩

theorem witness_InspectionMeetsAPortReset_held :
    let h := passHold 5 .placement 28945005
    let s : State := { unplaced with port := { sweepingPort with holds := [h] } }
    Memory.wf s.hostMemory = true ∧ s.port.state.writes = true ∧ s.holdOf 5 = some h ∧
      h.work = .inspect 28945005 passCopy ∧ 28945005 ≤ s.clockCount := by decide +kernel

theorem witness_VerdictFold :
    hasReason (reasonSet [.expired, .repeated]) .expired = true ∧ Reason.expired.verdict? = some .invalid ∧
      foldVerdict (reasonSet [.expired, .repeated]) ≠ .valid := by decide
/-- 4.12, "A late ticket": activated at 28,945,250, end count 28,945,350; skew tolerance 5. -/
theorem witness_TimeStage :
    let c := Credential.ofRecord lateTicket.record
    ticketProduct.period = .minutes ∧ ticketProduct.kind = .zoneCount ∧ passProduct.period = .days ∧
      ({ passProduct with period := .minutes } : Product).kind ≠ .zoneCount ∧ c.activationMinute ≤ 1439 ∧
      ticketProduct.inRange = true ∧ Reason.notYetValid ∈ timeReasons 5 ticketProduct c 28945244 ∧
      timeReasons 5 ticketProduct c 28945245 = [] := by decide +kernel

/-- The late ticket at stop 7, three of whose zones are 2 to 4. -/
theorem witness_ZonesAheadFormula :
    let c := Credential.ofRecord lateTicket.record
    fullTables.ordinals = lineOrdinals ((fullTables.entries .stops).map Stop.ofBytes) ∧ (∀ o ∈ fullTables.ordinals, o ≤ 63) ∧
      ticketProduct.kind = .zoneCount ∧ 1 ≤ c.zoneCount ∧ fullTables.stopWithCode c.originStop = some 3 ∧
      7 < fullTables.stopCount ∧ (coverageOf fullTables ticketProduct c).covers fullTables 7 = true := by decide +kernel

/-- A ZONE_RANGE product made of the day pass. -/
def rangeProduct : Product := { passProduct with kind := .zoneRange }

theorem witness_PlaceAgreesWithCoverage_ranges :
    let c := Credential.ofRecord (recordBytes 1 3 77 1 11 12 0 0 20100 600 2 1 0)
    (∀ o ∈ fullTables.ordinals, o ≤ 63) ∧ c.kindRanges rangeProduct = true ∧ rangeProduct.kind = .zoneRange ∧
      (fullTables.stopAt 5).network ≠ c.network ∧ rangeProduct.kind ≠ .zoneCount ∧
      (fullTables.stopAt 1).network = c.network ∧ (fullTables.stopAt 1).zone < c.zoneLo ∧
      placeReasons fullTables rangeProduct c 1 ≠ [] ∧ placeReasons fullTables rangeProduct c 2 = [] := by decide +kernel
/-- Stop 9 has ordinal 5, three from the origin's 2, with a zone count of 3. -/
theorem witness_PlaceAgreesWithCoverage_count :
    let c := Credential.ofRecord lateTicket.record
    c.kindRanges ticketProduct = true ∧ ticketProduct.kind = .zoneCount ∧
      ∀ o, fullTables.stopWithCode c.originStop = some o →
        (c.zoneCount : Int) - 1 < |(fullTables.ordinal 9 : Int) - fullTables.ordinal o| := by
  refine ⟨by decide +kernel, rfl, fun o ho => ?_⟩
  have h3 : fullTables.stopWithCode (Credential.ofRecord lateTicket.record).originStop = some 3 := by decide +kernel
  rw [h3] at ho
  cases ho
  decide +kernel

/-- A mark that another terminal of the run left on the card. -/
theorem witness_HistoryStage_card :
    let mark := withCheck (markBody 7310042 2 4 28945030 1 .valid 42)
    let c := { Credential.ofRecord (dayPass 2 77).record with lastMarkPresent := true, lastMark := mark }
    (cardSighting aboard.run [] c).isSome = true ∧ (⟨3, 28945010⟩ : Sighting).count < (⟨4, 28945030⟩ : Sighting).count ∧
      (⟨4, 28945030⟩ : Sighting).count ≤ (⟨5, 28945030⟩ : Sighting).count := by decide +kernel

theorem witness_DenyClassAndHeadsStages :
    Tables.reset.deny.state ≠ .valid ∧ fullTables.deny.state = .valid ∧ fullTables.wiping = false ∧
      aboard.run.state = .standing ∧ aboard.run.position = some 1 ∧ running.run.state = .running ∧
      running.run.nextStop = some 7 ∧ unplaced.run.state = .runningUnplaced ∧ aboard.run.coachClasses[1 - 1]? = some 1 ∧
      aboard.run.coachClasses[3 - 1]? = some 2 ∧ ticketProduct.accommodation = 2 ∧
      (Credential.ofRecord lateTicket.record).passengers < 2 ∧ 1 ≤ (Credential.ofRecord lateTicket.record).passengers := by
  decide +kernel

/-! Watches, holds and marks -/

theorem witness_TimeWatchMoves :
    let e := watched 0 28945015 .armed none
    let f := watched 1 28945005 .near none
    let s : State := { aboard with roster := [e, f] }
    Memory.wf s.hostMemory = true ∧ s.roster[0]? = some e ∧ s.roster[1]? = some f ∧ s.runOpen = true ∧
      e.watch.timeMove s.run.watchLead s.clockCount = some .near ∧
      f.watch.timeMove s.run.watchLead s.clockCount = some .lapsed := by decide
theorem witness_TimeWatchMoves_not :
    let e := watched 0 28945016 .armed none
    let s : State := { aboard with roster := [e] }
    desk.runOpen = false ∧ s.roster.length ≤ 1 ∧ s.roster[0]? = some e ∧
      e.watch.timeMove s.run.watchLead s.clockCount ≠ some .near := by decide
theorem witness_WatchAdvances :
    let w := (watched 0 28945015 .armed none).watch
    w.kind = .both ∧ w.lapse = some 28945015 ∧ w.stage = .armed ∧ Watch.off.kind = .none ∧ Watch.off.stage = .cleared ∧
      (watched 0 28945015 .lapsed none).watch.stage = .lapsed := by decide
/-- The coverage 0..2 ends with stop 4: NEAR there, LAPSED at stop 5, nothing at stop 2. -/
theorem witness_WatchAdvances_zone :
    let e := watched 0 28945015 .armed none
    (e.watch.kind = .zone ∨ e.watch.kind = .both) ∧ e.coverage.covers fullTables 5 = false ∧
      zoneMove fullTables .up 5 e = some .lapsed ∧ e.coverage.covers fullTables 4 = true ∧
      zonesAhead fullTables .up e.coverage 4 = 0 ∧ zoneMove fullTables .up 4 e = some .near ∧
      zoneMove fullTables .up 2 e = none ∧ zoneMove fullTables .up 5 (watched 0 28945015 .near none) = some .lapsed := by
  decide +kernel
theorem witness_ArmingTable_armed :
    let c : InspectCopy := { coach := 3, heads := 1, record := lateTicket.record, product := ticketProduct }
    let j := judge c running
    j.verdict = .valid ∧ c.product.watchClass ≠ .none ∧ (armWatch running j c.product).kind = .both ∧
      (armWatch running j c.product).stage = .near := by decide +kernel
theorem witness_ArmingTable_off :
    let c : InspectCopy := { coach := 3, heads := 1, record := lateTicket.record, product := ticketProduct }
    let j := judge c { running with clock := clockAt 28945355 }
    j.verdict ≠ .valid ∧ j.verdict ≠ .noted := by decide +kernel

theorem witness_HoldLimitEndsTheHold_ends :
    let h := passHold 5 .placement 28945005
    let s : State := { unplaced with port := { sweepingPort with holds := [h] } }
    let u : State := { s with port := { stoppedPort with holds := [h] } }
    Memory.wf s.hostMemory = true ∧ s.holdOf 5 = some h ∧ u.holdOf 5 = some h ∧ h.work = .inspect 28945005 passCopy ∧
      28945005 ≤ s.clockCount ∧ s.port.state.writes = true ∧ u.port.state = .stopped ∧ 28945005 ≤ u.clockCount := by
  decide +kernel
theorem witness_HoldLimitEndsTheHold_stays :
    let h := passHold 5 .placement 28945006
    let s : State := { unplaced with port := { sweepingPort with holds := [h] } }
    s.holdOf 5 = some h ∧ h.limitReached s.clockCount = false ∧ s.holdOf 6 = none ∧
      ({ s with port := { s.port with state := .fault } } : State).port.state = .fault := by decide +kernel

/-- An examination delivered with 28,945,015, before a step back to 28,945,005: a limit at it, and one above it. -/
theorem witness_HoldLimitEndsTheHold_delivered :
    let h := passHold 5 .placement 28945015
    let s : State := { unplaced with port := { stoppedPort with holds := [h] } }
    s.holdOf 5 = some h ∧ h.work = .inspect 28945015 passCopy ∧ 28945014 < 28945015 ∧
      s.clockCount ≤ 28945015 ∧ s.port.state = .stopped := by
  decide +kernel

theorem witness_ProposalLapses :
    let e := watched 0 28945080 .armed (some (proposalAt 28945005))
    let f := watched 1 28945080 .armed (some (proposalAt 28945006))
    let s : State := { aboard with roster := [e, f] }
    Memory.wf s.hostMemory = true ∧ s.roster[0]? = some e ∧ e.mark.proposal = some (proposalAt 28945005) ∧
      (proposalAt 28945005).expiry ≤ s.clockCount ∧ s.roster[1]? = some f ∧ f.mark.proposal = some (proposalAt 28945006) ∧
      s.clockCount < (proposalAt 28945006).expiry ∧ s.roster.length ≤ 2 := by decide +kernel

/-- An evaluation at 28,945,345; its proposal is live at 28,945,346 and lapses at once at 28,945,347. -/
theorem witness_ProposalLapses_atOnce :
    let e := watched 0 28945500 .armed none
    let j := judge passCopy running
    let s : State := { running with roster := [e], clock := clockAt 28945347 }
    let u : State := { running with roster := [e], clock := clockAt 28945346 }
    mayPropose j passCopy = true ∧ s.roster[0]? = some e ∧ j.clockCount + 2 ≤ s.clockCount ∧
      u.clockCount < j.clockCount + 2 := by decide +kernel

theorem witness_ConfirmMarkJudged_refused :
    let s : State := { aboard with roster := [watched 0 28945080 .armed none] }
    Ready desk 0 ∧ desk.runOpen = false ∧ Ready s 0 ∧ s.runOpen = true ∧ s.roster.length ≤ (1 : Half).toNat ∧
      s.roster[(0 : Half).toNat]? = some (watched 0 28945080 .armed none) ∧
      (watched 0 28945080 .armed none).mark.proposal = none ∧ (zeros 16).length = 16 :=
  ⟨desk_ready 0, by decide, taken rfl rfl rfl rfl, by decide⟩
/-- The three judgments of a read-back: the proposal itself, one with counter 41, one with counter 43. -/
theorem witness_ConfirmMarkJudged_judged :
    let p := proposalAt 28945007
    let e := watched 0 28945080 .armed (some p)
    let s : State := { aboard with roster := [e] }
    let back (n : Nat) : List Byte := zeros 12 ++ le 2 n ++ zeros 2
    Ready s 0 ∧ s.runOpen = true ∧ s.roster[(0 : Half).toNat]? = some e ∧ e.mark.proposal = some p ∧ p.bytes.length = 16 ∧
      (back 41).length = 16 ∧ back 41 ≠ p.bytes ∧ (markCounterOf (back 41) : Int) = ((markCounterOf p.bytes : Int) - 1) % 65536 ∧
      back 43 ≠ p.bytes ∧ (markCounterOf (back 43) : Int) ≠ ((markCounterOf p.bytes : Int) - 1) % 65536 :=
  ⟨taken rfl rfl rfl rfl, by decide +kernel⟩
theorem witness_ProposedMarkReadsBack :
    let j := judge passCopy { aboard with clock := clockAt 28945005 }
    passCopy.coach < 256 ∧ j.stop < 256 ∧ j.clockCount < 94371840 := by decide +kernel

/-! The roster -/

theorem witness_DismissClears :
    let e := watched 0 28945080 .near (some (proposalAt 28945007))
    let s : State := { aboard with roster := [e] }
    Ready s 0 ∧ s.roster.length ≤ (1 : Half).toNat ∧ s.roster[(0 : Half).toNat]? = some e :=
  ⟨taken rfl rfl rfl rfl, by decide +kernel⟩
/-- One image to 20000h, far from the area; the count 9 is clamped to 1. -/
theorem witness_ReadRosterCopies :
    let e := watched 0 28945080 .near none
    let s : State := { aboard with roster := [e] }
    Ready s 0 ∧ s.roster.length ≤ 512 ∧ 1 = min (9 : Half).toNat (s.roster.length - (0 : Half).toNat) ∧
      s.roster[(0 : Half).toNat + 0]? = some e ∧
      (∀ r ∈ [(s.slotAddress 0, 1), (s.slotAddress 0 + 4, 1), (s.slotAddress 0 + 72, 56)] ++ s.ringRanges 1, ∀ l < r.2,
        ((0x20000 : Word).toNat + 80 * 0 + 79) % hostSize ≠ (r.1 + l) % hostSize) :=
  ⟨taken rfl rfl rfl rfl, by decide +kernel⟩

/-! The table store -/

theorem witness_LoadTableHeldOrRefused_held :
    let s : State := { desk with tables := { fullTables with stops := { fullTables.stops with level := 1 } } }
    Ready s 0 ∧ TableKind.ofByte (1 : Byte) = some .stops ∧ s.tables.load = none ∧ s.tables.wiping = false ∧
      s.runOpen = false ∧ (s.tables.descriptor .stops).level = 1 ∧ (128 : Half).toNat ≤ TableKind.stops.capacity ∧
      TableKind.stops.least ≤ (2 : Half).toNat := ⟨taken rfl rfl rfl rfl, by decide⟩
theorem witness_LoadTableHeldOrRefused_deny :
    Ready aboard 0 ∧ TableKind.ofByte loadArgs.kind = some .deny ∧ aboard.tables.load = none ∧ aboard.tables.wiping = false ∧
      (aboard.tables.descriptor .deny).level = 0 ∧ loadArgs.count.toNat ≤ TableKind.deny.capacity ∧
      TableKind.deny.least ≤ loadArgs.count.toNat := ⟨aboard_ready 0, by decide⟩
theorem witness_LoadTableHeldOrRefused_busy :
    let s := loading desk [ownHold 4 .loadTable]
    let u := wiping desk [ownHold 4 .wipe]
    Ready s 0 ∧ Ready u 0 ∧ TableKind.ofByte (0 : Byte) = none ∧ TableKind.ofByte (4 : Byte) = none ∧
      s.tables.load ≠ none ∧ u.tables.wiping = true :=
  ⟨taken rfl rfl rfl (by decide), taken rfl rfl rfl (by decide), by decide⟩
theorem witness_LoadTableHeldOrRefused_refused :
    let s : State := { aboard with tables := { fullTables with deny := { fullTables.deny with level := 1 } } }
    Ready s 0 ∧ s.tables.load = none ∧ s.tables.wiping = false ∧ s.runOpen = true ∧ TableKind.stops ≠ .deny ∧
      ((s.tables.descriptor .deny).level = 1 ∧ s.runOpen = true) ∧ Ready desk 0 ∧ desk.tables.load = none ∧
      (desk.tables.descriptor .stops).level = 0 ∧ desk.runOpen = false ∧ TableKind.stops.capacity < (129 : Half).toNat ∧
      (1 : Half).toNat < TableKind.stops.least :=
  ⟨taken rfl rfl rfl rfl, rfl, rfl, rfl, by decide, by decide, desk_ready 0, by decide⟩

theorem witness_LoadCompletionJudges :
    let s := loading withImage [ownHold 4 .loadTable]
    let u : State := { s with port := { stoppedPort with holds := [ownHold 4 .loadTable] } }
    desk.tables.load = none ∧ s.tables.load = some { kind := .deny, source := 0x20000, copied := 0 } ∧
      s.port.holds.find? (fun h => h.work == .loadTable) = some (ownHold 4 .loadTable) ∧
      (∀ x ∈ s.port.holds, x.awaits ≠ .denyLoad) ∧ s.port.state.writes = true ∧ u.port.state = .stopped := by decide
theorem witness_LoadCompletionJudges_wf : Memory.wf (loading withImage [ownHold 4 .loadTable]).hostMemory = true := by
  decide +kernel

theorem witness_DenyCompletionTakesUpItsHolds_unplaced :
    let s := loading unplaced [ownHold 4 .loadTable, passHold 5 .denyLoad 28945015]
    Memory.wf s.hostMemory = true ∧ s.tables.load = some { kind := .deny, source := 0x20000, copied := 0 } ∧
      s.port.state.writes = true ∧ (s.port.holds.map Hold.slot).Nodup ∧ ownHold 4 .loadTable ∈ s.port.holds ∧
      (∀ x ∈ s.port.holds, x.work = .loadTable → x = ownHold 4 .loadTable) ∧ s.run.state = .runningUnplaced := by
  decide +kernel
theorem witness_DenyCompletionTakesUpItsHolds_placed :
    let s := loading aboard (ownHold 4 .loadTable :: twoHolds .denyLoad)
    Memory.wf s.hostMemory = true ∧ s.tables.load = some { kind := .deny, source := 0x20000, copied := 0 } ∧
      s.port.state.writes = true ∧ (s.port.holds.map Hold.slot).Nodup ∧ ownHold 4 .loadTable ∈ s.port.holds ∧
      (ownHold 4 .loadTable).awaits = .ownCompletion ∧
      (∀ x ∈ s.port.holds, x.work = .loadTable → x = ownHold 4 .loadTable) ∧ s.run.state ≠ .runningUnplaced ∧
      s.port.holds.filter (fun h => h.awaits == .denyLoad) = twoHolds .denyLoad ∧
      (∀ h ∈ twoHolds .denyLoad, h.isInspect = true) := by decide +kernel

/-- The table store with one image stored and its sum expected. -/
def storeOf (k : TableKind) (image : List Byte) : Tables :=
  { Tables.reset with memory := Memory.writeRun tableSize [] k.base image }.setDescriptor k
    { validFor k image with state := .loading }

/-- A stops entry. -/
def stopBytes (code network zone : Nat) : List Byte := le 2 code ++ le 1 network ++ le 1 zone

/-- A line of 65 stops whose zones alternate, so that its last ordinal is 64. -/
def longLine : List Byte := ((List.range 65).map fun i => stopBytes (i + 1) 1 (1 + i % 2)).flatten

theorem witness_TableJudgement_sum : byteSum (fullTables.image .deny) ≠ (loading desk []).tables.deny.expectedSum + 1 := by
  decide +kernel
theorem witness_TableJudgement_stops :
    let range := storeOf .stops (stopBytes 1 0 1 ++ stopBytes 2 1 64)
    let twice := storeOf .stops (stopBytes 1 1 1 ++ stopBytes 1 4 63)
    byteSum (range.image .stops) = range.stops.expectedSum ∧
      (∃ x ∈ (range.entries .stops).map Stop.ofBytes, ¬(1 ≤ x.network ∧ x.network ≤ 4 ∧ 1 ≤ x.zone ∧ x.zone ≤ 63)) ∧
      byteSum (twice.image .stops) = twice.stops.expectedSum ∧
      (∀ x ∈ (twice.entries .stops).map Stop.ofBytes, 1 ≤ x.network ∧ x.network ≤ 4 ∧ 1 ≤ x.zone ∧ x.zone ≤ 63) ∧
      ¬((((twice.entries .stops).map Stop.ofBytes).map Stop.code).Nodup) := by decide +kernel
theorem witness_TableJudgement_line :
    let long := storeOf .stops longLine
    byteSum (long.image .stops) = long.stops.expectedSum ∧
      (((long.entries .stops).map Stop.ofBytes).map Stop.code).Nodup ∧
      63 < (lineOrdinals ((long.entries .stops).map Stop.ofBytes)).getLastD 0 ∧
      byteSum (fullTables.image .stops) = fullTables.stops.expectedSum ∧
      (lineOrdinals ((fullTables.entries .stops).map Stop.ofBytes)).getLastD 0 ≤ 63 := by decide +kernel
/-- A product of kind 4, and two of one code. -/
theorem witness_TableJudgement_tariff :
    let bad := storeOf .tariff (productBytes 2 4 1 60 20 120 0 5 2 63 2 0)
    let twice := storeOf .tariff (productBytes 2 2 1 60 20 120 0 5 2 63 2 0 ++ productBytes 2 3 2 0 0 0 1 10 2 0 1 1)
    byteSum (bad.image .tariff) = bad.tariff.expectedSum ∧ (bad.entries .tariff).map Product.ofBytes = [none] ∧
      byteSum (twice.image .tariff) = twice.tariff.expectedSum ∧
      (twice.entries .tariff).map (fun b => (Product.ofBytes b).map Product.inRange) = [some true, some true] ∧
      ¬((twice.entries .tariff).map fun e => field 0 2 e).Nodup ∧
      ((fullTables.entries .tariff).map fun e => field 0 2 e).Nodup := by decide +kernel

/-- A deny entry. -/
def denyBytes (id reason fromDay untilDay : Nat) : List Byte := le 8 id ++ le 2 reason ++ le 2 fromDay ++ le 2 untilDay ++ zeros 2

theorem witness_TableJudgement_deny :
    let order := storeOf .deny (denyBytes 2 0 0 0 ++ denyBytes 1 0 0 0)
    let range := storeOf .deny (denyBytes 1 0 8 7)
    byteSum (order.image .deny) = order.deny.expectedSum ∧
      ((order.entries .deny).map DenyEntry.ofBytes).map DenyEntry.credentialId = [2, 1] ∧
      byteSum (range.image .deny) = range.deny.expectedSum ∧
      (∃ d ∈ (range.entries .deny).map DenyEntry.ofBytes, d.untilDay < d.fromDay) ∧
      byteSum (fullTables.image .deny) = fullTables.deny.expectedSum ∧
      ∀ d ∈ (fullTables.entries .deny).map DenyEntry.ofBytes, d.fromDay ≤ d.untilDay := by decide +kernel

theorem witness_ProtectTableRaises :
    let s := loading desk [ownHold 4 .loadTable]
    Ready s 0 ∧ TableKind.ofByte (0 : Byte) = none ∧ TableKind.ofByte (3 : Byte) = some .deny ∧ 3 < (4 : Byte).toNat ∧
      (3 : Byte).toNat ≤ 3 ∧ (s.tables.descriptor .deny).state = .loading ∧ (s.tables.descriptor .stops).state ≠ .loading ∧
      s.tables.wiping = false ∧ (0 : Byte).toNat ≤ (s.tables.descriptor .stops).level ∧
      (s.tables.descriptor .stops).level < (1 : Byte).toNat := ⟨taken rfl rfl rfl (by decide), by decide⟩
theorem witness_ReadTableCopies_refused :
    let s : State := { desk with tables := { Tables.reset with tariff := { Descriptor.reset with level := 3 } } }
    let u := loading desk [ownHold 4 .loadTable]
    let v := wiping desk [ownHold 4 .wipe]
    Ready s 0 ∧ Ready u 0 ∧ Ready v 0 ∧ (s.tables.descriptor .tariff).level = 3 ∧ (s.tables.descriptor .stops).level ≠ 3 ∧
      (s.tables.descriptor .stops).state = .absent ∧ (u.tables.descriptor .deny).state = .loading ∧
      u.tables.wiping = false ∧ v.tables.wiping = true :=
  ⟨taken rfl rfl rfl rfl, taken rfl rfl rfl (by decide), taken rfl rfl rfl (by decide), by decide⟩
theorem witness_ReadTableCopies_copied :
    Ready desk 0 ∧ TableKind.ofByte (1 : Byte) = some .stops ∧ (desk.tables.descriptor .stops).level ≠ 3 ∧
      desk.tables.wiping = false ∧ (desk.tables.descriptor .stops).state = .valid ∧
      (desk.tables.descriptor .stops).count ≤ TableKind.stops.capacity ∧
      39 < (desk.tables.descriptor .stops).count * TableKind.stops.entrySize ∧
      (∀ r ∈ [(desk.slotAddress 0, 1), (desk.slotAddress 0 + 4, 1), (desk.slotAddress 0 + 72, 56)] ++ desk.ringRanges 1,
        ∀ l < r.2, ((0x20000 : Word).toNat + 39) % hostSize ≠ (r.1 + l) % hostSize) :=
  ⟨desk_ready 0, by decide +kernel⟩

theorem witness_WipeBeginsAndCompletes_request :
    let s := loading desk [ownHold 4 .loadTable]
    Ready aboard 0 ∧ aboard.runOpen = true ∧ Ready s 0 ∧ s.runOpen = false ∧ s.tables.load ≠ none ∧ Ready desk 0 ∧
      desk.runOpen = false ∧ desk.tables.load = none ∧ desk.tables.wiping = false :=
  ⟨aboard_ready 0, by decide, taken rfl rfl rfl (by decide), by decide, by decide, desk_ready 0, by decide⟩
theorem witness_WipeBeginsAndCompletes_completion :
    let s := wiping desk [ownHold 2 .wipe]
    let u : State := { s with port := { stoppedPort with holds := [ownHold 2 .wipe] } }
    let v : State := { s with port := { s.port with state := .fault } }
    desk.tables.wiping = false ∧ s.tables.wiping = true ∧ Memory.wf s.hostMemory = true ∧ s.port.state.writes = true ∧
      s.port.holds.find? (fun h => h.work == .wipe) = some (ownHold 2 .wipe) ∧ u.port.state = .stopped ∧
      u.port.holds.find? (fun h => h.work == .wipe) = some (ownHold 2 .wipe) ∧ v.port.state = .fault ∧
      (∀ h ∈ (wiping desk []).port.holds, h.work ≠ .wipe) := by decide

/-! The port -/

theorem witness_WithdrawAndMalformedAnswered_unheld :
    let s : State := { desk with port := { sweepingPort with endedMarks := sweepingPort.endedMarks.set 31 true } }
    Ready s 0 ∧ 31 < (32 : Byte).toNat ∧ (31 : Byte).toNat = (31 : Slot).val ∧ s.holdOf 31 = none ∧ (31 : Slot) ≠ 0 ∧
      s.port.endedMarks.get 31 = true ∧ s.port.endedMarks.get 30 = false ∧ 14 < (15 : Byte).toNat :=
  ⟨taken rfl rfl rfl rfl, by decide⟩
theorem witness_WithdrawAndMalformedAnswered_held :
    let s := loading (withHold .placement) [passHold 5 .placement 28945015, ownHold 4 .loadTable]
    Ready s 0 ∧ (5 : Byte).toNat = (5 : Slot).val ∧ s.holdOf 5 = some (passHold 5 .placement 28945015) ∧
      (passHold 5 .placement 28945015).isInspect = true ∧ s.holdOf 4 = some (ownHold 4 .loadTable) ∧
      (ownHold 4 .loadTable).isInspect = false := ⟨taken rfl rfl rfl (by decide), by decide +kernel⟩
theorem witness_PostedRequestWaits :
    Memory.wf State.reset.hostMemory = true ∧ ¬State.reset.isNext 0 ∧ Request.wipe.wellFormed = true :=
  ⟨by decide, by unfold State.isNext; decide +kernel, by decide⟩
theorem witness_SlotRoundTrip : (Request.inspect lateTicket).wellFormed = true ∧ Memory.wf desk.hostMemory = true := by
  decide +kernel

theorem witness_SweepWrites :
    let s : State := { desk with port := { stoppedPort with state := .idle } }
    let u : State := { s with power := .doze }
    let v : State := { desk with port := { sweepingPort with sweepLeft := 0, sweepAgain := true } }
    let w : State := { desk with port := { sweepingPort with sweepLeft := 0 } }
    s.port.state = .idle ∧ s.power ≠ .doze ∧ u.port.state = .idle ∧ u.power = .doze ∧ desk.port.state = .sweeping ∧
      State.reset.port.state = .stopped ∧ v.port.state = .sweeping ∧ v.port.sweepLeft = 0 ∧ v.port.sweepAgain = true ∧
      w.port.sweepLeft = 0 ∧ w.port.sweepAgain = false ∧ 0 < desk.port.sweepLeft := by decide
theorem witness_PortEnableAndDisable :
    let s : State := { desk with port := { stoppedPort with state := .idle } }
    Memory.wf State.reset.hostMemory = true ∧ (0x1 : Word).getLsbD 4 = false ∧ (0x1 : Word).getLsbD 0 = true ∧
      State.reset.port.state = .stopped ∧ desk.port.state ≠ .stopped ∧ (0xE : Word).getLsbD 0 = false ∧
      (0xE : Word).getLsbD 4 = false ∧ s.port.state = .idle ∧ desk.port.state = .sweeping := by decide
theorem witness_PortResetClearsThePort :
    (0x10 : Word).getLsbD 4 = true ∧ desk.tables.load = none ∧
      (loading desk [ownHold 4 .loadTable]).tables.load = some { kind := .deny, source := 0x20000, copied := 0 } := by decide

theorem witness_AttentionAndDoze_entry :
    let s : State := { State.reset with power := .dozePending }
    s.busLeft = none ∧ s.arrivals = [] ∧ s.power = .dozePending ∧ s.port.state ≠ .sweeping ∧ s.tables.load = none ∧
      s.tables.wiping = false ∧ State.reset.power ≠ .dozePending := by decide
theorem witness_AttentionAndDoze_control :
    let s : State := { desk with port := { stoppedPort with state := .idle } }
    (0x9 : Word).getLsbD 4 = false ∧ (0x9 : Word).getLsbD 0 = true ∧ (0x9 : Word).getLsbD 3 = true ∧
      (0x1 : Word).getLsbD 3 = false ∧ s.port.state ≠ .stopped ∧ (0x8 : Word).getLsbD 0 = false ∧
      State.reset.port.state = .stopped ∧ s.power = .active ∧ s.port.state ≠ .sweeping ∧ s.tables.load = none ∧
      s.tables.wiping = false ∧ desk.power = .active ∧ desk.port.state = .sweeping ∧
      ({ s with power := .doze } : State).power ≠ .active := by decide

theorem witness_RegistersReadAndWrite :
    ({ desk with port := { sweepingPort with noticeCount := 64 } } : State).port.noticeCount ≤ 64 ∧
      (0x10 : Word).getLsbD 4 = true ∧ State.reset.port.state = .stopped ∧ desk.port.state ≠ .stopped ∧
      (0x0F : Word).getLsbD 4 = false ∧ 0x10 ∉ [0x00, 0x04, 0x08, 0x0C, 0x14] := by decide
theorem witness_NoticeRelease :
    let s : State := { desk with port := { sweepingPort with noticeCount := 64 } }
    (64 : Word).toNat ≤ s.port.noticeCount ∧ s.port.noticeCount < (65 : Word).toNat ∧ s.port.noticeCount = 64 ∧
      s.port.state.writes = true ∧ 1 ≤ (1 : Word).toNat ∧ (64 : Word).toNat ≤ 64 ∧ s.busLeft = none := by decide
theorem witness_NoticeAppend :
    let s : State := { desk with port := { sweepingPort with noticeCount := 63 } }
    let u : State := { desk with port := { sweepingPort with noticeCount := 64 } }
    Memory.wf s.hostMemory = true ∧ s.busLeft = none ∧ s.port.state.writes = true ∧ s.port.noticeCount < 64 ∧
      u.port.state.writes = true ∧ 64 ≤ u.port.noticeCount ∧ State.reset.port.state = .stopped ∧
      ({ s with port := { s.port with state := .fault } } : State).port.state = .fault := by decide

/-- A write that fails in the notice's last byte, in the header's first and in its last. -/
theorem witness_NoticeAppend_fails :
    let s (left : Nat) : State := { desk with port := { sweepingPort with noticeCount := 63 }, busLeft := some left }
    ∀ left ∈ [15, 16, 19], (s left).busLeft = some left ∧ left < 20 ∧ (s left).port.state.writes = true ∧
      (s left).port.noticeCount < 64 := by decide

theorem witness_BusFaultEntersFault :
    let s := loading { desk with port := stoppedPort } [ownHold 4 .loadTable]
    let u : State := { desk with busLeft := some 2 }
    desk.port.state = .sweeping ∧ s.port.state = .stopped ∧ s.tables.load ≠ none ∧ State.reset.port.state = .stopped ∧
      State.reset.tables.load = none ∧ u.port.state.writes = true ∧ u.busLeft = some 2 ∧ 2 < ([1, 2, 3] : List Byte).length ∧
      (0x00000001 : Word) = BitVec.ofNat 32 (0xFFFFFFFF + 2) := by decide

/-! The invariants, on a train with one passenger -/

/-- The train at stop 1 with one inspected passenger. -/
def oneAboard : State := { aboard with roster := [watched 0 28945105 .armed (some (proposalAt 28945007))] }

theorem witness_StepKeepsTheMemories : MemoryInvariant oneAboard ∧ ∃ t, step oneAboard = .next t :=
  ⟨⟨by decide, by decide, by decide +kernel, by decide +kernel⟩, _, rfl⟩
theorem witness_StepKeepsTheClockInRange : oneAboard.clock.InRange ∧ ∃ t, step oneAboard = .next t :=
  ⟨clockAt_inRange, _, rfl⟩
theorem oneAboard_port : PortInvariant oneAboard := by constructor <;> decide
theorem witness_StepKeepsThePort : PortInvariant oneAboard ∧ ∃ t, step oneAboard = .next t := ⟨oneAboard_port, _, rfl⟩
theorem oneAboard_sound : (watched 0 28945105 .armed (some (proposalAt 28945007))).Sound := by
  refine ⟨by decide, by decide, by decide, by decide, by decide, by decide, by decide, by decide, ?_⟩
  intro p hp
  cases hp
  exact ⟨by decide +kernel, Or.inl rfl⟩
theorem witness_StepKeepsTheRoster : RosterInvariant oneAboard ∧ ∃ t, step oneAboard = .next t := by
  refine ⟨⟨by decide, ?_, by decide, ?_⟩, _, rfl⟩
  · intro i e h
    match i, h with
    | 0, h => cases h; rfl
    | i + 1, h => simp [oneAboard] at h
  · intro e he
    rw [List.mem_singleton.mp he]
    exact oneAboard_sound
theorem oneAboard_tables : TableInvariant oneAboard where
  loading := by intro k; cases k <;> simp [oneAboard, aboard, desk, fullTables, Tables.descriptor, validFor]
  cause := by intro k; cases k <;> decide
  level := by intro k; cases k <;> decide
  count := by intro k; cases k <;> decide
  copied := by intro job h; cases h
  least := by intro k; cases k <;> decide
  valid := by intro k; cases k <;> decide +kernel
  ordinals := by decide +kernel
  wiping := by decide
theorem witness_StepKeepsTheTables : TableInvariant oneAboard ∧ ∃ t, step oneAboard = .next t := ⟨oneAboard_tables, _, rfl⟩
theorem oneAboard_run : RunInvariant oneAboard where
  clockSet := by decide
  stopsValid := by decide
  tariffValid := by decide
  record := fun _ =>
    { runId := by decide, terminal := by decide, coachesLow := by decide, coachesHigh := by decide, classes := by decide,
      sharedWindow := by decide, watchLead := by decide, skewTolerance := by decide, holdLimitLow := by decide,
      holdLimitHigh := by decide, position := ⟨1, by decide⟩, nextStop := (by intro p h; cases h), announced := by decide }
  holds := by decide
  proposals := by decide
  wiping := by decide
theorem witness_StepKeepsTheRun :
    RunInvariant oneAboard ∧ PortInvariant oneAboard ∧ TableInvariant oneAboard ∧ ∃ t, step oneAboard = .next t :=
  ⟨oneAboard_run, oneAboard_port, oneAboard_tables, _, rfl⟩
theorem witness_StepKeepsTheOpenRun :
    RunInvariant oneAboard ∧ TableInvariant oneAboard ∧ oneAboard.runOpen = true ∧
      ∃ t, step oneAboard = .next t ∧ t.runOpen = true :=
  ⟨oneAboard_run, oneAboard_tables, by decide, _, rfl, by decide +kernel⟩

end Sys2Proof.Machine
end

/-! The clock's two readings of one moment (R2): the clock count turns on one equation, N + P = C × 1440 + M. -/

namespace Sys2Proof.Machine

namespace Clock

theorem serviceDay_of_le {c : Clock} (h : c.dayChange ≤ c.minute) : c.serviceDay = c.day := if_pos h

theorem serviceDay_of_lt {c : Clock} (h : c.minute < c.dayChange) : c.serviceDay = c.day - 1 :=
  if_neg (Nat.not_le_of_lt h)

theorem serviceMinute_of_le {c : Clock} (h : c.dayChange ≤ c.minute) : c.serviceMinute = c.minute - c.dayChange := if_pos h

theorem serviceMinute_of_lt {c : Clock} (h : c.minute < c.dayChange) :
    c.serviceMinute = c.minute + 1440 - c.dayChange := if_neg (Nat.not_le_of_lt h)

theorem atCount_of_lt {c : Clock} {n : Nat} (second : Nat) (h : n % 1440 + c.dayChange < 1440) :
    c.atCount n second = { c with day := n / 1440, minute := n % 1440 + c.dayChange, second := second } := if_pos h

theorem atCount_of_le {c : Clock} {n : Nat} (second : Nat) (h : 1440 ≤ n % 1440 + c.dayChange) :
    c.atCount n second =
      { c with day := n / 1440 + 1, minute := n % 1440 + c.dayChange - 1440, second := second } :=
  if_neg (Nat.not_lt_of_le h)

@[simp] theorem advance_dayChange (c : Clock) : c.advance.dayChange = c.dayChange := by
  unfold advance; split <;> rfl

theorem day_le_advance_day (c : Clock) : c.day ≤ c.advance.day := by
  unfold advance
  split
  · exact Nat.le_succ c.day
  · exact Nat.le_refl c.day

/-- The minutes of the calendar reading rise by one at a minute tick, midnight included (R1). -/
theorem advance_calendarMinutes (c : Clock) :
    c.advance.day * 1440 + c.advance.minute = c.day * 1440 + c.minute + 1 := by
  unfold advance
  split
  next midnight => simp only [midnight]; omega
  next => exact (Nat.add_assoc _ c.minute 1).symm

/-- The service reading and the calendar reading name the same moment (R2). -/
theorem count_add_dayChange {c : Clock} (hday : 1 ≤ c.day) (hchange : c.dayChange ≤ 1440) :
    c.count + c.dayChange = c.day * 1440 + c.minute := by
  unfold count
  rcases Nat.lt_or_ge c.minute c.dayChange with before | after
  · rw [serviceDay_of_lt before, serviceMinute_of_lt before]; omega
  · rw [serviceDay_of_le after, serviceMinute_of_le after]; omega

namespace InRange

variable {c : Clock} (h : c.InRange)
include h

theorem calendar : c.count + c.dayChange = c.day * 1440 + c.minute :=
  count_add_dayChange h.dayLow (h.dayChange.trans (by decide))

/-- One minute tick is one clock count, across midnight and the day change alike (R2). -/
theorem advance_count : c.advance.count = c.count + 1 := by
  have after : c.advance.count + c.advance.dayChange = c.advance.day * 1440 + c.advance.minute :=
    count_add_dayChange (h.dayLow.trans c.day_le_advance_day)
      (by rw [advance_dayChange]; exact h.dayChange.trans (by decide))
  have before := h.calendar
  rw [advance_dayChange, advance_calendarMinutes] at after
  omega

/-- The count of the lowest reading, clock day 1 and minute 0, bounds every count (R2). -/
theorem lowest_le_count : 1440 - c.dayChange ≤ c.count := by
  have reading := h.calendar
  have day := h.dayLow
  omega

/-- The count of the highest reading, clock day 65,535 and minute 1439, bounds every count (R2). -/
theorem count_le_highest : c.count ≤ 94371839 - c.dayChange := by
  have reading := h.calendar
  have day := h.dayHigh
  have minute := h.minute
  omega

theorem serviceMinute_lt : c.serviceMinute < 1440 := by
  have minute := h.minute
  rcases Nat.lt_or_ge c.minute c.dayChange with before | after
  · rw [serviceMinute_of_lt before]; omega
  · rw [serviceMinute_of_le after]; omega

theorem serviceDay_le : c.serviceDay ≤ 65535 := by
  have day := h.dayHigh
  rcases Nat.lt_or_ge c.minute c.dayChange with before | after
  · rw [serviceDay_of_lt before]; omega
  · rw [serviceDay_of_le after]; exact day

/-- Service day 0 is the part of clock day 1 before the day change (R2). -/
theorem serviceDay_eq_zero_iff : c.serviceDay = 0 ↔ c.day = 1 ∧ c.minute < c.dayChange := by
  have day := h.dayLow
  rcases Nat.lt_or_ge c.minute c.dayChange with before | after
  · rw [serviceDay_of_lt before]; omega
  · rw [serviceDay_of_le after]; omega

theorem count_div : c.count / 1440 = c.serviceDay := by
  have minute := h.serviceMinute_lt
  unfold count
  omega

theorem count_mod : c.count % 1440 = c.serviceMinute := by
  have minute := h.serviceMinute_lt
  unfold count
  omega

/-- The inverse derivation undoes the derivation: the part of the service day before the calendar's midnight lies on
clock day S, the part after it on clock day S + 1 (R2). -/
theorem atCount_count : c.atCount c.count c.second = c := by
  have day := h.dayLow
  have minute := h.minute
  rcases Nat.lt_or_ge c.minute c.dayChange with before | after
  · have remainder : c.count % 1440 + c.dayChange = c.minute + 1440 := by
      rw [h.count_mod, serviceMinute_of_lt before]
      have change := h.dayChange
      omega
    have quotient : c.count / 1440 + 1 = c.day := by
      rw [h.count_div, serviceDay_of_lt before, Nat.sub_add_cancel day]
    rw [atCount_of_le _ (by omega), remainder, quotient, Nat.add_sub_cancel]
  · have remainder : c.count % 1440 + c.dayChange = c.minute := by
      rw [h.count_mod, serviceMinute_of_le after, Nat.sub_add_cancel after]
    have quotient : c.count / 1440 = c.day := by
      rw [h.count_div, serviceDay_of_le after]
    rw [atCount_of_lt _ (by omega), remainder, quotient]

end InRange

end Clock

/-- Settles O4: the bounds and the tick follow from N + P = C × 1440 + M, the inverse from the quotient S and remainder m. -/
theorem clockCountDerivation : Obligations.ClockCountDerivation := by
  refine ⟨fun c h => ?_, fun c n second => ⟨fun sameDay => ?_, fun nextDay => ?_⟩⟩
  · have reading := h.calendar
    have change := h.dayChange
    have lowest := h.lowest_le_count
    have highest := h.count_le_highest
    exact
      ⟨fun after => ⟨Clock.serviceDay_of_le after, Clock.serviceMinute_of_le after⟩,
        fun before => ⟨Clock.serviceDay_of_lt before, Clock.serviceMinute_of_lt before⟩,
        rfl, reading, Or.inr h.advance_count, lowest, highest,
        fun day minute => by omega, fun day minute => by omega,
        by omega, by omega, by omega, h.serviceDay_le, h.serviceDay_eq_zero_iff, h.atCount_count⟩
  · rw [Clock.atCount_of_lt second sameDay]
    exact ⟨rfl, rfl⟩
  · rw [Clock.atCount_of_le second nextDay]
    exact ⟨rfl, rfl⟩

end Sys2Proof.Machine

/-! The run controller's requests while nothing arrives: each check of R17, R22 and R24 is told apart in the model's refusal
functions, and a request then answers by the one check that fails, or by none. -/

namespace Sys2Proof.Machine

/-! ### OPEN_RUN: the arguments and the settings (R17, R18) -/

theorem Direction.ofByte_isSome_iff (b : Byte) : (Direction.ofByte b).isSome = true ↔ b = 0 ∨ b = 1 := by
  have value (k : Byte) : b = k ↔ b.toNat = k.toNat := BitVec.toNat_inj.symm
  rw [value 0, value 1]
  unfold Direction.ofByte
  split
  next zero => simp [zero]
  next one => simp [one]
  next notZero notOne => simpa using ⟨notZero, notOne⟩

/-- All sixteen class bytes stand in the arguments, so that no coach gets a class byte of the padding (11.7). -/
theorem openClasses_eq {a : OpenRunArgs} (full : a.classes.length = 16) :
    openClasses a = (a.classes.take a.coachCount.toNat).map BitVec.toNat := by
  have unpadded : padTo 16 a.classes = a.classes := by simp [padTo, ← full]
  rw [openClasses, unpadded]

theorem openClasses_acceptable_iff {a : OpenRunArgs} (full : a.classes.length = 16) :
    ((openClasses a).all fun c => c == 1 || c == 2) = true ↔
      ∀ c ∈ a.classes.take a.coachCount.toNat, c = 1 ∨ c = 2 := by
  rw [openClasses_eq full, List.all_map, List.all_eq_true]
  exact forall₂_congr fun c _ => by simp [← BitVec.toNat_inj]

/-- The grounds of R17 for REFUSED_ARGUMENT, all absent. -/
theorem openAcceptable_iff {a : OpenRunArgs} (full : a.classes.length = 16) (n : Nat) :
    openAcceptable a n = true ↔
      a.runId ≠ 0 ∧ a.terminal ≠ 0 ∧ (a.direction = 0 ∨ a.direction = 1) ∧ a.startStop.toNat < n ∧
        1 ≤ a.coachCount.toNat ∧ a.coachCount.toNat ≤ 16 ∧ ∀ c ∈ a.classes.take a.coachCount.toNat, c = 1 ∨ c = 2 := by
  simp only [openAcceptable, Bool.and_eq_true, openClasses_acceptable_iff full, Direction.ofByte_isSome_iff, bne_iff_ne,
    decide_eq_true_eq, and_assoc]

theorem openAcceptable_eq_false {a : OpenRunArgs} (full : a.classes.length = 16) {n : Nat}
    (bad :
      a.runId = 0 ∨ a.terminal = 0 ∨ (a.direction ≠ 0 ∧ a.direction ≠ 1) ∨ n ≤ a.startStop.toNat ∨ a.coachCount = 0 ∨
        16 < a.coachCount.toNat ∨ ∃ c ∈ a.classes.take a.coachCount.toNat, c ≠ 1 ∧ c ≠ 2) :
    openAcceptable a n = false := by
  rw [Bool.eq_false_iff, Ne, openAcceptable_iff full]
  rintro ⟨runId, terminal, direction, startStop, coaches, most, classes⟩
  rcases bad with zero | zero | ⟨notUp, notDown⟩ | beyond | empty | many | ⟨c, coach, notFirst, notSecond⟩
  · exact runId zero
  · exact terminal zero
  · exact direction.elim notUp notDown
  · omega
  · simp [empty] at coaches
  · omega
  · exact (classes c coach).elim notFirst notSecond

theorem openClamped_iff (a : OpenRunArgs) :
    openClamped a = true ↔
      60 < a.sharedWindow.toNat ∨ 15 < a.watchLead.toNat ∨ 15 < a.skewTolerance.toNat ∨ 30 < a.holdLimit.toNat := by
  simp [openClamped, or_assoc]

theorem adoptedHoldLimit_toNat (b : Byte) : adoptedHoldLimit b.toNat = if b = 0 then 10 else min 30 b.toNat := by
  have zero : b.toNat = 0 ↔ b = 0 := by simp [← BitVec.toNat_inj]
  simp only [adoptedHoldLimit, zero]

@[simp] theorem stopByte_toNat (b : Byte) : stopByte (some b.toNat) = b := by simp [stopByte]

/-- The answer of an accepted OPEN_RUN names the start stop twice: the train stands there, and there it evaluates (R20). -/
theorem openAnswer_openRecord (a : OpenRunArgs) :
    openAnswer (openRecord a) =
      le 1 RunState.standing.code ++ [a.startStop, a.startStop] ++ le 1 (openRecord a).sharedWindow
        ++ le 1 (openRecord a).watchLead ++ le 1 (openRecord a).skewTolerance ++ le 1 (openRecord a).holdLimit := by
  simp [openAnswer, openAnswerHead, openRecord, Run.evaluationStop]

/-! ### OPEN_RUN: the checks in their order (R17) -/

/-- Both tables of an open run can be read (R17, R139). -/
theorem runTables_readable_iff (t : Tables) :
    (t.readable .stops && t.readable .tariff) = true ↔
      t.stops.state = .valid ∧ t.tariff.state = .valid ∧ t.wiping = false := by
  simp only [Tables.readable, Tables.descriptor, Bool.and_eq_true, beq_iff_eq, Bool.not_eq_true']
  tauto

section
variable {a : OpenRunArgs} {s : State}

theorem openRefusal_runOpen (opened : s.runOpen = true) : openRefusal a s = some .refusedRunOpen := if_pos opened

theorem openRefusal_unready (shut : s.runOpen = false)
    (unready : s.tables.stops.state ≠ .valid ∨ s.tables.tariff.state ≠ .valid ∨ s.tables.wiping = true) :
    openRefusal a s = some .refusedTablesNotReady := by
  have unreadable : (s.tables.readable .stops && s.tables.readable .tariff) = false := by
    rw [Bool.eq_false_iff, Ne, runTables_readable_iff]
    rintro ⟨stops, tariff, unwiped⟩
    rcases unready with notStops | notTariff | wiping
    · exact notStops stops
    · exact notTariff tariff
    · simp [unwiped] at wiping
  simp [openRefusal, shut, unreadable]

variable (shut : s.runOpen = false) (stops : s.tables.stops.state = .valid) (tariff : s.tables.tariff.state = .valid)
  (unwiped : s.tables.wiping = false)
include shut stops tariff unwiped

theorem openRefusal_clockUnset (unset : s.clock.isSet = false) : openRefusal a s = some .refusedClockNotSet := by
  have readable := (runTables_readable_iff s.tables).mpr ⟨stops, tariff, unwiped⟩
  simp [openRefusal, shut, readable, unset]

theorem openRefusal_clockSet (isSet : s.clock.isSet = true) :
    openRefusal a s = if openAcceptable a s.tables.stopCount then none else some .refusedArgument := by
  have readable := (runTables_readable_iff s.tables).mpr ⟨stops, tariff, unwiped⟩
  cases acceptable : openAcceptable a s.tables.stopCount <;> simp [openRefusal, shut, readable, isSet, acceptable]

end

/-! ### OPEN_RUN: the answers -/

theorem openRefusal_handed (a : OpenRunArgs) (s : State) (slot : Slot) (tag : Half) (r : Request) :
    openRefusal a (s.handed slot tag r) = openRefusal a s := rfl

/-- An OPEN_RUN that fails a check of R17 is answered with that check's outcome, and nothing changes. -/
theorem openRun_refused {s : State} {slot : Slot} {tag : Half} {a : OpenRunArgs} {code : AnswerCode}
    (hw : Memory.wf s.hostMemory = true) (turn : s.isNext slot) (refusal : openRefusal a s = some code) :
    s.AnswersUnchanged slot tag (.openRun a) code (openAnswerHead s.run) := by
  refine answersUnchanged_of (owner := fun _ => ownOpenRun slot tag a) hw turn rfl ?_
  simp only [ownOpenRun, openRefusal_handed, refusal]
  rfl

/-- The changes of an accepted OPEN_RUN with no failing access (R19, R32, R94). -/
theorem openRun_quiet (a : OpenRunArgs) {s : State} (hb : s.busLeft = none) (hw : s.port.state.writes = true) :
    openRun a s =
      { s with
        roster := []
        run := openRecord a
        hostMemory :=
          Memory.writeRun hostSize s.hostMemory (s.areaAddress + 0x10)
            (State.runMirror { s with roster := [], run := openRecord a }) } :=
  mirrorRun_quiet (s := { s with roster := [], run := openRecord a }) hb hw

/-- An OPEN_RUN that passes every check of R17 clears the roster, fills the run record, and rewrites the run mirror before it
is answered (R18, R19, R32, R94). -/
theorem openRun_accepted {s : State} {slot : Slot} {tag : Half} {a : OpenRunArgs} (hw : Memory.wf s.hostMemory = true)
    (turn : s.isNext slot) (accepted : openRefusal a s = none) :
    s.Answers slot tag (.openRun a) { s with roster := [], run := openRecord a } (if openClamped a then .clamped else .done)
      (openAnswer (openRecord a)) [] [(0x10, State.runMirror { s with roster := [], run := openRecord a })] := by
  have filled : Working s { s.handed slot tag (.openRun a) with roster := [], run := openRecord a } slot tag (.openRun a) []
      [] := (working_handed hw turn tag _).change rfl rfl rfl rfl (.inl rfl)
  have mirrored : Working s (openRun a (s.handed slot tag (.openRun a))) slot tag (.openRun a) []
      [(0x10, State.runMirror { s with roster := [], run := openRecord a })] :=
    filled.mirror (by decide) (by simp) (by simp)
  have written := openRun_quiet a (s := s.handed slot tag (.openRun a)) rfl filled.writes
  rw [written] at mirrored
  refine answers_of (owner := fun _ => ownOpenRun slot tag a) turn rfl ?_ mirrored (offered_zero _).symm rfl rfl rfl rfl rfl
    rfl rfl
  simp only [ownOpenRun, openRefusal_handed, accepted, written]

/-- Settles O10: the answers of a refused and of an accepted OPEN_RUN, by the checks of R17 as the model orders them. -/
theorem openRunAnswered : Obligations.OpenRunAnswered := by
  refine ⟨?accepted, ?refused⟩
  case accepted =>
    intro s slot tag a d r hw turn shut stops tariff unwiped isSet full runId terminal direction startStop coaches most
      classes record
    have acceptable : openAcceptable a s.tables.stopCount = true :=
      (openAcceptable_iff full _).mpr ⟨runId, terminal, (Direction.ofByte_isSome_iff _).mp (by simp [direction]),
        startStop, coaches, most, classes⟩
    have passes : openRefusal a s = none := by
      rw [openRefusal_clockSet shut stops tariff unwiped isSet, if_pos acceptable]
    obtain rfl : r = openRecord a := by
      simp [record, openRecord, openClasses_eq full, direction, adoptedHoldLimit_toNat]
    refine ⟨rfl, ?_⟩
    simpa only [openClamped_iff, openAnswer_openRecord] using openRun_accepted (tag := tag) hw turn passes
  case refused =>
    intro s slot tag a hw turn full
    refine ⟨fun opened => openRun_refused hw turn (openRefusal_runOpen opened),
      fun shut unready => openRun_refused hw turn (openRefusal_unready shut unready),
      fun shut stops tariff unwiped unset =>
        openRun_refused hw turn (openRefusal_clockUnset shut stops tariff unwiped unset),
      fun shut stops tariff unwiped isSet bad => openRun_refused hw turn ?_⟩
    simp [openRefusal_clockSet shut stops tariff unwiped isSet, openAcceptable_eq_false full bad]

/-! ### DEPART and ARRIVE: the checks in their order (R22, R24) -/

section
variable {s : State} {stop : Byte}

theorem departRefusal_notOpen (h : s.run.state = .noRun ∨ s.run.state = .closed) :
    departRefusal stop s = some .refusedNoRun := by
  rcases h with h | h <;> simp [departRefusal, h]

theorem departRefusal_departed (h : s.run.state = .running ∨ s.run.state = .runningUnplaced) :
    departRefusal stop s = some .refusedSequence := by
  rcases h with h | h <;> simp [departRefusal, h]

/-- The checks of R22 on a train that stands. -/
theorem departRefusal_standing {p : Nat} (standing : s.run.state = .standing) (position : s.run.position = some p) :
    departRefusal stop s =
      if p = s.run.direction.terminus s.tables.stopCount then some .refusedEndOfLine
      else if stop = 0xFF then none
      else if s.tables.stopCount ≤ stop.toNat then some .refusedArgument
      else if s.run.direction.isAhead p stop.toNat then none
      else some .refusedSequence := by
  simp [departRefusal, standing, position]

theorem arriveRefusal_notOpen (h : s.run.state = .noRun ∨ s.run.state = .closed) :
    arriveRefusal stop s = some .refusedNoRun := by
  rcases h with h | h <;> simp [arriveRefusal, h]

theorem arriveRefusal_standing (h : s.run.state = .standing) : arriveRefusal stop s = some .refusedSequence := by
  simp [arriveRefusal, h]

/-- The checks of R24 on a train between stops. -/
theorem arriveRefusal_departed {p : Nat} (departed : s.run.state = .running ∨ s.run.state = .runningUnplaced)
    (position : s.run.position = some p) :
    arriveRefusal stop s =
      if s.tables.stopCount ≤ stop.toNat then some .refusedArgument
      else if s.run.direction.isAhead p stop.toNat then none
      else some .refusedSequence := by
  rcases departed with h | h <;> simp [arriveRefusal, arriveStopRefusal, h, position]

end

/-! ### DEPART and ARRIVE: the refusals -/

section
variable {s : State} {slot : Slot} {tag : Half} {stop : Byte} {code : AnswerCode}

/-- A DEPART that fails a check of R22 is answered with that check's outcome, and nothing changes. -/
theorem depart_refused (hw : Memory.wf s.hostMemory = true) (turn : s.isNext slot)
    (refusal : departRefusal stop s = some code) :
    s.AnswersUnchanged slot tag (.depart stop) code (passageAnswer s.run) := by
  refine answersUnchanged_of (owner := fun _ => ownDepart slot tag stop) hw turn rfl ?_
  have handed : departRefusal stop (s.handed slot tag (.depart stop)) = some code := refusal
  simp only [ownDepart, handed]
  rfl

/-- An ARRIVE that fails a check of R24 is answered with that check's outcome, and nothing changes. -/
theorem arrive_refused (hw : Memory.wf s.hostMemory = true) (turn : s.isNext slot)
    (refusal : arriveRefusal stop s = some code) :
    s.AnswersUnchanged slot tag (.arrive stop) code (passageAnswer s.run) := by
  refine answersUnchanged_of (owner := fun _ => ownArrive slot tag stop) hw turn rfl ?_
  have handed : arriveRefusal stop (s.handed slot tag (.arrive stop)) = some code := refusal
  simp only [ownArrive, handed]
  rfl

end

/-- Settles O12: each refusal is the one that the checks of R22 or R24 give on the run as it stood. -/
theorem passagesRefused : Obligations.PassagesRefused := by
  refine ⟨?depart, ?arrive⟩
  case depart =>
    intro s slot tag stop hw turn
    refine ⟨fun h => depart_refused hw turn (departRefusal_notOpen h),
      fun h => depart_refused hw turn (departRefusal_departed h), fun p standing position => ?_⟩
    have checks := departRefusal_standing (stop := stop) standing position
    refine ⟨fun terminus => ?_, fun short named beyond => ?_, fun short named onLine behind => ?_⟩ <;>
      refine depart_refused hw turn (checks.trans ?_)
    · rw [if_pos terminus]
    · rw [if_neg short, if_neg named, if_pos beyond]
    · rw [if_neg short, if_neg named, if_neg (Nat.not_le_of_lt onLine), if_neg (by simp [behind])]
  case arrive =>
    intro s slot tag stop hw turn
    refine ⟨fun h => arrive_refused hw turn (arriveRefusal_notOpen h),
      fun h => arrive_refused hw turn (arriveRefusal_standing h), fun p departed position => ?_⟩
    have checks := arriveRefusal_departed (stop := stop) departed position
    refine ⟨fun beyond => ?_, fun onLine behind => ?_⟩ <;> refine arrive_refused hw turn (checks.trans ?_)
    · rw [if_pos beyond]
    · rw [if_neg (Nat.not_le_of_lt onLine), if_neg (by simp [behind])]

end Sys2Proof.Machine

/-! The CRC of R34 and the check that a credential record or a mark stores: two bytes and the number they hold determine each
other, so a stored check equals the CRC exactly when it is the CRC's bytes, low byte first. -/

namespace Sys2Proof.Machine

/-! ### Byte order: `le` and `leNat` are inverse to each other -/

theorem leNat_lt (bs : List Byte) : leNat bs < 256 ^ bs.length := by
  induction bs with
  | nil => decide
  | cons b bs ih =>
    have byte := b.isLt
    simp only [leNat, List.length_cons, Nat.pow_succ]
    omega

theorem le_leNat (bs : List Byte) : le bs.length (leNat bs) = bs := by
  induction bs with
  | nil => rfl
  | cons b bs ih =>
    have byte := b.isLt
    have low : BitVec.ofNat 8 (leNat (b :: bs)) = b := BitVec.eq_of_toNat_eq (by simp [leNat, Nat.mod_eq_of_lt byte])
    have rest : leNat (b :: bs) / 256 = leNat bs := by simp only [leNat]; omega
    rw [List.length_cons, le, low, rest, ih]

theorem leNat_le (n v : Nat) : leNat (le n v) = v % 256 ^ n := by
  induction n generalizing v with
  | zero => simp [le, leNat, Nat.mod_one]
  | succ n ih => rw [le, leNat, ih, Nat.pow_succ', Nat.mod_mul, BitVec.toNat_ofNat]

/-- A 16-bit value read from two bytes is `r` exactly when these are the bytes of `r`, low byte first. -/
theorem eq_ofNat_leNat_iff {r : Half} {bs : List Byte} (two : bs.length = 2) :
    r = BitVec.ofNat 16 (leNat bs) ↔ bs = le 2 r.toNat := by
  constructor
  case mp =>
    rintro rfl
    have small : leNat bs < 2 ^ 16 := by simpa [two] using leNat_lt bs
    rw [BitVec.toNat_ofNat, Nat.mod_eq_of_lt small, ← two, le_leNat]
  case mpr =>
    rintro rfl
    have small : r.toNat < 256 ^ 2 := r.isLt
    rw [leNat_le, Nat.mod_eq_of_lt small, BitVec.ofNat_toNat, BitVec.setWidth_eq]

/-! ### The CRC and the stored check (R34) -/

theorem crc_concat (bs : List Byte) (b : Byte) : crc (bs ++ [b]) = crcByte (crc bs) b := by
  simp [crc]

theorem crcShift_of_msb {r : BitVec 16} (h : r.msb = true) : crcShift r = (r <<< 1) ^^^ 0x1021#16 := if_pos h

theorem crcShift_of_not_msb {r : BitVec 16} (h : r.msb = false) : crcShift r = r <<< 1 := if_neg (by simp [h])

/-- A check field that ends a run of bytes holds the CRC of the bytes before it exactly when it is that CRC's two bytes. -/
theorem crc_take_eq_field_iff {bs : List Byte} {off : Nat} (size : bs.length = off + 2) :
    crc (bs.take off) = BitVec.ofNat 16 (field off 2 bs) ↔ bs.drop off = le 2 (crc (bs.take off)).toNat := by
  have two : (bs.drop off).length = 2 := by simp [size]
  rw [field, List.take_of_length_le two.le, eq_ofNat_leNat_iff two]

theorem checkGood_iff {record : List Byte} (size : record.length = 46) :
    checkGood record = true ↔ record.drop 44 = le 2 (crc (record.take 44)).toNat :=
  beq_iff_eq.trans (crc_take_eq_field_iff size)

/-- Settles O15: the CRC's recurrence and shift by their equations, its printed values by evaluation, and both stored checks
by the one law of a check field that ends a run of bytes. -/
theorem crcOfRecords : Obligations.CrcOfRecords := by
  refine ⟨rfl, crc_concat, fun r => ⟨crcShift_of_msb, crcShift_of_not_msb⟩, by decide +kernel, by decide +kernel,
    fun record size => ⟨checkGood_iff size, fun printed => ?_⟩, fun mark size => crc_take_eq_field_iff size⟩
  have bytes : le 2 (0xE1F0#16).toNat = [0xF0, 0xE1] := by decide
  rw [checkGood_iff size, printed, bytes]

end Sys2Proof.Machine

/-! Stage 10 (R85 to R88): when each of the two sightings is there, which of them is the last, and the two reasons. -/

namespace Sys2Proof.Machine

/-! ### The last sighting (R87) -/

section
variable {seen card : Sighting}

@[simp] theorem lastSighting_none_left (card : Option Sighting) : lastSighting none card = card := rfl

@[simp] theorem lastSighting_some_none (seen : Sighting) : lastSighting (some seen) none = some seen := rfl

theorem lastSighting_of_lt (later : seen.count < card.count) : lastSighting (some seen) (some card) = some card :=
  if_pos later

theorem lastSighting_of_le (notLater : card.count ≤ seen.count) : lastSighting (some seen) (some card) = some seen :=
  if_neg (Nat.not_lt_of_le notLater)

end

theorem lastSighting_isSome_iff (roster card : Option Sighting) :
    (lastSighting roster card).isSome = true ↔ roster.isSome = true ∨ card.isSome = true := by
  cases roster with
  | none => simp
  | some seen =>
    cases card with
    | none => simp
    | some card =>
      rcases Nat.lt_or_ge seen.count card.count with later | notLater
      · simp [lastSighting_of_lt later]
      · simp [lastSighting_of_le notLater]

/-! ### The roster sighting (R85) and the card sighting (R86, R126) -/

theorem rosterSighting_eq_some_iff {roster : List Entry} {id : LongWord} {seen : Sighting} :
    rosterSighting roster id = some seen ↔
      ∃ e, entryOf roster id = some e ∧ seen = { coach := e.lastCoach, count := e.lastCount } := by
  simp only [rosterSighting, Option.map_eq_some_iff, @eq_comm _ seen]

theorem markTrusted_iff (r : Run) (mark : List Byte) :
    markTrusted r mark = true ↔ crc (mark.take 14) = (Mark.ofBytes mark).check ∧ (Mark.ofBytes mark).runId = r.runId := by
  simp [markTrusted]

/-- The sighting that a mark's own coach and service clock tell of (R86). -/
def Mark.sighting (m : Mark) : Sighting := { coach := m.coach, count := m.serviceDay * 1440 + m.serviceMinute }

theorem cardSighting_eq_some_iff {r : Run} {roster : List Entry} {c : Credential} {seen : Sighting} :
    cardSighting r roster c = some seen ↔
      (c.lastMarkPresent = true ∧ markTrusted r c.lastMark = true ∧
        ((Mark.ofBytes c.lastMark).terminal ≠ r.terminal ∨ entryOf roster c.credentialId = none)) ∧
      seen = (Mark.ofBytes c.lastMark).sighting := by
  simp only [cardSighting, Mark.sighting, Option.ite_none_right_eq_some, Option.some_inj, Bool.and_eq_true, Bool.or_eq_true,
    bne_iff_ne, Option.isNone_iff_eq_none, and_assoc, @eq_comm _ seen]

theorem cardSighting_isSome_iff {r : Run} {roster : List Entry} {c : Credential} :
    (cardSighting r roster c).isSome = true ↔
      c.lastMarkPresent = true ∧ markTrusted r c.lastMark = true ∧
        ((Mark.ofBytes c.lastMark).terminal ≠ r.terminal ∨ entryOf roster c.credentialId = none) := by
  simp only [Option.isSome_iff_exists, cardSighting_eq_some_iff, exists_and_left, exists_eq, and_true]

/-! ### The reasons of stage 10 (R87, R88) -/

/-- R88 takes the difference as a signed number and a negative one as 0; that is what subtraction of counts gives. -/
theorem sub_lt_iff_max_sub_lt (n m window : Nat) : n - m < window ↔ max 0 ((n : Int) - m) < window := by omega

section
variable {r : Run} {roster : List Entry} {c : Credential} {coach n : Nat}

theorem historyReasons_unseen
    (unseen : lastSighting (rosterSighting roster c.credentialId) (cardSighting r roster c) = none) :
    historyReasons r roster c coach n = [] := by
  simp only [historyReasons, unseen]

theorem historyReasons_seen {seen : Sighting}
    (last : lastSighting (rosterSighting roster c.credentialId) (cardSighting r roster c) = some seen) :
    historyReasons r roster c coach n =
      [.repeated] ++
        (if c.passengers = 1 ∧ seen.coach ≠ coach ∧ max 0 ((n : Int) - seen.count) < r.sharedWindow then [.seenElsewhere]
          else []) := by
  simp only [historyReasons, last, ← sub_lt_iff_max_sub_lt, Bool.and_eq_true, beq_iff_eq, bne_iff_ne, decide_eq_true_eq,
    and_assoc]

theorem repeated_mem_historyReasons_iff :
    Reason.repeated ∈ historyReasons r roster c coach n ↔
      (rosterSighting roster c.credentialId).isSome = true ∨ (cardSighting r roster c).isSome = true := by
  rw [← lastSighting_isSome_iff]
  cases last : lastSighting (rosterSighting roster c.credentialId) (cardSighting r roster c) with
  | none => simp [historyReasons_unseen last]
  | some seen => simp [historyReasons_seen last]

theorem seenElsewhere_mem_historyReasons_iff :
    Reason.seenElsewhere ∈ historyReasons r roster c coach n ↔
      ∃ seen, lastSighting (rosterSighting roster c.credentialId) (cardSighting r roster c) = some seen ∧
        c.passengers = 1 ∧ seen.coach ≠ coach ∧ max 0 ((n : Int) - seen.count) < r.sharedWindow := by
  cases last : lastSighting (rosterSighting roster c.credentialId) (cardSighting r roster c) with
  | none => simp [historyReasons_unseen last]
  | some seen =>
    rw [historyReasons_seen last]
    split
    next elsewhere => simpa using elsewhere
    next here => simpa using here

end

/-- Settles O23: each sighting by the conditions that give it, the last one by its counts, and the two reasons of stage 10 by
the cases of the last sighting. -/
theorem historyStage : Obligations.HistoryStage := by
  refine ⟨fun seen card => ⟨rfl, rfl, rfl, lastSighting_of_lt, lastSighting_of_le⟩,
    fun roster id seen => rosterSighting_eq_some_iff, ?card,
    fun r roster c coach n => ⟨repeated_mem_historyReasons_iff, seenElsewhere_mem_historyReasons_iff, rfl,
      fun index e j i => ⟨rfl, rfl, rfl, rfl⟩⟩⟩
  case card =>
    rintro r roster c m rfl
    refine ⟨?_, fun seen sighted => (cardSighting_eq_some_iff.mp sighted).2⟩
    rw [cardSighting_isSome_iff, markTrusted_iff, and_assoc]

end Sys2Proof.Machine

/-! The Sweep and Notice Release registers: what a write to Sweep does in each port state, how a sweep ends (R146, R147,
R162), and how the release of notices and the append at a full ring meet (R153, R154). -/

namespace Sys2Proof.Machine

/-! ### A write to Sweep (R147, R162) -/

section
variable {s : State}

/-- What the start of a quiet step clears, its end clears as well, and a write to Sweep reads none of it. -/
theorem exec_sweep_quiet (v : Word) (s : State) : exec (.sweep v Env.quiet) s = .next (endStep (writeSweep s)) := by
  have cleared : writeSweep (beginStep Env.quiet s) = { writeSweep s with busLeft := none, arrivals := [], owed := [] } := by
    rw [beginStep_quiet]
    unfold writeSweep
    cases s.port.state
    case idle => by_cases dozing : s.power = .doze <;> simp [startSweep, dozing]
    all_goals rfl
  calc
    exec (.sweep v Env.quiet) s = .next (endStep (writeSweep (beginStep Env.quiet s))) := rfl
    _ = .next (endStep (writeSweep s)) := by rw [cleared]; rfl

theorem writeSweep_idle (idle : s.port.state = .idle) (awake : s.power ≠ .doze) : writeSweep s = startSweep s := by
  simp [writeSweep, idle, awake]

theorem writeSweep_idle_doze (idle : s.port.state = .idle) (dozing : s.power = .doze) :
    writeSweep s = startSweep { s with power := .active, port := { s.port with dozeRequest := false } } := by
  simp [writeSweep, idle, dozing]

theorem writeSweep_sweeping (sweeping : s.port.state = .sweeping) :
    writeSweep s = { s with port := { s.port with sweepAgain := true } } := by
  simp [writeSweep, sweeping]

theorem writeSweep_stopped (stopped : s.port.state = .stopped) : writeSweep s = s := by simp [writeSweep, stopped]

theorem writeSweep_fault (fault : s.port.state = .fault) : writeSweep s = s := by simp [writeSweep, fault]

/-! ### The end of a sweep (R146, R147) -/

theorem endSweep_again (sweeping : s.port.state = .sweeping) (ended : s.port.sweepLeft = 0)
    (again : s.port.sweepAgain = true) :
    endSweep s = startSweep { s with port := { s.port with sweepAgain := false } } := by
  rw [endSweep, if_pos ⟨sweeping, ended⟩, if_pos again]

theorem endSweep_idle (sweeping : s.port.state = .sweeping) (ended : s.port.sweepLeft = 0)
    (last : s.port.sweepAgain = false) :
    endSweep s = { s with port := { s.port with state := .idle } } := by
  rw [endSweep, if_pos ⟨sweeping, ended⟩, if_neg (by simp [last])]

theorem endSweep_unfinished (left : 0 < s.port.sweepLeft) : endSweep s = s := if_neg fun ended => left.ne' ended.2

end

/-- Settles O44: each port state has its own equation for a write to Sweep, and so has each way a sweep ends. -/
theorem sweepWrites : Obligations.SweepWrites := by
  intro s v
  rw [exec_sweep_quiet]
  refine ⟨fun idle awake => ?_, fun idle dozing => ?_, fun sweeping => ?_, fun silent => ?_,
    fun sweeping ended => ⟨endSweep_again sweeping ended, endSweep_idle sweeping ended⟩,
    endSweep_unfinished⟩
  · rw [writeSweep_idle idle awake]
    rfl
  · rw [writeSweep_idle_doze idle dozing]
    rfl
  · rw [writeSweep_sweeping sweeping]
  · rcases silent with stopped | fault
    · rw [writeSweep_stopped stopped]
    · rw [writeSweep_fault fault]

/-! ### A write to Notice Release (R153, R154) -/

section
variable {s : State}

/-- At a full ring the bus is not asked for anything, so that it does not matter whether it would fail. -/
theorem appendNotice_full (writes : s.port.state.writes = true) (full : 64 ≤ s.port.noticeCount) (n : Notice) :
    appendNotice n s = setOverflow s := by
  have lost : writeNotice n s = setOverflow s := if_pos full
  cases state : s.port.state with
  | idle | sweeping => simp [appendNotice, state, lost]
  | stopped | fault => simp [state, PortState.writes] at writes

theorem appendNotice_room_port (bus : s.busLeft = none) (writes : s.port.state.writes = true)
    (room : s.port.noticeCount < 64) (n : Notice) :
    (appendNotice n s).port =
      { s.port with
        writePosition := s.port.writePosition + 1
        nextSequence := s.port.nextSequence + 1
        noticeCount := s.port.noticeCount + 1 } := by
  rw [appendNotice_quiet bus writes, offered_one_room room]

end

/-- Settles O49: a release is one truncated subtraction from the count; a notice that finds the ring full before a release is
lost, one that comes after a release finds room. -/
theorem noticeRelease : Obligations.NoticeRelease := by
  intro s v
  have released : exec (.noticeRelease v) s =
      .next (endStep { s with port := { s.port with noticeCount := s.port.noticeCount - v.toNat } }) := rfl
  refine ⟨fun within => ⟨s.port.noticeCount - v.toNat, Nat.sub_add_cancel within, released⟩, fun beyond => ?_,
    fun n full writes least most => ?_⟩
  · rw [released, Nat.sub_eq_zero_of_le beyond.le]
  · have lost : appendNotice n s = setOverflow s := appendNotice_full writes full.ge n
    refine ⟨by simp [lost, full], by simp [lost], fun bus => ?_⟩
    have room : (releaseNotices v s).port.noticeCount < 64 := by
      change s.port.noticeCount - v.toNat < 64
      omega
    have appended := appendNotice_room_port (s := releaseNotices v s) bus writes room n
    exact ⟨by simp [appended, full], by simp [appended]⟩

end Sys2Proof.Machine

/-! What a step can do (R146, log entry 6), said once for every invariant. `Inside` lists the changes that can come inside an
inspection, `Work r` those of the owner of a request `r` and of what arrives while it works, `TakeMove`
those of the take of a request and `PortMove` the others of the port and the power state. Each function of the model
is a sequence of such changes, and so is every step. -/

namespace Sys2Proof.Machine

open Relation (ReflTransGen)

/-! ### The changes -/

/-- What a change of one roster entry in place keeps. -/
structure Entry.KeptBy (e e' : Entry) : Prop where
  index : e'.index = e.index
  id : e'.credentialId = e.credentialId
  sound : e.Sound → e'.Sound
  proposal : e.mark.proposal = none → e'.mark.proposal = none

/-- What the accesses to host memory do: they use up the surroundings, write host memory, and may fail (R156). -/
inductive BusMove : State → State → Prop
  | surroundings (s : State) (pending : List Instr) (busLeft : Option Nat) (arrivals : List Arrival) (owed : List Nat)
      (turns : Nat) :
      BusMove s { s with pending := pending, busLeft := busLeft, arrivals := arrivals, owed := owed, turns := turns }
  | memory (s : State) (m : Memory) (canonical : Memory.wf s.hostMemory = true → Memory.wf m = true)
      (bound : (∀ c ∈ s.hostMemory, c.1 < hostSize) → ∀ c ∈ m, c.1 < hostSize) : BusMove s { s with hostMemory := m }
  | fault (s : State) (cause : FaultCause) (address : Nat) (latched : cause ≠ .noCause) :
      BusMove s (enterFault cause address s)

/-- What a notice does: its bytes go over the bus, and it moves the ring or sets the overflow flag (R153). -/
inductive NoticeMove : State → State → Prop
  | bus {s t : State} (move : BusMove s t) : NoticeMove s t
  | overflow (s : State) : NoticeMove s (setOverflow s)
  | ring (s : State) (room : s.port.noticeCount < 64) : NoticeMove s (advanceRing s)

/-- What can change inside an inspection: the notices, the clock, the entries, the ends of holds, and the two resets. -/
inductive Inside : State → State → Prop
  | noting {s t : State} (move : NoticeMove s t) : Inside s t
  | clock (s : State) (c : Clock) (range : s.clock.InRange → c.InRange) (set : s.clock.isSet = true → c.isSet = true) :
      Inside s { s with clock := c }
  | entry (s : State) (i : Nat) (f : Entry → Entry) (kept : ∀ e, s.roster[i]? = some e → e.KeptBy (f e)) :
      Inside s (setEntry i f s)
  | record (s : State) (j : Judgement) (c : InspectCopy) (judged : ∃ n u, j = judgeAt n c u)
      (inspecting : (∃ h ∈ s.port.holds, h.isInspect = true) ∨ s.runOpen = true) : Inside s (recordInspection j c s)
  | drop (s : State) (slot : Slot) (held : s.isHeld slot = true) : Inside s (dropHold slot s)
  | carry (s : State) (slot : Slot) (awaits : Awaits) : Inside s (carryHold slot awaits s)
  | resetPort (s : State) : Inside s (resetPort s)
  | resetPower (s : State) : Inside s (resetPower s)

/-- A hold that stands on the list as no INSPECT, or whose release a FAULT has frozen, or that has ended. -/
def State.ReleasedAt (s : State) (slot : Slot) : Prop :=
  s.port.state = .fault ∨ s.isHeld slot = false ∨ ∃ g ∈ s.port.holds, g.slot = slot ∧ g.isInspect = false

/-- What can change while the owner of a request is at work: what can change inside an inspection, the completions of a load
and of a WIPE, and the owner's own changes. Only OPEN_RUN opens a run and only CLOSE_RUN closes one (R17, R28). -/
inductive Work (r : Request) : State → State → Prop
  | inside {s t : State} (move : Inside s t) : Work r s t
  | finish (s : State) (slot : Slot) : Work r s (finishInHand slot s)
  | hold (s : State) (h : Hold) (inHand : s.port.inHand = some h.slot) (inspecting : h.isInspect = true → s.runOpen = true) :
      Work r s (holdNow h s)
  | copy (s : State) (job : LoadJob) (bytes : List Byte) (loading : s.tables.load = some job)
      (within : bytes.length ≤ s.tables.toCopy job) : Work r s { s with tables := s.tables.copyIn job bytes }
  | complete (s : State) (job : LoadJob) (loading : s.tables.load = some job) :
      Work r s { s with tables := s.tables.completed job.kind }
  | wiped (s : State) (wiping : s.tables.wiping = true) : Work r s (wipeState s)
  | opened (s : State) (a : OpenRunArgs) (slot : Slot) (request : r = .openRun a) (inHand : s.port.inHand = some slot)
      (accepted : openRefusal a s = none) : Work r s { s with roster := [], run := openRecord a }
  | moved (s : State) (state : RunState) (position next : Option Nat) (before : s.runOpen = true)
      (after : state.isOpen = true)
      (range :
        s.run.InRange s.tables.stopCount →
          Run.InRange { s.run with state := state, position := position, nextStop := next } s.tables.stopCount) :
      Work r s { s with run := { s.run with state := state, position := position, nextStop := next } }
  | closed (s : State) (slot : Slot) (request : r = .closeRun) (inHand : s.port.inHand = some slot)
      (released : ∀ h ∈ s.port.holds, h.isInspect = true → s.ReleasedAt h.slot) :
      Work r s (discardProposals { s with run := { s.run with state := .closed } })
  | loadBegun (s : State) (slot : Slot) (k : TableKind) (a : LoadTableArgs) (inHand : s.port.inHand = some slot)
      (accepted : loadRefusal k a s = none) : Work r s { s with tables := s.tables.beginLoad k a }
  | raised (s : State) (k : TableKind) (level : Nat) (range : level ≤ 3) :
      Work r s { s with tables := s.tables.setDescriptor k ((s.tables.descriptor k).raised level) }
  | wipeBegun (s : State) (slot : Slot) (inHand : s.port.inHand = some slot) (shut : s.runOpen = false)
      (free : s.tables.busy = false) : Work r s (beginWipe s)

/-- What the take of a request does: the examinations, the ended-hold mark cleared, and the request taken in hand (R146). -/
inductive TakeMove : State → State → Prop
  | bus {s t : State} (move : BusMove s t) : TakeMove s t
  | examined (s : State) (slot : Slot) (n : Nat) : TakeMove s (examined slot n s)
  | cleared (s : State) (slot : Slot) : TakeMove s (clearMark slot s)
  | taken (s : State) (slot : Slot) (sweeping : s.port.state = .sweeping) (free : s.isHeld slot = false)
      (clear : s.port.endedMarks.get slot = false) : TakeMove s (setInHand slot s)

/-- What changes of the port and the power state outside a request's work: the examinations that take nothing, the end of a
sweep, the register writes and the entry into DOZE. -/
inductive PortMove : State → State → Prop
  | bus {s t : State} (move : BusMove s t) : PortMove s t
  | examined (s : State) (slot : Slot) (n : Nat) : PortMove s (examined slot n s)
  | sweepEnded (s : State) : PortMove s (endSweep s)
  | reset (s : State) : PortMove s (resetPort s)
  | stored (s : State) (v : Word) : PortMove s (storeControl v s)
  | enabled (s : State) (stopped : s.port.state = .stopped) :
      PortMove s { s with port := { s.port with state := .idle, cursor := 0, writePosition := 0, noticeCount := 0 } }
  | disabled (s : State) (writes : s.port.state.writes = true) : PortMove s (disablePort s)
  | dozeAsked (s : State) (v : Word) : PortMove s (controlDoze v s)
  | sweepAsked (s : State) : PortMove s (writeSweep s)
  | status (s : State) (v : Word) : PortMove s (writeStatus v s)
  | release (s : State) (v : Word) : PortMove s (releaseNotices v s)
  | area (s : State) (v : Word) : PortMove s (writeAreaBase v s)
  | dozeEntered (s : State) : PortMove s (enterDoze s)

/-- Any change of a step in which the request `r` is at work. -/
inductive Change (r : Request) : State → State → Prop
  | work {s t : State} (move : Work r s t) : Change r s t
  | port {s t : State} (move : PortMove s t) : Change r s t

/-- What the recording of an inspection is made of, when the roster is not looked at. -/
inductive Recording : State → State → Prop
  | noting {s t : State} (move : NoticeMove s t) : Recording s t
  | roster (s : State) (roster : List Entry) : Recording s { s with roster := roster }

abbrev BusMoves : State → State → Prop := ReflTransGen BusMove
abbrev NoticeMoves : State → State → Prop := ReflTransGen NoticeMove
abbrev Insides : State → State → Prop := ReflTransGen Inside
abbrev Works (r : Request) : State → State → Prop := ReflTransGen (Work r)
abbrev TakeMoves : State → State → Prop := ReflTransGen TakeMove
abbrev PortMoves : State → State → Prop := ReflTransGen PortMove
abbrev Changes (r : Request) : State → State → Prop := ReflTransGen (Change r)

theorem star_mono {r r' : State → State → Prop} (sub : ∀ s t, r s t → r' s t) {s t : State} (h : ReflTransGen r s t) :
    ReflTransGen r' s t := h.lift id sub

theorem BusMoves.noting {s t : State} (h : BusMoves s t) : NoticeMoves s t := star_mono (fun _ _ => .bus) h
theorem NoticeMoves.inside {s t : State} (h : NoticeMoves s t) : Insides s t := star_mono (fun _ _ => .noting) h
theorem BusMoves.inside {s t : State} (h : BusMoves s t) : Insides s t := h.noting.inside
theorem BusMoves.take {s t : State} (h : BusMoves s t) : TakeMoves s t := star_mono (fun _ _ => .bus) h
theorem BusMoves.port {s t : State} (h : BusMoves s t) : PortMoves s t := star_mono (fun _ _ => .bus) h
theorem Insides.work {s t : State} (h : Insides s t) (r : Request) : Works r s t :=
  star_mono (fun _ _ => .inside) h
theorem BusMoves.work {s t : State} (h : BusMoves s t) (r : Request) : Works r s t := h.inside.work r
theorem Works.change {r : Request} {s t : State} (h : Works r s t) : Changes r s t := star_mono (fun _ _ => .work) h
theorem PortMoves.change {s t : State} (h : PortMoves s t) (r : Request) : Changes r s t :=
  star_mono (fun _ _ => .port) h

/-- A list of pieces of work, each of them a sequence of changes. -/
theorem foldl_star {α : Type} {r : State → State → Prop} {f : State → α → State}
    (piece : ∀ s x, ReflTransGen r s (f s x)) (s : State) (l : List α) : ReflTransGen r s (l.foldl f s) := by
  induction l generalizing s with
  | nil => exact .refl
  | cons x l ih => exact (piece s x).trans (ih (f s x))

/-- Whatever every change keeps, a sequence of them keeps. -/
theorem star_keeps {r : State → State → Prop} {P : State → Prop} (keep : ∀ s t, r s t → P s → P t) {s t : State}
    (h : ReflTransGen r s t) (hs : P s) : P t := by
  induction h with
  | refl => exact hs
  | tail _ move ih => exact keep _ _ move ih

/-! ### The bus -/

/-- Any part of the surroundings used up. -/
theorem surroundings_moves {s t : State}
    (h : t = { s with pending := t.pending, busLeft := t.busLeft, arrivals := t.arrivals, owed := t.owed, turns := t.turns }) :
    BusMoves s t := by
  rw [h]
  exact .single (.surroundings s _ _ _ _ _)

theorem hostWrite_moves (s : State) (a : Nat) (bs : List Byte) :
    BusMove s { s with hostMemory := Memory.writeRun hostSize s.hostMemory a bs } :=
  .memory s _ Memory.wf_writeRun (Memory.bound_writeRun (by decide))

theorem spend_moves (n : Nat) (s : State) : BusMoves s (s.spend n) := surroundings_moves rfl

theorem busWrite_moves (a : Nat) (bs : List Byte) (s : State) : BusMoves s (busWrite a bs s) := by
  unfold busWrite
  split
  · split
    · exact (spend_moves bs.length s).tail (hostWrite_moves (s.spend bs.length) a bs)
    · exact (ReflTransGen.single (hostWrite_moves s a _)).tail (.fault _ .write _ nofun)
  · exact .refl

theorem mirrorRun_moves (s : State) : BusMoves s (mirrorRun s) := busWrite_moves _ _ s

theorem mirrorDescriptor_moves (k : TableKind) (s : State) : BusMoves s (mirrorDescriptor k s) := busWrite_moves _ _ s

theorem busRead_moves (a n : Nat) (s : State) : BusMoves s (busRead a n s) := by
  unfold busRead
  split
  · split
    · exact spend_moves n s
    · exact .single (.fault s .read _ nofun)
  · exact .refl

theorem failAccess_moves (isWrite : Bool) (address : Word) (s : State) : BusMoves s (failAccess isWrite address s) := by
  unfold failAccess
  split
  · exact .single (.fault s _ _ (by split <;> nofun))
  · exact .refl

theorem post_moves (slot : Slot) (tag : Half) (r : Request) (s : State) : BusMoves s (post slot tag r s) :=
  (ReflTransGen.single (hostWrite_moves s _ _)).tail (hostWrite_moves _ _ _)

theorem beginStep_moves (env : Env) (s : State) : BusMoves s (beginStep env s) :=
  (ReflTransGen.single (.memory s (env.hostWrites.foldl (fun m c => Memory.write m (c.1 % hostSize) c.2) s.hostMemory)
    Memory.wf_foldl_write (Memory.bound_foldl_write (by decide)))).trans (surroundings_moves rfl)

theorem dropArrival_moves (s : State) : BusMoves s (dropArrival s) := surroundings_moves rfl

/-! ### Notices and answers -/

theorem appendNotice_moves (n : Notice) (s : State) : NoticeMoves s (appendNotice n s) := by
  have written : NoticeMoves s (writeNotice n s) := by
    have put : BusMoves s (putNotice n s) := (busWrite_moves _ _ s).trans (busWrite_moves _ _ _)
    unfold writeNotice
    split
    · exact .single (.overflow s)
    next room =>
      split
      · exact put.noting.tail (.overflow _)
      · exact put.noting.tail (.ring _ (by simpa using room))
  unfold appendNotice
  split
  · exact .refl
  · exact .single (.overflow s)
  · exact written
  · exact written

theorem appendNotice_insides (n : Notice) (s : State) : Insides s (appendNotice n s) := (appendNotice_moves n s).inside

theorem writeAnswer_moves (slot : Slot) (tag : Half) (code : AnswerCode) (bytes : List Byte) (s : State) :
    NoticeMoves s (writeAnswer slot tag code bytes s) := by
  have written : BusMoves s _ := ((busWrite_moves (s.slotAddress slot + 4) [code.code] s).trans
    (busWrite_moves (s.slotAddress slot + 72) (padTo 56 bytes) _)).trans
    (busWrite_moves (s.slotAddress slot) [SlotState.answered.code] _)
  simp only [writeAnswer]
  split
  · exact written.noting.trans (appendNotice_moves _ _)
  · exact written.noting

theorem endHold_insides {h : Hold} {s : State} (held : s.isHeld h.slot = true) (code : AnswerCode) (bytes : List Byte) :
    Insides s (endHold h code bytes s) := by
  unfold endHold
  split
  · exact (writeAnswer_moves _ _ _ _ s).inside
  · exact (writeAnswer_moves _ _ _ _ s).inside.tail (.drop _ _ (by simpa [State.isHeld] using held))

/-! ### The entries -/

/-- The stage of a watch that has a part is the watch monitor's to change (R98). -/
theorem Entry.keptBy_stage {e : Entry} (hasPart : e.watch.kind ≠ .none) (stage : WatchStage) :
    e.KeptBy { e with watch := { e.watch with stage := stage } } where
  index := rfl
  id := rfl
  proposal := id
  sound := fun sound => { sound with watchOff := fun off => absurd off hasPart, watchLapse := sound.watchLapse }

/-- A mark record may lose its proposal at any time, and its commit count stays within a byte (R113). -/
theorem Entry.keptBy_mark {e : Entry} {m : MarkRecord} (commits : e.mark.commitCount ≤ 255 → m.commitCount ≤ 255)
    (proposal : m.proposal = e.mark.proposal ∨ m.proposal = none) : e.KeptBy { e with mark := m } where
  index := rfl
  id := rfl
  proposal := fun none => by rcases proposal with same | gone <;> simp_all
  sound := fun sound =>
    { sound with
      commits := commits sound.commits
      proposal := fun p hp => by
        rcases proposal with same | gone
        · exact sound.proposal p (by simpa [same] using hp)
        · simp [gone] at hp
      watchOff := sound.watchOff
      watchLapse := sound.watchLapse }

theorem Entry.keptBy_discardProposal (e : Entry) : e.KeptBy e.discardProposal := keptBy_mark id (.inr rfl)

theorem moveWatch_insides {i : Nat} {s : State} {e : Entry} (found : s.roster[i]? = some e) (hasPart : e.watch.kind ≠ .none)
    (stage : WatchStage) : Insides s (moveWatch i stage s) := by
  have moved : Inside s (setEntry i (fun e => { e with watch := { e.watch with stage := stage } }) s) :=
    .entry s i _ fun e' found' => by
      obtain rfl : e = e' := Option.some_inj.mp (found.symm.trans found')
      exact Entry.keptBy_stage hasPart stage
  simp only [moveWatch, found]
  split
  · exact (ReflTransGen.single moved).trans (appendNotice_insides _ _)
  · exact .single moved

/-- The time advance moves only a watch with a time part (R104). -/
theorem Watch.kind_of_timeMove {w : Watch} {lead n : Nat} {stage : WatchStage} (h : w.timeMove lead n = some stage) :
    w.kind ≠ .none := by
  intro none
  simp [Watch.timeMove, none, WatchKind.hasTime] at h

theorem timeAdvance_insides (n i : Nat) (s : State) : Insides s (timeAdvance n i s) := by
  unfold timeAdvance
  split
  next stage due =>
    unfold timeMoveAt at due
    split at due
    · obtain ⟨e, found, move⟩ := Option.bind_eq_some_iff.mp due
      exact moveWatch_insides found (Watch.kind_of_timeMove move) stage
    · simp at due
  · exact .refl

/-- The zone advance moves only a watch with a zone part (R106). -/
theorem Entry.kind_of_zoneMove {t : Tables} {d : Direction} {stop : Nat} {e : Entry} {stage : WatchStage}
    (h : zoneMove t d stop e = some stage) : e.watch.kind ≠ .none := by
  intro none
  simp [zoneMove, none, WatchKind.hasZone] at h

theorem zoneAdvanceAt_insides (stop i : Nat) (s : State) : Insides s (zoneAdvanceAt stop i s) := by
  unfold zoneAdvanceAt
  split
  next stage due =>
    obtain ⟨e, found, move⟩ := Option.bind_eq_some_iff.mp due
    exact moveWatch_insides found (Entry.kind_of_zoneMove move) stage
  · exact .refl

theorem lapseProposal_insides (n i : Nat) (s : State) : Insides s (lapseProposal n i s) := by
  unfold lapseProposal
  split
  · exact (ReflTransGen.single (.entry s i _ fun e _ => e.keptBy_discardProposal)).trans (appendNotice_insides _ _)
  · exact .refl


/-! ### The recording of an inspection, its entries left aside -/

theorem moveWatch_recording (i : Nat) (stage : WatchStage) (s : State) :
    ReflTransGen Recording s (moveWatch i stage s) := by
  have moved : Recording s (setEntry i (fun e => { e with watch := { e.watch with stage := stage } }) s) := .roster s _
  unfold moveWatch
  split
  · exact .refl
  · split
    · exact (ReflTransGen.single moved).trans (star_mono (fun _ _ => .noting) (appendNotice_moves _ _))
    · exact .single moved

theorem timeAdvance_recording (n i : Nat) (s : State) : ReflTransGen Recording s (timeAdvance n i s) := by
  unfold timeAdvance
  split
  · exact moveWatch_recording _ _ s
  · exact .refl

theorem lapseProposal_recording (n i : Nat) (s : State) : ReflTransGen Recording s (lapseProposal n i s) := by
  unfold lapseProposal
  split
  · exact (ReflTransGen.single (.roster s _)).trans (star_mono (fun _ _ => .noting) (appendNotice_moves _ _))
  · exact .refl

theorem watchAndMark_recording (i : Nat) (j : Judgement) (c : InspectCopy) (s : State) :
    ReflTransGen Recording s (watchAndMark i j c s) := by
  have armed : ReflTransGen Recording s (armEntry i j c.product s) := by
    simp only [armEntry]
    split
    · exact (ReflTransGen.single (.roster s _)).trans (timeAdvance_recording _ _ _)
    · exact .single (.roster s _)
  refine armed.trans ?_
  show ReflTransGen Recording _ (proposeEntry i j c (armEntry i j c.product s))
  unfold proposeEntry
  split
  · exact (ReflTransGen.single (.roster _ _)).trans (lapseProposal_recording _ _ _)
  · exact .single (.roster _ _)

/-- To a reader that does not look at the roster, an inspection is recorded by notices alone. -/
theorem recordInspection_recording (j : Judgement) (c : InspectCopy) (s : State) :
    ReflTransGen Recording s (recordInspection j c s) := by
  unfold recordInspection
  split
  · exact .refl
  · exact (ReflTransGen.single (.roster s _)).trans (watchAndMark_recording _ j c _)
  · exact ((ReflTransGen.single (.roster s _)).trans (watchAndMark_recording _ j c _)).trans
      (star_mono (fun _ _ h => .noting (.bus h)) (busWrite_moves _ _ _))

/-! ### What an inspection meets leaves alone -/

/-- A notice touches neither the hold list nor the run. -/
theorem NoticeMove.frame {s t : State} (move : NoticeMove s t) : t.port.holds = s.port.holds ∧ t.run = s.run := by
  cases move with
  | bus move => cases move <;> exact ⟨rfl, rfl⟩
  | overflow | ring => exact ⟨rfl, rfl⟩

/-- A hold that is still on the list stands there with its work (R150). -/
theorem Inside.holds {s t : State} (move : Inside s t) {h : Hold} (on : h ∈ s.port.holds) (held : t.isHeld h.slot = true) :
    ∃ g ∈ t.port.holds, g.slot = h.slot ∧ g.work = h.work := by
  cases move with
  | noting move => exact ⟨h, by rwa [move.frame.1], rfl, rfl⟩
  | clock | entry => exact ⟨h, on, rfl, rfl⟩
  | record => exact ⟨h, by simpa using on, rfl, rfl⟩
  | drop slot =>
    have other : h.slot ≠ slot := by
      rintro rfl
      simp [State.isHeld] at held
    exact ⟨h, by simp [on, other], rfl, rfl⟩
  | carry slot awaits =>
    refine ⟨if h.slot == slot then { h with awaits := awaits } else h, List.mem_map_of_mem on, ?_⟩
    split <;> exact ⟨rfl, rfl⟩
  | resetPort | resetPower => exact absurd held nofun

/-- No hold is added inside an inspection. -/
theorem Inside.holdBefore {s t : State} (move : Inside s t) {h : Hold} (on : h ∈ t.port.holds) :
    ∃ g ∈ s.port.holds, g.slot = h.slot ∧ g.work = h.work := by
  cases move with
  | noting move => exact ⟨h, by rwa [← move.frame.1], rfl, rfl⟩
  | clock | entry => exact ⟨h, on, rfl, rfl⟩
  | record => exact ⟨h, by simpa using on, rfl, rfl⟩
  | drop => exact ⟨h, (List.mem_filter.mp on).1, rfl, rfl⟩
  | carry slot awaits =>
    obtain ⟨g, before, rfl⟩ := List.mem_map.mp on
    exact ⟨g, before, by split <;> rfl, by split <;> rfl⟩
  | resetPort | resetPower => exact absurd on nofun

theorem Insides.holdBefore {s t : State} (moves : Insides s t) {h : Hold} (on : h ∈ t.port.holds) :
    ∃ g ∈ s.port.holds, g.slot = h.slot ∧ g.work = h.work := by
  induction moves generalizing h with
  | refl => exact ⟨h, on, rfl, rfl⟩
  | tail _ move ih =>
    obtain ⟨g, on, slot, work⟩ := move.holdBefore on
    obtain ⟨g', on', slot', work'⟩ := ih on
    exact ⟨g', on', slot'.trans slot, work'.trans work⟩

theorem State.isHeld_iff {s : State} {slot : Slot} : s.isHeld slot = true ↔ ∃ h ∈ s.port.holds, h.slot = slot := by
  simp [State.isHeld]

theorem Inside.held {s t : State} (move : Inside s t) {slot : Slot} (held : t.isHeld slot = true) :
    s.isHeld slot = true := by
  obtain ⟨h, on, rfl⟩ := State.isHeld_iff.mp held
  obtain ⟨g, on', slot', -⟩ := move.holdBefore on
  exact State.isHeld_iff.mpr ⟨g, on', slot'⟩

theorem Insides.holds {s t : State} (moves : Insides s t) {h : Hold} (on : h ∈ s.port.holds)
    (held : t.isHeld h.slot = true) : ∃ g ∈ t.port.holds, g.slot = h.slot ∧ g.work = h.work := by
  induction moves with
  | refl => exact ⟨h, on, rfl, rfl⟩
  | tail _ move ih =>
    obtain ⟨g, on, slot, work⟩ := ih (move.held held)
    obtain ⟨g', on', slot', work'⟩ := move.holds on (slot ▸ held)
    exact ⟨g', on', slot'.trans slot, work'.trans work⟩

/-- The request in hand, if one stays in hand, in the port state it was taken in: a FAULT and the resets abandon it (R156 to
R158). -/
def State.KeepsHand (s t : State) : Prop :=
  t.port.inHand = none ∨ (t.port.inHand = s.port.inHand ∧ t.port.state = s.port.state)

theorem State.KeepsHand.trans {s t u : State} (h : s.KeepsHand t) (h' : t.KeepsHand u) : s.KeepsHand u := by
  rcases h' with none | ⟨hand, state⟩
  · exact .inl none
  · rcases h with none | ⟨hand', state'⟩
    · exact .inl (hand.trans none)
    · exact .inr ⟨hand.trans hand', state.trans state'⟩

theorem star_keepsHand {r : State → State → Prop} (keeps : ∀ s t, r s t → s.KeepsHand t) {s t : State}
    (moves : ReflTransGen r s t) : s.KeepsHand t := by
  induction moves with
  | refl => exact .inr ⟨rfl, rfl⟩
  | tail _ move ih => exact ih.trans (keeps _ _ move)

theorem NoticeMove.keepsHand {s t : State} (move : NoticeMove s t) : s.KeepsHand t := by
  cases move with
  | bus move =>
    cases move with
    | surroundings | memory => exact .inr ⟨rfl, rfl⟩
    | fault => exact .inl rfl
  | overflow | ring => exact .inr ⟨rfl, rfl⟩

theorem Recording.keepsHand {s t : State} (move : Recording s t) : s.KeepsHand t := by
  cases move with
  | noting move => exact move.keepsHand
  | roster => exact .inr ⟨rfl, rfl⟩

theorem Inside.keepsHand {s t : State} (move : Inside s t) : s.KeepsHand t := by
  cases move with
  | noting move => exact move.keepsHand
  | record => exact star_keepsHand (fun _ _ => Recording.keepsHand) (recordInspection_recording _ _ s)
  | clock | entry | drop | carry => exact .inr ⟨rfl, rfl⟩
  | resetPort | resetPower => exact .inl rfl

/-- While a request stays in hand the run record stays: inside an inspection only a power-on reset changes it (R158). -/
theorem Inside.run {s t : State} (move : Inside s t) (hand : t.port.inHand ≠ none) : t.run = s.run := by
  cases move with
  | noting move => exact move.frame.2
  | record => simp
  | clock | entry | drop | carry | resetPort => rfl
  | resetPower => exact absurd rfl hand

theorem Insides.keepsHand {s t : State} (moves : Insides s t) : s.KeepsHand t :=
  star_keepsHand (fun _ _ => Inside.keepsHand) moves

theorem Insides.run {s t : State} (moves : Insides s t) (hand : t.port.inHand ≠ none) : t.run = s.run := by
  induction moves with
  | refl => rfl
  | tail _ move ih =>
    refine (move.run hand).trans (ih fun none => ?_)
    rcases move.keepsHand with gone | ⟨same, -⟩
    · exact hand gone
    · exact hand (same.trans none)

/-- A FAULT lasts until a reset (R156). -/
theorem NoticeMove.fault {s t : State} (move : NoticeMove s t) (fault : s.port.state = .fault) :
    t.port.state = .fault := by
  cases move with
  | bus move =>
    cases move with
    | surroundings | memory => exact fault
    | fault => rfl
  | overflow | ring => exact fault

theorem recordInspection_fault (j : Judgement) (c : InspectCopy) {s : State} (fault : s.port.state = .fault) :
    (recordInspection j c s).port.state = .fault :=
  star_keeps (P := fun s => s.port.state = .fault)
    (fun s t move fault => by
      cases move with
      | noting move => exact move.fault fault
      | roster => exact fault)
    (recordInspection_recording j c s) fault

/-- A hold once released stays so: none is added inside an inspection (R150). -/
theorem Inside.releasedAt {s t : State} (move : Inside s t) {slot : Slot} (released : s.ReleasedAt slot) :
    t.ReleasedAt slot := by
  by_cases held : t.isHeld slot = true
  case neg => exact .inr (.inl (by simpa using held))
  rcases released with fault | gone | ⟨g, on, rfl, other⟩
  · left
    cases move with
    | noting move => exact move.fault fault
    | record => exact recordInspection_fault _ _ fault
    | clock | entry | drop | carry => exact fault
    | resetPort | resetPower => exact absurd held nofun
  · exact absurd (move.held held) (by simp [gone])
  · obtain ⟨g', on', slot', work'⟩ := move.holds on held
    exact .inr (.inr ⟨g', on', slot', by simpa [Hold.isInspect, work'] using other⟩)

theorem Insides.releasedAt {s t : State} (moves : Insides s t) {slot : Slot} (released : s.ReleasedAt slot) :
    t.ReleasedAt slot :=
  star_keeps (P := fun s => s.ReleasedAt slot) (fun _ _ move => move.releasedAt) moves released

end Sys2Proof.Machine

/-! Every function of the evaluator's side is a sequence of changes that can come inside an inspection. -/

namespace Sys2Proof.Machine

open Relation (ReflTransGen)

/-! ### The ends of held inspections -/

/-- What comes inside an evaluation, as the functions below are given it. -/
def KeepsInside (mid : State → State) : Prop := ∀ s, Insides s (mid s)

theorem keepsInside_id : KeepsInside id := fun _ => .refl

theorem State.isHeld_of_holdOf {s : State} {slot : Slot} {h : Hold} (found : s.holdOf slot = some h) :
    h ∈ s.port.holds ∧ h.slot = slot :=
  ⟨List.mem_of_find?_eq_some found, by simpa using List.find?_some found⟩

theorem State.isHeld_of_mem {s : State} {h : Hold} (on : h ∈ s.port.holds) : s.isHeld h.slot = true :=
  List.any_eq_true.mpr ⟨h, on, beq_self_eq_true _⟩

/-- The end of a hold leaves its slot off the list, unless the port is in FAULT (R134, R150). -/
theorem endHold_releasedAt (h : Hold) (code : AnswerCode) (bytes : List Byte) (s : State) :
    (endHold h code bytes s).ReleasedAt h.slot := by
  unfold endHold
  split
  next fault => exact .inl fault
  · exact .inr (.inl (by simp [State.isHeld]))

theorem State.releasedAt_of_lostHold {s : State} {slot : Slot} (lost : s.lostHold slot = true) : s.ReleasedAt slot := by
  simp only [State.lostHold, Bool.or_eq_true, beq_iff_eq, Bool.not_eq_true'] at lost
  rcases lost with fault | gone
  · exact .inl fault
  · exact .inr (.inl gone)

section
variable {mid : State → State} (inside : KeepsInside mid)
include inside

theorem answerHold_insides (h : Hold) (bytes : List Byte) (s : State) : Insides s (answerHold mid h bytes s) := by
  unfold answerHold
  split
  · exact inside s
  next kept => exact (inside s).trans (endHold_insides (by simp_all [State.lostHold]) _ _)

theorem releaseHold_insides (n : Nat) {h : Hold} {c : InspectCopy} {s : State} (on : h ∈ s.port.holds)
    (inspecting : h.isInspect = true) : Insides s (releaseHold mid n h c s) := by
  unfold releaseHold
  split
  · exact inside s
  next kept =>
    have held : (mid s).isHeld h.slot = true := by simp_all [State.lostHold]
    obtain ⟨g, on', -, work⟩ := (inside s).holds on held
    have recorded : Inside (mid s) (recordInspection (judgeAt n c s) c (mid s)) :=
      .record _ _ _ ⟨n, s, rfl⟩ (.inl ⟨g, on', by simpa [Hold.isInspect, work] using inspecting⟩)
    exact ((inside s).tail recorded).trans (answerHold_insides inside _ _ _)

theorem releaseSlot_insides (n : Nat) (slot : Slot) (s : State) : Insides s (releaseSlot mid n slot s) := by
  unfold releaseSlot
  split
  · exact .refl
  · split
    · exact .refl
    next h found =>
      split
      next limit copy work =>
        exact releaseHold_insides inside n (State.isHeld_of_holdOf found).1 (by simp [Hold.isInspect, work])
      · exact .refl
      · exact .refl

theorem limitHold_insides (n : Nat) (slot : Slot) (s : State) : Insides s (limitHold mid n slot s) := by
  unfold limitHold
  split
  · exact releaseSlot_insides inside n slot s
  · exact .refl

theorem examineHolds_insides (n : Nat) (s : State) : Insides s (examineHolds mid n s) :=
  foldl_star (fun s slot => limitHold_insides inside n slot s) s _

theorem examineOwed_insides (fuel : Nat) (s : State) : Insides s (examineOwed mid fuel s) := by
  induction fuel generalizing s with
  | zero => exact .refl
  | succ fuel ih =>
    unfold examineOwed
    split
    · exact .refl
    next n rest _ =>
      exact ((surroundings_moves rfl).inside.trans (examineHolds_insides inside n { s with owed := rest })).trans (ih _)

theorem afterEvaluations_insides (s : State) : Insides s (afterEvaluations mid s) := examineOwed_insides inside _ s

theorem releasePlacement_insides (slot : Slot) (s : State) : Insides s (releasePlacement mid slot s) := by
  unfold releasePlacement
  split
  · split
    · exact .single (.carry s slot _)
    · exact releaseSlot_insides inside _ slot s
  · exact .refl

theorem releasePlacements_insides (s : State) : Insides s (releasePlacements mid s) :=
  foldl_star (fun s slot => releasePlacement_insides inside slot s) s _

theorem releaseDeny_insides (slot : Slot) (s : State) : Insides s (releaseDeny mid slot s) := by
  unfold releaseDeny
  split
  · split
    · exact .single (.carry s slot _)
    · exact releaseSlot_insides inside _ slot s
  · exact .refl

theorem releaseDenies_insides (s : State) : Insides s (releaseDenies mid s) :=
  foldl_star (fun s slot => releaseDeny_insides inside slot s) s _

theorem releaseAll_insides (s : State) : Insides s (releaseAll mid s) :=
  foldl_star (fun s slot => releaseSlot_insides inside _ slot s) s _

omit inside in
/-- A release ends the INSPECT that a slot holds, if it holds one (R57, R60). -/
theorem releaseSlot_releasedAt (n : Nat) (slot : Slot) (s : State) : (releaseSlot mid n slot s).ReleasedAt slot := by
  unfold releaseSlot
  split
  next fault => exact .inl fault
  · split
    next free => exact .inr (.inl (by simpa [State.holdOf, State.isHeld] using free))
    next h found =>
      obtain ⟨on, rfl⟩ := State.isHeld_of_holdOf found
      split
      · unfold releaseHold
        split
        next lost => exact State.releasedAt_of_lostHold lost
        · unfold answerHold
          split
          next lost => exact State.releasedAt_of_lostHold lost
          · exact endHold_releasedAt _ _ _ _
      next work => exact .inr (.inr ⟨h, on, rfl, by simp [Hold.isInspect, work]⟩)
      next work => exact .inr (.inr ⟨h, on, rfl, by simp [Hold.isInspect, work]⟩)

theorem foldl_releaseSlot_releasedAt {slots : List Slot} {slot : Slot} (mem : slot ∈ slots) (s : State) :
    (slots.foldl (fun s slot => releaseSlot mid s.clockCount slot s) s).ReleasedAt slot := by
  induction slots generalizing s with
  | nil => simp at mem
  | cons x slots ih =>
    rcases List.mem_cons.mp mem with rfl | mem
    · exact Insides.releasedAt (foldl_star (fun s slot => releaseSlot_insides inside _ slot s) _ slots)
        (releaseSlot_releasedAt _ slot s)
    · exact ih mem _

/-- At the close every held INSPECT is released (R28). -/
theorem releaseAll_releasedAt {h : Hold} {s : State} (on : h ∈ s.port.holds) (inspecting : h.isInspect = true) :
    (releaseAll mid s).ReleasedAt h.slot :=
  foldl_releaseSlot_releasedAt inside (List.mem_map_of_mem (List.mem_filter.mpr ⟨on, inspecting⟩)) s

theorem runTask_insides (n : Nat) (s : State) (k : TickTask) : Insides s (runTask mid n s k) := by
  cases k with
  | dayChanged => exact appendNotice_insides _ s
  | watch i => exact timeAdvance_insides n i s
  | hold slot => exact limitHold_insides inside n slot s
  | proposal i => exact lapseProposal_insides n i s
  | zone stop i => exact zoneAdvanceAt_insides stop i s

end

/-! ### The clock's events -/

/-- What is left of an earlier tick or step, done before the clock changes, leaves the clock as it is. -/
structure FinishesTick (finish : State → State) : Prop where
  inside : KeepsInside finish
  clock : ∀ s, (finish s).clock = s.clock

theorem finishesTick_id : FinishesTick id := ⟨keepsInside_id, fun _ => rfl⟩

theorem finishPrompt_finishesTick (waiting n : Nat) (rest : List TickTask) : FinishesTick (finishPrompt waiting n rest) where
  inside s := by
    unfold finishPrompt
    split
    · exact foldl_star (fun s k => runTask_insides keepsInside_id n s k) s _
    · exact .refl
  clock s := by
    have prompt : ∀ (ks : List TickTask), (∀ k ∈ ks, k.isPrompt = true) → ∀ s : State,
        (ks.foldl (runTask id n) s).clock = s.clock := by
      intro ks
      induction ks with
      | nil => exact fun _ _ => rfl
      | cons k ks ih =>
        intro all s
        rw [List.foldl_cons, ih fun k hk => all k (by simp [hk])]
        have first := all k (by simp)
        cases k <;> simp_all [runTask, TickTask.isPrompt]
    unfold finishPrompt
    split
    · exact prompt _ (fun k hk => (List.mem_filter.mp hk).2) s
    · rfl

/-- What an evaluator lets in is inside an inspection, and what it has still to do is a tick's. -/
def Evaluator.Sound : Evaluator → Prop
  | .free mid => ∀ finish, FinishesTick finish → KeepsInside (mid finish)
  | .busy finish => FinishesTick finish

theorem Evaluator.Sound.finish {ev : Evaluator} (sound : ev.Sound) : FinishesTick ev.finish := by
  cases ev with
  | free => exact finishesTick_id
  | busy => exact sound

theorem runTasks_insides {mid : (State → State) → State → State}
    (inside : ∀ finish, FinishesTick finish → KeepsInside (mid finish)) (waiting n : Nat) (ks : List TickTask) (s : State) :
    Insides s (runTasks mid waiting n ks s) := by
  induction ks generalizing s with
  | nil => exact .refl
  | cons k ks ih =>
    unfold runTasks
    refine ReflTransGen.trans ?_ (ih _)
    split
    · exact .refl
    · exact runTask_insides (inside _ (finishPrompt_finishesTick waiting n ks)) n s k

theorem deliver_insides {ev : Evaluator} (sound : ev.Sound) (n : Nat) (lists : List (List TickTask)) (s : State) :
    Insides s (deliver ev n lists s) := by
  have turned : Insides s { s with turns := (taskOrder s.turns lists).2 } := (surroundings_moves rfl).inside
  cases ev with
  | free mid =>
    exact (turned.trans (runTasks_insides sound _ n _ _)).trans
      (afterEvaluations_insides (sound id finishesTick_id) _)
  | busy finish =>
    have done : Insides s _ :=
      turned.trans (foldl_star (fun s k => runTask_insides keepsInside_id n s k) _ (taskOrder s.turns lists).1)
    exact done.trans (surroundings_moves rfl).inside

theorem setClockTo_insides {c : Clock} {s : State} (range : s.clock.InRange → c.InRange)
    (set : s.clock.isSet = true → c.isSet = true) : Insides s (setClockTo c s) :=
  (ReflTransGen.single (.clock s c range set)).trans (busWrite_moves _ _ _).inside

/-- A minute tick below the top reading keeps the clock's ranges (R1, R5). -/
theorem Clock.InRange.advance {c : Clock} (h : c.InRange) (below : c.isTop = false) : c.advance.InRange := by
  have day := h.dayHigh
  have minute := h.minute
  have room : c.minute = 1439 → c.day ≠ 65535 := by
    intro last top
    simp [Clock.isTop, last, top] at below
  unfold Clock.advance
  split
  next midnight =>
    exact ⟨by simp, by have := room midnight; simp only; omega, by simp, by simp, h.dayChange⟩
  next before => exact ⟨h.dayLow, day, by simp only; omega, by simp, h.dayChange⟩

@[simp] theorem Clock.advance_isSet (c : Clock) : c.advance.isSet = c.isSet := by
  unfold advance; split <;> rfl

theorem tickWith_insides {ev : Evaluator} (sound : ev.Sound) (zones : List TickTask) {s : State}
    (below : s.clock.isTop = false) : Insides s (tickWith ev zones s) := by
  have clock := sound.finish.clock s
  have set : Insides s (setClockTo s.clock.advance (ev.finish s)) :=
    (sound.finish.inside s).trans
      (setClockTo_insides (fun range => (clock ▸ range).advance below) (fun isSet => by simpa [clock] using isSet))
  exact set.trans (deliver_insides sound _ _ _)

theorem setSecond_inside {second : Nat} (small : second ≤ 59) (s : State) : Inside s (setSecond second s) :=
  .clock s _ (fun range => { range with second := small }) id

theorem runZones_insides (zones : List TickTask) (s : State) : Insides s (runZones zones s) :=
  foldl_star (fun s k => runTask_insides keepsInside_id _ s k) s zones

theorem wrapSecond_insides {ev : Evaluator} (sound : ev.Sound) (zones : List TickTask) (s : State) :
    Insides s (wrapSecond ev zones s) := by
  unfold wrapSecond
  split
  · exact (ReflTransGen.single (setSecond_inside (by decide) s)).trans (runZones_insides zones _)
  next below => exact tickWith_insides sound zones (by simpa using below)

@[simp] theorem Clock.atCount_isSet (c : Clock) (n second : Nat) : (c.atCount n second).isSet = c.isSet := by
  unfold atCount; split <;> rfl

/-- The reading of a clock count within the clock's range is in range (R2, R9). -/
theorem Clock.InRange.atCount {c : Clock} (h : c.InRange) {n second : Nat} (low : 1440 - c.dayChange ≤ n)
    (high : n ≤ 94371839 - c.dayChange) (small : second ≤ 59) : (c.atCount n second).InRange := by
  have change := h.dayChange
  rcases Nat.lt_or_ge (n % 1440 + c.dayChange) 1440 with sameDay | nextDay
  · rw [Clock.atCount_of_lt second sameDay]
    exact ⟨by simp only; omega, by simp only; omega, by simp only; omega, small, change⟩
  · rw [Clock.atCount_of_le second nextDay]
    exact ⟨by simp, by simp only; omega, by simp only; omega, small, change⟩

/-- The applied delta leads to a clock count within the clock's range (R9). -/
theorem appliedDelta_bounds {c : Clock} (h : c.InRange) (d : Int) :
    1440 - c.dayChange ≤ ((c.count : Int) + appliedDelta c d).toNat ∧
      ((c.count : Int) + appliedDelta c d).toNat ≤ 94371839 - c.dayChange := by
  have change := h.dayChange
  simp only [appliedDelta, Clock.topCount]
  omega

theorem stepBy_insides {ev : Evaluator} (sound : ev.Sound) (zones : List TickTask) (requested : Int) {second : Nat}
    (small : second ≤ 59) (s : State) : Insides s (stepBy ev zones requested second s) := by
  unfold stepBy
  split
  · exact (ReflTransGen.single (setSecond_inside small s)).trans (runZones_insides zones _)
  · set n := ((s.clock.count : Int) + appliedDelta s.clock requested).toNat with count
    have clock := sound.finish.clock s
    have set' : Insides s (setClockTo (s.clock.atCount n second) (ev.finish s)) :=
      (sound.finish.inside s).trans
        (setClockTo_insides
          (fun range => by
            rw [clock] at range
            obtain ⟨low, high⟩ := appliedDelta_bounds range requested
            exact range.atCount (count ▸ low) (count ▸ high) small)
          (fun isSet => by simpa [clock] using isSet))
    have stepped := set'.trans (appendNotice_insides (steppedNotice (appliedDelta s.clock requested)) _)
    unfold stepTo
    refine ReflTransGen.trans ?_ (deliver_insides sound _ _ _)
    split
    · exact stepped.trans (appendNotice_insides _ _)
    · exact stepped

theorem arriveStep_insides {ev : Evaluator} (sound : ev.Sound) (zones : List TickTask) (requested : Int) {second : Nat}
    (small : second ≤ 59) (s : State) : Insides s (arriveStep ev zones requested second s) := by
  unfold arriveStep
  split
  · exact stepBy_insides sound zones requested small s
  · exact runZones_insides zones s

/-! ### Arrivals at a point -/

section
variable {r : State → State → Prop} (bus : ∀ s t, BusMoves s t → ReflTransGen r s t) {takes : Arrival → Bool}
  {receive : Arrival → State → State} (received : ∀ a, takes a = true → ∀ s, ReflTransGen r s (receive a s))
include bus received

theorem takeArrivals_star (fuel : Nat) (s : State) : ReflTransGen r s (takeArrivals takes receive fuel s) := by
  induction fuel generalizing s with
  | zero => exact .refl
  | succ fuel ih =>
    unfold takeArrivals
    split
    · exact .refl
    · split
      next a _ _ taken => exact ((bus _ _ (dropArrival_moves s)).trans (received a taken _)).trans (ih _)
      · exact .refl

omit received in
theorem closePoint_star (s : State) : ReflTransGen r s (closePoint s) := by
  unfold closePoint
  split
  · exact bus _ _ (dropArrival_moves s)
  · exact .refl

theorem pollPoint_star (s : State) : ReflTransGen r s (pollPoint takes receive s) :=
  (takeArrivals_star bus received _ s).trans (closePoint_star bus _)

end

theorem receiveInside_insides {ev : Evaluator} (sound : ev.Sound) (a : Arrival) (s : State) :
    Insides s (receiveInside ev a s) := by
  cases a with
  | nothing | loadCompletion | wipeCompletion => exact .refl
  | minuteTick => exact wrapSecond_insides sound [] s
  | clockStep requested second => exact arriveStep_insides sound [] requested (Nat.le_of_lt_succ second.isLt) s
  | portReset => exact .single (.resetPort s)
  | powerOnReset => exact .single (.resetPower s)
  | busFault isWrite address => exact (failAccess_moves isWrite address s).inside

theorem pollInspection_keepsInside {finish : State → State} (finishes : FinishesTick finish) :
    KeepsInside (pollInspection finish) :=
  pollPoint_star (fun _ _ => BusMoves.inside) fun a _ s => receiveInside_insides (ev := .busy finish) finishes a s

theorem freeEvaluator_sound : freeEvaluator.Sound := fun _ finishes => pollInspection_keepsInside finishes

theorem pollInspection_inside : KeepsInside (pollInspection id) := pollInspection_keepsInside finishesTick_id

theorem pollCompletion_insides (s : State) : Insides s (pollCompletion s) :=
  pollPoint_star (fun _ _ => BusMoves.inside) (fun a _ s => receiveInside_insides freeEvaluator_sound a s) s

end Sys2Proof.Machine

/-! Every owner of a request is a sequence of the changes of its work, and none leaves the request in hand; so is everything
that arrives while it works. -/

namespace Sys2Proof.Machine

open Relation (ReflTransGen)

section
variable {r : Request}

/-! ### The copy and the completions -/

theorem copyBytes_works {n : Nat} {job : LoadJob} {s : State} (loading : s.tables.load = some job)
    (within : n ≤ s.tables.toCopy job) : Works r s (copyBytes n job s) := by
  unfold copyBytes
  have got : s.transferred n ≤ n := by
    unfold State.transferred
    split
    · exact le_rfl
    · exact Nat.min_le_left _ _
  simp only
  split
  next whole =>
    refine ((spend_moves n s).work r).tail (.copy (s.spend n) job _ loading ?_)
    rw [State.hostBytes, Memory.readRun_length]
    exact got.trans within
  next fails =>
    refine (ReflTransGen.single (.copy s job _ loading ?_)).tail (.inside (.noting (.bus (.fault _ .read _ nofun))))
    rw [List.length_take, State.hostBytes, Memory.readRun_length]
    exact (Nat.min_le_right _ _).trans (got.trans within)

theorem copyBlock_works (s : State) : Works r s (copyBlock s) := by
  unfold copyBlock
  split
  · exact .refl
  next job loading =>
    split
    next more => exact copyBytes_works loading more.le
    · exact .refl

theorem endOwnHold_insides (isOwn : Hold → Bool) (bytes : List Byte) (s : State) :
    Insides s (endOwnHold isOwn bytes s) := by
  unfold endOwnHold
  split
  · exact .refl
  · split
    · exact .refl
    next h found => exact endHold_insides (State.isHeld_of_mem (List.mem_of_find?_eq_some found)) _ _

theorem finishLoad_works {job : LoadJob} {s : State} (loading : s.tables.load = some job) :
    Works r s (finishLoad job.kind s) := by
  have completed : Works r s (mirrorDescriptor job.kind { s with tables := s.tables.completed job.kind }) :=
    (ReflTransGen.single (.complete s job loading)).trans ((busWrite_moves _ _ _).work r)
  unfold finishLoad
  simp only
  refine ReflTransGen.trans ?_ ((pollCompletion_insides _).trans (endOwnHold_insides _ _ _) |> Insides.work <| r)
  split
  · exact completed.trans (((releaseDenies_insides pollInspection_inside _).trans
      (afterEvaluations_insides pollInspection_inside _)) |> Insides.work <| r)
  · exact completed

/-- A copy keeps the load of its table in progress, or has aborted it (R130, R135). -/
theorem copyBytes_load (n : Nat) {job : LoadJob} {s : State} :
    (copyBytes n job s).tables.load = none ∨ ∃ job', (copyBytes n job s).tables.load = some job' ∧ job'.kind = job.kind := by
  unfold copyBytes
  simp only
  split
  · exact .inr ⟨_, rfl, rfl⟩
  · exact .inl (by simp)

theorem completeLoad_works (s : State) : Works r s (completeLoad s) := by
  unfold completeLoad
  split
  · exact .refl
  next job loading =>
    have copied : Works r s (copyBytes (s.tables.toCopy job) job s) := copyBytes_works loading le_rfl
    simp only
    split
    next still =>
      rcases copyBytes_load (s.tables.toCopy job) (job := job) (s := s) with aborted | ⟨job', loading', kind⟩
      · simp [aborted] at still
      · exact copied.trans (kind ▸ finishLoad_works loading')
    · exact copied

theorem completeWipe_works (s : State) : Works r s (completeWipe s) := by
  unfold completeWipe
  split
  next wiping =>
    have wiped : Works r s (wipeState s) := .single (.wiped s wiping)
    have mirrored := (((mirrorDescriptor_moves .stops (wipeState s)).trans (mirrorDescriptor_moves .tariff _)).trans
      (mirrorDescriptor_moves .deny _)).trans (mirrorRun_moves _)
    exact (wiped.trans (BusMoves.work mirrored r)).trans ((endOwnHold_insides _ _ _).work r)
  · exact .refl

/-! ### Arrivals -/

theorem receive_works (a : Arrival) (s : State) : Works r s (receive a s) := by
  unfold receive
  split
  · exact completeLoad_works s
  · exact completeWipe_works s
  · exact (receiveInside_insides freeEvaluator_sound _ s).work r

theorem pollAll_works (s : State) : Works r s (pollAll s) :=
  pollPoint_star (fun _ _ h => h.work r) (fun a _ s => receive_works a s) s

theorem pollPassage_works (s : State) : Works r s (pollPassage s) :=
  pollPoint_star (fun _ _ h => h.work r) (fun a _ s => receive_works a s) s

theorem receiveAmidZones_insides (zones : List TickTask) (a : Arrival) (s : State) :
    Insides s (receiveAmidZones zones a s) := by
  unfold receiveAmidZones
  split
  · exact wrapSecond_insides freeEvaluator_sound zones s
  next requested second =>
    exact arriveStep_insides freeEvaluator_sound zones requested (Nat.le_of_lt_succ second.isLt) s
  · exact runZones_insides zones s

theorem zoneAdvance_works (stop : Nat) (is : List Nat) (s : State) : Works r s (zoneAdvance stop is s) := by
  induction is generalizing s with
  | nil => exact pollPassage_works s
  | cons i is ih =>
    have taken : Works r s _ := takeArrivals_star (fun _ _ h => BusMoves.work h r)
      (takes := fun a => insidePassage a && !isDelivery a) (fun a _ s => receive_works a s) s.arrivals.length s
    simp only [zoneAdvance]
    split
    · exact ((taken.trans ((dropArrival_moves _).work r)).trans ((receiveAmidZones_insides _ _ _).work r)).trans
        (pollPassage_works _)
    · exact ((taken.trans (closePoint_star (fun _ _ h => BusMoves.work h r) _)).trans
        ((zoneAdvanceAt_insides stop i _).work r)).trans (ih _)

/-! ### The request in hand -/

theorem holdNow_keepsHand (h : Hold) (s : State) : s.KeepsHand (holdNow h s) := by
  simp only [holdNow]
  split
  · exact (busWrite_moves _ _ (appendHold h s)).inside.keepsHand
  · exact .inl rfl

theorem Work.keepsHand {s t : State} (move : Work r s t) : s.KeepsHand t := by
  cases move with
  | inside move => exact move.keepsHand
  | finish => exact .inl rfl
  | hold h => exact holdNow_keepsHand h s
  | copy | complete | wiped | opened | moved | closed | loadBegun | raised | wipeBegun => exact .inr ⟨rfl, rfl⟩

/-- A request is in hand only while the port sweeps (R145, R146). -/
def State.HandSweeps (s : State) : Prop := s.port.inHand = none ∨ s.port.state = .sweeping

theorem State.KeepsHand.handSweeps {s t : State} (keeps : s.KeepsHand t) (sweeps : s.HandSweeps) : t.HandSweeps := by
  rcases keeps with none | ⟨hand, state⟩
  · exact .inl none
  · exact sweeps.imp hand.trans state.trans

/-- An owner's work, at the end of which the request is no longer in hand. -/
structure Finishes (r : Request) (slot : Slot) (s t : State) : Prop where
  works : Works r s t
  ended : s.HandSweeps → t.port.inHand ≠ some slot

theorem Finishes.after {slot : Slot} {s t u : State} (first : Works r s t) (rest : Finishes r slot t u) :
    Finishes r slot s u where
  works := first.trans rest.works
  ended sweeps := rest.ended ((star_keepsHand (fun _ _ => Work.keepsHand) first).handSweeps sweeps)

/-- Work after which the request turns out not to be in hand any longer. -/
theorem finishes_of_abandoned {slot : Slot} {s t : State} (works : Works r s t) (abandoned : ¬t.hasInHand slot = true) :
    Finishes r slot s t :=
  ⟨works, fun _ hand => abandoned (by simp [State.hasInHand, hand])⟩

theorem hasInHand_iff {s : State} {slot : Slot} : s.hasInHand slot = true ↔ s.port.inHand = some slot := by
  simp [State.hasInHand]

theorem answerNow_finishes (slot : Slot) (tag : Half) (code : AnswerCode) (bytes : List Byte) (s : State) :
    Finishes r slot s (answerNow slot tag code bytes s) := by
  have written := (writeAnswer_moves slot tag code bytes s).inside
  unfold answerNow
  split
  next fault =>
    refine ⟨written.work r, fun sweeps => ?_⟩
    rcases written.keepsHand.handSweeps sweeps with none | sweeping
    · simp [none]
    · simp [sweeping] at fault
  · exact ⟨(written.work r).tail (.finish _ slot), fun _ => by simp⟩

theorem answerInHandWith_finishes (slot : Slot) (tag : Half) (code : AnswerCode) (bytes : State → List Byte) (s : State) :
    Finishes r slot s (answerInHandWith slot tag code bytes s) := by
  unfold answerInHandWith
  split
  · exact .after (pollAll_works s) (answerNow_finishes slot tag code _ _)
  next abandoned => exact finishes_of_abandoned (pollAll_works s) abandoned

theorem answerInHand_finishes (slot : Slot) (tag : Half) (code : AnswerCode) (bytes : List Byte) (s : State) :
    Finishes r slot s (answerInHand slot tag code bytes s) := answerInHandWith_finishes slot tag code _ s

theorem holdNow_finishes {h : Hold} {s : State} (inHand : s.port.inHand = some h.slot)
    (inspecting : h.isInspect = true → s.runOpen = true) : Finishes r h.slot s (holdNow h s) := by
  refine ⟨.single (.hold s h inHand inspecting), fun sweeps => ?_⟩
  have sweeping : s.port.state = .sweeping := sweeps.resolve_left (by simp [inHand])
  have written := (busWrite_moves (s.slotAddress h.slot) [SlotState.held.code] (appendHold h s)).inside.keepsHand
  simp only [holdNow]
  split
  next fault =>
    rcases written.handSweeps (.inr sweeping) with none | sweeping'
    · exact fun some => nomatch none.symm.trans some
    · exact absurd (fault.symm.trans sweeping') nofun
  · simp

/-! ### The owners -/

section
variable {slot : Slot} {tag : Half} {s : State}

theorem ownSetClock_finishes (a : SetClockArgs) (s : State) : Finishes r slot s (ownSetClock slot tag a s) := by
  unfold ownSetClock
  split
  · exact answerInHand_finishes _ _ _ _ s
  next inRange =>
    obtain ⟨day, minute, second, dayChange⟩ : 1 ≤ a.day.toNat ∧ a.minute.toNat ≤ 1439 ∧ a.second.toNat ≤ 59 ∧
        (givesDayChange a = true → a.dayChange.toNat ≤ 359) := by
      simpa [clockInRange, and_assoc] using inRange
    split
    · split
      · exact answerInHand_finishes _ _ _ _ s
      · exact .after ((stepBy_insides freeEvaluator_sound [] _ second s).work r) (answerInHand_finishes _ _ _ _ _)
    · refine .after (t := setOutright a s) ?_ (answerInHand_finishes _ _ _ _ _)
      have range (before : s.clock.InRange) : (clockOutright a s.clock).InRange :=
        ⟨day, Nat.le_of_lt_succ a.day.isLt, minute, second, by
          simp only [clockOutright]
          split
          next given => exact dayChange given
          · exact before.dayChange⟩
      have set : Insides s (if (clockOutright a s.clock).mirror = s.clock.mirror then
          { s with clock := clockOutright a s.clock } else setClockTo (clockOutright a s.clock) s) := by
        split
        · exact .single (.clock s _ range fun _ => rfl)
        · exact setClockTo_insides range fun _ => rfl
      refine Insides.work ?_ r
      unfold setOutright
      simp only
      split
      · exact set.trans (appendNotice_insides _ _)
      · exact set

theorem ownOpenRun_finishes (a : OpenRunArgs) (inHand : s.port.inHand = some slot) :
    Finishes (.openRun a) slot s (ownOpenRun slot tag a s) := by
  unfold ownOpenRun
  split
  · exact answerInHand_finishes _ _ _ _ s
  next accepted =>
    exact .after ((ReflTransGen.single (.opened s a slot rfl inHand accepted)).trans ((mirrorRun_moves _).work _))
      (answerInHand_finishes _ _ _ _ _)

theorem deliverStop_works (stop : Nat) (s : State) : Works r s (deliverStop stop s) := zoneAdvance_works stop _ s

theorem depart_works {next : Byte} (accepted : departRefusal next s = none) : Works r s (depart next s) := by
  have standing : s.run.state = .standing := by
    unfold departRefusal at accepted
    split at accepted <;> simp_all
  have opened : s.runOpen = true := by simp [State.runOpen, standing, RunState.isOpen]
  unfold depart
  simp only
  refine ReflTransGen.trans ?_ ((mirrorRun_moves _).work r)
  split
  next unknown =>
    have moved : Work r s { s with run := s.run.departed next } := by
      rw [Run.departed, if_pos unknown]
      refine .moved s .runningUnplaced s.run.position none opened rfl fun range => { range with announced := by simp, nextStop := by simp }
    exact (ReflTransGen.single moved).trans (pollPassage_works _)
  next named =>
    have onLine : next.toNat < s.tables.stopCount := by
      by_contra beyond
      rw [departRefusal, standing] at accepted
      simp only [named, if_false, Nat.not_lt.mp beyond, if_true] at accepted
      split at accepted <;> simp at accepted
    have moved : Work r s { s with run := s.run.departed next } := by
      rw [Run.departed, if_neg named]
      exact .moved s .running s.run.position (some next.toNat) opened rfl fun range =>
        { range with announced := by simp, nextStop := by simpa using onLine }
    exact (ReflTransGen.single moved).trans (deliverStop_works _ _)

theorem ownDepart_finishes (next : Byte) (s : State) : Finishes r slot s (ownDepart slot tag next s) := by
  unfold ownDepart
  split
  · exact answerInHand_finishes _ _ _ _ s
  next accepted => exact .after (depart_works accepted) (answerInHand_finishes _ _ _ _ _)

theorem arriveReleases_insides (slot : Slot) (s : State) : Insides s (arriveReleases slot s) := by
  unfold arriveReleases
  split
  · exact (releasePlacements_insides pollInspection_inside s).trans (afterEvaluations_insides pollInspection_inside _)
  · exact .refl

theorem arriveRefusal_none {stop : Byte} (accepted : arriveRefusal stop s = none) :
    s.runOpen = true ∧ stop.toNat < s.tables.stopCount := by
  unfold arriveRefusal arriveStopRefusal at accepted
  unfold State.runOpen
  split at accepted
  case h_4 state | h_5 state =>
    refine ⟨by rw [state]; rfl, ?_⟩
    by_contra beyond
    simp [Nat.not_lt.mp beyond] at accepted
  all_goals simp at accepted

theorem arrive_works {stop : Byte} (accepted : arriveRefusal stop s = none) : Works r s (arrive slot stop s) := by
  obtain ⟨opened, onLine⟩ := arriveRefusal_none accepted
  have moved : Work r s { s with run := s.run.arrived stop } :=
    .moved s .standing (some stop.toNat) none opened rfl fun range =>
      { range with position := ⟨stop.toNat, rfl, onLine⟩, announced := by simp, nextStop := by simp }
  exact ((((ReflTransGen.single moved).trans (deliverStop_works _ _)).trans ((mirrorRun_moves _).work r)).trans
    (pollPassage_works _)).trans ((arriveReleases_insides slot _).work r)

theorem ownArrive_finishes (stop : Byte) (s : State) : Finishes r slot s (ownArrive slot tag stop s) := by
  unfold ownArrive
  split
  · exact answerInHand_finishes _ _ _ _ s
  next accepted => exact .after (arrive_works accepted) (answerInHand_finishes _ _ _ _ _)

theorem ownCloseRun_finishes (s : State) : Finishes .closeRun slot s (ownCloseRun slot tag s) := by
  unfold ownCloseRun
  split
  · have releasing := releaseAll_insides pollInspection_inside s
    have examining := afterEvaluations_insides pollInspection_inside (releaseAll (pollInspection id) s)
    have moves : Insides s _ := releasing.trans examining
    refine .after (moves.work _) ?_
    unfold closeInHand
    split
    next inHand =>
      refine .after ?_ (answerInHand_finishes _ _ _ _ _)
      refine (ReflTransGen.single (.closed _ slot rfl (hasInHand_iff.mp inHand) fun h on inspecting => ?_)).trans
        ((mirrorRun_moves _).work _)
      obtain ⟨g, on', slot', work⟩ := moves.holdBefore on
      have before := releaseAll_releasedAt pollInspection_inside on' (by simpa [Hold.isInspect, work] using inspecting)
      exact slot' ▸ examining.releasedAt before
    next abandoned => exact finishes_of_abandoned .refl abandoned
  · exact answerInHand_finishes _ _ _ _ s

theorem Finishes.inside {t u : State} (first : Finishes r slot s t) (rest : Insides t u) : Finishes r slot s u where
  works := first.works.trans (rest.work r)
  ended sweeps hand := by
    rcases rest.keepsHand with none | ⟨same, -⟩
    · exact nomatch none.symm.trans hand
    · exact first.ended sweeps (same.symm.trans hand)

theorem answerInspection_finishes (a : InspectAnswer) (s : State) :
    Finishes r slot s (answerInspection slot tag a s) := by
  have polled := (pollInspection_inside s).work r
  unfold answerInspection
  split
  · exact .after polled (answerNow_finishes _ _ _ _ _)
  next abandoned => exact finishes_of_abandoned polled abandoned

theorem evaluateInHand_finishes (c : InspectCopy) (opened : s.runOpen = true) :
    Finishes r slot s (evaluateInHand slot tag c s) := by
  have polled := pollInspection_inside s
  unfold evaluateInHand
  split
  next inHand =>
    have run := polled.run (by simp [hasInHand_iff.mp inHand])
    have recorded : Inside (pollInspection id s) (recordInspection (judge c s) c (pollInspection id s)) :=
      .record _ _ _ ⟨s.clockCount, s, rfl⟩ (.inr (by rw [State.runOpen, run]; exact opened))
    exact .after ((polled.work r).tail (.inside recorded)) (answerInspection_finishes _ _)
  next abandoned => exact finishes_of_abandoned (polled.work r) abandoned

theorem ownInspect_finishes (a : InspectArgs) (taken s : State) : Finishes r slot s (ownInspect slot tag a taken s) := by
  unfold ownInspect
  split
  · exact answerInHandWith_finishes _ _ _ _ s
  next passed =>
    have opened : s.runOpen = true := by
      by_contra shut
      simp [inspectRefusal, Bool.eq_false_iff.mpr shut] at passed
    have read : BusMoves s (readRecord slot s) := foldl_star (fun s r => busRead_moves _ _ s) s _
    have run : (readRecord slot s).run = s.run := by simp [readRecord, readArguments]
    have opened' : (readRecord slot s).runOpen = true := by rw [State.runOpen, run]; exact opened
    split
    next inHand =>
      refine .after (read.work r) ?_
      unfold runStages
      split
      · exact answerInHand_finishes _ _ _ _ _
      · unfold holdOrEvaluate
        split
        · exact holdNow_finishes (h := inspectHold slot tag _ _ _) (hasInHand_iff.mp inHand) fun _ => opened'
        · exact (evaluateInHand_finishes _ opened').inside (afterEvaluations_insides pollInspection_inside _)
    next abandoned => exact finishes_of_abandoned (read.work r) abandoned

/-- A dismissed entry keeps its watch record's shape (R89, R98). -/
theorem Entry.keptBy_dismissed (e : Entry) : e.KeptBy e.dismissed where
  index := rfl
  id := rfl
  proposal _ := rfl
  sound sound :=
    { sound with
      watchOff := fun off => by
        have before := sound.watchOff off
        simp [Entry.dismissed, before, Watch.off]
      watchLapse := sound.watchLapse
      proposal := fun p hp => by simp [Entry.dismissed] at hp }

theorem ownDismiss_finishes (index : Half) (s : State) : Finishes r slot s (ownDismiss slot tag index s) := by
  unfold ownDismiss
  split
  · exact answerInHand_finishes _ _ _ _ s
  · exact .after (.single (.inside (.entry s _ _ fun e _ => e.keptBy_dismissed))) (answerInHand_finishes _ _ _ _ _)

theorem copyImage_works (a : ReadRosterArgs) (p : State × Nat) (i : Nat) : Works r p.1 (copyImage slot a p i).1 := by
  unfold copyImage
  split
  · split
    · exact ((busWrite_moves _ _ p.1).work r).trans (pollAll_works _)
    · exact .refl
  · exact .refl

theorem copyImages_works (a : ReadRosterArgs) (n : Nat) (s : State) : Works r s (copyImages slot a n s).1 := by
  have images : ∀ (is : List Nat) (p : State × Nat), Works r p.1 (is.foldl (copyImage slot a) p).1 := by
    intro is
    induction is with
    | nil => exact fun _ => .refl
    | cons i is ih => exact fun p => (copyImage_works a p i).trans (ih _)
  exact images (List.range n) (s, 0)

theorem ownReadRoster_finishes (a : ReadRosterArgs) (taken s : State) :
    Finishes r slot s (ownReadRoster slot tag a taken s) := by
  have copied := copyImages_works (r := r) (slot := slot) a (imageCount a taken.roster.length) s
  unfold ownReadRoster answerCopied
  split
  · exact .after copied (answerInHand_finishes _ _ _ _ _)
  next abandoned => exact finishes_of_abandoned copied abandoned

/-- A judged mark record keeps its commit count within a byte and makes no proposal (R120, R121). -/
theorem Entry.keptBy_afterResult (e : Entry) (result : MarkResult) :
    e.KeptBy { e with mark := e.mark.afterResult result } := by
  refine keptBy_mark (fun commits => ?_) ?_
  · cases result with
    | committed => exact Nat.min_le_left _ _
    | notWritten | torn | noResult => exact commits
  · cases result with
    | committed | torn => exact .inr rfl
    | notWritten | noResult => exact .inl rfl

theorem ownConfirmMark_finishes (a : ConfirmMarkArgs) (s : State) : Finishes r slot s (ownConfirmMark slot tag a s) := by
  unfold ownConfirmMark
  split
  · exact answerInHand_finishes _ _ _ _ s
  · split
    · exact answerInHand_finishes _ _ _ _ s
    · split
      · exact answerInHand_finishes _ _ _ _ s
      · exact .after (.single (.inside (.entry s _ _ fun e _ => e.keptBy_afterResult _))) (answerInHand_finishes _ _ _ _ _)

theorem holdInHand_finishes {h : Hold} (inspecting : h.isInspect = false) (s : State) :
    Finishes r h.slot s (holdInHand h s) := by
  unfold holdInHand
  split
  next inHand => exact holdNow_finishes (hasInHand_iff.mp inHand) (by simp [inspecting])
  next abandoned => exact finishes_of_abandoned .refl abandoned

theorem ownLoadTable_finishes (a : LoadTableArgs) (inHand : s.port.inHand = some slot) :
    Finishes r slot s (ownLoadTable slot tag a s) := by
  unfold ownLoadTable
  split
  · exact answerInHand_finishes _ _ _ _ s
  next k _ =>
    split
    · exact answerInHand_finishes _ _ _ _ s
    next accepted =>
      exact .after ((ReflTransGen.single (.loadBegun s slot k a inHand accepted)).trans ((mirrorDescriptor_moves k _).work r))
        (holdInHand_finishes (h := loadHold slot tag) rfl _)

theorem ownProtectTable_finishes (a : ProtectTableArgs) (s : State) :
    Finishes r slot s (ownProtectTable slot tag a s) := by
  unfold ownProtectTable
  split
  · exact answerInHand_finishes _ _ _ _ s
  · split
    · exact answerInHand_finishes _ _ _ _ s
    next range =>
      split
      · exact answerInHand_finishes _ _ _ _ s
      · refine .after ?_ (answerInHand_finishes _ _ _ _ _)
        unfold raiseLevel
        split
        · exact .refl
        · exact (ReflTransGen.single (.raised s _ _ (Nat.not_lt.mp range))).trans ((mirrorDescriptor_moves _ _).work r)

theorem ownReadTable_finishes (a : ReadTableArgs) (s : State) : Finishes r slot s (ownReadTable slot tag a s) := by
  unfold ownReadTable
  split
  · exact answerInHand_finishes _ _ _ _ s
  · split
    · exact answerInHand_finishes _ _ _ _ s
    next k _ _ _ =>
      have copied : BusMoves s (copyTable k a s) := busWrite_moves _ _ s
      refine .after (copied.work r) ?_
      unfold answerRead
      split
      · exact answerInHand_finishes _ _ _ _ _
      next abandoned => exact finishes_of_abandoned .refl abandoned

theorem ownWipe_finishes (inHand : s.port.inHand = some slot) : Finishes r slot s (ownWipe slot tag s) := by
  unfold ownWipe
  split
  · exact answerInHand_finishes _ _ _ _ s
  next shut =>
    split
    · exact answerInHand_finishes _ _ _ _ s
    next free =>
      exact .after (.single (.wipeBegun s slot inHand (by simpa using shut) (by simpa using free)))
        (holdNow_finishes (h := wipeHold slot tag) inHand (by simp [wipeHold, Hold.isInspect]))

theorem ownWithdraw_finishes (named : Byte) (s : State) : Finishes r slot s (ownWithdraw slot tag named s) := by
  unfold ownWithdraw
  split
  · exact answerInHand_finishes _ _ _ _ s
  · split
    next h found =>
      have ended := endHold_insides (State.isHeld_of_mem (State.isHeld_of_holdOf found).1) .withdrawn
        (notEvaluated .valid 0 s.clockCount).bytes
      unfold withdrawHold
      split
      · simp only
        split
        · exact .after (ended.work r) (answerInHand_finishes _ _ _ _ _)
        next abandoned => exact finishes_of_abandoned (ended.work r) abandoned
      · exact answerInHand_finishes _ _ _ _ s
    · split
      · exact answerInHand_finishes _ _ _ _ s
      · exact answerInHand_finishes _ _ _ _ s

/-- Every owner's part ends the request it has in hand (R148, R149). -/
theorem ownRequest_finishes (r : Request) (tag : Half) (taken : State) (inHand : s.port.inHand = some slot) :
    Finishes r slot s (ownRequest slot tag r taken s) := by
  cases r with
  | setClock a => exact ownSetClock_finishes a s
  | openRun a => exact ownOpenRun_finishes a inHand
  | depart next => exact ownDepart_finishes next s
  | arrive stop => exact ownArrive_finishes stop s
  | closeRun => exact ownCloseRun_finishes s
  | inspect a => exact ownInspect_finishes a taken s
  | dismiss index => exact ownDismiss_finishes index s
  | readRoster a => exact ownReadRoster_finishes a taken s
  | confirmMark a => exact ownConfirmMark_finishes a s
  | loadTable a => exact ownLoadTable_finishes a inHand
  | protectTable a => exact ownProtectTable_finishes a s
  | readTable a => exact ownReadTable_finishes a s
  | wipe => exact ownWipe_finishes inHand
  | withdraw named => exact ownWithdraw_finishes named s
  | malformed kind => exact answerInHand_finishes _ _ _ _ s

end

end

end Sys2Proof.Machine

/-! Every step is the take of a request, its owner's work, and the part's own changes after it, and leaves no request in hand. -/

namespace Sys2Proof.Machine

open Relation (ReflTransGen)

/-! ### The take (R146) -/

theorem busWrite_clearMark (x : Slot) (a : Nat) (bs : List Byte) (s : State) :
    busWrite a bs (clearMark x s) = clearMark x (busWrite a bs s) := by
  unfold busWrite
  by_cases writes : s.port.state.writes = true
  · by_cases whole : s.transferred bs.length = bs.length
    · rw [if_pos (by exact writes), if_pos writes, if_pos (by exact whole), if_pos whole]; rfl
    · rw [if_pos (by exact writes), if_pos writes, if_neg (by exact whole), if_neg whole]; rfl
  · rw [if_neg (by exact writes), if_neg writes]

theorem busRead_clearMark (x : Slot) (a n : Nat) (s : State) :
    busRead a n (clearMark x s) = clearMark x (busRead a n s) := by
  unfold busRead
  by_cases writes : s.port.state.writes = true
  · by_cases whole : s.transferred n = n
    · rw [if_pos (by exact writes), if_pos writes, if_pos (by exact whole), if_pos whole]; rfl
    · rw [if_pos (by exact writes), if_pos writes, if_neg (by exact whole), if_neg whole]; rfl
  · rw [if_neg (by exact writes), if_neg writes]

theorem readArguments_clearMark (x slot : Slot) (ranges : List (Nat × Nat)) (s : State) :
    readArguments slot ranges (clearMark x s) = clearMark x (readArguments slot ranges s) := by
  unfold readArguments
  induction ranges generalizing s with
  | nil => rfl
  | cons range ranges ih =>
    rw [List.foldl_cons, List.foldl_cons, ← ih]
    congr 1
    exact busRead_clearMark x _ _ s

theorem readArguments_moves (slot : Slot) (ranges : List (Nat × Nat)) (s : State) :
    BusMoves s (readArguments slot ranges s) := foldl_star (fun _ _ => busRead_moves _ _ _) s ranges

theorem passOver_moves (s : State) (slot : Slot) : BusMoves s (passOver s slot) := by
  unfold passOver
  split
  · exact .refl
  · exact busRead_moves _ _ s

/-- The examinations of a take, up to the slot's own (R146). -/
def lookedAt (slot : Slot) (s : State) : State :=
  examined slot (s.sweepDistance slot + 1) (busRead (s.slotAddress slot) 1 ((s.slotsBefore slot).foldl passOver s))

theorem lookedAt_moves (slot : Slot) (s : State) : BusMoves s (busRead (s.slotAddress slot) 1 ((s.slotsBefore slot).foldl passOver s)) :=
  (foldl_star passOver_moves s (s.slotsBefore slot)).trans (busRead_moves _ _ _)

/-- The accesses of a take to its slot, with the ended-hold mark cleared before them: no access looks at the marks. -/
theorem takeSlot_eq (slot : Slot) (ranges : List (Nat × Nat)) (s : State) :
    takeSlot slot ranges s =
      if (lookedAt slot s).port.state = .sweeping then
        readArguments slot ranges
          (busRead (s.slotAddress slot + 1) 3
            (busWrite (s.slotAddress slot) [SlotState.taken.code] (setInHand slot (clearMark slot (lookedAt slot s)))))
      else lookedAt slot s := by
  unfold takeSlot
  split
  next sweeping =>
    rw [if_pos (by exact sweeping)]
    have swap : setInHand slot (clearMark slot (lookedAt slot s)) = clearMark slot (setInHand slot (lookedAt slot s)) := rfl
    rw [swap, busWrite_clearMark, busRead_clearMark, readArguments_clearMark]
    rfl
  next other => rw [if_neg (by exact other)]; rfl

theorem busMoves_holds {s t : State} (moves : BusMoves s t) : t.port.holds = s.port.holds :=
  star_keeps (P := fun t => t.port.holds = s.port.holds)
    (fun _ _ move keeps => (NoticeMove.bus move).frame.1.trans keeps) moves rfl

/-- A take takes the request in hand, unless an access fails, and only while the port sweeps. -/
theorem takeSlot_moves {slot : Slot} {s : State} (free : s.isHeld slot = false) (ranges : List (Nat × Nat)) :
    TakeMoves s (takeSlot slot ranges s) ∧
      (s.port.inHand = none → (takeSlot slot ranges s).HandSweeps ∧
        ((takeSlot slot ranges s).port.inHand = none ∨ (takeSlot slot ranges s).port.inHand = some slot)) := by
  have looked := lookedAt_moves slot s
  have moves : TakeMoves s (lookedAt slot s) := looked.take.tail (.examined _ slot _)
  have hand : s.port.inHand = none → (lookedAt slot s).port.inHand = none := fun none =>
    looked.inside.keepsHand.elim id fun same => same.1.trans none
  rw [takeSlot_eq]
  split
  next sweeping =>
    have free' : (lookedAt slot s).isHeld slot = false := by
      have holds : (lookedAt slot s).port.holds = s.port.holds := (busMoves_holds looked :)
      rw [State.isHeld, holds]
      exact free
    have taken : TakeMove (clearMark slot (lookedAt slot s)) (setInHand slot (clearMark slot (lookedAt slot s))) :=
      .taken _ slot sweeping free' (Vector.getElem_set_self _)
    have accesses := ((busWrite_moves (s.slotAddress slot) [SlotState.taken.code]
      (setInHand slot (clearMark slot (lookedAt slot s)))).trans (busRead_moves (s.slotAddress slot + 1) 3 _)).trans
      (readArguments_moves slot ranges _)
    refine ⟨((moves.tail (.cleared _ slot)).tail taken).trans (BusMoves.take accesses), fun _ => ?_⟩
    have keeps := (BusMoves.inside accesses).keepsHand
    exact ⟨keeps.handSweeps (.inr sweeping), keeps.imp id fun same => same.1⟩
  · exact ⟨moves, fun none => ⟨.inl (hand none), .inl (hand none)⟩⟩

/-! ### What a step is made of -/

/-- What a step does: the take, the work of the request taken, which leaves no request in hand, and the part's own changes
after it, which neither open a run nor close one. -/
def Stepped (s t : State) : Prop :=
  ∃ r u v, TakeMoves s u ∧ Works r u v ∧ (s.port.inHand = none → v.port.inHand = none) ∧ Changes .wipe v t

theorem State.KeepsHand.handFree {s t : State} (keeps : s.KeepsHand t) (free : s.port.inHand = none) :
    t.port.inHand = none :=
  keeps.elim id fun same => same.1.trans free

theorem Stepped.before {s t u : State} (first : BusMoves s t) (rest : Stepped t u) : Stepped s u := by
  obtain ⟨r, v, w, take, work, inHand, after⟩ := rest
  exact ⟨r, v, w, first.take.trans take, work, fun none => inHand (first.inside.keepsHand.handFree none), after⟩

theorem Stepped.after {s t u : State} (first : Stepped s t) (rest : Changes .wipe t u) : Stepped s u := by
  obtain ⟨r, v, w, take, work, inHand, after⟩ := first
  exact ⟨r, v, w, take, work, inHand, after.trans rest⟩

theorem stepped_changes {s t : State} (changes : Changes .wipe s t) : Stepped s t :=
  ⟨.wipe, s, s, .refl, .refl, id, changes⟩

theorem stepped_works {s t : State} (works : Works .wipe s t) : Stepped s t := stepped_changes works.change

theorem stepped_port {s t : State} (moves : PortMoves s t) : Stepped s t := stepped_changes (moves.change _)

theorem endStep_moves (s : State) : PortMoves s (endStep s) :=
  (surroundings_moves (t := { s with busLeft := none, arrivals := [], owed := [] }) rfl).port.tail (.dozeEntered _)

theorem Stepped.endStep {s t : State} (first : Stepped s t) : Stepped s (endStep t) :=
  first.after ((endStep_moves t).change _)

/-- A request carried out: it is taken, worked on while it is in hand, and then the sweep goes on or ends. -/
theorem carryOut_stepped {r : Request} {slot : Slot} {s : State} {owner : State → State → State}
    (free : s.isHeld slot = false) (ranges : List (Nat × Nat))
    (finishes : ∀ u v, v.port.inHand = some slot → Finishes r slot v (owner u v)) :
    Stepped s (carryOut slot ranges owner s) := by
  obtain ⟨take, taken⟩ := takeSlot_moves free ranges
  have polled : Works r _ _ := pollAll_works (takeSlot slot ranges s)
  have keeps := star_keepsHand (fun _ _ => Work.keepsHand) polled
  unfold carryOut
  simp only
  split
  next inHand =>
    rw [hasInHand_iff] at inHand
    split
    next still =>
      obtain ⟨works, ended⟩ := finishes (takeSlot slot ranges s) _ (hasInHand_iff.mp still)
      refine ⟨r, _, _, take, polled.trans works, fun none => ?_, .single (.port (.sweepEnded _))⟩
      rcases star_keepsHand (fun _ _ => Work.keepsHand) works with none' | ⟨same, -⟩
      · exact none'
      · exact absurd (same.trans (hasInHand_iff.mp still)) (ended (keeps.handSweeps (taken none).1))
    next abandoned =>
      refine ⟨r, _, _, take, polled, fun _ => ?_, .single (.port (.sweepEnded _))⟩
      exact keeps.resolve_right fun same => abandoned (hasInHand_iff.mpr (same.1.trans inHand))
  next gone =>
    exact ⟨r, _, _, take, .refl, fun none => (taken none).2.resolve_right fun h => gone (hasInHand_iff.mpr h), .refl⟩

theorem requestStep_stepped {r : Request} {slot : Slot} {owner : State → State → State} (tag : Half) (env : Env) (s : State)
    (finishes : ∀ u v, v.port.inHand = some slot → Finishes r slot v (owner u v)) :
    Stepped s (requestStep slot tag r env owner s) := by
  have begun := (beginStep_moves env s).trans (post_moves slot tag r _)
  unfold requestStep
  simp only
  split
  next next =>
    have free : (post slot tag r (beginStep env s)).isHeld slot = false := isNext_not_held next
    exact .before begun (carryOut_stepped free _ finishes).endStep
  · exact .before begun (stepped_works .refl).endStep

/-! ### The commands -/

theorem controlPort_moves (v : Word) (s : State) : PortMoves s (controlPort v s) := by
  unfold controlPort
  split
  · exact .single (.reset s)
  · split
    · split
      next stopped =>
        have enabled : PortMoves s _ := .single (.enabled s stopped)
        exact enabled.trans (BusMoves.port (busWrite_moves _ _ _))
      · exact .refl
    · split
      next writes => exact .single (.disabled s writes)
      · exact .refl

theorem writeControl_stepped (v : Word) (s : State) : Stepped s (writeControl v s) :=
  stepped_port (((ReflTransGen.single (.stored s v)).trans (controlPort_moves v (storeControl v s))).tail (.dozeAsked _ v))

theorem writeStatus_stepped (v : Word) (s : State) : Stepped s (writeStatus v s) := stepped_port (.single (.status s v))

theorem writeAreaBase_stepped (v : Word) (s : State) : Stepped s (writeAreaBase v s) := stepped_port (.single (.area s v))

theorem releaseNotices_stepped (v : Word) (s : State) : Stepped s (releaseNotices v s) :=
  stepped_port (.single (.release s v))

theorem writeSweep_stepped (s : State) : Stepped s (writeSweep s) := stepped_port (.single (.sweepAsked s))

theorem writeRegister_stepped (offset : Nat) (v : Word) (s : State) : Stepped s (writeRegister offset v s) := by
  unfold writeRegister
  split
  · exact writeAreaBase_stepped v s
  · exact writeControl_stepped v s
  · exact writeStatus_stepped v s
  · exact writeSweep_stepped s
  · exact releaseNotices_stepped v s
  · exact stepped_port .refl

/-- A command that is no request: the surroundings come first, and the step ends after its work. -/
theorem stepped_command {s t : State} (env : Env) (works : Stepped (beginStep env s) t) : Stepped s (endStep t) :=
  .before (beginStep_moves env s) works.endStep

theorem stepped_inside {s t : State} (env : Env) (moves : Insides (beginStep env s) t) : Stepped s (endStep t) :=
  stepped_command env (stepped_works (moves.work _))

theorem stepped_request {s : State} {slot : Slot} (tag : Half) (r : Request) (env : Env) :
    Stepped s (requestStep slot tag r env (ownRequest slot tag r) s) :=
  requestStep_stepped tag env s fun u _ inHand => ownRequest_finishes r tag u inHand

theorem timeWatch_stepped (stage : WatchStage) (index : Nat) (env : Env) (s : State) :
    Stepped s (endStep (if timeMoveAt (beginStep env s) index (beginStep env s).clockCount = some stage then
      timeAdvance (beginStep env s).clockCount index (beginStep env s) else beginStep env s)) := by
  refine stepped_inside env ?_
  split
  · exact timeAdvance_insides _ index _
  · exact .refl

/-- Every command's step is made of the changes above. -/
theorem exec_stepped {i : Instr} {s t : State} (h : exec i s = .next t) : Stepped s t := by
  cases i with
  | powerOnReset => exact Host.Outcome.next.inj h ▸ stepped_works (.single (.inside (.resetPower s)))
  | minuteTick env => exact Host.Outcome.next.inj h ▸ stepped_inside env (wrapSecond_insides freeEvaluator_sound [] _)
  | watchTimeNear index env => exact Host.Outcome.next.inj h ▸ timeWatch_stepped .near index env s
  | watchTimeLapse index env => exact Host.Outcome.next.inj h ▸ timeWatch_stepped .lapsed index env s
  | holdLimit slot env =>
    exact Host.Outcome.next.inj h ▸ stepped_inside env
      ((limitHold_insides pollInspection_inside _ slot _).trans (afterEvaluations_insides pollInspection_inside _))
  | proposalLapsed index env => exact Host.Outcome.next.inj h ▸ stepped_inside env (lapseProposal_insides _ index _)
  | setClock slot tag a env => exact Host.Outcome.next.inj h ▸ stepped_request tag (.setClock a) env
  | openRun slot tag a env => exact Host.Outcome.next.inj h ▸ stepped_request tag (.openRun a) env
  | depart slot tag next env => exact Host.Outcome.next.inj h ▸ stepped_request tag (.depart next) env
  | arrive slot tag stop env => exact Host.Outcome.next.inj h ▸ stepped_request tag (.arrive stop) env
  | closeRun slot tag env => exact Host.Outcome.next.inj h ▸ stepped_request tag .closeRun env
  | inspect slot tag a env => exact Host.Outcome.next.inj h ▸ stepped_request tag (.inspect a) env
  | dismiss slot tag index env => exact Host.Outcome.next.inj h ▸ stepped_request tag (.dismiss index) env
  | readRoster slot tag a env => exact Host.Outcome.next.inj h ▸ stepped_request tag (.readRoster a) env
  | confirmMark slot tag a env => exact Host.Outcome.next.inj h ▸ stepped_request tag (.confirmMark a) env
  | loadTable slot tag a env => exact Host.Outcome.next.inj h ▸ stepped_request tag (.loadTable a) env
  | loadCompletion env => exact Host.Outcome.next.inj h ▸ stepped_command env (stepped_works (completeLoad_works _))
  | protectTable slot tag a env => exact Host.Outcome.next.inj h ▸ stepped_request tag (.protectTable a) env
  | readTable slot tag a env => exact Host.Outcome.next.inj h ▸ stepped_request tag (.readTable a) env
  | wipe slot tag env => exact Host.Outcome.next.inj h ▸ stepped_request tag .wipe env
  | wipeCompletion env => exact Host.Outcome.next.inj h ▸ stepped_command env (stepped_works (completeWipe_works _))
  | withdraw slot tag named env => exact Host.Outcome.next.inj h ▸ stepped_request tag (.withdraw named) env
  | malformed slot tag kind env =>
    rw [← Host.Outcome.next.inj h]
    split
    · exact stepped_request tag (.malformed kind) env
    · exact stepped_command env (.before (post_moves slot tag _ _) (stepped_works .refl))
  | sweep v env => exact Host.Outcome.next.inj h ▸ stepped_command env (writeSweep_stepped _)
  | portEnable v env | portDisable v env | portReset v env | attentionEnable v env | dozeRequest v env | dozeClear v env =>
    exact Host.Outcome.next.inj h ▸ stepped_command env (writeControl_stepped v _)
  | dozeEntry => exact Host.Outcome.next.inj h ▸ (stepped_works .refl).endStep
  | overflowClear v => exact Host.Outcome.next.inj h ▸ (writeStatus_stepped v s).endStep
  | noticeRelease v => exact Host.Outcome.next.inj h ▸ (releaseNotices_stepped v s).endStep
  | areaBaseWrite v => exact Host.Outcome.next.inj h ▸ (writeAreaBase_stepped v s).endStep
  | registerWrite offset v env => exact Host.Outcome.next.inj h ▸ stepped_command env (writeRegister_stepped offset v _)
  | busFault isWrite address =>
    exact Host.Outcome.next.inj h ▸ (stepped_works ((failAccess_moves isWrite address s).work _)).endStep
  | secondAdvance env =>
    refine Host.Outcome.next.inj h ▸ stepped_inside env ?_
    split
    next below => exact .single (setSecond_inside below _)
    · exact wrapSecond_insides freeEvaluator_sound [] _

theorem examineNext_stepped (s : State) : Stepped s (examineNext s) := by
  unfold examineNext
  split
  · split
    next take =>
      have free : s.isHeld s.port.sweepNext = false := by simpa using (Bool.and_eq_true_iff.mp take).2
      exact carryOut_stepped free _ fun u _ inHand => ownRequest_finishes _ _ u inHand
    · exact stepped_port (((passOver_moves s s.port.sweepNext).port.tail (.examined _ _ _)).tail (.sweepEnded _))
  · exact stepped_port .refl

theorem idleStep_stepped (s : State) : Stepped s (idleStep s) := by
  refine Stepped.endStep (.before (surroundings_moves (t := { s with busLeft := none, arrivals := [], owed := [] }) rfl) ?_)
  exact (examineNext_stepped _).after (copyBlock_works _).change

/-- Every step is made of the changes above. -/
theorem step_stepped {s t : State} (h : step s = .next t) : Stepped s t := by
  unfold step at h
  split at h
  · exact Host.Outcome.next.inj h ▸ idleStep_stepped s
  next rest _ => exact .before (surroundings_moves (t := { s with pending := rest }) rfl) (exec_stepped h)

/-- Whatever every change keeps, every step keeps. -/
theorem step_keeps {P : State → Prop} (take : ∀ s t, TakeMove s t → P s → P t) (work : ∀ r s t, Work r s t → P s → P t)
    (port : ∀ s t, PortMove s t → P s → P t) {s t : State} (h : step s = .next t) (hs : P s) : P t := by
  obtain ⟨r, u, v, taken, works, -, after⟩ := step_stepped h
  have change : ∀ s t, Change .wipe s t → P s → P t := fun s t move => by
    cases move with
    | work move => exact work _ s t move
    | port move => exact port s t move
  exact star_keeps change after (star_keeps (work r) works (star_keeps take taken hs))

end Sys2Proof.Machine

/-! The invariants of the memories, the clock and the table store (O54, O55, O58): each change of a step keeps them. -/

namespace Sys2Proof.Machine

open Relation (ReflTransGen)

/-! ### What a change of the port does to the other blocks -/

/-- What a change of the port leaves of the other blocks: host memory is written canonically, and a load may be aborted. -/
structure OtherBlocks (s t : State) : Prop where
  clock : t.clock = s.clock
  run : t.run = s.run
  roster : t.roster = s.roster
  tables : t.tables = s.tables ∨ t.tables = s.tables.abortLoad
  canonical : Memory.wf s.hostMemory = true → Memory.wf t.hostMemory = true
  bound : (∀ c ∈ s.hostMemory, c.1 < hostSize) → ∀ c ∈ t.hostMemory, c.1 < hostSize

theorem BusMove.otherBlocks {s t : State} (move : BusMove s t) : OtherBlocks s t := by
  cases move with
  | surroundings => exact ⟨rfl, rfl, rfl, .inl rfl, id, id⟩
  | memory m canonical bound => exact ⟨rfl, rfl, rfl, .inl rfl, canonical, bound⟩
  | fault => exact ⟨rfl, rfl, rfl, .inr rfl, id, id⟩

theorem NoticeMove.otherBlocks {s t : State} (move : NoticeMove s t) : OtherBlocks s t := by
  cases move with
  | bus move => exact move.otherBlocks
  | overflow | ring => exact ⟨rfl, rfl, rfl, .inl rfl, id, id⟩

/-- A change of the port and the power state alone. -/
theorem otherBlocks_of_eq {s t : State} (h : t = { s with port := t.port, power := t.power }) : OtherBlocks s t := by
  rw [h]
  exact ⟨rfl, rfl, rfl, .inl rfl, id, id⟩

theorem TakeMove.otherBlocks {s t : State} (move : TakeMove s t) : OtherBlocks s t := by
  cases move with
  | bus move => exact move.otherBlocks
  | examined | cleared | taken => exact otherBlocks_of_eq rfl

theorem PortMove.otherBlocks {s t : State} (move : PortMove s t) : OtherBlocks s t := by
  cases move with
  | bus move => exact move.otherBlocks
  | reset => exact ⟨rfl, rfl, rfl, .inr rfl, id, id⟩
  | sweepEnded => unfold endSweep startSweep; split <;> [split; skip] <;> exact otherBlocks_of_eq rfl
  | sweepAsked => unfold writeSweep startSweep; split <;> [split; skip; skip; skip] <;> exact otherBlocks_of_eq rfl
  | dozeAsked => unfold controlDoze; split <;> [split; skip] <;> exact otherBlocks_of_eq rfl
  | status => unfold writeStatus; split <;> exact otherBlocks_of_eq rfl
  | area => unfold writeAreaBase; split <;> exact otherBlocks_of_eq rfl
  | dozeEntered => unfold enterDoze; split <;> exact otherBlocks_of_eq rfl
  | examined | stored | enabled | disabled | release => exact otherBlocks_of_eq rfl

/-- What notices and new rosters keep, the recording of an inspection keeps. -/
theorem recordInspection_keeps {P : State → Prop} (notice : ∀ s t, NoticeMove s t → P s → P t)
    (roster : ∀ s es, P s → P { s with roster := es }) (j : Judgement) (c : InspectCopy) {s : State} (hs : P s) :
    P (recordInspection j c s) := by
  refine star_keeps (fun s t move keeps => ?_) (recordInspection_recording j c s) hs
  cases move with
  | noting move => exact notice _ _ move keeps
  | roster => exact roster _ _ keeps

/-- What the bus, an entry of the hold list and the end of the request in hand keep, the holding of a request keeps. -/
theorem holdNow_keeps {P : State → Prop} (bus : ∀ s t, BusMove s t → P s → P t) (finish : ∀ s slot, P s → P (finishInHand slot s))
    {h : Hold} {s : State} (hs : P (appendHold h s)) : P (holdNow h s) := by
  have written : P _ := star_keeps bus (busWrite_moves (s.slotAddress h.slot) [SlotState.held.code] (appendHold h s)) hs
  unfold holdNow
  simp only
  split
  · exact written
  · exact finish _ _ written

/-! ### The memories (8.1, 9.1) -/

theorem Tables.abortLoad_memory (t : Tables) : t.abortLoad.memory = t.memory := by
  unfold abortLoad
  split <;> simp

theorem OtherBlocks.memories {s t : State} (other : OtherBlocks s t) (hs : MemoryInvariant s) : MemoryInvariant t where
  host := other.canonical hs.host
  hostBound := other.bound hs.hostBound
  table := by rcases other.tables with same | aborted <;> simp [*, hs.table]
  tableBound := by
    rcases other.tables with same | aborted <;> simp only [*, Tables.abortLoad_memory] <;> exact hs.tableBound

theorem Inside.memories {s t : State} (move : Inside s t) (hs : MemoryInvariant s) : MemoryInvariant t := by
  cases move with
  | noting move => exact move.otherBlocks.memories hs
  | record j c => exact recordInspection_keeps (fun _ _ move => move.otherBlocks.memories) (fun _ _ hs => { hs with }) j c hs
  | resetPort => exact (PortMove.reset s).otherBlocks.memories hs
  | resetPower => exact ⟨hs.host, hs.hostBound, rfl, nofun⟩
  | clock | entry | drop | carry => exact { hs with }

/-- A change of the table store that leaves table memory as it is. -/
theorem MemoryInvariant.withTables {s : State} {tables : Tables} (hs : MemoryInvariant s)
    (memory : tables.memory = s.tables.memory) : MemoryInvariant { s with tables := tables } where
  host := hs.host
  hostBound := hs.hostBound
  table := (congrArg Memory.wf memory).trans hs.table
  tableBound := fun c hc => hs.tableBound c (by simpa [memory] using hc)

theorem Work.memories {r : Request} {s t : State} (move : Work r s t) (hs : MemoryInvariant s) : MemoryInvariant t := by
  cases move with
  | inside move => exact move.memories hs
  | copy => exact ⟨hs.host, hs.hostBound, Memory.wf_writeRun hs.table, Memory.bound_writeRun (by decide) hs.tableBound⟩
  | wiped => exact ⟨hs.host, hs.hostBound, rfl, nofun⟩
  | hold h =>
    exact holdNow_keeps (fun _ _ move => move.otherBlocks.memories) (fun _ _ hs => { hs with })
      (MemoryInvariant.mk hs.host hs.hostBound hs.table hs.tableBound)
  | complete | loadBegun | raised | wipeBegun => exact hs.withTables (by simp [Tables.completed, Tables.beginLoad])
  | finish | opened | moved | closed => exact { hs with }

/-- Settles O54: the memories are written in canonical form, and no other change touches them. -/
theorem stepKeepsTheMemories : Obligations.StepKeepsTheMemories := fun _ _ hs h =>
  step_keeps (fun _ _ move => move.otherBlocks.memories) (fun _ _ _ => Work.memories) (fun _ _ move => move.otherBlocks.memories) h hs

/-! ### The clock (1.1) -/

theorem OtherBlocks.clockInRange {s t : State} (other : OtherBlocks s t) (hs : s.clock.InRange) : t.clock.InRange :=
  other.clock ▸ hs

theorem Inside.clockInRange {s t : State} (move : Inside s t) (hs : s.clock.InRange) : t.clock.InRange := by
  cases move with
  | noting move => exact move.otherBlocks.clockInRange hs
  | clock _ range _ => exact range hs
  | record j c =>
    exact recordInspection_keeps (P := fun s => s.clock.InRange) (fun _ _ move => move.otherBlocks.clockInRange)
      (fun _ _ hs => hs) j c hs
  | resetPower => refine ⟨?_, ?_, ?_, ?_, ?_⟩ <;> simp [Machine.resetPower, State.reset, Clock.reset]
  | entry | drop | carry | resetPort => exact hs

theorem Work.clockInRange {r : Request} {s t : State} (move : Work r s t) (hs : s.clock.InRange) : t.clock.InRange := by
  cases move with
  | inside move => exact move.clockInRange hs
  | hold h =>
    exact holdNow_keeps (P := fun s => s.clock.InRange) (fun _ _ move => move.otherBlocks.clockInRange)
      (fun _ _ hs => hs) (h := h) hs
  | finish | copy | complete | wiped | opened | moved | closed | loadBegun | raised | wipeBegun => exact hs

/-- Settles O55: each event of the clock keeps the ranges of its items, and no other change touches the clock. -/
theorem stepKeepsTheClockInRange : Obligations.StepKeepsTheClockInRange := fun _ _ hs h =>
  step_keeps (P := fun s => s.clock.InRange) (fun _ _ move => move.otherBlocks.clockInRange) (fun _ _ _ => Work.clockInRange)
    (fun _ _ move => move.otherBlocks.clockInRange) h hs

/-! ### The table store (chapter 8) -/

/-- What always holds of one table: the items of `TableInvariant` that name a table. -/
structure Tables.SoundAt (t : Tables) (k : TableKind) : Prop where
  loading : (t.descriptor k).state = .loading ↔ ∃ job, t.load = some job ∧ job.kind = k
  cause : (t.descriptor k).cause ≠ .noCause ↔ (t.descriptor k).state = .damaged
  level : (t.descriptor k).level ≤ 3
  count : (t.descriptor k).count ≤ k.capacity
  least : (t.descriptor k).state = .loading ∨ (t.descriptor k).state = .valid → k.least ≤ (t.descriptor k).count
  valid : (t.descriptor k).state = .valid → judgeImage t k = .noCause

/-- The ordinals kept are those of a VALID stops table (R14). -/
def Tables.OrdinalsKept (t : Tables) : Prop :=
  t.ordinals = if t.stops.state = .valid then lineOrdinals ((t.entries .stops).map Stop.ofBytes) else []

/-- What always holds of the table store, table by table. -/
structure Tables.Sound (t : Tables) : Prop where
  each : ∀ k, t.SoundAt k
  copied : ∀ job, t.load = some job → job.copied ≤ (t.descriptor job.kind).count * job.kind.entrySize
  ordinals : t.OrdinalsKept
  wiping : t.wiping = true → t.load = none

theorem tableInvariant_iff {s : State} : TableInvariant s ↔ s.tables.Sound where
  mp h := ⟨fun k => ⟨h.loading k, h.cause k, h.level k, h.count k, h.least k, h.valid k⟩, h.copied, h.ordinals, h.wiping⟩
  mpr h :=
    { loading := fun k => (h.each k).loading
      cause := fun k => (h.each k).cause
      level := fun k => (h.each k).level
      count := fun k => (h.each k).count
      copied := h.copied
      least := fun k => (h.each k).least
      valid := fun k => (h.each k).valid
      ordinals := h.ordinals
      wiping := h.wiping }

/-- Two table stores that hold the same image of a table: as many entries, and the same bytes. -/
structure Tables.SameImage (t t' : Tables) (k : TableKind) : Prop where
  count : (t'.descriptor k).count = (t.descriptor k).count
  bytes :
    ∀ i < (t.descriptor k).count * k.entrySize,
      Memory.read t'.memory ((k.base + i) % tableSize) = Memory.read t.memory ((k.base + i) % tableSize)

theorem Tables.sameImage_of_eq {t t' : Tables} {k : TableKind} (memory : t'.memory = t.memory)
    (count : (t'.descriptor k).count = (t.descriptor k).count) : t.SameImage t' k := ⟨count, fun _ _ => by rw [memory]⟩

theorem Tables.SameImage.image {t t' : Tables} {k : TableKind} (same : t.SameImage t' k) : t'.image k = t.image k := by
  rw [Tables.image, Tables.image, same.count]
  exact Memory.readRun_congr same.bytes

theorem Tables.SameImage.entries {t t' : Tables} {k : TableKind} (same : t.SameImage t' k) : t'.entries k = t.entries k := by
  rw [Tables.entries, Tables.entries, same.count]
  refine List.map_congr_left fun i hi => Memory.readRun_congr fun j hj => ?_
  have inside : i * k.entrySize + j < (t.descriptor k).count * k.entrySize := by
    have row : (i + 1) * k.entrySize ≤ (t.descriptor k).count * k.entrySize :=
      Nat.mul_le_mul_right _ (List.mem_range.mp hi)
    rw [Nat.add_mul] at row
    omega
  simpa [Nat.add_assoc] using same.bytes _ inside

theorem Tables.SameImage.judge {t t' : Tables} {k : TableKind} (same : t.SameImage t' k)
    (sum : (t'.descriptor k).expectedSum = (t.descriptor k).expectedSum) : judgeImage t' k = judgeImage t k := by
  rw [judgeImage, judgeImage, same.image, same.entries, sum]

/-- A table that a change of the store leaves alone stays as sound as it was. -/
theorem Tables.SoundAt.transfer {t t' : Tables} {k : TableKind} (h : t.SoundAt k) (same : t.SameImage t' k)
    (descriptor : t'.descriptor k = t.descriptor k)
    (load : (∃ job, t'.load = some job ∧ job.kind = k) ↔ ∃ job, t.load = some job ∧ job.kind = k) : t'.SoundAt k where
  loading := by rw [descriptor, load]; exact h.loading
  cause := descriptor ▸ h.cause
  level := descriptor ▸ h.level
  count := descriptor ▸ h.count
  least := descriptor ▸ h.least
  valid := by rw [descriptor, same.judge (by rw [descriptor])]; exact h.valid

end Sys2Proof.Machine

/-! The invariant of the table store (O58): each operation of the store keeps it. -/

namespace Sys2Proof.Machine

/-! ### The operations of the store -/

/-- Two tables' regions do not overlap (R127). -/
theorem TableKind.regions_disjoint {k k' : TableKind} (other : k ≠ k') {i j : Nat} (hi : i < k.capacity * k.entrySize)
    (hj : j < k'.capacity * k'.entrySize) : (k.base + i) % tableSize ≠ (k'.base + j) % tableSize := by
  cases k <;> cases k' <;>
    first | exact absurd rfl other | (simp only [base, capacity, entrySize, tableSize] at *; omega)

theorem Tables.SoundAt.imageSize {t : Tables} {k : TableKind} (h : t.SoundAt k) :
    (t.descriptor k).count * k.entrySize ≤ k.capacity * k.entrySize := Nat.mul_le_mul_right _ h.count

/-- The ordinals stay where the stops table stays, or where it leaves no VALID table (R14, R130, R135). -/
theorem Tables.OrdinalsKept.transfer {t t' : Tables} (h : t.OrdinalsKept) (ordinals : t'.ordinals = t.ordinals)
    (kept : (t'.stops.state = t.stops.state ∧ (t.stops.state = .valid → t.SameImage t' .stops)) ∨
      (t.stops.state ≠ .valid ∧ t'.stops.state ≠ .valid)) : t'.OrdinalsKept := by
  unfold OrdinalsKept at *
  rw [ordinals, h]
  rcases kept with ⟨state, same⟩ | ⟨before, after⟩
  · rw [state]
    split
    next valid => rw [(same valid).entries]
    · rfl
  · rw [if_neg before, if_neg after]

/-- The state of the table that a load is in progress for (R130). -/
theorem Tables.Sound.loadingState {t : Tables} (h : t.Sound) {job : LoadJob} (loading : t.load = some job) :
    (t.descriptor job.kind).state = .loading := (h.each _).loading.mpr ⟨job, loading, rfl⟩

theorem Tables.Sound.abortLoad {t : Tables} (h : t.Sound) : t.abortLoad.Sound := by
  cases loading : t.load with
  | none => rwa [show t.abortLoad = t by simp [Tables.abortLoad, loading]]
  | some job =>
    have descriptor (k : TableKind) : t.abortLoad.descriptor k =
        if k = job.kind then { t.descriptor k with state := .damaged, cause := .aborted } else t.descriptor k := by
      rw [abortLoad_descriptor, loading]
    have load : t.abortLoad.load = none := by simp [Tables.abortLoad, loading]
    have state := h.loadingState loading
    have image (k : TableKind) : t.SameImage t.abortLoad k :=
      sameImage_of_eq t.abortLoad_memory (by rw [descriptor]; split <;> rfl)
    refine ⟨fun k => ?_, by simp, ?_, fun _ => load⟩
    · by_cases own : k = job.kind
      · have gone : t.abortLoad.descriptor k = { t.descriptor k with state := .damaged, cause := .aborted } := by
          rw [descriptor, if_pos own]
        refine ⟨?_, ?_, ?_, ?_, ?_, ?_⟩ <;> rw [gone]
        · simp
        · simp
        · exact (h.each k).level
        · exact (h.each k).count
        · simp
        · simp
      · refine (h.each k).transfer (image k) (by rw [descriptor, if_neg own]) ?_
        simp [loading, Ne.symm own]
    · refine h.ordinals.transfer (by simp [Tables.abortLoad, loading]) ?_
      have stops := descriptor .stops
      by_cases own : TableKind.stops = job.kind
      · rw [if_pos own] at stops
        rw [← own] at state
        exact .inr ⟨by simp [show t.stops.state = .loading from state],
          by simp [show t.abortLoad.stops = { t.stops with state := .damaged, cause := .aborted } from stops]⟩
      · rw [if_neg own] at stops
        exact .inl ⟨congrArg Descriptor.state (show t.abortLoad.stops = t.stops from stops), fun _ => image .stops⟩

theorem Tables.copyIn_descriptor (t : Tables) (job : LoadJob) (bytes : List Byte) (k : TableKind) :
    (t.copyIn job bytes).descriptor k = t.descriptor k := by cases k <;> rfl

/-- A copy writes within the region of its own table (R127, R130). -/
theorem Tables.Sound.sameImage_copyIn {t : Tables} (h : t.Sound) {job : LoadJob} {bytes : List Byte}
    (loading : t.load = some job) (within : bytes.length ≤ t.toCopy job) {k : TableKind} (other : k ≠ job.kind) :
    t.SameImage (t.copyIn job bytes) k where
  count := by rw [copyIn_descriptor]
  bytes i hi := by
    refine Memory.read_writeRun_other fun j hj => ?_
    rw [Nat.add_assoc]
    have copied := h.copied job loading
    have size := (h.each job.kind).imageSize
    refine TableKind.regions_disjoint other (hi.trans_le (h.each k).imageSize) ?_
    simp only [toCopy] at within
    omega

theorem Tables.Sound.copyIn {t : Tables} (h : t.Sound) {job : LoadJob} {bytes : List Byte}
    (loading : t.load = some job) (within : bytes.length ≤ t.toCopy job) : (t.copyIn job bytes).Sound := by
  have state := h.loadingState loading
  have load : (t.copyIn job bytes).load = some { job with copied := job.copied + bytes.length } := rfl
  refine ⟨fun k => ?_, ?_, ?_, ?_⟩
  · by_cases own : k = job.kind
    · refine ⟨?_, ?_, ?_, ?_, ?_, ?_⟩ <;> rw [copyIn_descriptor]
      · simp [load, own, state]
      · exact (h.each k).cause
      · exact (h.each k).level
      · exact (h.each k).count
      · exact (h.each k).least
      · rw [own, state]
        nofun
    · refine (h.each k).transfer (h.sameImage_copyIn loading within own) (copyIn_descriptor t job bytes k) ?_
      simp [load, loading]
  · intro job' some'
    obtain rfl := Option.some_inj.mp (load.symm.trans some')
    rw [copyIn_descriptor]
    have copied := h.copied job loading
    simp only [toCopy] at within
    simp only
    omega
  · refine h.ordinals.transfer rfl (.inl ⟨rfl, fun valid => h.sameImage_copyIn loading within ?_⟩)
    intro own
    rw [← own] at state
    exact nomatch valid.symm.trans state
  · intro wiping
    exact nomatch loading.symm.trans (h.wiping wiping)

theorem Tables.completed_descriptor (t : Tables) (k k' : TableKind) : (t.completed k).descriptor k' =
    if k' = k then (t.descriptor k).judged (judgeImage t k) else t.descriptor k' := by
  rw [← descriptor_setDescriptor]
  cases k' <;> rfl

theorem Descriptor.judged_count (d : Descriptor) (cause : DamageCause) : (d.judged cause).count = d.count := by
  unfold judged; split <;> rfl

theorem Descriptor.judged_expectedSum (d : Descriptor) (cause : DamageCause) :
    (d.judged cause).expectedSum = d.expectedSum := by
  unfold judged; split <;> rfl

theorem Tables.sameImage_completed (t : Tables) (k k' : TableKind) : t.SameImage (t.completed k) k' :=
  sameImage_of_eq (by simp [completed]) (by
    rw [completed_descriptor]
    split
    next own => rw [own, Descriptor.judged_count]
    · rfl)

/-- The table that has been judged (R133). -/
theorem Tables.Sound.judged {t : Tables} (h : t.Sound) {job : LoadJob} (loading : t.load = some job) :
    (t.completed job.kind).SoundAt job.kind := by
  have own := completed_descriptor t job.kind job.kind
  rw [if_pos rfl] at own
  have least := (h.each job.kind).least (.inl (h.loadingState loading))
  have judge : judgeImage (t.completed job.kind) job.kind = judgeImage t job.kind :=
    (sameImage_completed t job.kind job.kind).judge (by rw [own, Descriptor.judged_expectedSum])
  have state : ((t.descriptor job.kind).judged (judgeImage t job.kind)).state =
      if judgeImage t job.kind = .noCause then .valid else .damaged := by unfold Descriptor.judged; split <;> rfl
  have cause : ((t.descriptor job.kind).judged (judgeImage t job.kind)).cause = judgeImage t job.kind := by
    unfold Descriptor.judged
    split <;> simp_all
  have level : ((t.descriptor job.kind).judged (judgeImage t job.kind)).level = (t.descriptor job.kind).level := by
    unfold Descriptor.judged; split <;> rfl
  refine ⟨?_, ?_, ?_, ?_, ?_, ?_⟩ <;> rw [own]
  · rw [state]
    split <;> simp [completed]
  · rw [state, cause]
    split <;> simp_all
  · exact level ▸ (h.each job.kind).level
  · rw [Descriptor.judged_count]; exact (h.each job.kind).count
  · rw [Descriptor.judged_count]; exact fun _ => least
  · rw [state, judge]
    split
    next passed => exact fun _ => passed
    · nofun

theorem Tables.Sound.completed {t : Tables} (h : t.Sound) {job : LoadJob} (loading : t.load = some job) :
    (t.completed job.kind).Sound := by
  have load : (t.completed job.kind).load = none := rfl
  refine ⟨fun k => ?_, by simp [load], ?_, fun _ => load⟩
  · by_cases own : k = job.kind
    · exact own ▸ h.judged loading
    · refine (h.each k).transfer (sameImage_completed t _ k) (by rw [completed_descriptor, if_neg own]) ?_
      simp [load, loading, Ne.symm own]
  · have stops := completed_descriptor t job.kind .stops
    by_cases own : job.kind = .stops
    · have state : (t.completed job.kind).stops.state = if judgeImage t .stops = .noCause then .valid else .damaged := by
        rw [show (t.completed job.kind).stops = _ from stops, own, if_pos rfl]
        unfold Descriptor.judged; split <;> rfl
      unfold OrdinalsKept
      rw [state, (sameImage_completed t job.kind .stops).entries]
      simp only [Tables.completed, own, if_true]
      split <;> simp
    · rw [if_neg fun same => own same.symm] at stops
      exact h.ordinals.transfer (by simp [Tables.completed, own])
        (.inl ⟨congrArg Descriptor.state (show (t.completed job.kind).stops = t.stops from stops),
          fun _ => sameImage_completed t _ _⟩)

theorem Tables.reset_sound : Tables.reset.Sound where
  each k := by
    have absent : Tables.reset.descriptor k = Descriptor.reset := by cases k <;> rfl
    refine ⟨?_, ?_, ?_, ?_, ?_, ?_⟩ <;> rw [absent] <;> simp [Descriptor.reset, Tables.reset]
  copied := nofun
  ordinals := rfl
  wiping := nofun

theorem Tables.beginLoad_descriptor (t : Tables) (k k' : TableKind) (a : LoadTableArgs) :
    (t.beginLoad k a).descriptor k' = if k' = k then (t.descriptor k).loading a else t.descriptor k' := by
  rw [← descriptor_setDescriptor]
  cases k' <;> rfl

/-- What an accepted load has passed (R129). -/
structure LoadAccepted (k : TableKind) (a : LoadTableArgs) (s : State) : Prop where
  free : s.tables.busy = false
  unused : k = .deny ∨ s.runOpen = false
  capacity : a.count.toNat ≤ k.capacity
  least : k.least ≤ a.count.toNat

theorem loadAccepted_of {k : TableKind} {a : LoadTableArgs} {s : State} (accepted : loadRefusal k a s = none) :
    LoadAccepted k a s := by
  unfold loadRefusal at accepted
  split at accepted <;> [simp at accepted; skip]
  next free =>
    split at accepted <;> [simp at accepted; skip]
    next unused =>
      split at accepted <;> [simp at accepted; skip]
      split at accepted <;> [simp at accepted; skip]
      next capacity =>
        split at accepted <;> [simp at accepted; skip]
        next least =>
          refine ⟨by simpa using free, ?_, Nat.not_lt.mp capacity, Nat.not_lt.mp least⟩
          by_cases deny : k = .deny
          · exact .inl deny
          · exact .inr (by simpa [deny] using unused)

theorem Tables.busy_eq_false {t : Tables} : t.busy = false ↔ t.load = none ∧ t.wiping = false := by
  simp [busy]

theorem Tables.Sound.beginLoad {s : State} (h : s.tables.Sound) {k : TableKind} {a : LoadTableArgs}
    (accepted : LoadAccepted k a s) : (s.tables.beginLoad k a).Sound := by
  obtain ⟨idle, notWiping⟩ := busy_eq_false.mp accepted.free
  have load : (s.tables.beginLoad k a).load = some { kind := k, source := a.source.toNat, copied := 0 } := rfl
  have other {k' : TableKind} (ne : k' ≠ k) : (s.tables.beginLoad k a).descriptor k' = s.tables.descriptor k' := by
    rw [beginLoad_descriptor, if_neg ne]
  have image {k' : TableKind} (ne : k' ≠ k) : s.tables.SameImage (s.tables.beginLoad k a) k' :=
    sameImage_of_eq (by simp [Tables.beginLoad]) (by rw [other ne])
  refine ⟨fun k' => ?_, ?_, ?_, ?_⟩
  · by_cases own : k' = k
    · subst own
      refine ⟨?_, ?_, ?_, ?_, ?_, ?_⟩ <;> rw [beginLoad_descriptor, if_pos rfl]
      · simp [load, Descriptor.loading]
      · simp [Descriptor.loading]
      · exact (h.each k').level
      · exact accepted.capacity
      · exact fun _ => accepted.least
      · nofun
    · refine (h.each k').transfer (image own) (other own) ?_
      simp [load, idle, Ne.symm own]
  · intro job some'
    obtain rfl := Option.some_inj.mp (load.symm.trans some')
    exact Nat.zero_le _
  · by_cases own : TableKind.stops = k
    · have stops := beginLoad_descriptor s.tables k .stops a
      rw [if_pos own] at stops
      unfold OrdinalsKept
      rw [show (s.tables.beginLoad k a).stops = _ from stops]
      simp [Tables.beginLoad, own, Descriptor.loading]
    · exact h.ordinals.transfer (by simp [Tables.beginLoad, Ne.symm own])
        (.inl ⟨congrArg Descriptor.state (other own), fun _ => image own⟩)
  · intro wiping
    have same : (s.tables.beginLoad k a).wiping = s.tables.wiping := by simp [Tables.beginLoad]
    exact nomatch (same.symm.trans wiping).symm.trans notWiping

/-- A raised level leaves everything else of a descriptor (R136). -/
theorem Tables.Sound.raised {t : Tables} (h : t.Sound) (k : TableKind) {level : Nat} (range : level ≤ 3) :
    (t.setDescriptor k ((t.descriptor k).raised level)).Sound := by
  set t' := t.setDescriptor k ((t.descriptor k).raised level) with def'
  have descriptor (k' : TableKind) : t'.descriptor k' =
      { t.descriptor k' with level := if k' = k then max (t.descriptor k).level level else (t.descriptor k').level } := by
    rw [def', descriptor_setDescriptor]
    split
    next own => rw [own]; rfl
    · rfl
  have load : t'.load = t.load := by simp [def']
  have image (k' : TableKind) : t.SameImage t' k' := sameImage_of_eq (by simp [def']) (by rw [descriptor])
  refine ⟨fun k' => ?_, ?_, ?_, ?_⟩
  · refine ⟨?_, ?_, ?_, ?_, ?_, ?_⟩
    · rw [descriptor, load]; exact (h.each k').loading
    · rw [descriptor]; exact (h.each k').cause
    · rw [descriptor]
      have before := (h.each k').level
      split
      next own => exact Nat.max_le.mpr ⟨own ▸ before, range⟩
      · exact before
    · rw [descriptor]; exact (h.each k').count
    · rw [descriptor]; exact (h.each k').least
    · rw [(image k').judge (by rw [descriptor]), descriptor]; exact (h.each k').valid
  · rw [load]
    intro job some'
    rw [descriptor]
    exact h.copied job some'
  · exact h.ordinals.transfer (by simp [def']) (.inl ⟨(congrArg Descriptor.state (descriptor .stops) :), fun _ => image _⟩)
  · rw [load, show t'.wiping = t.wiping by simp [def']]
    exact h.wiping

/-- A WIPE begins with no load in progress (R138). -/
theorem Tables.Sound.beginWipe {t : Tables} (h : t.Sound) (free : t.busy = false) : { t with wiping := true : Tables }.Sound where
  each k := by
    have same : ({ t with wiping := true } : Tables).descriptor k = t.descriptor k := by cases k <;> rfl
    exact (h.each k).transfer (sameImage_of_eq rfl (by rw [same])) same .rfl
  copied job loading := nomatch (busy_eq_false.mp free).1.symm.trans loading
  ordinals := h.ordinals.transfer rfl (.inl ⟨rfl, fun _ => sameImage_of_eq rfl rfl⟩)
  wiping _ := (busy_eq_false.mp free).1

/-! ### The changes of a step -/

theorem OtherBlocks.tablesSound {s t : State} (other : OtherBlocks s t) (hs : s.tables.Sound) : t.tables.Sound := by
  rcases other.tables with same | aborted
  · exact same ▸ hs
  · exact aborted ▸ hs.abortLoad

theorem Inside.tablesSound {s t : State} (move : Inside s t) (hs : s.tables.Sound) : t.tables.Sound := by
  cases move with
  | noting move => exact move.otherBlocks.tablesSound hs
  | record j c =>
    exact recordInspection_keeps (P := fun s => s.tables.Sound) (fun _ _ move => move.otherBlocks.tablesSound)
      (fun _ _ hs => hs) j c hs
  | resetPort => exact hs.abortLoad
  | resetPower => exact Tables.reset_sound
  | clock | entry | drop | carry => exact hs

theorem Work.tablesSound {r : Request} {s t : State} (move : Work r s t) (hs : s.tables.Sound) : t.tables.Sound := by
  cases move with
  | inside move => exact move.tablesSound hs
  | hold h =>
    exact holdNow_keeps (P := fun s => s.tables.Sound) (fun _ _ move => move.otherBlocks.tablesSound)
      (fun _ _ hs => hs) (h := h) hs
  | copy job bytes loading within => exact hs.copyIn loading within
  | complete job loading => exact hs.completed loading
  | wiped => exact Tables.reset_sound
  | loadBegun slot k a inHand accepted => exact hs.beginLoad (loadAccepted_of accepted)
  | raised k level range => exact hs.raised k range
  | wipeBegun slot inHand shut free => exact hs.beginWipe free
  | finish | opened | moved | closed => exact hs

/-- Settles O58: each operation of the table store keeps the invariant, and no other change touches the store. -/
theorem stepKeepsTheTables : Obligations.StepKeepsTheTables := fun _ _ hs h =>
  tableInvariant_iff.mpr <| step_keeps (P := fun s => s.tables.Sound) (fun _ _ move => move.otherBlocks.tablesSound)
    (fun _ _ _ => Work.tablesSound) (fun _ _ move => move.otherBlocks.tablesSound) h (tableInvariant_iff.mp hs)

end Sys2Proof.Machine

/-! The invariant of the exchange port and the power state (O56): each change of a step keeps it, with what holds of the request
in hand within the step. -/

namespace Sys2Proof.Machine

open Relation (ReflTransGen)

/-! ### The invariant within a step -/

/-- What always holds of the port and the power state, within a step too (R141 to R143, R146, R150, R153, R156, R159). -/
structure State.PortSound (s : State) : Prop where
  noticeCount : s.port.noticeCount ≤ 64
  holdSlots : (s.port.holds.map Hold.slot).Nodup
  marks : ∀ h ∈ s.port.holds, s.port.endedMarks.get h.slot = false
  areaAligned : s.port.areaBase &&& 0x1FFF#32 = 0
  faultFlag : s.port.faultFlag = true ↔ s.port.state = .fault
  faultCause : s.port.faultCause ≠ .noCause ↔ s.port.state = .fault
  sweepLeft : s.port.sweepLeft ≤ 32
  outsideSweep : s.port.state ≠ .sweeping → s.port.sweepLeft = 0 ∧ s.port.sweepAgain = false
  doze : s.power = .doze → s.port.state ≠ .sweeping ∧ s.tables.load = none ∧ s.tables.wiping = false

/-- The request in hand was taken from a free slot, its ended-hold mark cleared, while the port sweeps (R145, R146). -/
def State.HandFree (s : State) : Prop :=
  ∀ slot, s.port.inHand = some slot →
    s.port.state = .sweeping ∧ s.isHeld slot = false ∧ s.port.endedMarks.get slot = false

theorem State.underWay_eq_false {s : State} :
    s.underWay = false ↔ s.port.state ≠ .sweeping ∧ s.tables.load = none ∧ s.tables.wiping = false := by
  simp [underWay, and_assoc]

theorem portInvariant_iff {s : State} : PortInvariant s ↔ s.PortSound ∧ s.port.inHand = none where
  mp h :=
    ⟨⟨h.noticeCount, h.holdSlots, h.marks, h.areaAligned, h.faultFlag, h.faultCause, h.sweepLeft, h.outsideSweep,
      fun doze => State.underWay_eq_false.mp (h.doze doze)⟩, h.inHand⟩
  mpr h :=
    { noticeCount := h.1.noticeCount
      holdSlots := h.1.holdSlots
      marks := h.1.marks
      areaAligned := h.1.areaAligned
      faultFlag := h.1.faultFlag
      faultCause := h.1.faultCause
      sweepLeft := h.1.sweepLeft
      outsideSweep := h.1.outsideSweep
      inHand := h.2
      doze := fun doze => State.underWay_eq_false.mpr (h.1.doze doze) }

theorem State.handFree_of_none {s : State} (free : s.port.inHand = none) : s.HandFree :=
  fun _ taken => nomatch free.symm.trans taken

/-- The marks after one of them has changed. -/
theorem get_set_of_ne {marks : Vector Bool 32} {slot x : Slot} (other : slot ≠ x) (b : Bool) :
    (marks.set slot.val b).get x = marks.get x :=
  Vector.getElem_set_ne _ _ fun same => other (Fin.ext same)

theorem get_set_self (marks : Vector Bool 32) (slot : Slot) (b : Bool) : (marks.set slot.val b).get slot = b :=
  Vector.getElem_set_self _

/-! ### The bus, the notices and what comes inside an inspection -/

theorem State.PortSound.enterFault {s : State} (h : s.PortSound) {cause : FaultCause} (latched : cause ≠ .noCause)
    (address : Nat) : (enterFault cause address s).PortSound :=
  { h with
    faultFlag := by simp [Machine.enterFault]
    faultCause := by simp [Machine.enterFault, latched]
    sweepLeft := by simp [Machine.enterFault]
    outsideSweep := fun _ => ⟨rfl, rfl⟩
    doze := fun doze => by
      obtain ⟨-, -, notWiping⟩ := h.doze doze
      simpa [Machine.enterFault] using notWiping }

theorem NoticeMove.portSound {s t : State} (move : NoticeMove s t) (h : s.PortSound) : t.PortSound := by
  cases move with
  | bus move =>
    cases move with
    | surroundings | memory => exact { h with }
    | fault cause address latched => exact h.enterFault latched address
  | overflow => exact { h with }
  | ring room => exact { h with noticeCount := room }

theorem NoticeMove.handFree {s t : State} (move : NoticeMove s t) (h : s.HandFree) : t.HandFree := by
  cases move with
  | bus move =>
    cases move with
    | surroundings | memory => exact h
    | fault => exact State.handFree_of_none rfl
  | overflow | ring => exact h

theorem State.PortSound.resetPort {s : State} (h : s.PortSound) : (resetPort s).PortSound where
  noticeCount := Nat.zero_le _
  holdSlots := List.nodup_nil
  marks := nofun
  areaAligned := h.areaAligned
  faultFlag := by simp [Machine.resetPort]
  faultCause := by simp [Machine.resetPort]
  sweepLeft := Nat.zero_le _
  outsideSweep _ := ⟨rfl, rfl⟩
  doze doze := by
    obtain ⟨-, -, notWiping⟩ := h.doze doze
    simpa [Machine.resetPort] using notWiping

theorem State.portSound_resetPower (s : State) : (resetPower s).PortSound where
  noticeCount := Nat.zero_le _
  holdSlots := List.nodup_nil
  marks := nofun
  areaAligned := by simp [resetPower, State.reset, Port.reset]
  faultFlag := by simp [resetPower, State.reset, Port.reset]
  faultCause := by simp [resetPower, State.reset, Port.reset]
  sweepLeft := Nat.zero_le _
  outsideSweep _ := ⟨rfl, rfl⟩
  doze := nofun

theorem Inside.portSound {s t : State} (move : Inside s t) (h : s.PortSound) : t.PortSound := by
  cases move with
  | noting move => exact move.portSound h
  | record j c => exact recordInspection_keeps (fun _ _ => NoticeMove.portSound) (fun _ _ h => { h with }) j c h
  | drop slot =>
    refine { h with holdSlots := ?_, marks := fun g on => ?_ }
    · exact h.holdSlots.sublist (List.filter_sublist.map Hold.slot)
    · obtain ⟨before, other⟩ := List.mem_filter.mp on
      exact (get_set_of_ne (Ne.symm (by simpa using other)) true).trans (h.marks g before)
  | carry slot awaits =>
    refine { h with holdSlots := ?_, marks := fun g on => ?_ }
    · have slots : (s.port.holds.map fun h => if h.slot == slot then { h with awaits := awaits } else h).map Hold.slot =
          s.port.holds.map Hold.slot := by
        rw [List.map_map]
        exact List.map_congr_left fun g _ => by simp only [Function.comp]; split <;> rfl
      exact slots ▸ h.holdSlots
    · obtain ⟨g', before, rfl⟩ := List.mem_map.mp on
      have mark := h.marks g' before
      split <;> exact mark
  | resetPort => exact h.resetPort
  | resetPower => exact State.portSound_resetPower s
  | clock | entry => exact { h with }

theorem Inside.handFree {s t : State} (move : Inside s t) (h : s.HandFree) : t.HandFree := by
  intro slot inHand
  have free : t.isHeld slot = true → s.isHeld slot = true := move.held
  cases move with
  | noting move => exact move.handFree h slot inHand
  | record j c =>
    exact recordInspection_keeps (fun _ _ => NoticeMove.handFree) (fun _ _ h => h) j c h slot inHand
  | drop x held =>
    obtain ⟨sweeping, free', mark⟩ := h slot inHand
    refine ⟨sweeping, by_contra fun still => ?_, (get_set_of_ne ?_ true).trans mark⟩
    · exact absurd (free (by simpa using still)) (by simp [free'])
    · rintro rfl
      simp [free'] at held
  | carry =>
    obtain ⟨sweeping, free', mark⟩ := h slot inHand
    exact ⟨sweeping, by_contra fun still => absurd (free (by simpa using still)) (by simp [free']), mark⟩
  | resetPort | resetPower => exact nomatch inHand
  | clock | entry => exact h slot inHand

/-! ### The work of a request -/

/-- With a request in hand the part sweeps, so it does not doze (R145, R160). -/
theorem State.PortSound.awake {s : State} (h : s.PortSound) (free : s.HandFree) {slot : Slot}
    (inHand : s.port.inHand = some slot) : s.power ≠ .doze :=
  fun doze => (h.doze doze).1 (free slot inHand).1

theorem State.PortSound.appendHold {s : State} (h : s.PortSound) {g : Hold} (free : s.isHeld g.slot = false)
    (clear : s.port.endedMarks.get g.slot = false) : (appendHold g s).PortSound :=
  { h with
    holdSlots := by
      have fresh : g.slot ∉ s.port.holds.map Hold.slot := by
        simpa [State.isHeld] using free
      simp only [Machine.appendHold, List.map_append, List.map_cons, List.map_nil]
      exact h.holdSlots.append (List.nodup_singleton _) (by simpa using fresh)
    marks := fun g' on => by
      rcases List.mem_append.mp on with before | new
      · exact h.marks g' before
      · obtain rfl := List.mem_singleton.mp new
        exact clear }

theorem Work.portSound {r : Request} {s t : State} (move : Work r s t) (h : s.PortSound ∧ s.HandFree) : t.PortSound := by
  obtain ⟨h, free⟩ := h
  cases move with
  | inside move => exact move.portSound h
  | hold g inHand =>
    obtain ⟨-, unheld, clear⟩ := free _ inHand
    exact holdNow_keeps (fun _ _ move => NoticeMove.portSound (.bus move)) (fun _ _ h => { h with })
      (h.appendHold unheld clear)
  | copy job bytes loading =>
    exact { h with doze := fun doze => nomatch (h.doze doze).2.1.symm.trans loading }
  | complete job loading =>
    exact { h with doze := fun doze => nomatch (h.doze doze).2.1.symm.trans loading }
  | wiped wiping => exact { h with doze := fun doze => nomatch (h.doze doze).2.2.symm.trans wiping }
  | loadBegun slot k a inHand => exact { h with doze := fun doze => absurd doze (h.awake free inHand) }
  | wipeBegun slot inHand => exact { h with doze := fun doze => absurd doze (h.awake free inHand) }
  | raised k level => exact { h with doze := fun doze => by simpa using h.doze doze }
  | finish | opened | moved | closed => exact { h with }

theorem Work.handFree {r : Request} {s t : State} (move : Work r s t) (h : s.HandFree) : t.HandFree := by
  cases move with
  | inside move => exact move.handFree h
  | hold g inHand inspecting =>
    have ended := (holdNow_finishes (r := .wipe) inHand inspecting).ended (.inr (h _ inHand).1)
    exact State.handFree_of_none ((holdNow_keepsHand g s).resolve_right fun same => ended (same.1.trans inHand))
  | finish => exact State.handFree_of_none rfl
  | copy | complete | wiped | opened | moved | closed | loadBegun | raised | wipeBegun => exact h

/-! ### The take and the part's own changes -/

theorem State.PortSound.examined {s : State} (h : s.PortSound) (slot : Slot) (n : Nat) : (examined slot n s).PortSound :=
  { h with
    sweepLeft := (Nat.sub_le _ _).trans h.sweepLeft
    outsideSweep := fun outside => by
      obtain ⟨left, again⟩ := h.outsideSweep outside
      exact ⟨by simp [Machine.examined, left], again⟩ }

theorem TakeMove.portSound {s t : State} (move : TakeMove s t) (h : s.PortSound) : t.PortSound := by
  cases move with
  | bus move => exact (NoticeMove.bus move).portSound h
  | examined slot n => exact h.examined slot n
  | cleared slot =>
    refine { h with marks := fun g on => ?_ }
    by_cases same : g.slot = slot
    · exact same ▸ get_set_self _ _ false
    · exact (get_set_of_ne (Ne.symm same) false).trans (h.marks g on)
  | taken => exact { h with }

theorem TakeMove.handFree {s t : State} (move : TakeMove s t) (h : s.HandFree) : t.HandFree := by
  cases move with
  | bus move => exact (NoticeMove.bus move).handFree h
  | examined => exact h
  | cleared slot =>
    intro x inHand
    obtain ⟨sweeping, free, mark⟩ := h x inHand
    refine ⟨sweeping, free, ?_⟩
    by_cases same : x = slot
    · exact same ▸ get_set_self _ _ false
    · exact (get_set_of_ne (Ne.symm same) false).trans mark
  | taken slot sweeping free clear =>
    intro x inHand
    obtain rfl := Option.some_inj.mp inHand
    exact ⟨sweeping, free, clear⟩

/-- A sweep begins in the port states that carry no fault, while the part is awake (R146, R147). -/
theorem State.PortSound.startSweep {s : State} (h : s.PortSound) (working : s.port.state ≠ .fault)
    (awake : s.power ≠ .doze) : (startSweep s).PortSound :=
  { h with
    faultFlag := by simpa [Machine.startSweep, working] using h.faultFlag
    faultCause := by simpa [Machine.startSweep, working] using h.faultCause
    sweepLeft := Nat.le_refl 32
    outsideSweep := fun outside => absurd rfl outside
    doze := fun doze => absurd doze awake }

theorem State.PortSound.endSweep {s : State} (h : s.PortSound) : (endSweep s).PortSound := by
  unfold Machine.endSweep
  split
  next ends =>
    obtain ⟨sweeping, left⟩ := ends
    have working : s.port.state ≠ .fault := by simp [sweeping]
    have awake : s.power ≠ .doze := fun doze => (h.doze doze).1 sweeping
    split
    · exact State.PortSound.startSweep { h with outsideSweep := fun outside => absurd sweeping outside } working awake
    next again =>
      exact { h with
        faultFlag := by simpa [working] using h.faultFlag
        faultCause := by simpa [working] using h.faultCause
        outsideSweep := fun _ => ⟨left, by simpa using again⟩
        doze := fun doze => absurd doze awake }
  · exact h

theorem State.PortSound.writeSweep {s : State} (h : s.PortSound) : (writeSweep s).PortSound := by
  unfold Machine.writeSweep
  split
  next idle =>
    split
    · exact State.PortSound.startSweep { h with doze := nofun } (by simp [idle]) nofun
    next awake => exact h.startSweep (by simp [idle]) awake
  next sweeping => exact { h with outsideSweep := fun outside => absurd sweeping outside }
  · exact h
  · exact h

theorem State.PortSound.controlDoze {s : State} (h : s.PortSound) (v : Word) : (controlDoze v s).PortSound := by
  unfold Machine.controlDoze
  split
  · split
    · exact { h with doze := fun doze => State.underWay_eq_false.mp (show s.underWay = false by simpa using doze) }
    · exact h
  · exact { h with doze := nofun }

theorem State.PortSound.enterDoze {s : State} (h : s.PortSound) : (enterDoze s).PortSound := by
  unfold Machine.enterDoze
  split
  next enters => exact { h with doze := fun _ => State.underWay_eq_false.mp enters.2 }
  · exact h

/-- An area base keeps its low thirteen bits zero (R141). -/
theorem areaBase_aligned (v : Word) : (v &&& 0xFFFFE000#32) &&& 0x1FFF#32 = 0 := by
  rw [BitVec.and_assoc]
  exact BitVec.and_zero

theorem PortMove.portSound {s t : State} (move : PortMove s t) (h : s.PortSound) : t.PortSound := by
  cases move with
  | bus move => exact (NoticeMove.bus move).portSound h
  | examined slot n => exact h.examined slot n
  | sweepEnded => exact h.endSweep
  | reset => exact h.resetPort
  | sweepAsked => exact h.writeSweep
  | dozeAsked v => exact h.controlDoze v
  | dozeEntered => exact h.enterDoze
  | enabled stopped =>
    exact { h with
      noticeCount := Nat.zero_le _
      faultFlag := by simpa [stopped] using h.faultFlag
      faultCause := by simpa [stopped] using h.faultCause
      outsideSweep := fun _ => h.outsideSweep (by simp [stopped])
      doze := fun doze => ⟨nofun, (h.doze doze).2⟩ }
  | disabled writes =>
    have working : s.port.state ≠ .fault := by rintro fault; simp [fault, PortState.writes] at writes
    exact { h with
      faultFlag := by simpa [disablePort, working] using h.faultFlag
      faultCause := by simpa [disablePort, working] using h.faultCause
      sweepLeft := Nat.zero_le _
      outsideSweep := fun _ => ⟨rfl, rfl⟩
      doze := fun doze => ⟨nofun, (h.doze doze).2⟩ }
  | status v =>
    unfold writeStatus
    split
    · exact { h with }
    · exact h
  | release v => exact { h with noticeCount := (Nat.sub_le _ _).trans h.noticeCount }
  | area v =>
    unfold writeAreaBase
    split
    · exact { h with areaAligned := areaBase_aligned v }
    · exact h
  | stored v => exact { h with }

theorem BusMove.inHand_none {s t : State} (move : BusMove s t) (free : s.port.inHand = none) : t.port.inHand = none :=
  (NoticeMove.bus move).keepsHand.handFree free

/-- None of the part's own changes takes a request in hand. -/
theorem PortMove.inHand_none {s t : State} (move : PortMove s t) (free : s.port.inHand = none) : t.port.inHand = none := by
  cases move with
  | bus move => exact move.inHand_none free
  | sweepEnded => unfold endSweep startSweep; split <;> [split; skip] <;> exact free
  | sweepAsked => unfold writeSweep startSweep; split <;> [split; skip; skip; skip] <;> exact free
  | dozeAsked => unfold controlDoze; split <;> [split; skip] <;> exact free
  | status => unfold writeStatus; split <;> exact free
  | area => unfold writeAreaBase; split <;> exact free
  | dozeEntered => unfold enterDoze; split <;> exact free
  | reset => rfl
  | examined | stored | enabled | disabled | release => exact free

theorem Change.portInvariant {r : Request} {s t : State} (move : Change r s t) (h : PortInvariant s) : PortInvariant t := by
  obtain ⟨sound, free⟩ := portInvariant_iff.mp h
  refine portInvariant_iff.mpr ?_
  cases move with
  | work move => exact ⟨move.portSound ⟨sound, State.handFree_of_none free⟩, move.keepsHand.handFree free⟩
  | port move => exact ⟨move.portSound sound, move.inHand_none free⟩

/-- The port within a step: up to the end of the request's work a request may be in hand (R145). -/
theorem Stepped.portInvariant {s t : State} (stepped : Stepped s t) (h : PortInvariant s) : PortInvariant t := by
  obtain ⟨r, u, v, take, works, ended, after⟩ := stepped
  obtain ⟨sound, free⟩ := portInvariant_iff.mp h
  have taken : u.PortSound ∧ u.HandFree :=
    star_keeps (P := fun s => s.PortSound ∧ s.HandFree) (fun _ _ move h => ⟨move.portSound h.1, move.handFree h.2⟩) take
      ⟨sound, State.handFree_of_none free⟩
  have worked : v.PortSound ∧ v.HandFree :=
    star_keeps (P := fun s => s.PortSound ∧ s.HandFree) (fun _ _ move h => ⟨move.portSound h, move.handFree h.2⟩) works taken
  exact star_keeps (fun _ _ move => move.portInvariant) after (portInvariant_iff.mpr ⟨worked.1, ended free⟩)

/-- Settles O56: the port's own items are kept by every change, and a step that takes a request ends with none
in hand. -/
theorem stepKeepsThePort : Obligations.StepKeepsThePort := fun _ _ hs h => (step_stepped h).portInvariant hs

end Sys2Proof.Machine

/-! Reason sets and their fold (4.10): a set holds the reasons put into it, and the fold is its most severe class. -/

namespace Sys2Proof.Machine

/-! ### Reason sets -/

theorem Reason.bit_lt (r : Reason) : r.bit < 16 := by cases r <;> decide

theorem Reason.bit_inj {r q : Reason} : r.bit = q.bit ↔ r = q := by
  constructor
  · cases r <;> cases q <;> decide
  · rintro rfl
    rfl

theorem Reason.mem_all (r : Reason) : r ∈ Reason.all := by cases r <;> decide

theorem hasReason_addReason {w : Half} {r q : Reason} : hasReason (addReason w r) q = true ↔ q = r ∨ hasReason w q = true := by
  have small := q.bit_lt
  have one : (1#16 <<< r.bit).getLsbD q.bit = true ↔ q = r := by
    rw [← Reason.bit_inj, BitVec.getLsbD_shiftLeft, BitVec.getLsbD_one]
    simp only [small, decide_true, Bool.true_and, Bool.and_eq_true, Bool.not_eq_true', decide_eq_false_iff_not,
      decide_eq_true_eq]
    omega
  rw [hasReason, addReason, BitVec.getLsbD_or, Bool.or_eq_true, one, hasReason, or_comm]

theorem hasReason_foldl_addReason {rs : List Reason} {w : Half} {r : Reason} :
    hasReason (rs.foldl addReason w) r = true ↔ r ∈ rs ∨ hasReason w r = true := by
  induction rs generalizing w with
  | nil => simp
  | cons q rs ih => rw [List.foldl_cons, ih, hasReason_addReason, List.mem_cons]; tauto

theorem hasReason_reasonSet {rs : List Reason} {r : Reason} : hasReason (reasonSet rs) r = true ↔ r ∈ rs := by
  have empty : hasReason 0 r = false := BitVec.getLsbD_zero
  rw [show reasonSet rs = rs.foldl addReason 0 from rfl, hasReason_foldl_addReason, empty]
  simp

/-! ### The fold -/

theorem Verdict.rank_le_worse (a b : Verdict) : a.rank ≤ (a.worse b).rank ∧ b.rank ≤ (a.worse b).rank := by
  unfold worse
  split <;> omega

theorem Verdict.rank_le_foldl_worse {vs : List Verdict} {a v : Verdict} (h : v = a ∨ v ∈ vs) :
    v.rank ≤ (vs.foldl worse a).rank := by
  induction vs generalizing a v with
  | nil => simp_all
  | cons b vs ih =>
    have up := rank_le_worse a b
    have fold := ih (a := a.worse b) (v := a.worse b) (.inl rfl)
    rcases h with rfl | h
    · exact up.1.trans fold
    · rcases List.mem_cons.mp h with rfl | h
      · exact up.2.trans fold
      · exact ih (.inr h)

theorem Verdict.foldl_worse_mem (vs : List Verdict) (a : Verdict) : vs.foldl worse a = a ∨ vs.foldl worse a ∈ vs := by
  induction vs generalizing a with
  | nil => simp
  | cons b vs ih =>
    have one : a.worse b = a ∨ a.worse b = b := by unfold worse; split <;> simp
    rw [List.foldl_cons, List.mem_cons]
    rcases ih (a.worse b) with same | mem
    · rw [same]
      exact one.imp id .inl
    · exact .inr (.inr mem)

/-- The classes of the reasons present (R74). -/
def reasonClasses (w : Half) : List Verdict := Reason.all.filterMap fun r => if hasReason w r then r.verdict? else none

theorem mem_reasonClasses {w : Half} {v : Verdict} : v ∈ reasonClasses w ↔ ∃ r, hasReason w r = true ∧ r.verdict? = some v := by
  unfold reasonClasses
  rw [List.mem_filterMap]
  exact exists_congr fun r => by by_cases has : hasReason w r = true <;> simp [has, r.mem_all]

theorem foldVerdict_eq (w : Half) : foldVerdict w = (reasonClasses w).foldl Verdict.worse .valid := rfl

/-- Every reason but REPEAT has a class, and none has the class VALID (4.10). -/
theorem Reason.verdict_cases (r : Reason) :
    (r = .repeated ∧ r.verdict? = none) ∨ ∃ v, r.verdict? = some v ∧ 0 < v.rank := by
  cases r <;> simp [verdict?, Verdict.rank]

theorem rank_le_foldVerdict {w : Half} {r : Reason} {v : Verdict} (has : hasReason w r = true) (hv : r.verdict? = some v) :
    v.rank ≤ (foldVerdict w).rank :=
  Verdict.rank_le_foldl_worse (.inr (mem_reasonClasses.mpr ⟨r, has, hv⟩))

theorem exists_reason_of_foldVerdict {w : Half} (h : foldVerdict w ≠ .valid) :
    ∃ r, hasReason w r = true ∧ r.verdict? = some (foldVerdict w) :=
  mem_reasonClasses.mp ((Verdict.foldl_worse_mem (reasonClasses w) .valid).resolve_left h)

theorem foldVerdict_eq_valid_iff {w : Half} : foldVerdict w = .valid ↔ ∀ r, hasReason w r = true → r = .repeated := by
  constructor
  · intro valid r has
    rcases r.verdict_cases with ⟨rep, -⟩ | ⟨v, hv, rank⟩
    · exact rep
    · have le := rank_le_foldVerdict has hv
      rw [valid] at le
      exact absurd (rank.trans_le le) (by decide)
  · intro all
    by_contra other
    obtain ⟨r, has, hv⟩ := exists_reason_of_foldVerdict other
    rw [all r has] at hv
    exact nomatch hv

theorem foldVerdict_addReason_repeated (w : Half) : foldVerdict (addReason w .repeated) = foldVerdict w := by
  have classes : reasonClasses (addReason w .repeated) = reasonClasses w := by
    refine List.filterMap_congr fun r _ => ?_
    by_cases rep : r = .repeated
    · simp [rep, Reason.verdict?]
    · have same : hasReason (addReason w .repeated) r = hasReason w r := by
        rw [Bool.eq_iff_iff, hasReason_addReason, or_iff_right rep]
      rw [same]
  rw [foldVerdict_eq, foldVerdict_eq, classes]

/-- Settles O19: the fold is the greatest of the classes of the reasons present. -/
theorem verdictFold : Obligations.VerdictFold :=
  ⟨fun _ _ _ => rank_le_foldVerdict, fun _ => exists_reason_of_foldVerdict, fun _ => foldVerdict_eq_valid_iff,
    foldVerdict_addReason_repeated, fun _ _ => hasReason_reasonSet, fun _ _ _ => hasReason_addReason⟩

end Sys2Proof.Machine

/-! The stages of an evaluation, one by one (4.5 to 4.9): which reasons each can give, and when. -/

namespace Sys2Proof.Machine

/-! ### Time (4.6) -/

/-- The reason of the one band of the remaining minutes, if it gives one (R65). -/
theorem mem_timeReasons {skew n : Nat} {p : Product} {c : Credential} {r : Reason} :
    r ∈ timeReasons skew p c n ↔
      (r = .notYetValid ∧ n + skew < c.activationCount) ∨ (r = .inGrace ∧ p.endCount c ≤ n ∧ n < p.endCount c + p.grace) ∨
        (r = .expired ∧ p.endCount c + p.grace ≤ n) := by
  have running : 1 ≤ remainingMinutes p c n ↔ n < p.endCount c := by unfold remainingMinutes; omega
  have inGrace : -(p.grace : Int) + 1 ≤ remainingMinutes p c n ↔ n < p.endCount c + p.grace := by
    unfold remainingMinutes; omega
  unfold timeReasons
  rw [List.mem_append]
  refine or_congr ?_ ?_
  · split <;> simp_all
  · simp only [running, inGrace]
    split
    next h => simp only [List.not_mem_nil, false_iff]; omega
    next h =>
      split
      next g =>
        rw [List.mem_singleton]
        exact ⟨fun same => .inl ⟨same, by omega, g⟩, fun either => either.elim And.left (fun late => by omega)⟩
      next g =>
        rw [List.mem_singleton]
        exact ⟨fun same => .inr ⟨same, by omega⟩, fun either => either.elim (fun grace => by omega) And.left⟩

/-- A product in its ranges runs for at least a minute from its activation (R43, R49). -/
theorem Product.activation_lt_endCount {p : Product} {c : Credential} (range : p.inRange = true)
    (minute : c.activationMinute ≤ 1439) : c.activationCount < p.endCount c := by
  unfold inRange at range
  simp only [Bool.and_eq_true] at range
  obtain ⟨⟨-, period⟩, -⟩ := range
  unfold endCount
  cases hp : p.period with
  | minutes =>
    have long : 1 ≤ p.baseMinutes ∧ p.baseMinutes ≤ p.maxMinutes := by simpa [hp] using period
    have validity : 1 ≤ p.validity c := by
      unfold validity
      split <;> omega
    simp only
    omega
  | days =>
    have long : 1 ≤ p.days ∧ p.days ≤ 400 := by simpa [hp] using period
    simp only [Credential.activationCount]
    omega

theorem timeReasons_notYetValid {skew n : Nat} {p : Product} {c : Credential} (early : n + skew < c.activationCount)
    (running : n < p.endCount c) : timeReasons skew p c n = [.notYetValid] := by
  have remaining : 1 ≤ remainingMinutes p c n := by unfold remainingMinutes; omega
  simp [timeReasons, early, remaining]

/-- Settles O20, band by band. -/
theorem timeStage : Obligations.TimeStage := by
  intro skew n p c
  refine ⟨rfl, fun days => by rw [Product.endCount, days], fun minutes kind => by
    rw [Product.endCount, minutes, Product.validity, kind], fun minutes kind => ?_, ?_, ?_, ?_, ?_, ?_, rfl⟩
  · have validity : p.validity c = min p.baseMinutes p.maxMinutes := by unfold Product.validity; split <;> simp_all
    rw [Product.endCount, minutes, validity]
  · rw [mem_timeReasons]
    simp
    omega
  · simp [mem_timeReasons]
  · simp [mem_timeReasons]
  · intro r mem
    exact (mem_timeReasons.mp mem).imp And.left fun either => either.imp And.left And.left
  · intro range minute mem
    have early : n + skew < c.activationCount := by simpa [mem_timeReasons] using mem
    have running : n < p.endCount c := by have := Product.activation_lt_endCount range minute; omega
    refine ⟨timeReasons_notYetValid early running, ?_⟩
    unfold remainingMinutes
    omega

/-! ### Deny, position, class and heads (4.5, 4.7, 4.8) -/

theorem mem_denyStage {t : Tables} {id : LongWord} {n : Nat} {r : Reason} (h : r ∈ (denyStage t id n).1) :
    r = .denied ∨ r = .denyNotChecked := by
  unfold denyStage at h
  split at h <;> [split at h; skip] <;> simp_all

theorem mem_positionReasons {run : Run} {r : Reason} (h : r ∈ positionReasons run) : r = .positionAssumed := by
  unfold positionReasons at h
  split at h <;> simp_all

theorem mem_placeReasons {t : Tables} {p : Product} {c : Credential} {stop : Nat} {r : Reason}
    (h : r ∈ placeReasons t p c stop) : r = .wrongNetwork ∨ r = .outOfZone := by
  unfold placeReasons at h
  split at h
  · split at h <;> [skip; split at h] <;> simp_all
  · split at h <;> simp_all
  · split at h <;> [skip; split at h] <;> simp_all

theorem mem_classReasons {run : Run} {coach : Nat} {p : Product} {r : Reason} (h : r ∈ classReasons run coach p) :
    r = .wrongClass := by
  unfold classReasons at h
  split at h <;> simp_all

theorem mem_headsReasons {heads : Nat} {c : Credential} {r : Reason} (h : r ∈ headsReasons heads c) : r = .headsExceed := by
  unfold headsReasons at h
  split at h <;> simp_all

theorem mem_historyReasons {run : Run} {roster : List Entry} {c : Credential} {coach n : Nat} {r : Reason}
    (h : r ∈ historyReasons run roster c coach n) : r = .repeated ∨ r = .seenElsewhere := by
  unfold historyReasons at h
  split at h
  · simp at h
  · split at h <;> simp_all

/-- The reasons an evaluation that passes stage 3 can give (R53). -/
theorem hasReason_judgeReasons {n : Nat} {c : InspectCopy} {s : State} {r : Reason}
    (h : hasReason (judgeReasons n c s) r = true) :
    r ≠ .checkFailed ∧ r ≠ .fieldRange ∧ r ≠ .unknownProduct ∧ r ≠ .rosterFull := by
  rw [judgeReasons, hasReason_reasonSet] at h
  simp only [List.mem_append] at h
  rcases h with (((((h | h) | h) | h) | h) | h) | h
  · rcases mem_denyStage h with rfl | rfl <;> simp
  · rcases mem_timeReasons.mp h with ⟨rfl, -⟩ | ⟨rfl, -⟩ | ⟨rfl, -⟩ <;> simp
  · simp [mem_positionReasons h]
  · rcases mem_placeReasons h with rfl | rfl <;> simp
  · simp [mem_classReasons h]
  · simp [mem_headsReasons h]
  · rcases mem_historyReasons h with rfl | rfl <;> simp

theorem denyStage_of_readable {t : Tables} (readable : t.readable .deny = true) (id : LongWord) (n : Nat) :
    denyStage t id n = (t.denyFor id (n / 1440)).elim ([], 0) fun d => ([.denied], d.reason) := by
  rw [denyStage, if_pos readable]
  cases t.denyFor id (n / 1440) <;> rfl

theorem denyStage_of_valid {t : Tables} (valid : t.deny.state = .valid) (notWiping : t.wiping = false) (id : LongWord)
    (n : Nat) :
    (∀ d, denyStage t id n = ([.denied], d) ↔ ∃ e, t.denyFor id (n / 1440) = some e ∧ e.reason = d) ∧
      (denyStage t id n = ([], 0) ↔ t.denyFor id (n / 1440) = none) := by
  rw [denyStage_of_readable (by simp [Tables.readable, Tables.descriptor, valid, notWiping])]
  cases t.denyFor id (n / 1440) <;> simp

theorem classReasons_eq {r : Run} {coach cls : Nat} (p : Product) (found : r.coachClasses[coach - 1]? = some cls) :
    classReasons r coach p = if cls = 1 ∧ p.accommodation = 2 then [.wrongClass] else [] := by
  simp [classReasons, List.getD_eq_getElem?_getD, found]

/-- Settles O24, stage by stage. -/
theorem denyClassAndHeadsStages : Obligations.DenyClassAndHeadsStages := by
  refine ⟨fun t id n => ⟨fun invalid => ?_, fun valid notWiping => ?_⟩, fun r => ⟨?_, ?_, ?_, ?_⟩, ?_, ?_⟩
  · have unreadable : ¬t.readable .deny = true := by simp [Tables.readable, Tables.descriptor, invalid]
    rw [denyStage, if_neg unreadable]
  · obtain ⟨denied, clear⟩ := denyStage_of_valid valid notWiping id n
    refine ⟨denied, clear.trans ?_⟩
    unfold Tables.denyFor
    rw [List.find?_eq_none]
    simp [and_assoc]
  · intro standing
    simp only [Run.judgingStop, Run.evaluationStop, standing]
    cases r.position <;> rfl
  · intro i running next
    simp [Run.judgingStop, positionReasons, Run.evaluationStop, running, next]
  · intro i standing position
    simp [positionReasons, Run.evaluationStop, standing, position]
  · intro unplaced
    simp [Run.judgingStop, positionReasons, Run.evaluationStop, unplaced]
  · intro r p coach cls _ found
    rw [classReasons_eq p found]
    exact ⟨fun both => if_pos both, fun neither => if_neg neither⟩
  · intro heads c
    exact ⟨fun more => if_pos more, fun fits => if_neg (Nat.not_lt.mpr fits)⟩

/-! ### Place (4.7) -/

/-- The interval of a ZONE_COUNT coverage holds the ordinals within zone count − 1 of the origin's (R48, R68). -/
theorem absDiff_lt_iff {o x z top : Nat} (z1 : 1 ≤ z) (small : x ≤ top) :
    ¬z < absDiff x o + 1 ↔ o - (z - 1) ≤ x ∧ x ≤ min top (o + (z - 1)) := by
  unfold absDiff
  omega

theorem ordinal_le {t : Tables} (small : ∀ o ∈ t.ordinals, o ≤ 63) (i : Nat) : t.ordinal i ≤ 63 := by
  rw [Tables.ordinal, List.getD_eq_getElem?_getD]
  cases found : t.ordinals[i]? with
  | none => simp
  | some o => exact small o (List.mem_of_getElem? found)

/-- A stop gives no place reason exactly when the coverage holds it (R48, R67, R68). -/
theorem placeReasons_eq_nil_iff {t : Tables} {p : Product} {c : Credential} {stop : Nat}
    (small : ∀ o ∈ t.ordinals, o ≤ 63) (ranges : c.kindRanges p = true) :
    placeReasons t p c stop = [] ↔ (coverageOf t p c).covers t stop = true := by
  unfold placeReasons coverageOf
  unfold Credential.kindRanges at ranges
  cases kind : p.kind with
  | zoneRange =>
    simp only [Coverage.covers]
    split
    · simp_all
    · split <;> simp_all
  | network =>
    simp only [Coverage.covers]
    split <;> simp_all
  | zoneCount =>
    simp only [kind, Bool.and_eq_true, decide_eq_true_eq] at ranges
    simp only
    cases t.stopWithCode c.originStop with
    | none => simp [Coverage.covers]; omega
    | some o =>
      have within := absDiff_lt_iff (o := t.ordinal o) ranges.1 (ordinal_le small stop)
      simp only [Coverage.covers, Bool.and_eq_true, decide_eq_true_eq, ← within]
      split <;> simp_all

/-- Settles O22: the tests and the coverage say the same of every product kind. -/
theorem placeAgreesWithCoverage : Obligations.PlaceAgreesWithCoverage := by
  intro t p c d stop small ranges
  have agree := placeReasons_eq_nil_iff (stop := stop) small ranges
  refine ⟨agree, fun reasons => ?_, fun kind other => ?_, fun kind same outside => ?_, fun kind far => ?_⟩
  · rw [zonesAhead, if_neg (mt agree.mpr reasons)]
  · unfold placeReasons
    cases hk : p.kind <;> simp_all
  · unfold placeReasons
    simp only [kind, same]
    simp
    omega
  · unfold placeReasons
    simp only [kind]
    cases found : t.stopWithCode c.originStop with
    | none => rfl
    | some o =>
      have distance := far o found
      have beyond : c.zoneCount < absDiff (t.ordinal stop) (t.ordinal o) + 1 := by
        unfold absDiff
        rcases abs_cases ((t.ordinal stop : Int) - t.ordinal o) with ⟨eq, -⟩ | ⟨eq, -⟩ <;> omega
      simp [beyond]

end Sys2Proof.Machine

/-! The invariant of the roster (O57): each change of an entry keeps it, and so does stage 12, between whose steps the entry
recorded may carry a proposal of the inspection before it. -/

namespace Sys2Proof.Machine

open Relation (ReflTransGen)

/-! ### Rosters entry by entry -/

/-- A roster in its capacity, indexed and keyed (R79), each of whose entries has a property of its place. -/
structure RosterWith (Q : Nat → Entry → Prop) (es : List Entry) : Prop where
  capacity : es.length ≤ 512
  indices : ∀ (i : Nat) (e : Entry), es[i]? = some e → e.index = i
  ids : (es.map Entry.credentialId).Nodup
  each : ∀ (i : Nat) (e : Entry), es[i]? = some e → Q i e

theorem rosterInvariant_iff {s : State} : RosterInvariant s ↔ RosterWith (fun _ => Entry.Sound) s.roster where
  mp h := ⟨h.capacity, h.indices, h.ids, fun _ e found => h.sound e (List.mem_of_getElem? found)⟩
  mpr h :=
    ⟨h.capacity, h.indices, h.ids, fun e on => by
      obtain ⟨i, found⟩ := List.mem_iff_getElem?.mp on
      exact h.each i e found⟩

theorem rosterWith_nil (Q : Nat → Entry → Prop) : RosterWith Q [] :=
  ⟨Nat.zero_le _, by simp, List.nodup_nil, by simp⟩

/-- A list of entries changed place by place, their indices and ids kept. -/
theorem RosterWith.mapIdx {Q Q' : Nat → Entry → Prop} {es es' : List Entry} (h : RosterWith Q es)
    (length : es'.length = es.length)
    (place : ∀ k e', es'[k]? = some e' →
      ∃ e, es[k]? = some e ∧ e'.index = e.index ∧ e'.credentialId = e.credentialId ∧ (Q k e → Q' k e')) :
    RosterWith Q' es' where
  capacity := length ▸ h.capacity
  indices k e' found := by
    obtain ⟨e, before, index, -⟩ := place k e' found
    exact index.trans (h.indices k e before)
  ids := by
    have ids : es'.map Entry.credentialId = es.map Entry.credentialId := by
      refine List.ext_getElem? fun k => ?_
      rw [List.getElem?_map, List.getElem?_map]
      cases found : es'[k]? with
      | none =>
        have beyond : es[k]? = none := by
          rw [List.getElem?_eq_none_iff, ← length]
          exact List.getElem?_eq_none_iff.mp found
        rw [beyond]
      | some e' =>
        obtain ⟨e, before, -, id, -⟩ := place k e' found
        rw [before, Option.map_some, Option.map_some, id]
    exact ids ▸ h.ids
  each k e' found := by
    obtain ⟨e, before, -, -, keep⟩ := place k e' found
    exact keep (h.each k e before)

/-- One entry changed in place. -/
theorem RosterWith.modify {Q Q' : Nat → Entry → Prop} {es : List Entry} (h : RosterWith Q es) (i : Nat) {f : Entry → Entry}
    (changed : ∀ e, es[i]? = some e → (f e).index = e.index ∧ (f e).credentialId = e.credentialId ∧ (Q i e → Q' i (f e)))
    (others : ∀ k e, k ≠ i → Q k e → Q' k e) : RosterWith Q' (es.modify i f) := by
  refine h.mapIdx (List.length_modify ..) fun k e' found => ?_
  rw [List.getElem?_modify] at found
  obtain ⟨e, before, rfl⟩ := Option.map_eq_some_iff.mp found
  refine ⟨e, before, ?_⟩
  by_cases own : i = k
  · subst own
    simpa using changed e before
  · simpa [own] using others k e (Ne.symm own)

theorem RosterWith.keep {es : List Entry} (h : RosterWith (fun _ => Entry.Sound) es) (i : Nat) {f : Entry → Entry}
    (kept : ∀ e, es[i]? = some e → e.KeptBy (f e)) : RosterWith (fun _ => Entry.Sound) (es.modify i f) :=
  h.modify i (fun e found => ⟨(kept e found).index, (kept e found).id, (kept e found).sound⟩) fun _ _ _ => id

/-- An entry appended under an id that no entry has (R81). -/
theorem RosterWith.append {Q Q' : Nat → Entry → Prop} {es : List Entry} (h : RosterWith Q es) {e : Entry}
    (room : es.length < 512) (index : e.index = es.length) (fresh : ∀ e' ∈ es, e'.credentialId ≠ e.credentialId)
    (own : Q' es.length e) (others : ∀ k e', k < es.length → Q k e' → Q' k e') : RosterWith Q' (es ++ [e]) where
  capacity := by simpa using room
  indices k e' found := by
    rcases Nat.lt_or_ge k es.length with before | after
    · rw [List.getElem?_append_left before] at found
      exact h.indices k e' found
    · rw [List.getElem?_append_right after, List.getElem?_singleton] at found
      split at found
      next last =>
        obtain rfl := Option.some_inj.mp found
        omega
      · simp at found
  ids := by
    rw [List.map_append]
    refine h.ids.append (List.nodup_singleton _) ?_
    simpa [List.disjoint_right] using fresh
  each k e' found := by
    rcases Nat.lt_or_ge k es.length with before | after
    · rw [List.getElem?_append_left before] at found
      exact others k e' before (h.each k e' found)
    · rw [List.getElem?_append_right after, List.getElem?_singleton] at found
      split at found
      next last =>
        obtain rfl := Option.some_inj.mp found
        rwa [show k = es.length by omega]
      · simp at found

/-! ### Stage 12 -/

/-- Between the steps of stage 12 the entry recorded has the verdict of the inspection, and is sound but for the proposal of
the inspection before it (R75). -/
def soundBut (i : Nat) (v : Verdict) (k : Nat) (e : Entry) : Prop :=
  if k = i then e.discardProposal.Sound ∧ e.lastVerdict = v else e.Sound

theorem soundBut_self {i : Nat} {v : Verdict} {e : Entry} : soundBut i v i e ↔ e.discardProposal.Sound ∧ e.lastVerdict = v := by
  simp [soundBut]

theorem soundBut_other {i k : Nat} {v : Verdict} {e : Entry} (other : k ≠ i) : soundBut i v k e ↔ e.Sound := by
  simp [soundBut, other]

theorem Entry.Sound.discardProposal {e : Entry} (h : e.Sound) : e.discardProposal.Sound := e.keptBy_discardProposal.sound h

/-- What R80 says of the fields that an evaluated inspection writes. -/
structure Judgement.Entered (j : Judgement) : Prop where
  verdict : j.verdict = foldVerdict j.reasons
  readable : ∀ r ∈ [Reason.checkFailed, .fieldRange, .unknownProduct, .rosterFull], hasReason j.reasons r = false

theorem judgeAt_entered (n : Nat) (c : InspectCopy) (s : State) : (judgeAt n c s).Entered where
  verdict := rfl
  readable r listed := by
    by_contra has
    obtain ⟨h1, h2, h3, h4⟩ := hasReason_judgeReasons (n := n) (c := c) (s := s) (Bool.eq_true_of_not_eq_false has)
    simp [h1, h2, h3, h4] at listed

theorem denyReasonOf_isSome (j : Judgement) : (denyReasonOf j).isSome = hasReason j.reasons .denied := by
  unfold denyReasonOf
  split <;> simp_all

theorem newEntry_sound {j : Judgement} (entered : j.Entered) (i : Nat) (c : InspectCopy) : (newEntry i j c).Sound where
  inspectionsLow := Nat.le_refl 1
  inspectionsHigh := by simp [newEntry]
  commits := Nat.zero_le _
  verdict := entered.verdict
  readable := entered.readable
  deny := denyReasonOf_isSome j
  watchOff _ := rfl
  watchLapse := rfl
  proposal := nofun

theorem reinspected_sound {j : Judgement} (entered : j.Entered) (c : InspectCopy) {e : Entry} (h : e.Sound) :
    (e.reinspected j c).discardProposal.Sound where
  inspectionsLow := by simp [Entry.reinspected, Entry.discardProposal]
  inspectionsHigh := Nat.min_le_left _ _
  commits := h.commits
  verdict := entered.verdict
  readable := entered.readable
  deny := denyReasonOf_isSome j
  watchOff := h.watchOff
  watchLapse := h.watchLapse
  proposal := nofun

/-- A newly armed watch has the shape of R98. -/
theorem armWatch_shape (s : State) (j : Judgement) (p : Product) :
    ((armWatch s j p).kind = .none → armWatch s j p = Watch.off) ∧
      (armWatch s j p).lapse.isSome = (armWatch s j p).kind.hasTime := by
  unfold armWatch
  split
  · exact ⟨fun _ => rfl, rfl⟩
  next part =>
    refine ⟨fun off => absurd off part, ?_⟩
    simp only
    split <;> simp_all

theorem armed_sound (s : State) (j : Judgement) (p : Product) {e : Entry} (h : e.Sound) :
    Entry.Sound { e with watch := armWatch s j p } :=
  { h with
    watchOff := (armWatch_shape s j p).1
    watchLapse := (armWatch_shape s j p).2
    proposal := h.proposal }

/-- What a move of a watch does to the roster (R103). -/
theorem moveWatch_roster (i : Nat) (stage : WatchStage) (s : State) :
    (moveWatch i stage s).roster = s.roster.modify i fun e => { e with watch := { e.watch with stage := stage } } := by
  unfold moveWatch
  split
  next missing =>
    rw [List.modify_eq_self (List.getElem?_eq_none_iff.mp missing)]
  · split <;> simp [noticeWatch]

/-- The time advance moves one entry's watch, of a kind with a part, or none (R104). -/
theorem timeAdvance_roster (n i : Nat) (s : State) :
    (timeAdvance n i s).roster = s.roster ∨
      ∃ e stage, s.roster[i]? = some e ∧ e.watch.kind ≠ .none ∧
        (timeAdvance n i s).roster = s.roster.modify i fun e => { e with watch := { e.watch with stage := stage } } := by
  unfold timeAdvance
  split
  next stage due =>
    unfold timeMoveAt at due
    split at due
    · obtain ⟨e, found, move⟩ := Option.bind_eq_some_iff.mp due
      exact .inr ⟨e, stage, found, Watch.kind_of_timeMove move, moveWatch_roster i stage s⟩
    · simp at due
  · exact .inl rfl

theorem lapseProposal_roster (n i : Nat) (s : State) :
    (lapseProposal n i s).roster = s.roster ∨ (lapseProposal n i s).roster = s.roster.modify i Entry.discardProposal := by
  unfold lapseProposal
  split
  · exact .inr (by simp [noticeProposalLapsed])
  · exact .inl rfl

/-- Step 2 of R75 keeps what holds between the steps. -/
theorem armEntry_soundBut {i : Nat} {j : Judgement} {s : State} (p : Product)
    (h : RosterWith (soundBut i j.verdict) s.roster) : RosterWith (soundBut i j.verdict) (armEntry i j p s).roster := by
  have armed : RosterWith (soundBut i j.verdict) (setEntry i (fun e => { e with watch := armWatch s j p }) s).roster :=
    h.modify i (fun e _ => ⟨rfl, rfl, fun before => by
      rw [soundBut_self] at before ⊢
      exact ⟨armed_sound s j p before.1, before.2⟩⟩) fun _ _ _ => id
  simp only [armEntry]
  split
  · rcases timeAdvance_roster (setEntry i (fun e => { e with watch := armWatch s j p }) s).clockCount i
      (setEntry i (fun e => { e with watch := armWatch s j p }) s) with same | ⟨e, stage, found, part, moved⟩
    · rwa [same]
    · rw [moved]
      refine armed.modify i (fun e' found' => ⟨rfl, rfl, fun before => ?_⟩) fun _ _ _ => id
      obtain rfl := Option.some_inj.mp (found.symm.trans found')
      rw [soundBut_self] at before ⊢
      exact ⟨(Entry.keptBy_stage (e := e.discardProposal) part stage).sound before.1, before.2⟩
  · exact armed

/-- A proposal is sixteen bytes (R115). -/
theorem composeProposal_length (r : Run) (j : Judgement) (c : InspectCopy) : (composeProposal r j c).bytes.length = 16 := by
  simp [composeProposal, withCheck, markBody]

theorem mayPropose_verdict {j : Judgement} {c : InspectCopy} (may : mayPropose j c = true) :
    j.verdict = .valid ∨ j.verdict = .noted := by
  simp only [mayPropose, Bool.and_eq_true, Bool.or_eq_true, beq_iff_eq] at may
  exact may.1.1

/-- Step 3 of R75 leaves a sound roster. -/
theorem proposeEntry_sound {i : Nat} {j : Judgement} {s : State} (c : InspectCopy)
    (h : RosterWith (soundBut i j.verdict) s.roster) : RosterWith (fun _ => Entry.Sound) (proposeEntry i j c s).roster := by
  unfold proposeEntry
  split
  next may =>
    have proposed : RosterWith (fun _ => Entry.Sound)
        (setEntry i (fun e => { e with mark := { e.mark with proposal := some (composeProposal s.run j c) } }) s).roster := by
      refine h.modify i (fun e _ => ⟨rfl, rfl, fun before => ?_⟩) fun _ _ other => (soundBut_other other).mp
      obtain ⟨sound, verdict⟩ := soundBut_self.mp before
      exact { sound with
        proposal := fun p hp => by
          obtain rfl := Option.some_inj.mp hp
          exact ⟨composeProposal_length s.run j c, by rw [verdict]; exact mayPropose_verdict may⟩
        watchOff := sound.watchOff
        watchLapse := sound.watchLapse }
    rcases lapseProposal_roster s.clockCount i
      (setEntry i (fun e => { e with mark := { e.mark with proposal := some (composeProposal s.run j c) } }) s) with same | gone
    · rwa [same]
    · rw [gone]
      exact proposed.keep i fun e _ => e.keptBy_discardProposal
  · exact h.modify i (fun e _ => ⟨rfl, rfl, fun before => (soundBut_self.mp before).1⟩) fun _ _ other =>
      (soundBut_other other).mp

theorem indexOf_none {es : List Entry} {id : LongWord} : indexOf es id = none ↔ ∀ e ∈ es, e.credentialId ≠ id := by
  simp [indexOf, List.findIdx?_eq_none_iff]

/-- Stage 12 keeps the roster sound (R75, R81 to R83). -/
theorem recordInspection_sound {j : Judgement} (entered : j.Entered) (c : InspectCopy) {s : State}
    (h : RosterWith (fun _ => Entry.Sound) s.roster) :
    RosterWith (fun _ => Entry.Sound) (recordInspection j c s).roster := by
  unfold recordInspection admission
  cases found : indexOf s.roster (Credential.ofRecord c.record).credentialId with
  | some i =>
    have updated : RosterWith (soundBut i j.verdict) (setEntry i (fun e => e.reinspected j c) s).roster :=
      h.modify i (fun e _ => ⟨rfl, rfl, fun before => soundBut_self.mpr ⟨reinspected_sound entered c before, rfl⟩⟩)
        fun _ _ other => (soundBut_other other).mpr
    exact proposeEntry_sound c (armEntry_soundBut c.product updated)
  | none =>
    by_cases room : s.roster.length < rosterCapacity
    · simp only [if_pos room, mirrorRun_roster]
      have created : RosterWith (soundBut s.roster.length j.verdict) (s.roster ++ [newEntry s.roster.length j c]) :=
        h.append room rfl (indexOf_none.mp found)
          (soundBut_self.mpr ⟨(newEntry_sound entered _ c).discardProposal, rfl⟩)
          fun k e before => (soundBut_other (Nat.ne_of_lt before)).mpr
      exact proposeEntry_sound c (armEntry_soundBut c.product created)
    · simpa only [if_neg room] using h

/-! ### The changes of a step -/

theorem OtherBlocks.rosterSound {s t : State} (other : OtherBlocks s t) (h : RosterWith (fun _ => Entry.Sound) s.roster) :
    RosterWith (fun _ => Entry.Sound) t.roster := other.roster ▸ h

theorem Inside.rosterSound {s t : State} (move : Inside s t) (h : RosterWith (fun _ => Entry.Sound) s.roster) :
    RosterWith (fun _ => Entry.Sound) t.roster := by
  cases move with
  | noting move => exact move.otherBlocks.rosterSound h
  | entry i f kept => exact h.keep i kept
  | record j c judged =>
    obtain ⟨n, u, rfl⟩ := judged
    exact recordInspection_sound (judgeAt_entered n c u) c h
  | resetPower => exact rosterWith_nil _
  | clock | drop | carry | resetPort => exact h

theorem Work.rosterSound {r : Request} {s t : State} (move : Work r s t) (h : RosterWith (fun _ => Entry.Sound) s.roster) :
    RosterWith (fun _ => Entry.Sound) t.roster := by
  cases move with
  | inside move => exact move.rosterSound h
  | hold g =>
    exact holdNow_keeps (P := fun s => RosterWith (fun _ => Entry.Sound) s.roster)
      (fun _ _ move => move.otherBlocks.rosterSound) (fun _ _ h => h) (h := g) h
  | wiped | opened => exact rosterWith_nil _
  | closed =>
    refine h.mapIdx (List.length_map ..) fun k e' found => ?_
    rw [discardProposals, List.getElem?_map] at found
    obtain ⟨e, before, rfl⟩ := Option.map_eq_some_iff.mp found
    exact ⟨e, before, rfl, rfl, Entry.Sound.discardProposal⟩
  | finish | copy | complete | moved | loadBegun | raised | wipeBegun => exact h

/-- Settles O57: the entries change in place, by stage 12 and one at a time, and each such change keeps them sound. -/
theorem stepKeepsTheRoster : Obligations.StepKeepsTheRoster := fun _ _ hs h =>
  rosterInvariant_iff.mpr <| step_keeps (P := fun s => RosterWith (fun _ => Entry.Sound) s.roster)
    (fun _ _ move => move.otherBlocks.rosterSound) (fun _ _ _ => Work.rosterSound)
    (fun _ _ move => move.otherBlocks.rosterSound) h (rosterInvariant_iff.mp hs)

end Sys2Proof.Machine

/-! The invariant of the run (O59) and the identity, settings and tables of an open run (O60). -/

namespace Sys2Proof.Machine

open Relation (ReflTransGen)

/-! ### The stops and tariff tables under an open run -/

/-- A VALID table that a change of the store leaves as it was, but for its protection level. -/
structure Tables.Keeps (t t' : Tables) (k : TableKind) : Prop where
  state : (t'.descriptor k).state = (t.descriptor k).state
  edition : (t'.descriptor k).edition = (t.descriptor k).edition
  image : t.SameImage t' k

/-- The stops and tariff tables stay where they are VALID (R13, R42). -/
def Tables.KeepsValid (t t' : Tables) : Prop := ∀ k, k ≠ .deny → (t.descriptor k).state = .valid → t.Keeps t' k

theorem Tables.keeps_of_eq {t t' : Tables} {k : TableKind} (descriptor : t'.descriptor k = t.descriptor k)
    (image : t.SameImage t' k) : t.Keeps t' k := ⟨by rw [descriptor], by rw [descriptor], image⟩

theorem Tables.keepsValid_refl (t : Tables) : t.KeepsValid t := fun _ _ _ => keeps_of_eq rfl ⟨rfl, fun _ _ => rfl⟩

/-- A table that is VALID is not the one being loaded (R130). -/
theorem Tables.Sound.ne_loading {t : Tables} (h : t.Sound) {job : LoadJob} (loading : t.load = some job) {k : TableKind}
    (valid : (t.descriptor k).state = .valid) : k ≠ job.kind := by
  rintro rfl
  exact nomatch valid.symm.trans (h.loadingState loading)

theorem Tables.Sound.abortLoad_keeps {t : Tables} (h : t.Sound) : t.KeepsValid t.abortLoad := by
  intro k _ valid
  have descriptor : t.abortLoad.descriptor k = t.descriptor k := by
    rw [abortLoad_descriptor]
    split
    · rfl
    next job loading => exact if_neg (h.ne_loading loading valid)
  exact keeps_of_eq descriptor (sameImage_of_eq t.abortLoad_memory (by rw [descriptor]))

theorem Tables.Sound.copyIn_keeps {t : Tables} (h : t.Sound) {job : LoadJob} {bytes : List Byte}
    (loading : t.load = some job) (within : bytes.length ≤ t.toCopy job) : t.KeepsValid (t.copyIn job bytes) :=
  fun k _ valid => keeps_of_eq (copyIn_descriptor t job bytes k)
    (h.sameImage_copyIn loading within (h.ne_loading loading valid))

theorem Tables.Sound.completed_keeps {t : Tables} (h : t.Sound) {job : LoadJob} (loading : t.load = some job) :
    t.KeepsValid (t.completed job.kind) :=
  fun k _ valid => keeps_of_eq (by rw [completed_descriptor, if_neg (h.ne_loading loading valid)])
    (sameImage_completed t _ k)

theorem Tables.beginLoad_keeps (t : Tables) (a : LoadTableArgs) : t.KeepsValid (t.beginLoad .deny a) := by
  intro k notDeny _
  have descriptor : (t.beginLoad .deny a).descriptor k = t.descriptor k := by rw [beginLoad_descriptor, if_neg notDeny]
  exact keeps_of_eq descriptor (sameImage_of_eq (by simp [Tables.beginLoad]) (by rw [descriptor]))

theorem Tables.raised_keeps (t : Tables) (k : TableKind) (level : Nat) :
    t.KeepsValid (t.setDescriptor k ((t.descriptor k).raised level)) := by
  intro k' _ _
  by_cases own : k' = k
  · subst own
    have raised := descriptor_setDescriptor t k' k' ((t.descriptor k').raised level)
    rw [if_pos rfl] at raised
    exact ⟨by rw [raised]; rfl, by rw [raised]; rfl, sameImage_of_eq (by simp) (by rw [raised]; rfl)⟩
  · have other := descriptor_setDescriptor t k k' ((t.descriptor k).raised level)
    rw [if_neg own] at other
    exact keeps_of_eq other (sameImage_of_eq (by simp) (by rw [other]))

theorem Tables.wiping_keeps (t : Tables) (b : Bool) : t.KeepsValid { t with wiping := b } := by
  intro k _ _
  have same : ({ t with wiping := b } : Tables).descriptor k = t.descriptor k := by cases k <;> rfl
  exact keeps_of_eq same (sameImage_of_eq rfl (by rw [same]))

theorem OtherBlocks.keepsValid {s t : State} (other : OtherBlocks s t) (h : s.tables.Sound) :
    s.tables.KeepsValid t.tables := by
  rcases other.tables with same | aborted
  · exact same ▸ s.tables.keepsValid_refl
  · exact aborted ▸ h.abortLoad_keeps

theorem Tables.abortLoad_wiping (t : Tables) : t.abortLoad.wiping = t.wiping := by
  unfold abortLoad
  split <;> simp

theorem OtherBlocks.wiping {s t : State} (other : OtherBlocks s t) : t.tables.wiping = s.tables.wiping := by
  rcases other.tables with same | aborted
  · rw [same]
  · rw [aborted, Tables.abortLoad_wiping]

/-! ### Changes that leave the run record -/

/-- A change that leaves the run record, the clock set, and the tables of an open run. -/
structure RunAndTablesKept (s t : State) : Prop where
  run : t.run = s.run
  clock : s.clock.isSet = true → t.clock.isSet = true
  tables : s.runOpen = true → s.tables.KeepsValid t.tables
  wiping : t.tables.wiping = true → s.tables.wiping = true ∨ s.runOpen = false

/-- A change that leaves also what depends on an open run: the held inspections and the proposals. -/
structure RunKept (s t : State) : Prop extends RunAndTablesKept s t where
  holds : ∀ h ∈ t.port.holds, h.isInspect = true → (∃ g ∈ s.port.holds, g.isInspect = true) ∨ s.runOpen = true
  proposals :
    s.runOpen = false → (∀ e ∈ s.roster, e.mark.proposal = none) → ∀ e ∈ t.roster, e.mark.proposal = none

theorem RunKept.runOpen {s t : State} (kept : RunKept s t) : t.runOpen = s.runOpen := congrArg (fun r => r.state.isOpen) kept.run

theorem RunInvariant.transfer {s t : State} (h : RunInvariant s) (kept : RunKept s t) : RunInvariant t where
  clockSet opened := kept.clock (h.clockSet (kept.runOpen ▸ opened))
  stopsValid opened := by
    rw [kept.runOpen] at opened
    exact (kept.tables opened .stops (by decide) (h.stopsValid opened)).state.trans (h.stopsValid opened)
  tariffValid opened := by
    rw [kept.runOpen] at opened
    exact (kept.tables opened .tariff (by decide) (h.tariffValid opened)).state.trans (h.tariffValid opened)
  record opened := by
    rw [kept.runOpen] at opened
    have count : t.tables.stopCount = s.tables.stopCount :=
      (kept.tables opened .stops (by decide) (h.stopsValid opened)).image.count
    rw [kept.run, count]
    exact h.record opened
  holds g on inspecting := by
    rw [kept.runOpen]
    exact (kept.holds g on inspecting).elim (fun ⟨g', before, inspect⟩ => h.holds g' before inspect) id
  proposals shut := by
    rw [kept.runOpen] at shut
    exact kept.proposals shut (h.proposals shut)
  wiping wiping := by
    rw [kept.runOpen]
    exact (kept.wiping wiping).elim h.wiping id

theorem runKept_of_otherBlocks {s t : State} (other : OtherBlocks s t) (sound : s.tables.Sound)
    (holds : ∀ h ∈ t.port.holds, h ∈ s.port.holds) : RunKept s t where
  run := other.run
  clock := other.clock ▸ id
  tables _ := other.keepsValid sound
  wiping wiping := .inl (other.wiping ▸ wiping)
  holds g on inspecting := .inl ⟨g, holds g on, inspecting⟩
  proposals _ none := other.roster ▸ none

theorem NoticeMove.runKept {s t : State} (move : NoticeMove s t) (sound : s.tables.Sound) : RunKept s t :=
  runKept_of_otherBlocks move.otherBlocks sound fun _ on => move.frame.1 ▸ on

theorem TakeMove.runKept {s t : State} (move : TakeMove s t) (sound : s.tables.Sound) : RunKept s t := by
  cases move with
  | bus move => exact (NoticeMove.bus move).runKept sound
  | examined | cleared | taken => exact runKept_of_otherBlocks (otherBlocks_of_eq rfl) sound fun _ => id

/-- None of the part's own changes puts a request on the hold list. -/
theorem PortMove.holds {s t : State} (move : PortMove s t) : ∀ h ∈ t.port.holds, h ∈ s.port.holds := by
  cases move with
  | bus move => exact fun _ on => (NoticeMove.bus move).frame.1 ▸ on
  | sweepEnded => unfold endSweep startSweep; split <;> [split; skip] <;> exact fun _ => id
  | sweepAsked => unfold writeSweep startSweep; split <;> [split; skip; skip; skip] <;> exact fun _ => id
  | dozeAsked => unfold controlDoze; split <;> [split; skip] <;> exact fun _ => id
  | status => unfold writeStatus; split <;> exact fun _ => id
  | area => unfold writeAreaBase; split <;> exact fun _ => id
  | dozeEntered => unfold enterDoze; split <;> exact fun _ => id
  | reset => exact nofun
  | examined | stored | enabled | disabled | release => exact fun _ => id

theorem PortMove.runKept {s t : State} (move : PortMove s t) (sound : s.tables.Sound) : RunKept s t :=
  runKept_of_otherBlocks move.otherBlocks sound move.holds

/-! ### Changes inside an inspection -/

theorem Tables.abortLoad_abortLoad (t : Tables) : t.abortLoad.abortLoad = t.abortLoad := by
  have load : t.abortLoad.load = none := by simp
  rw [abortLoad, load]

/-- The recording of an inspection can only abort a load, by a failing access (R135). -/
theorem recordInspection_tables (j : Judgement) (c : InspectCopy) (s : State) :
    (recordInspection j c s).tables = s.tables ∨ (recordInspection j c s).tables = s.tables.abortLoad := by
  refine recordInspection_keeps (P := fun t => t.tables = s.tables ∨ t.tables = s.tables.abortLoad)
    (fun t u move before => ?_) (fun _ _ => id) j c (.inl rfl)
  rcases move.otherBlocks.tables with same | aborted
  · exact same ▸ before
  · rcases before with same | aborted' <;> rw [aborted]
    · exact .inr (by rw [same])
    · exact .inr (by rw [aborted', Tables.abortLoad_abortLoad])

theorem recordInspection_runAndTables (j : Judgement) (c : InspectCopy) {s : State} (sound : s.tables.Sound) :
    RunAndTablesKept s (recordInspection j c s) where
  run := by simp
  clock isSet := by simpa using isSet
  tables _ := by
    rcases recordInspection_tables j c s with same | aborted
    · exact same ▸ s.tables.keepsValid_refl
    · exact aborted ▸ sound.abortLoad_keeps
  wiping wiping := by
    left
    rcases recordInspection_tables j c s with same | aborted
    · exact same ▸ wiping
    · rwa [aborted, Tables.abortLoad_wiping] at wiping

theorem recordInspection_runKept (j : Judgement) (c : InspectCopy) {s : State} (sound : s.tables.Sound)
    (opened : s.runOpen = true) : RunKept s (recordInspection j c s) where
  toRunAndTablesKept := recordInspection_runAndTables j c sound
  holds g on inspecting := .inl ⟨g, by simpa using on, inspecting⟩
  proposals shut := nomatch opened.symm.trans shut

/-- An entry changed in place makes no proposal (R114). -/
theorem setEntry_proposals {s : State} {i : Nat} {f : Entry → Entry} (kept : ∀ e, s.roster[i]? = some e → e.KeptBy (f e))
    (before : ∀ e ∈ s.roster, e.mark.proposal = none) : ∀ e ∈ (setEntry i f s).roster, e.mark.proposal = none := by
  intro e' on
  obtain ⟨k, found⟩ := List.mem_iff_getElem?.mp on
  rw [setEntry_roster, List.getElem?_modify] at found
  obtain ⟨e, old, rfl⟩ := Option.map_eq_some_iff.mp found
  have none := before e (List.mem_of_getElem? old)
  split
  next own =>
    subst own
    exact (kept e old).proposal none
  · exact none

theorem RunInvariant.resetPower (s : State) : RunInvariant (resetPower s) where
  clockSet := nofun
  stopsValid := nofun
  tariffValid := nofun
  record := nofun
  holds := nofun
  proposals _ := nofun
  wiping := nofun

theorem Inside.runInvariant {s t : State} (move : Inside s t) (sound : s.tables.Sound) (h : RunInvariant s) :
    RunInvariant t := by
  cases move with
  | noting move => exact h.transfer (move.runKept sound)
  | clock c _ set =>
    exact h.transfer ⟨⟨rfl, set, fun _ => s.tables.keepsValid_refl, .inl⟩, fun g on inspecting => .inl ⟨g, on, inspecting⟩,
      fun _ => id⟩
  | entry i f kept =>
    exact h.transfer ⟨⟨rfl, id, fun _ => s.tables.keepsValid_refl, .inl⟩, fun g on inspecting => .inl ⟨g, on, inspecting⟩,
      fun _ => setEntry_proposals kept⟩
  | record j c _ inspecting =>
    exact h.transfer (recordInspection_runKept j c sound (inspecting.elim (fun ⟨g, on, inspect⟩ => h.holds g on inspect) id))
  | drop slot held =>
    exact h.transfer (runKept_of_otherBlocks (otherBlocks_of_eq rfl) sound fun g on => (List.mem_filter.mp on).1)
  | carry slot awaits =>
    refine h.transfer ⟨⟨rfl, id, fun _ => s.tables.keepsValid_refl, .inl⟩, fun g on inspecting => .inl ?_, fun _ => id⟩
    obtain ⟨g', before, rfl⟩ := List.mem_map.mp on
    refine ⟨g', before, ?_⟩
    split at inspecting <;> exact inspecting
  | resetPort => exact h.transfer ((PortMove.reset s).runKept sound)
  | resetPower => exact RunInvariant.resetPower s

/-! ### The work of a request -/

/-- The checks of R17 that an accepted OPEN_RUN has passed. -/
structure OpenAccepted (a : OpenRunArgs) (s : State) : Prop where
  shut : s.runOpen = false
  stops : s.tables.stops.state = .valid
  tariff : s.tables.tariff.state = .valid
  unwiped : s.tables.wiping = false
  clockSet : s.clock.isSet = true
  acceptable : openAcceptable a s.tables.stopCount = true

theorem openAccepted_of {a : OpenRunArgs} {s : State} (accepted : openRefusal a s = none) : OpenAccepted a s := by
  unfold openRefusal at accepted
  split at accepted <;> [simp at accepted; skip]
  next shut =>
    split at accepted <;> [simp at accepted; skip]
    next readable =>
      split at accepted <;> [simp at accepted; skip]
      next isSet =>
        split at accepted <;> [simp at accepted; skip]
        next acceptable =>
          obtain ⟨stops, tariff, unwiped⟩ := (runTables_readable_iff s.tables).mp (by simpa using readable)
          exact ⟨by simpa using shut, stops, tariff, unwiped, by simpa using isSet, by simpa using acceptable⟩

/-- The run record of an accepted OPEN_RUN is in range (R16 to R19). -/
theorem openRecord_inRange {a : OpenRunArgs} {n : Nat} (acceptable : openAcceptable a n = true) :
    (openRecord a).InRange n := by
  simp only [openAcceptable, Bool.and_eq_true, bne_iff_ne, decide_eq_true_eq, and_assoc] at acceptable
  obtain ⟨runId, terminal, -, startStop, low, high, classes⟩ := acceptable
  have holdLimit : 1 ≤ adoptedHoldLimit a.holdLimit.toNat ∧ adoptedHoldLimit a.holdLimit.toNat ≤ 30 := by
    unfold adoptedHoldLimit
    split <;> omega
  refine ⟨runId, terminal, low, high, ⟨?_, ?_⟩, Nat.min_le_left _ _, Nat.min_le_left _ _, Nat.min_le_left _ _, holdLimit.1,
    holdLimit.2, ⟨_, rfl, startStop⟩, nofun, ?_⟩
  · simp [openRecord, openClasses, padTo]
    omega
  · simpa [openRecord] using classes
  · simp [openRecord]

/-- What holds within a step while a request may be in hand. -/
structure State.Within (s : State) : Prop where
  port : s.PortSound
  hand : s.HandFree
  tables : s.tables.Sound
  run : RunInvariant s

/-- At the close no INSPECT is left on the hold list: each was released, and with a request in hand there is no FAULT (R28). -/
theorem State.Within.released {s : State} (h : s.Within) {slot : Slot} (inHand : s.port.inHand = some slot)
    (released : ∀ g ∈ s.port.holds, g.isInspect = true → s.ReleasedAt g.slot) : ∀ g ∈ s.port.holds, g.isInspect = false := by
  intro g on
  by_contra inspecting
  rcases released g on (by simpa using inspecting) with fault | gone | ⟨g', on', slot', other⟩
  · exact nomatch fault.symm.trans (h.hand slot inHand).1
  · simp [State.isHeld_of_mem on] at gone
  · obtain rfl := List.inj_on_of_nodup_map h.port.holdSlots on' on slot'
    exact inspecting other

theorem holdNow_runInvariant {g : Hold} {s : State} (sound : s.tables.Sound) (h : RunInvariant s)
    (inspecting : g.isInspect = true → s.runOpen = true) : RunInvariant (holdNow g s) := by
  refine (holdNow_keeps (P := fun s => s.tables.Sound ∧ RunInvariant s) (fun _ _ move h => ?_) (fun s slot h => ⟨h.1, ?_⟩)
    (h := g) (s := s) ⟨sound, ?_⟩).2
  · exact ⟨move.otherBlocks.tablesSound h.1, h.2.transfer ((NoticeMove.bus move).runKept h.1)⟩
  · exact h.2.transfer (runKept_of_otherBlocks (otherBlocks_of_eq rfl) h.1 fun _ => id)
  · refine h.transfer ⟨⟨rfl, id, fun _ => s.tables.keepsValid_refl, .inl⟩, fun g' on inspect => ?_, fun _ => id⟩
    rcases List.mem_append.mp on with before | new
    · exact .inl ⟨g', before, inspect⟩
    · obtain rfl := List.mem_singleton.mp new
      exact .inr (inspecting inspect)

/-- A change of the table store alone. -/
theorem RunInvariant.withTables {s : State} {tables : Tables} (h : RunInvariant s)
    (keeps : s.runOpen = true → s.tables.KeepsValid tables)
    (wiping : tables.wiping = true → s.tables.wiping = true ∨ s.runOpen = false) :
    RunInvariant { s with tables := tables } :=
  h.transfer ⟨⟨rfl, id, keeps, wiping⟩, fun g on inspecting => .inl ⟨g, on, inspecting⟩, fun _ => id⟩

theorem Work.runInvariant {r : Request} {s t : State} (move : Work r s t) (h : s.Within) : RunInvariant t := by
  have run := h.run
  cases move with
  | inside move => exact move.runInvariant h.tables run
  | finish slot => exact run.transfer (runKept_of_otherBlocks (otherBlocks_of_eq rfl) h.tables fun _ => id)
  | hold g _ inspecting => exact holdNow_runInvariant h.tables run inspecting
  | copy job bytes loading within =>
    exact run.withTables (fun _ => h.tables.copyIn_keeps loading within) .inl
  | complete job loading =>
    exact run.withTables (fun _ => h.tables.completed_keeps loading) fun wiping => .inl (by simpa [Tables.completed] using wiping)
  | loadBegun slot k a _ accepted =>
    refine run.withTables (fun opened => ?_) fun wiping => .inl (by simpa [Tables.beginLoad] using wiping)
    obtain rfl : k = .deny := (loadAccepted_of accepted).unused.resolve_right (by simp [opened])
    exact s.tables.beginLoad_keeps a
  | raised k level => exact run.withTables (fun _ => s.tables.raised_keeps k level) fun wiping => .inl (by simpa using wiping)
  | wipeBegun _ _ shut => exact run.withTables (fun _ => s.tables.wiping_keeps true) fun _ => .inr shut
  | wiped wiping =>
    refine ⟨nofun, nofun, nofun, nofun, fun g on inspecting => ?_, fun _ => nofun, nofun⟩
    exact nomatch (run.holds g on inspecting).symm.trans (run.wiping wiping)
  | opened a slot _ _ accepted =>
    have passed := openAccepted_of accepted
    exact ⟨fun _ => passed.clockSet, fun _ => passed.stops, fun _ => passed.tariff,
      fun _ => openRecord_inRange passed.acceptable, fun _ _ _ => rfl, nofun,
      fun wiping => nomatch passed.unwiped.symm.trans wiping⟩
  | moved state position next before after range =>
    refine ⟨fun _ => run.clockSet before, fun _ => run.stopsValid before, fun _ => run.tariffValid before,
      fun _ => range (run.record before), fun _ _ _ => after, fun shut => (nomatch shut.symm.trans after), fun wiping => ?_⟩
    exact nomatch before.symm.trans (run.wiping wiping)
  | closed slot _ inHand released =>
    have none := h.released inHand released
    refine ⟨nofun, nofun, nofun, nofun, fun g on inspecting => (nomatch (none g on).symm.trans inspecting), ?_, fun _ => rfl⟩
    intro _ e on
    obtain ⟨e', -, rfl⟩ := List.mem_map.mp on
    rfl

/-! ### The step -/

theorem Work.within {r : Request} {s t : State} (move : Work r s t) (h : s.Within) : t.Within where
  port := move.portSound ⟨h.port, h.hand⟩
  hand := move.handFree h.hand
  tables := move.tablesSound h.tables
  run := move.runInvariant h

theorem TakeMove.within {s t : State} (move : TakeMove s t) (h : s.Within) : t.Within where
  port := move.portSound h.port
  hand := move.handFree h.hand
  tables := move.otherBlocks.tablesSound h.tables
  run := h.run.transfer (move.runKept h.tables)

theorem Change.within {r : Request} {s t : State} (move : Change r s t) (h : s.Within ∧ s.port.inHand = none) :
    t.Within ∧ t.port.inHand = none := by
  cases move with
  | work move => exact ⟨move.within h.1, move.keepsHand.handFree h.2⟩
  | port move =>
    have free := move.inHand_none h.2
    exact ⟨⟨move.portSound h.1.port, State.handFree_of_none free, move.otherBlocks.tablesSound h.1.tables,
      h.1.run.transfer (move.runKept h.1.tables)⟩, free⟩

/-- Settles O59: within the step the port, the tables and the run keep what they keep together. -/
theorem stepKeepsTheRun : Obligations.StepKeepsTheRun := by
  intro s t run port tables h
  obtain ⟨r, u, v, take, works, ended, after⟩ := step_stepped h
  obtain ⟨portSound, free⟩ := portInvariant_iff.mp port
  have start : s.Within := ⟨portSound, State.handFree_of_none free, tableInvariant_iff.mp tables, run⟩
  have worked : v.Within := star_keeps (fun _ _ move => move.within) works (star_keeps (fun _ _ move => move.within) take start)
  exact (star_keeps (P := fun s => s.Within ∧ s.port.inHand = none) (fun _ _ move => move.within) after
    ⟨worked, ended free⟩).1.run

/-! ### An open run (O60) -/

/-- What stays of an open run: its identity and settings, the edition and the entries of its stops table, and the entries of
its tariff table (R13, R16, R42). -/
structure State.SameRun (s t : State) : Prop where
  record : ∃ state position next, t.run = { s.run with state := state, position := position, nextStop := next }
  edition : t.tables.stops.edition = s.tables.stops.edition
  stops : t.tables.entries .stops = s.tables.entries .stops
  tariff : t.tables.entries .tariff = s.tables.entries .tariff

/-- What holds within a step that began on the state `s` with a run open, whatever becomes of that run. -/
structure OpenWithin (s t : State) : Prop where
  tables : t.tables.Sound
  valid : t.runOpen = true → t.tables.stops.state = .valid ∧ t.tables.tariff.state = .valid
  clockSet : t.runOpen = true → t.clock.isSet = true
  wiping : t.tables.wiping = true → t.runOpen = false
  same : t.runOpen = true → s.SameRun t

/-- A change that may move or close an open run, and opens none. -/
structure RunMoved (s t : State) : Prop where
  opened : t.runOpen = true → s.runOpen = true
  record : t.runOpen = true →
    ∃ state position next, t.run = { s.run with state := state, position := position, nextStop := next }
  clock : t.runOpen = true → s.clock.isSet = true → t.clock.isSet = true
  tables : t.runOpen = true → s.tables.KeepsValid t.tables
  wiping : t.runOpen = true → t.tables.wiping = true → s.tables.wiping = true

theorem RunAndTablesKept.moved {s t : State} (kept : RunAndTablesKept s t) : RunMoved s t := by
  have opened : t.runOpen = s.runOpen := congrArg (fun r => r.state.isOpen) kept.run
  exact ⟨fun h => opened ▸ h, fun _ => ⟨_, _, _, kept.run⟩, fun _ => kept.clock, fun h => kept.tables (opened ▸ h),
    fun h wiping => (kept.wiping wiping).resolve_right fun shut => nomatch (opened ▸ h).symm.trans shut⟩

/-- A change after which no run is open. -/
theorem runMoved_of_shut {s t : State} (shut : t.runOpen = false) : RunMoved s t := by
  have never {p : Prop} (opened : t.runOpen = true) : p := nomatch opened.symm.trans shut
  exact ⟨never, never, never, never, never⟩

theorem OpenWithin.transfer {s t u : State} (h : OpenWithin s t) (moved : RunMoved t u) (sound : u.tables.Sound) :
    OpenWithin s u where
  tables := sound
  valid opened := by
    have before := moved.opened opened
    obtain ⟨stops, tariff⟩ := h.valid before
    exact ⟨(moved.tables opened .stops (by decide) stops).state.trans stops,
      (moved.tables opened .tariff (by decide) tariff).state.trans tariff⟩
  clockSet opened := moved.clock opened (h.clockSet (moved.opened opened))
  wiping wiping := by
    by_contra opened
    have opened' : u.runOpen = true := by simpa using opened
    exact nomatch (moved.opened opened').symm.trans (h.wiping (moved.wiping opened' wiping))
  same opened := by
    have before := moved.opened opened
    obtain ⟨stops, tariff⟩ := h.valid before
    obtain ⟨⟨state, position, next, record⟩, edition, stopEntries, tariffEntries⟩ := h.same before
    obtain ⟨state', position', next', record'⟩ := moved.record opened
    have keptStops := moved.tables opened .stops (by decide) stops
    have keptTariff := moved.tables opened .tariff (by decide) tariff
    exact ⟨⟨state', position', next', by rw [record', record]⟩, keptStops.edition.trans edition,
      keptStops.image.entries.trans stopEntries, keptTariff.image.entries.trans tariffEntries⟩

theorem Inside.runMoved {s t : State} (move : Inside s t) (sound : s.tables.Sound) : RunMoved s t := by
  cases move with
  | noting move => exact (move.runKept sound).moved
  | record j c => exact (recordInspection_runAndTables j c sound).moved
  | resetPort => exact ((PortMove.reset s).runKept sound).moved
  | resetPower => exact runMoved_of_shut rfl
  | clock c _ set => exact RunAndTablesKept.moved ⟨rfl, set, fun _ => s.tables.keepsValid_refl, .inl⟩
  | entry | drop | carry => exact RunAndTablesKept.moved ⟨rfl, id, fun _ => s.tables.keepsValid_refl, .inl⟩

/-- A change of the port's hold list and request in hand alone. -/
theorem runMoved_of_port (s : State) (port : Port) : RunMoved s { s with port := port } :=
  RunAndTablesKept.moved ⟨rfl, id, fun _ => s.tables.keepsValid_refl, .inl⟩

theorem holdNow_openWithin {g : Hold} {s t : State} (h : OpenWithin s t) : OpenWithin s (holdNow g t) := by
  refine holdNow_keeps (P := OpenWithin s) (fun _ _ move h => ?_) (fun u slot h => ?_)
    (h.transfer (runMoved_of_port t _) h.tables)
  · exact h.transfer ((NoticeMove.bus move).runKept h.tables).moved (move.otherBlocks.tablesSound h.tables)
  · exact h.transfer (runMoved_of_port u _) h.tables

/-- The work of a request, while no OPEN_RUN can be accepted. -/
theorem Work.openWithin {r : Request} {s t u : State} (move : Work r t u) (h : OpenWithin s t)
    (notOpened : ∀ a slot, r = .openRun a → t.port.inHand = some slot → t.runOpen = true) : OpenWithin s u := by
  have moved (m : RunMoved t u) : OpenWithin s u := h.transfer m (move.tablesSound h.tables)
  cases move with
  | inside move => exact moved (move.runMoved h.tables)
  | hold g => exact holdNow_openWithin h
  | copy job bytes loading within =>
    exact moved (RunAndTablesKept.moved ⟨rfl, id, fun _ => h.tables.copyIn_keeps loading within, .inl⟩)
  | complete job loading =>
    exact moved (RunAndTablesKept.moved ⟨rfl, id, fun _ => h.tables.completed_keeps loading,
      fun wiping => .inl (by simpa [Tables.completed] using wiping)⟩)
  | loadBegun slot k a _ accepted =>
    refine moved (RunAndTablesKept.moved ⟨rfl, id, fun opened => ?_,
      fun wiping => .inl (by simpa [Tables.beginLoad] using wiping)⟩)
    obtain rfl : k = .deny := (loadAccepted_of accepted).unused.resolve_right (by simp [opened])
    exact t.tables.beginLoad_keeps a
  | raised k level =>
    exact moved (RunAndTablesKept.moved ⟨rfl, id, fun _ => t.tables.raised_keeps k level,
      fun wiping => .inl (by simpa using wiping)⟩)
  | wipeBegun _ _ shut => exact moved (runMoved_of_shut shut)
  | wiped => exact moved (runMoved_of_shut rfl)
  | closed => exact moved (runMoved_of_shut rfl)
  | opened a slot request inHand accepted =>
    exact nomatch (notOpened a slot request inHand).symm.trans (openAccepted_of accepted).shut
  | moved state position next before after =>
    exact moved ⟨fun _ => before, fun _ => ⟨state, position, next, rfl⟩, fun _ => id, fun _ => t.tables.keepsValid_refl,
      fun _ => id⟩
  | finish => exact moved (runMoved_of_port t _)

/-- Within the work of a request that is no CLOSE_RUN the run stays open, unless a reset or a WIPE abandons it with the request
(R156 to R158). -/
def State.OpenOrAbandoned (r : Request) (s : State) : Prop := s.runOpen = true ∨ s.port.inHand = none ∨ r = .closeRun

theorem Inside.openOrAbandoned {r : Request} {s t : State} (move : Inside s t) (h : s.OpenOrAbandoned r) :
    t.OpenOrAbandoned r := by
  rcases h with opened | abandoned | close
  · by_cases hand : t.port.inHand = none
    · exact .inr (.inl hand)
    · left
      rw [State.runOpen, move.run hand]
      exact opened
  · exact .inr (.inl (move.keepsHand.handFree abandoned))
  · exact .inr (.inr close)

theorem Work.openOrAbandoned {r : Request} {s t u : State} (move : Work r t u) (within : OpenWithin s t)
    (h : t.OpenOrAbandoned r) : u.OpenOrAbandoned r := by
  rcases h with opened | abandoned | close
  · cases move with
    | inside move => exact move.openOrAbandoned (.inl opened)
    | wiped wiping => exact nomatch opened.symm.trans (within.wiping wiping)
    | closed _ request => exact .inr (.inr request)
    | moved _ _ _ _ after => exact .inl after
    | opened => exact .inl rfl
    | hold => exact .inl (by simpa [State.runOpen] using opened)
    | finish | copy | complete | loadBegun | raised | wipeBegun => exact .inl opened
  · exact .inr (.inl (move.keepsHand.handFree abandoned))
  · exact .inr (.inr close)

theorem Works.openWithin {r : Request} {s t u : State} (works : Works r t u) (h : OpenWithin s t)
    (opened : t.OpenOrAbandoned r) : OpenWithin s u ∧ u.OpenOrAbandoned r := by
  refine star_keeps (P := fun u => OpenWithin s u ∧ u.OpenOrAbandoned r) (fun u v move ⟨within, opened⟩ => ?_) works ⟨h, opened⟩
  refine ⟨move.openWithin within fun a slot request inHand => ?_, move.openOrAbandoned within opened⟩
  rcases opened with opened | abandoned | close
  · exact opened
  · exact nomatch inHand.symm.trans abandoned
  · exact nomatch close.symm.trans request

theorem TakeMove.openWithin {s t u : State} (move : TakeMove t u) (h : OpenWithin s t ∧ t.runOpen = true) :
    OpenWithin s u ∧ u.runOpen = true :=
  ⟨h.1.transfer (move.runKept h.1.tables).moved (move.otherBlocks.tablesSound h.1.tables),
    (congrArg (fun r => r.state.isOpen) move.otherBlocks.run).trans h.2⟩

theorem Change.openWithin {s t u : State} (move : Change .wipe t u) (h : OpenWithin s t) : OpenWithin s u := by
  cases move with
  | work move => exact move.openWithin h nofun
  | port move => exact h.transfer (move.runKept h.tables).moved (move.otherBlocks.tablesSound h.tables)

/-- Settles O60: a run that is open after the step is the run that was open before it, since in an open run no OPEN_RUN is
accepted, and after a CLOSE_RUN none is in hand. -/
theorem stepKeepsTheOpenRun : Obligations.StepKeepsTheOpenRun := by
  intro s t run tables before after h
  have start : OpenWithin s s :=
    { tables := tableInvariant_iff.mp tables
      valid := fun opened => ⟨run.stopsValid opened, run.tariffValid opened⟩
      clockSet := run.clockSet
      wiping := run.wiping
      same := fun _ => ⟨⟨_, _, _, rfl⟩, rfl, rfl, rfl⟩ }
  obtain ⟨r, u, v, take, works, -, changes⟩ := step_stepped h
  obtain ⟨taken, opened⟩ := star_keeps (P := fun u => OpenWithin s u ∧ u.runOpen = true)
    (fun _ _ move => move.openWithin) take ⟨start, before⟩
  obtain ⟨worked, -⟩ := works.openWithin taken (.inl opened)
  have within : OpenWithin s t := star_keeps (P := OpenWithin s) (fun _ _ move => move.openWithin) changes worked
  obtain ⟨⟨state, position, next, record⟩, edition, stops, tariff⟩ := within.same after
  rw [record]
  exact ⟨rfl, rfl, rfl, rfl, rfl, rfl, rfl, rfl, rfl, edition, stops, tariff, within.clockSet after⟩

end Sys2Proof.Machine

/-! The queue, the resets, the registers and the power states (9.1, 9.2, 9.8, 9.9, chapter 10). -/

namespace Sys2Proof.Machine

/-- Settles O1: `step` looks at the front of the queue. -/
theorem stepTakesTheFrontCommand : Obligations.StepTakesTheFrontCommand := fun _ _ _ => rfl

/-! ### Power-on reset (10.1) -/

theorem portControlWord_reset {s : State} (port : s.port = Port.reset) : s.portControlWord = 0 := by
  rw [State.portControlWord, port]
  rfl

theorem portStatusWord_reset {s : State} (port : s.port = Port.reset) (clock : s.clock = Clock.reset) (run : s.run = Run.reset)
    (power : s.power = .active) : s.portStatusWord = 0 := by
  rw [State.portStatusWord, port, clock, run, power]
  rfl

/-- After power-on reset every register reads 0 (R158). -/
theorem readRegister_reset {s : State} (port : s.port = Port.reset) (clock : s.clock = Clock.reset) (run : s.run = Run.reset)
    (power : s.power = .active) (offset : Nat) : s.readRegister offset = 0 := by
  unfold State.readRegister
  split
  · rw [port]; rfl
  · exact portControlWord_reset port
  · exact portStatusWord_reset port clock run power
  · rw [port]; rfl
  · rw [port]; rfl
  · rfl

/-- Settles O3: power-on reset gives the reset state, with host memory and the queue left alone. -/
theorem powerOnResetClearsEveryBlock : Obligations.PowerOnResetClearsEveryBlock := by
  refine ⟨fun s => ⟨resetPower s, rfl, rfl, rfl, rfl, rfl, rfl, rfl, rfl, rfl,
    readRegister_reset rfl rfl rfl rfl, rfl⟩, rfl, rfl, rfl, rfl, rfl, fun k => ?_, fun _ => rfl⟩
  cases k <;> exact ⟨rfl, rfl⟩

/-- Settles O53: each invariant holds of the state after a power-on reset. -/
theorem resetMeetsTheInvariants : Obligations.ResetMeetsTheInvariants :=
  ⟨⟨rfl, nofun, rfl, nofun⟩, ⟨by decide, by decide, by decide, by decide, by decide⟩,
    portInvariant_iff.mpr ⟨State.portSound_resetPower State.reset, rfl⟩, rosterInvariant_iff.mpr (rosterWith_nil _),
    tableInvariant_iff.mpr Tables.reset_sound, RunInvariant.resetPower State.reset⟩

/-! ### Port Control (R141 to R143, R157, R159) -/

/-- The surroundings of a step in which nothing comes from outside. -/
def State.quieted (s : State) : State := { s with busLeft := none, arrivals := [], owed := [] }

theorem endStep_quieted (s : State) : endStep s.quieted = endStep s := rfl

/-- A quiet Port Control write, whichever of its commands it is named by. -/
theorem exec_control_quiet (v : Word) (s : State) :
    exec (.portEnable v Env.quiet) s = .next (endStep (writeControl v s.quieted)) ∧
      exec (.portDisable v Env.quiet) s = .next (endStep (writeControl v s.quieted)) ∧
      exec (.portReset v Env.quiet) s = .next (endStep (writeControl v s.quieted)) ∧
      exec (.attentionEnable v Env.quiet) s = .next (endStep (writeControl v s.quieted)) ∧
      exec (.dozeRequest v Env.quiet) s = .next (endStep (writeControl v s.quieted)) ∧
      exec (.dozeClear v Env.quiet) s = .next (endStep (writeControl v s.quieted)) := ⟨rfl, rfl, rfl, rfl, rfl, rfl⟩

theorem underWay_iff (s : State) :
    s.underWay = true ↔ s.port.state = .sweeping ∨ s.tables.load ≠ none ∨ s.tables.wiping = true := by
  simp [State.underWay, Option.isSome_iff_ne_none, or_assoc]

/-- The doze request acts on the power state alone (R159, R162). -/
theorem controlDoze_eq (v : Word) (s : State) : controlDoze v s = { s with power := s.powerAfter v } := by
  unfold controlDoze State.powerAfter
  by_cases asks : v.getLsbD 3 = true
  · rw [if_pos asks, if_pos asks]
    cases power : s.power with
    | active =>
      rw [if_pos rfl]
      by_cases under : s.underWay = true
      · rw [if_pos under, if_pos ((underWay_iff s).mp under)]
      · rw [if_neg under, if_neg (mt (underWay_iff s).mpr under)]
    | dozePending => rw [if_neg (by simp)]; exact congrArg (fun p => ({ s with power := p } : State)) power
    | doze => rw [if_neg (by simp)]; exact congrArg (fun p => ({ s with power := p } : State)) power
  · rw [if_neg asks, if_neg asks]

/-- The doze request is judged on the port, the table store and the power state (R159). -/
theorem powerAfter_congr {s t : State} (port : t.port = s.port) (tables : t.tables = s.tables) (power : t.power = s.power)
    (v : Word) : t.powerAfter v = s.powerAfter v := by rw [State.powerAfter, State.powerAfter, port, tables, power]

theorem controlDoze_hostMemory (v : Word) (u : State) (m : Memory) :
    controlDoze v { u with hostMemory := m } = { u with power := u.powerAfter v, hostMemory := m } := by
  have power : State.powerAfter { u with hostMemory := m } v = u.powerAfter v := powerAfter_congr rfl rfl rfl v
  rw [controlDoze_eq, power]

/-- A Port Control write that neither resets nor moves the port (R142, R143). -/
theorem writeControl_unmoved {v : Word} {s : State} (noReset : v.getLsbD 4 = false)
    (unmoved : (v.getLsbD 0 = true ∧ s.port.state ≠ .stopped) ∨
      (v.getLsbD 0 = false ∧ (s.port.state = .stopped ∨ s.port.state = .fault))) :
    writeControl v s = { s with port := s.port.stored v, power := State.powerAfter { s with port := s.port.stored v } v } := by
  have stays : controlPort v (storeControl v s) = storeControl v s := by
    unfold controlPort
    rw [if_neg (Bool.eq_false_iff.mp noReset)]
    rcases unmoved with ⟨enable, working⟩ | ⟨disable, silent⟩
    · rw [if_pos enable, if_neg (by exact working)]
    · rw [if_neg (Bool.eq_false_iff.mp disable), if_neg]
      rcases silent with state | state <;> simp [storeControl, state, PortState.writes]
  rw [writeControl, stays, controlDoze_eq]
  rfl

/-- A disable of a port that writes (R143). -/
theorem writeControl_disable {v : Word} {s : State} (noReset : v.getLsbD 4 = false) (disable : v.getLsbD 0 = false)
    (writes : s.port.state.writes = true) :
    writeControl v s = controlDoze v (disablePort (storeControl v s)) := by
  rw [writeControl, controlPort, if_neg (Bool.eq_false_iff.mp noReset), if_neg (Bool.eq_false_iff.mp disable), if_pos (by exact writes)]

theorem header_length (s : State) : s.header.length = 256 := by simp [State.header, geometry]

/-- An enable of a STOPPED port: IDLE, and the whole header written (R142, R144). -/
theorem writeControl_enable {v : Word} {s u : State} {m : Memory} {a : Nat} (hm : s.hostMemory = m) (ha : s.areaAddress = a)
    (bus : s.busLeft = none) (noReset : v.getLsbD 4 = false)
    (enable : v.getLsbD 0 = true) (stopped : s.port.state = .stopped)
    (hu : u = { s with port := { s.port.stored v with state := .idle, cursor := 0, writePosition := 0, noticeCount := 0 } }) :
    writeControl v s =
      { u with
        power := u.powerAfter v, hostMemory := Memory.writeRun hostSize m a u.header } := by
  have bus' : u.busLeft = none := by rw [hu]; exact bus
  have writes : u.port.state.writes = true := by rw [hu]; rfl
  have memory : u.hostMemory = m := by rw [hu]; exact hm
  have enabled : enablePort (storeControl v s) = busWrite s.areaAddress u.header u := by rw [hu]; rfl
  rw [writeControl, controlPort, if_neg (Bool.eq_false_iff.mp noReset), if_pos enable, if_pos (by exact stopped), enabled,
    busWrite_quiet bus' writes, controlDoze_hostMemory, memory, ha]

/-- Settles O45, case by case of the enable bit and the port state. -/
theorem portEnableAndDisable : Obligations.PortEnableAndDisable := by
  intro s v canonical noReset
  refine ⟨fun enable stopped => ?_, fun enable working => ?_, fun disable writes => ?_, fun disable silent => ?_⟩
  · obtain ⟨u, hu⟩ : ∃ u : State, u = { s with
        port := { s.port.stored v with state := .idle, cursor := 0, writePosition := 0, noticeCount := 0 } } := ⟨_, rfl⟩
    obtain ⟨bytes, hbytes⟩ : ∃ bytes, bytes = u.header := ⟨_, rfl⟩
    have size : bytes.length = 256 := by rw [hbytes, header_length]
    refine ⟨_, u, Memory.writeRun hostSize s.hostMemory s.areaAddress bytes, hu, rfl, ?_, ?_, ?_⟩
    · have header : u.quieted.header = bytes := hbytes.symm
      have power : u.quieted.powerAfter v = u.powerAfter v := powerAfter_congr rfl rfl rfl v
      rw [(exec_control_quiet v s).1, writeControl_enable (s := s.quieted) (u := u.quieted) (m := s.hostMemory)
        (a := s.areaAddress) rfl rfl rfl noReset enable stopped (by rw [hu]; rfl), header, power]
      rfl
    · simp only [State.shows, State.hostBytes, endStep_hostMemory, ← hbytes]
      exact Memory.readRun_writeRun_same canonical (by rw [size]; decide)
    · intro x apart
      rw [endStep_hostMemory]
      refine Memory.read_writeRun_other fun i hi => ?_
      rw [size] at hi
      exact apart (s.areaAddress, 256) (List.mem_singleton_self _) i hi
  · refine ⟨_, rfl, ?_⟩
    rw [(exec_control_quiet v s).1, writeControl_unmoved noReset (.inl ⟨enable, by exact working⟩)]
    rfl
  · refine ⟨_, rfl, ?_⟩
    have writes' : s.port.state.writes = true := by rcases writes with h | h <;> simp [h, PortState.writes]
    rw [(exec_control_quiet v s).2.1, writeControl_disable (s := s.quieted) noReset disable writes',
      controlDoze_eq]
    rfl
  · refine ⟨_, rfl, ?_⟩
    rw [(exec_control_quiet v s).2.1, writeControl_unmoved noReset (.inr ⟨disable, by exact silent⟩)]
    rfl

theorem writeControl_reset {v : Word} {s : State} (reset : v.getLsbD 4 = true) :
    writeControl v s = controlDoze v (resetPort (storeControl v s)) := by
  rw [writeControl, controlPort, if_pos reset]

/-- What an abort leaves of the table store (R135). -/
theorem abortLoad_of_job {t : Tables} {job : LoadJob} (loading : t.load = some job) :
    t.abortLoad.load = none ∧ t.abortLoad.memory = t.memory ∧ t.abortLoad.wiping = t.wiping ∧
      t.abortLoad.ordinals = t.ordinals ∧
      ∀ k, t.abortLoad.descriptor k =
        if k = job.kind then { t.descriptor k with state := .damaged, cause := .aborted } else t.descriptor k := by
  refine ⟨by simp, t.abortLoad_memory, t.abortLoad_wiping, by simp [Tables.abortLoad, loading], fun k => ?_⟩
  rw [abortLoad_descriptor, loading]

theorem abortLoad_of_none {t : Tables} (idle : t.load = none) : t.abortLoad = t := by rw [Tables.abortLoad, idle]

/-- Settles O46: a Port Control write with port reset 1 resets the port it has stored. -/
theorem portResetClearsThePort : Obligations.PortResetClearsThePort := by
  intro s v reset
  refine ⟨resetPort { s with port := s.port.stored v }, _, ?_, rfl, rfl, rfl, abortLoad_of_none, fun job => abortLoad_of_job⟩
  rw [(exec_control_quiet v s).2.2.1, writeControl_reset reset, controlDoze_eq]
  rfl

/-! ### Attention and doze (9.8, 10.2) -/

theorem attention_iff (s : State) :
    s.attention = true ↔
      (0 < s.port.noticeCount ∧ s.port.noticeAttention = true) ∨ (s.port.overflow = true ∧ s.port.noticeAttention = true) ∨
        (s.port.state = .fault ∧ s.port.faultAttention = true) := by
  simp [State.attention, or_assoc]

/-- Settles O47: the enables gate ATTN, and the doze request is judged against what is under way. -/
theorem attentionAndDoze : Obligations.AttentionAndDoze := by
  refine ⟨attention_iff, fun s bus arrivals owed => ?_, fun s v u noReset unmoved hu => ?_⟩
  · have quiet : ({ s with busLeft := none, arrivals := [], owed := [] } : State) = s := by rw [← bus, ← arrivals, ← owed]
    have entry : exec .dozeEntry s = .next (enterDoze s) := by
      show Host.Outcome.next (enterDoze { s with busLeft := none, arrivals := [], owed := [] }) = _
      rw [quiet]
    rw [entry]
    refine ⟨fun pending idle noLoad noWipe => ?_, fun stays => ?_⟩
    · rw [enterDoze, if_pos ⟨pending, State.underWay_eq_false.mpr ⟨idle, noLoad, noWipe⟩⟩]
    · rw [enterDoze, if_neg]
      rintro ⟨pending, free⟩
      obtain ⟨idle, noLoad, noWipe⟩ := State.underWay_eq_false.mp free
      simp [pending, idle, noLoad, noWipe] at stays
  · obtain ⟨-, -, -, attention, request, clear⟩ := exec_control_quiet v s
    have control := writeControl_unmoved (s := s.quieted) noReset (by exact unmoved)
    rw [attention, request, clear, control]
    have result : endStep { s.quieted with
        port := s.quieted.port.stored v, power := State.powerAfter { s.quieted with port := s.quieted.port.stored v } v } =
        endStep { u with power := u.powerAfter v } := by rw [hu]; rfl
    rw [result]
    have state : u.port.state = s.port.state := by rw [hu]; rfl
    have tables : u.tables = s.tables := by rw [hu]
    have power : u.power = s.power := by rw [hu]
    refine ⟨fun noDoze => ?_, fun asks => ⟨rfl, fun active idle noLoad noWipe => ?_, fun active under => ?_, fun other => ?_⟩⟩
    · have after : u.powerAfter v = .active := if_neg (Bool.eq_false_iff.mp noDoze)
      rw [after]
      exact ⟨rfl, rfl⟩
    · have after : u.powerAfter v = .doze := by
        simp [State.powerAfter, asks, power, active, state, idle, tables, noLoad, noWipe]
      rw [after]
    · have after : u.powerAfter v = .dozePending := by
        rw [State.powerAfter, if_pos asks, power, active]
        exact if_pos (by rwa [state, tables])
      rw [after]
    · have after : u.powerAfter v = u.power := by
        rw [State.powerAfter, if_pos asks, power]
        cases h : s.power <;> simp_all
      rw [after]

end Sys2Proof.Machine

/-! The registers' fields, the ring, and the entry into FAULT (9.1, 9.7, 9.9, 11.2), and the second of the clock (1.2). -/

namespace Sys2Proof.Machine

/-! ### The clock's second (R1, R5) -/

theorem exec_secondAdvance_quiet (s : State) :
    exec (.secondAdvance Env.quiet) s =
      .next (endStep (if s.clock.second < 59 then setSecond (s.clock.second + 1) s.quieted
        else wrapSecond freeEvaluator [] s.quieted)) := rfl

theorem exec_minuteTick_quiet (s : State) :
    exec (.minuteTick Env.quiet) s = .next (endStep (wrapSecond freeEvaluator [] s.quieted)) := rfl

theorem wrapSecond_top {s : State} (top : s.clock.isTop = true) (ev : Evaluator) :
    wrapSecond ev [] s = { s with clock := { s.clock with second := 59 } } := by
  rw [wrapSecond, if_pos top]
  rfl

/-- Settles O5. -/
theorem secondAdvances : Obligations.SecondAdvances := by
  refine fun s => ⟨fun below => ?_, fun last => ?_, fun day minute => ?_⟩
  · rw [exec_secondAdvance_quiet, if_pos below]
    rfl
  · rw [exec_secondAdvance_quiet, if_neg (by omega), exec_minuteTick_quiet]
  · have top : s.quieted.clock.isTop = true := by simp [Clock.isTop, State.quieted, day, minute]
    rw [exec_minuteTick_quiet, wrapSecond_top top]
    rfl

/-! ### The registers (R141, 11.2) -/

theorem getLsbD_ofNat_word {n i : Nat} {b : Bool} (small : i < 32) (bit : n / 2 ^ i % 2 = b.toNat) :
    (BitVec.ofNat 32 n).getLsbD i = b := by
  rw [BitVec.getLsbD_ofNat, Nat.testBit_eq_decide_div_mod_eq, bit]
  cases b <;> simp [small]

/-- A bit above every bit of a number. -/
theorem getLsbD_ofNat_of_lt {n k i : Nat} (small : n < 2 ^ k) (above : k ≤ i) : (BitVec.ofNat 32 n).getLsbD i = false := by
  rw [BitVec.getLsbD_ofNat, Nat.testBit_lt_two_pow (small.trans_le (Nat.pow_le_pow_right (by decide) above)), Bool.and_false]

theorem extractLsb'_ofNat_word {n start len : Nat} (small : n < 2 ^ 32) :
    ((BitVec.ofNat 32 n).extractLsb' start len).toNat = n / 2 ^ start % 2 ^ len := by
  rw [BitVec.extractLsb'_toNat, BitVec.toNat_ofNat, Nat.mod_eq_of_lt small, Nat.shiftRight_eq_div_pow]

/-- The fields of Port Control. -/
theorem portControlWord_bits (s : State) :
    s.portControlWord.getLsbD 0 = s.port.enable ∧ s.portControlWord.getLsbD 1 = s.port.noticeAttention ∧
      s.portControlWord.getLsbD 2 = s.port.faultAttention ∧ s.portControlWord.getLsbD 3 = s.port.dozeRequest ∧
      ∀ i, 4 ≤ i → s.portControlWord.getLsbD i = false := by
  have b0 := s.port.enable.toNat_le
  have b1 := s.port.noticeAttention.toNat_le
  have b2 := s.port.faultAttention.toNat_le
  have b3 := s.port.dozeRequest.toNat_le
  unfold State.portControlWord
  refine ⟨?_, ?_, ?_, ?_, fun i above => getLsbD_ofNat_of_lt (k := 4) (by omega) above⟩
  · exact getLsbD_ofNat_word (by decide) (by omega)
  · exact getLsbD_ofNat_word (by decide) (by omega)
  · exact getLsbD_ofNat_word (by decide) (by omega)
  · exact getLsbD_ofNat_word (by decide) (by omega)

theorem PortState.code_lt (p : PortState) : p.code < 4 := by cases p <;> decide
theorem PowerState.code_lt (p : PowerState) : p.code < 4 := by cases p <;> decide
theorem FaultCause.code_lt (c : FaultCause) : c.code < 4 := by cases c <;> decide
theorem RunState.code_lt (r : RunState) : r.code < 8 := by cases r <;> decide

/-- The fields of Port Status. -/
theorem portStatusWord_bits (s : State) :
    (s.portStatusWord.extractLsb' 0 2).toNat = s.port.state.code ∧
      (s.portStatusWord.extractLsb' 2 2).toNat = s.power.code ∧
      s.portStatusWord.getLsbD 4 = s.port.overflow ∧ s.portStatusWord.getLsbD 5 = s.port.faultFlag ∧
      (s.portStatusWord.extractLsb' 6 2).toNat = s.port.faultCause.code ∧ s.portStatusWord.getLsbD 8 = s.clock.isSet ∧
      (s.portStatusWord.extractLsb' 9 3).toNat = s.run.state.code ∧
      ∀ i, 12 ≤ i → s.portStatusWord.getLsbD i = false := by
  have state := s.port.state.code_lt
  have power := s.power.code_lt
  have overflow := s.port.overflow.toNat_le
  have flag := s.port.faultFlag.toNat_le
  have cause := s.port.faultCause.code_lt
  have set := s.clock.isSet.toNat_le
  have run := s.run.state.code_lt
  unfold State.portStatusWord
  refine ⟨?_, ?_, ?_, ?_, ?_, ?_, ?_, fun i above => getLsbD_ofNat_of_lt (k := 12) (by omega) above⟩
  · rw [extractLsb'_ofNat_word (by omega)]; omega
  · rw [extractLsb'_ofNat_word (by omega)]; omega
  · exact getLsbD_ofNat_word (by decide) (by omega)
  · exact getLsbD_ofNat_word (by decide) (by omega)
  · rw [extractLsb'_ofNat_word (by omega)]; omega
  · exact getLsbD_ofNat_word (by decide) (by omega)
  · rw [extractLsb'_ofNat_word (by omega)]; omega

/-- The bits that Area Base stores (R141). -/
theorem areaBase_getLsbD (v : Word) (i : Nat) : (v &&& 0xFFFFE000#32).getLsbD i = (decide (13 ≤ i) && v.getLsbD i) := by
  rw [BitVec.getLsbD_and]
  by_cases h : i < 32
  · have mask : (0xFFFFE000#32).getLsbD i = decide (13 ≤ i) := by interval_cases i <;> rfl
    rw [mask, Bool.and_comm]
  · simp [BitVec.getLsbD_of_ge v i (by omega)]

/-- A register write that changes nothing. -/
theorem writeRegister_ignored {offset : Nat} {v : Word} {s : State}
    (ignored : (offset = 0x08 ∧ v.getLsbD 4 = false) ∨ offset ∉ [0x00, 0x04, 0x08, 0x0C, 0x14]) :
    writeRegister offset v s = s := by
  rcases ignored with ⟨rfl, clear⟩ | other
  · exact if_neg (Bool.eq_false_iff.mp clear)
  · unfold writeRegister
    split
    · simp at other
    · simp at other
    · simp at other
    · simp at other
    · simp at other
    · rfl

/-- Settles O48. -/
theorem registersReadAndWrite : Obligations.RegistersReadAndWrite := by
  refine ⟨fun s count => ⟨rfl, portControlWord_bits s, portStatusWord_bits s, ?_, rfl, rfl, rfl⟩,
    fun s v => ⟨fun clears => ?_, fun stopped => ?_, fun working => ?_, fun offset ignored => ?_⟩⟩
  · show (BitVec.ofNat 32 s.port.noticeCount).toNat = _
    rw [BitVec.toNat_ofNat, Nat.mod_eq_of_lt (by omega)]
  · show Host.Outcome.next (endStep (writeStatus v s)) = _
    rw [writeStatus, if_pos clears]
  · refine ⟨v &&& 0xFFFFE000#32, ?_, areaBase_getLsbD v⟩
    show Host.Outcome.next (endStep (writeAreaBase v s)) = _
    rw [writeAreaBase, if_pos stopped]
  · show Host.Outcome.next (endStep (writeAreaBase v s)) = _
    rw [writeAreaBase, if_neg working]
  · show Host.Outcome.next (endStep (writeRegister offset v s.quieted)) = _
    rw [writeRegister_ignored ignored, endStep_quieted]

/-! ### The entry into FAULT (R156) -/

theorem mayFault_iff (s : State) (isWrite : Bool) :
    s.mayFault isWrite = true ↔
      s.port.state = .idle ∨ s.port.state = .sweeping ∨ (s.port.state = .stopped ∧ s.tables.load ≠ none ∧ isWrite = false) := by
  unfold State.mayFault
  cases s.port.state <;> simp [Option.isSome_iff_ne_none]

theorem failAccess_faults {s : State} {isWrite : Bool} (may : s.mayFault isWrite = true) (address : Word) :
    failAccess isWrite address s =
      { s with
        port :=
          { s.port with
            state := .fault, faultFlag := true, faultCause := if isWrite then .write else .read, faultAddress := address,
            sweepLeft := 0, sweepAgain := false, inHand := none }
        tables := s.tables.abortLoad
        busLeft := none } := by
  rw [failAccess, if_pos may, enterFault, BitVec.ofNat_toNat, BitVec.setWidth_eq]

/-- Settles O51. -/
theorem busFaultEntersFault : Obligations.BusFaultEntersFault := by
  intro s isWrite address p hp
  refine ⟨fun accesses => ?_, fun silent => ?_, abortLoad_of_none, fun job k loading => ?_, ?_⟩
  · show Host.Outcome.next (endStep (failAccess isWrite address s)) = _
    rw [failAccess_faults ((mayFault_iff s isWrite).mpr accesses), hp]
    rfl
  · have quiet : ¬s.mayFault isWrite = true := by
      rw [mayFault_iff]
      rcases silent with fault | ⟨stopped, idle | write⟩ <;> simp_all
    show Host.Outcome.next (endStep (failAccess isWrite address s)) = _
    rw [failAccess, if_neg quiet]
  · obtain ⟨load, -, -, -, descriptor⟩ := abortLoad_of_job loading
    exact ⟨load, descriptor k⟩
  · rintro a left bs rfl writes bus short rfl
    rw [busWrite_fails bus writes short, hp]
    rfl

end Sys2Proof.Machine

/-! A notice appended to the ring (9.7), on a bus that does not fail and on one that does. -/

namespace Sys2Proof.Machine

/-- A write on a bus that still transfers all its bytes before an access fails. -/
theorem busWrite_within {s : State} {left : Nat} (bus : s.busLeft = some left) (writes : s.port.state.writes = true)
    {bs : List Byte} (enough : bs.length ≤ left) (a : Nat) :
    busWrite a bs s =
      { s with busLeft := some (left - bs.length), hostMemory := Memory.writeRun hostSize s.hostMemory a bs } := by
  have all : s.transferred bs.length = bs.length := by
    rw [State.transferred, bus]
    exact Nat.min_eq_left enough
  rw [busWrite, if_pos writes, if_pos all, State.spend, bus]
  rfl

/-- In IDLE and SWEEPING a notice is written (R153). -/
theorem appendNotice_writes {s : State} (writes : s.port.state.writes = true) (n : Notice) :
    appendNotice n s = writeNotice n s := by
  unfold appendNotice
  split <;> simp_all [PortState.writes]

/-- A notice that finds room and whose writes fail: it is not counted, and the overflow flag is set (R153, R156). -/
theorem appendNotice_failing {s t : State} (writes : s.port.state.writes = true) (room : s.port.noticeCount < 64) {n : Notice}
    (put : putNotice n s = t) (fault : t.port.state = .fault) : appendNotice n s = setOverflow t := by
  rw [appendNotice_writes writes, writeNotice, if_neg (Nat.not_le.mpr room), put, if_pos fault]

theorem ringMirror_next (p : Fin 64) (q : Half) :
    ringMirror (p + 1) (q + 1) = le 1 ((p.val + 1) % 64) ++ zeros 1 ++ le 2 ((q.toNat + 1) % 65536) := by
  have position : (p + 1).val = (p.val + 1) % 64 := by rw [Fin.val_add]; rfl
  have sequence : (q + 1).toNat = (q.toNat + 1) % 65536 := BitVec.toNat_add q 1
  rw [ringMirror, position, sequence]

/-- What a failing access leaves of a notice whose bytes it meets: the first of its writes fails, or the second (R153, log
entry 5). -/
theorem putNotice_fails {s : State} {n : Notice} {left : Nat} {ring header : List Byte} (bus : s.busLeft = some left)
    (writes : s.port.state.writes = true) (short : left < 20)
    (hring : ring = n.bytes s.port.nextSequence s.clockCount)
    (hheader : header = ringMirror (s.port.writePosition + 1) (s.port.nextSequence + 1)) :
    putNotice n s =
      enterFault .write
        (if left < 16 then s.ringAddress s.port.writePosition + left else s.areaAddress + 0x08 + (left - 16))
        { s with
          hostMemory :=
            Memory.writeRun hostSize
              (Memory.writeRun hostSize s.hostMemory (s.ringAddress s.port.writePosition) (ring.take left))
              (s.areaAddress + 0x08) (header.take (left - 16)) } := by
  have ringSize : ring.length = 16 := by rw [hring]; exact notice_length _ _ _
  have headerSize : header.length = 4 := by rw [hheader]; exact ringMirror_length _ _
  rw [putNotice, ← hring, ← hheader]
  by_cases first : left < 16
  · rw [if_pos first, busWrite_fails bus writes (by omega), busWrite_silent rfl, Nat.sub_eq_zero_of_le first.le,
      List.take_zero]
    rfl
  · rw [if_neg first, busWrite_within bus writes (by omega), ringSize,
      busWrite_fails (left := left - 16) rfl (by exact writes) (by omega), List.take_of_length_le (l := ring) (by omega)]
    rfl

/-- Settles O50: the notice in the ring is the ring's progress by one notice, and a failing access is met by one of its two
writes. -/
theorem noticeAppend : Obligations.NoticeAppend := by
  intro s n ring header canonical hring hheader
  have ring' : ring = n.bytes s.port.nextSequence s.clockCount := hring
  have header' : header = ringMirror (s.port.writePosition + 1) (s.port.nextSequence + 1) := by rw [ringMirror_next, hheader]
  refine ⟨fun bus writes room => ?_, fun left address bus short writes room haddress => ?_,
    fun writes full => appendNotice_full writes full n, fun stopped => appendNotice_stopped stopped n,
    fun fault => appendNotice_fault fault n⟩
  · have one : s.port.room 1 = 1 := by simp only [Port.room]; omega
    have progress := (progress_refl canonical).notice n nofun
    refine ⟨s.noticeMemory n, ?_, ?_, ?_, ?_⟩
    · rw [appendNotice_quiet bus writes, offered_one_room room]
    · have shown := progress.ring.notices 0 (by simp [one]) n rfl
      have slot : s.port.ringSlot 0 = s.port.writePosition := by simp [Port.ringSlot]
      have sequence : s.port.sequence 0 = s.port.nextSequence := by simp [Port.sequence]
      rw [slot, sequence] at shown
      rw [ring']
      exact shown
    · have shown := progress.ring.header (by simp [one])
      rw [List.nil_append, List.length_singleton, one] at shown
      rw [header']
      exact shown
    · intro x apart
      refine progress.others x fun r hr => apart r ?_
      simpa [State.ringRanges, one, Port.ringSlot, State.ringAddress, or_comm] using hr
  · rw [appendNotice_failing writes room (putNotice_fails bus writes short ring' header') rfl, haddress]
    rfl

end Sys2Proof.Machine

/-! A request from its take to its answer, with nothing arriving and no access failing: `Serves s v u` says that the state `v`, in
which the owner works, carries the changes of `u`. -/

namespace Sys2Proof.Machine

/-- The owner of a request taken in `s` works at `v`: it has brought the changes of `u`, offered the notices `ns` and rewritten
the header parts `ms`. -/
structure Serves (s v u : State) (slot : Slot) (tag : Half) (r : Request) (ns : List Notice) (ms : List (Nat × List Byte)) :
    Prop extends Working s v slot tag r ns ms where
  port : { v.port with inHand := none, cursor := slot + 1 } = (u.port.swept slot).offered ns.length
  pending : v.pending = u.pending
  clock : v.clock = u.clock
  run : v.run = u.run
  tables : v.tables = u.tables
  roster : v.roster = u.roster
  power : v.power = u.power
  turns : v.turns = u.turns
  owed : v.owed = []

section
variable {s v u : State} {slot : Slot} {tag : Half} {r : Request} {ns : List Notice} {ms : List (Nat × List Byte)}

theorem serves_handed (canonical : Memory.wf s.hostMemory = true) (turn : s.isNext slot) (tag : Half) (r : Request) :
    Serves s (s.handed slot tag r) s slot tag r [] [] where
  toWorking := working_handed canonical turn tag r
  port := (offered_zero _).symm
  pending := rfl
  clock := rfl
  run := rfl
  tables := rfl
  roster := rfl
  power := rfl
  turns := rfl
  owed := rfl

/-- A change of the owner's in the run, the tables or the roster, and in the clock while no notice has shown its count. -/
theorem Serves.change (h : Serves s v u slot tag r ns ms) {c : Clock} (run : Run) (tables : Tables) (roster : List Entry)
    (turns : Nat) (count : ns = [] ∨ c.count = v.clockCount) :
    Serves s { v with clock := c, run := run, tables := tables, roster := roster, turns := turns }
      { u with clock := c, run := run, tables := tables, roster := roster, turns := turns } slot tag r ns ms where
  toWorking := h.toWorking.change rfl rfl rfl rfl count
  port := h.port
  pending := h.pending
  clock := rfl
  run := rfl
  tables := rfl
  roster := rfl
  power := h.power
  turns := rfl
  owed := h.owed

theorem Serves.notice (h : Serves s v u slot tag r ns ms) (n : Notice) :
    Serves s (appendNotice n v) u slot tag r (ns ++ [n]) ms where
  toWorking := h.toWorking.notice n
  port := by
    have moved : (appendNotice n v).port = v.port.offered 1 := by rw [appendNotice_quiet h.bus h.writes]
    rw [moved, List.length_append, List.length_singleton, ← offered_offered, ← h.port]
    rfl
  pending := by simpa using h.pending
  clock := by simpa using h.clock
  run := by simpa using h.run
  tables := by rw [appendNotice_quiet h.bus h.writes]; exact h.tables
  roster := by simpa using h.roster
  power := by simpa using h.power
  turns := by simpa using h.turns
  owed := by simpa using h.owed

theorem Serves.mirror (h : Serves s v u slot tag r ns ms) {o : Nat} {bs : List Byte} (low : 0x0C ≤ o)
    (high : o + bs.length ≤ 0x100) (apart : ∀ m ∈ ms, m.1 + m.2.length ≤ o ∨ o + bs.length ≤ m.1) :
    Serves s (busWrite (v.areaAddress + o) bs v) u slot tag r ns (ms ++ [(o, bs)]) := by
  have working := h.toWorking.mirror low high apart
  rw [busWrite_quiet h.bus h.writes] at working ⊢
  exact ⟨working, h.port, h.pending, h.clock, h.run, h.tables, h.roster, h.power, h.turns, h.owed⟩

/-- The run mirror rewritten as the changes leave the run (R31, R32). -/
theorem Serves.mirrorRun (h : Serves s v u slot tag r ns ms) (apart : ∀ m ∈ ms, 0x20 ≤ m.1) :
    Serves s (mirrorRun v) u slot tag r ns (ms ++ [(0x10, u.runMirror)]) := by
  have same : v.runMirror = u.runMirror := by rw [State.runMirror, State.runMirror, h.run, h.roster]
  have rewritten := h.mirror (o := 0x10) (bs := v.runMirror) (by decide) (by simp)
    fun m hm => .inr (by simpa using apart m hm)
  rw [← same]
  exact rewritten

theorem Serves.mirrorDescriptor (h : Serves s v u slot tag r ns ms) (k : TableKind)
    (apart : ∀ m ∈ ms, m.1 + m.2.length ≤ k.mirrorOffset ∨ k.mirrorOffset + 16 ≤ m.1) :
    Serves s (mirrorDescriptor k v) u slot tag r ns (ms ++ [(k.mirrorOffset, (u.tables.descriptor k).image)]) := by
  have rewritten := h.mirror (o := k.mirrorOffset) (bs := (v.tables.descriptor k).image) (by cases k <;> decide)
    (by cases k <;> simp [TableKind.mirrorOffset]) fun m hm => by simpa using apart m hm
  rw [← h.tables]
  exact rewritten

variable {owner : State → State → State}

/-- The answer: what the request leaves and what the host finds (R149). -/
theorem Serves.answers (h : Serves s v u slot tag r ns ms) (turn : s.isNext slot)
    (command : exec (r.command slot tag Env.quiet) s = .next (requestStep slot tag r Env.quiet owner s))
    {code : AnswerCode} {answer : List Byte}
    (answered : owner (s.handed slot tag r) (s.handed slot tag r) = answerInHand slot tag code answer v) :
    s.Answers slot tag r u code answer ns ms :=
  answers_of turn command answered h.toWorking h.port h.pending h.clock h.run h.tables h.roster h.power h.turns

theorem Serves.parks (h : Serves s v u slot tag r [] ms) (turn : s.isNext slot)
    (command : exec (r.command slot tag Env.quiet) s = .next (requestStep slot tag r Env.quiet owner s)) {hold : Hold}
    (own : hold.slot = slot) (held : owner (s.handed slot tag r) (s.handed slot tag r) = holdNow hold v) :
    s.Parks slot tag r u hold ms :=
  parks_of turn own command held h.toWorking (h.port.trans (offered_zero _)) h.pending h.clock h.run h.tables h.roster
    h.power h.turns

end

/-! ### SET_CLOCK with no run open, and its refusals (R7, R8) -/

theorem clockInRange_iff (a : SetClockArgs) :
    clockInRange a = true ↔
      1 ≤ a.day.toNat ∧ a.minute.toNat ≤ 1439 ∧ a.second.toNat ≤ 59 ∧
        (flagSet a.presentFlag = true → a.dayChange.toNat ≤ 359) := by
  simp [clockInRange, givesDayChange, and_assoc, imp_iff_not_or]

theorem setClock_refused {s : State} {slot : Slot} {tag : Half} {a : SetClockArgs} {code : AnswerCode}
    (canonical : Memory.wf s.hostMemory = true) (turn : s.isNext slot)
    (refused : ∀ t : State, t.clock = s.clock → t.runOpen = s.runOpen →
      ownSetClock slot tag a t = answerInHand slot tag code (clockAnswer 0 s.clock) t) :
    s.AnswersUnchanged slot tag (.setClock a) code (clockAnswer 0 s.clock) :=
  (serves_handed canonical turn tag _).answers (owner := fun _ => ownSetClock slot tag a) turn rfl (refused _ rfl rfl)

/-- The clock set outright while the request is in hand: the mirror with a changed reading, then the notice of a changed
service day (R8, R12). -/
theorem serves_setOutright {s : State} {slot : Slot} (canonical : Memory.wf s.hostMemory = true) (turn : s.isNext slot)
    (tag : Half) (a : SetClockArgs) {c : Clock} (hc : c = clockOutright a s.clock) :
    Serves s (setOutright a (s.handed slot tag (.setClock a))) { s with clock := c } slot tag (.setClock a)
      (if c.serviceDay = s.clock.serviceDay then [] else [dayNotice c.serviceDay])
      (if c.mirror = s.clock.mirror then [] else [(0x20, c.mirror)]) := by
  have set : Serves s { s.handed slot tag (.setClock a) with clock := c } { s with clock := c } slot tag (.setClock a) [] [] :=
    (serves_handed canonical turn tag _).change (c := c) _ _ _ _ (.inl rfl)
  have mirrored : Serves s
      (if c.mirror = s.clock.mirror then { s.handed slot tag (.setClock a) with clock := c }
        else setClockTo c (s.handed slot tag (.setClock a)))
      { s with clock := c } slot tag (.setClock a) [] (if c.mirror = s.clock.mirror then [] else [(0x20, c.mirror)]) := by
    split
    · exact set
    · exact set.mirror (by decide) (by simp) (by simp)
  have result : setOutright a (s.handed slot tag (.setClock a)) =
      if c.serviceDay = s.clock.serviceDay then
        (if c.mirror = s.clock.mirror then { s.handed slot tag (.setClock a) with clock := c }
          else setClockTo c (s.handed slot tag (.setClock a)))
      else noticeDayChanged
        (if c.mirror = s.clock.mirror then { s.handed slot tag (.setClock a) with clock := c }
          else setClockTo c (s.handed slot tag (.setClock a))) := by
    have handed : (s.handed slot tag (.setClock a)).clock = s.clock := rfl
    simp only [setOutright, handed, ← hc]
    by_cases same : c.serviceDay = s.clock.serviceDay <;> simp [same]
  rw [result]
  split
  · exact mirrored
  · have noticed := mirrored.notice (dayNotice c.serviceDay)
    rw [noticeDayChanged_eq, mirrored.clock]
    exact noticed

/-- Settles O7. -/
theorem setClockOutrightOrRefused : Obligations.SetClockOutrightOrRefused := by
  refine ⟨?set, fun s slot tag a canonical turn => ⟨fun outside => ?outside, ?duringRun⟩⟩
  case set =>
    intro s slot tag a c canonical turn shut day minute second dayChange hc
    have inRange := (clockInRange_iff a).mpr ⟨day, minute, second, dayChange⟩
    have serves := serves_setOutright canonical turn tag a (c := c) hc
    refine serves.answers (owner := fun _ => ownSetClock slot tag a) turn rfl ?_
    have handed : (s.handed slot tag (.setClock a)).runOpen = false := shut
    simp only [ownSetClock, inRange, handed, serves.clock]
    simp
  case outside =>
    have outOfRange : clockInRange a = false := by
      rw [Bool.eq_false_iff, Ne, clockInRange_iff]
      rintro ⟨day, minute, second, dayChange⟩
      rcases outside with h | h | h | ⟨given, h⟩
      · omega
      · omega
      · omega
      · have := dayChange given
        omega
    refine setClock_refused canonical turn fun t clock _ => ?_
    rw [ownSetClock, if_pos outOfRange, clock]
  case duringRun =>
    intro day minute second given inRange other opened
    have range := (clockInRange_iff a).mpr ⟨day, minute, second, fun _ => inRange⟩
    refine setClock_refused canonical turn fun t clock runOpen => ?_
    rw [ownSetClock, if_neg (by simp [range]), if_pos (by rw [runOpen]; exact opened), if_pos, clock]
    simp [givesDayChange, given, clock, other]

end Sys2Proof.Machine

/-! An INSPECT from take to answer or hold (4.2, 4.3, 4.11): the stages of the request in hand, and stage 12 in closed form when
the clock count has not passed that of the evaluation. -/

namespace Sys2Proof.Machine

/-! ### Stage 12 while the clock count stands (R75) -/

section
variable {s : State} {j : Judgement} {c : InspectCopy}

theorem lapseProposal_live {n i : Nat} (live : ∀ e, s.roster[i]? = some e → ∀ p, e.mark.proposal = some p → n < p.expiry) :
    lapseProposal n i s = s := by
  have none : proposalDue s i n = false := by
    unfold proposalDue
    split
    next p found =>
      obtain ⟨e, entry, own⟩ := Option.bind_eq_some_iff.mp found
      simpa using live e entry p own
    · rfl
  rw [lapseProposal, none, if_neg Bool.false_ne_true]

/-- Step 2 leaves the watch as it armed it. -/
theorem armEntry_current (current : s.clockCount ≤ j.clockCount) (i : Nat) (p : Product) :
    armEntry i j p s = setEntry i (fun e => { e with watch := armWatch s j p }) s := if_neg (Nat.not_lt.mpr current)

/-- Step 3 leaves the proposal as it made it. -/
theorem proposeEntry_current (early : s.clockCount < j.clockCount + 2) (i : Nat) :
    proposeEntry i j c s =
      setEntry i
        (fun e =>
          { e with mark := { e.mark with proposal := if mayPropose j c then some (composeProposal s.run j c) else none } }) s := by
  unfold proposeEntry
  split
  · refine lapseProposal_live fun e entry p own => ?_
    simp only [setEntry, List.getElem?_modify_eq] at entry
    obtain ⟨before, -, rfl⟩ := Option.map_eq_some_iff.mp entry
    obtain rfl := Option.some_inj.mp own
    exact early
  · rfl

theorem watchAndMark_current (current : s.clockCount ≤ j.clockCount) (i : Nat) :
    watchAndMark i j c s = setEntry i (Entry.recorded s j c) s := by
  rw [watchAndMark, armEntry_current current,
    proposeEntry_current (Nat.lt_of_le_of_lt (by exact current) (Nat.lt_add_of_pos_right Nat.two_pos))]
  simp only [setEntry, List.modify_modify_eq]
  rfl

theorem admission_of_indexOf {es : List Entry} {id : LongWord} {i : Nat} (found : indexOf es id = some i) :
    admission es id = .updated i := by
  unfold admission
  rw [found]

theorem admission_of_room {es : List Entry} {id : LongWord} (fresh : indexOf es id = none) (room : es.length < 512) :
    admission es id = .created es.length := by
  unfold admission
  rw [fresh]
  exact if_pos room

theorem admission_of_full {es : List Entry} {id : LongWord} (fresh : indexOf es id = none) (full : 512 ≤ es.length) :
    admission es id = .full := by
  unfold admission
  rw [fresh]
  exact if_neg (Nat.not_lt.mpr full)

theorem recordedRoster_updated {i : Nat} (found : indexOf s.roster (Credential.ofRecord c.record).credentialId = some i) :
    s.recordedRoster j c = s.roster.modify i fun e => Entry.recorded s j c (e.reinspected j c) := by
  unfold State.recordedRoster
  rw [found]

theorem recordedRoster_created (fresh : indexOf s.roster (Credential.ofRecord c.record).credentialId = none)
    (room : s.roster.length < 512) :
    s.recordedRoster j c = s.roster ++ [Entry.recorded s j c (newEntry s.roster.length j c)] := by
  unfold State.recordedRoster
  rw [fresh]
  exact if_pos room

theorem recordedRoster_full (fresh : indexOf s.roster (Credential.ofRecord c.record).credentialId = none)
    (full : 512 ≤ s.roster.length) : s.recordedRoster j c = s.roster := by
  unfold State.recordedRoster
  rw [fresh]
  exact if_neg (Nat.not_lt.mpr full)

/-- Stage 12: the recorded roster, and the run mirror when an entry was created (R31, R81 to R83). -/
theorem recordInspection_current (current : s.clockCount ≤ j.clockCount) :
    recordInspection j c s =
      if (s.recordedRoster j c).length = s.roster.length then { s with roster := s.recordedRoster j c }
      else mirrorRun { s with roster := s.recordedRoster j c } := by
  unfold recordInspection
  cases found : indexOf s.roster (Credential.ofRecord c.record).credentialId with
  | some i =>
    rw [admission_of_indexOf found, recordedRoster_updated found, if_pos (by simp)]
    simp only
    rw [watchAndMark_current (by exact current)]
    simp only [setEntry, List.modify_modify_eq]
    rfl
  | none =>
    rcases Nat.lt_or_ge s.roster.length 512 with room | full
    · rw [admission_of_room found room, recordedRoster_created found room, if_neg (by simp)]
      simp only
      rw [watchAndMark_current (by exact current)]
      rw [setEntry, List.modify_eq_take_cons_drop (by simp)]
      simp
      rfl
    · rw [admission_of_full found full, recordedRoster_full found full, if_pos rfl]

/-- The answer from the roster that stage 12 leaves (R76). -/
theorem inspectionAnswer_current (current : s.clockCount ≤ j.clockCount) :
    (inspectionAnswer j c s (recordInspection j c s)).bytes = s.recordedAnswer j c := by
  have kept : (recordInspection j c s).roster = s.recordedRoster j c ∧ (recordInspection j c s).run = s.run := by
    rw [recordInspection_current current]
    split <;> simp
  unfold State.recordedAnswer inspectionAnswer answerFor
  rw [kept.1, kept.2]

/-- Stage 12 of the request in hand, nothing written before it. -/
theorem serves_recorded {slot : Slot} {tag : Half} {r : Request} (canonical : Memory.wf s.hostMemory = true)
    (turn : s.isNext slot) (current : s.clockCount ≤ j.clockCount) :
    Serves s (recordInspection j c (s.handed slot tag r)) { s with roster := s.recordedRoster j c } slot tag r []
      (s.recordedMirrors j c) := by
  have recorded : Serves s { s.handed slot tag r with roster := s.recordedRoster j c } { s with roster := s.recordedRoster j c }
      slot tag r [] [] := (serves_handed canonical turn tag r).change (c := s.clock) _ _ _ _ (.inl rfl)
  rw [recordInspection_current (by exact current), State.recordedMirrors]
  change Serves s (if (s.recordedRoster j c).length = s.roster.length then _ else _) _ _ _ _ _ _
  split
  · exact recorded
  · exact recorded.mirrorRun (by simp)

end

/-! ### The checks and the stages of the request in hand (R52, R53) -/

section
variable {s : State} {slot : Slot} {tag : Half} {a : InspectArgs}

theorem inspectRefusal_shut (shut : s.runOpen = false) : inspectRefusal a s = some .refusedNoRun := if_pos shut

theorem inspectRefusal_argument (opened : s.runOpen = true)
    (outside : a.coach = 0 ∨ s.run.coachCount < a.coach.toNat ∨ 9 < a.heads.toNat) :
    inspectRefusal a s = some .refusedArgument := by
  rw [inspectRefusal, if_neg (by simp [opened]), if_pos outside]

theorem inspectRefusal_none (opened : s.runOpen = true) (coach : a.coach ≠ 0) (known : a.coach.toNat ≤ s.run.coachCount)
    (heads : a.heads.toNat ≤ 9) : inspectRefusal a s = none := by
  rw [inspectRefusal, if_neg (by simp [opened]), if_neg]
  rintro (zero | high | many)
  · exact coach zero
  · omega
  · omega

theorem checkGood_of {record : List Byte} (good : crc (record.take 44) = (Credential.ofRecord record).check) :
    checkGood record = true := beq_iff_eq.mpr good

theorem readCredential_check {t : Tables} {record : List Byte}
    (bad : crc (record.take 44) ≠ (Credential.ofRecord record).check) : readCredential t record = .unreadable .checkFailed :=
  if_neg (by simpa [checkGood] using bad)

theorem readCredential_general {t : Tables} {record : List Byte} (good : crc (record.take 44) = (Credential.ofRecord record).check)
    (general : (Credential.ofRecord record).generalRanges = false) : readCredential t record = .unreadable .fieldRange := by
  rw [readCredential, if_pos (checkGood_of good), if_neg (by simp [general])]

theorem readCredential_ranged {t : Tables} {record : List Byte} (good : crc (record.take 44) = (Credential.ofRecord record).check)
    (general : (Credential.ofRecord record).generalRanges = true) :
    readCredential t record = readProduct t (Credential.ofRecord record) := by
  rw [readCredential, if_pos (checkGood_of good), if_pos general]

theorem readProduct_none {t : Tables} {c : Credential} (unknown : t.productWithCode c.productCode = none) :
    readProduct t c = .unreadable .unknownProduct := by
  unfold readProduct
  rw [unknown]

theorem readProduct_some {t : Tables} {c : Credential} {p : Product} (found : t.productWithCode c.productCode = some p) :
    readProduct t c = if c.kindRanges p then .product p else .unreadable .fieldRange := by
  unfold readProduct
  rw [found]

theorem inspect_refused {code : AnswerCode} (canonical : Memory.wf s.hostMemory = true) (turn : s.isNext slot)
    (refused : inspectRefusal a s = some code) :
    s.AnswersUnchanged slot tag (.inspect a) code (notEvaluated .valid 0 s.clockCount).bytes := by
  refine answersUnchanged_of canonical turn rfl ?_
  unfold ownInspect
  rw [show inspectRefusal a (s.handed slot tag (.inspect a)) = some code from refused]
  exact answerInHandWith_quiet rfl slot tag code _

/-- An INSPECT past the checks of R52 runs its stages on the record the slot holds. -/
theorem ownInspect_examined {taken : State} (bus : s.busLeft = none) (inHand : s.hasInHand slot = true)
    (passed : inspectRefusal a s = none) : ownInspect slot tag a taken s = runStages slot tag a taken s := by
  unfold ownInspect
  rw [passed]
  have read : readRecord slot s = s := readArguments_quiet bus slot _
  simp only [read]
  exact if_pos inHand

theorem padTo_of_length {n : Nat} {bs : List Byte} (h : bs.length = n) : padTo n bs = bs := by simp [padTo, ← h]

theorem inspect_unreadable {reason : Reason} {w : Half} (reasons : reasonSet [reason] = w)
    (canonical : Memory.wf s.hostMemory = true) (turn : s.isNext slot)
    (whole : a.record.length = 46) (passed : inspectRefusal a s = none)
    (unreadable : readCredential s.tables a.record = .unreadable reason) :
    s.AnswersUnchanged slot tag (.inspect a) .done
      (notEvaluated .unreadable w s.clockCount).bytes := by
  refine answersUnchanged_of canonical turn rfl ?_
  rw [ownInspect_examined (s := s.handed slot tag (.inspect a)) rfl (beq_self_eq_true _) passed]
  unfold runStages
  rw [padTo_of_length whole, show (s.handed slot tag (.inspect a)).tables = s.tables from rfl, unreadable]
  simp only [reasons]
  rfl

end

/-- Settles O16. -/
theorem inspectNotEvaluated : Obligations.InspectNotEvaluated := by
  intro s slot tag a c canonical turn whole hc
  refine ⟨fun shut => inspect_refused canonical turn (inspectRefusal_shut shut),
    fun opened outside => inspect_refused canonical turn (inspectRefusal_argument opened outside),
    fun opened coach known heads => ?_⟩
  have passed := inspectRefusal_none (a := a) opened coach known heads
  subst hc
  refine ⟨fun bad => ?_, fun good general => ?_, fun good general unknown => ?_, fun p good general found kind => ?_⟩
  · exact inspect_unreadable (by decide) canonical turn whole passed (readCredential_check bad)
  · exact inspect_unreadable (by decide) canonical turn whole passed (readCredential_general good general)
  · refine inspect_unreadable (by decide) canonical turn whole passed (reason := .unknownProduct) ?_
    rw [readCredential_ranged good general, readProduct_none unknown]
  · refine inspect_unreadable (by decide) canonical turn whole passed (reason := .fieldRange) ?_
    rw [readCredential_ranged good general, readProduct_some found, kind, if_neg Bool.false_ne_true]

/-! ### An INSPECT that passes stage 3 (R55 to R57) -/

/-- The checks of R52 and stages 1 to 3 pass, and stage 3 found the product `p`. -/
structure State.Evaluates (s : State) (a : InspectArgs) (p : Product) : Prop where
  whole : a.record.length = 46
  passed : inspectRefusal a s = none
  read : readCredential s.tables a.record = .product p

/-- What is read at take (R33, R56). -/
def takenCopy (a : InspectArgs) (p : Product) : InspectCopy where
  coach := a.coach.toNat
  heads := a.heads.toNat
  record := a.record
  product := p

section
variable {s : State} {slot : Slot} {tag : Half} {a : InspectArgs} {p : Product}

theorem evaluates_of {c : Credential} (whole : a.record.length = 46) (hc : c = Credential.ofRecord a.record)
    (opened : s.runOpen = true) (coach : a.coach ≠ 0) (known : a.coach.toNat ≤ s.run.coachCount) (heads : a.heads.toNat ≤ 9)
    (good : crc (a.record.take 44) = c.check) (general : c.generalRanges = true)
    (found : s.tables.productWithCode c.productCode = some p) (kind : c.kindRanges p = true) : s.Evaluates a p := by
  subst hc
  refine ⟨whole, inspectRefusal_none opened coach known heads, ?_⟩
  rw [readCredential_ranged good general, readProduct_some found, if_pos kind]

theorem ownInspect_evaluates {taken : State} (bus : s.busLeft = none) (inHand : s.hasInHand slot = true) (h : s.Evaluates a p) :
    ownInspect slot tag a taken s = holdOrEvaluate slot tag (takenCopy a p) s := by
  rw [ownInspect_examined bus inHand h.passed]
  unfold runStages
  rw [padTo_of_length h.whole, h.read]
  simp only [inspectCopy, padTo_of_length h.whole]
  rfl

/-- The checks and stages 1 to 3 read the run and the table store only. -/
theorem State.Evaluates.congr {v : State} (h : s.Evaluates a p) (run : v.run = s.run) (tables : v.tables = s.tables) :
    v.Evaluates a p where
  whole := h.whole
  passed := by
    have passed := h.passed
    unfold inspectRefusal State.runOpen at passed ⊢
    rwa [run]
  read := by rw [tables]; exact h.read

/-- Stage 4 in its two cases. -/
theorem holdOrEvaluate_held {c : InspectCopy} {awaits : Awaits} (held : holdCondition s = some awaits) :
    holdOrEvaluate slot tag c s = holdNow (inspectHold slot tag awaits c s) s := by
  unfold holdOrEvaluate
  rw [held]

theorem holdOrEvaluate_free {c : InspectCopy} (free : holdCondition s = none) :
    holdOrEvaluate slot tag c s = afterEvaluations (pollInspection id) (evaluateInHand slot tag c s) := by
  unfold holdOrEvaluate
  rw [free]

/-- With nothing arriving and no access failing, stages 5 to 12 and the answer follow one another. -/
theorem evaluateInHand_quiet {c : InspectCopy} (arrivals : s.arrivals = []) (inHand : s.hasInHand slot = true)
    (kept : (recordInspection (judge c s) c s).hasInHand slot = true) :
    evaluateInHand slot tag c s =
      answerInHand slot tag .done (s.recordedAnswer (judge c s) c) (recordInspection (judge c s) c s) := by
  have current : s.clockCount ≤ (judge c s).clockCount := Nat.le_refl _
  have later : (recordInspection (judge c s) c s).arrivals = [] := (recordInspection_arrivals _ c s).trans arrivals
  unfold evaluateInHand answerInspection answerInHand answerInHandWith
  simp only [pollInspection_quiet arrivals, pollInspection_quiet later, pollAll_quiet later, inHand, kept, if_true,
    inspectionAnswer_current current]

theorem Serves.hasInHand {v u : State} {r : Request} {ns : List Notice} {ms : List (Nat × List Byte)}
    (h : Serves s v u slot tag r ns ms) : v.hasInHand slot = true := by simp [State.hasInHand, h.inHand]

/-- The answer ends the owner's part: with nothing arriving no examination of the hold list waits. -/
theorem Serves.afterEvaluations_answer {v u : State} {r : Request} {ns : List Notice} {ms : List (Nat × List Byte)}
    (h : Serves s v u slot tag r ns ms) (code : AnswerCode) (bytes : List Byte) (mid : State → State) :
    afterEvaluations mid (answerInHand slot tag code bytes v) = answerInHand slot tag code bytes v := by
  refine afterEvaluations_none ?_
  rw [answerInHand_quiet h.bus h.arrivals h.writes h.inHand]
  exact h.owed

end

/-- Settles O17. -/
theorem inspectHeld : Obligations.InspectHeld := by
  intro s slot tag a c p awaits canonical turn whole hc opened coach known heads good general found kind condition
  have evaluates := evaluates_of whole hc opened coach known heads good general found kind
  have held : holdCondition s = some awaits := by
    rcases condition with ⟨unplaced, rfl⟩ | ⟨placed, loading, rfl⟩
    · exact if_pos unplaced
    · rw [holdCondition, if_neg placed, if_pos loading]
  refine (serves_handed canonical turn tag _).parks turn rfl rfl ?_
  rw [ownInspect_evaluates (s := s.handed slot tag (.inspect a)) rfl (beq_self_eq_true _) (evaluates.congr rfl rfl),
    holdOrEvaluate_held (by exact held)]
  rfl

/-! ### The inspection judged and recorded (R76, R80 to R83, R114) -/

theorem mayPropose_iff {j : Judgement} {c : InspectCopy} :
    mayPropose j c = true ↔
      (j.verdict = .valid ∨ j.verdict = .noted) ∧ c.product.markable = true ∧ (Credential.ofRecord c.record).media = 1 := by
  simp [mayPropose, mediaMarkable, and_assoc]

theorem indexOf_eq_some {es : List Entry} {id : LongWord} {i : Nat} {e : Entry} (found : es[i]? = some e)
    (own : e.credentialId = id) (first : ∀ k < i, ∀ x, es[k]? = some x → x.credentialId ≠ id) : indexOf es id = some i := by
  obtain ⟨lt, rfl⟩ := List.getElem?_eq_some_iff.mp found
  refine List.findIdx?_eq_some_iff_getElem.mpr ⟨lt, beq_iff_eq.mpr own, fun k before => ?_⟩
  simpa using first k before _ (List.getElem?_eq_getElem (before.trans lt))

theorem modify_eq_set_of_getElem? {es : List Entry} {i : Nat} {e : Entry} (found : es[i]? = some e) (f : Entry → Entry) :
    es.modify i f = es.set i (f e) := by
  obtain ⟨lt, rfl⟩ := List.getElem?_eq_some_iff.mp found
  rw [List.modify_eq_take_cons_drop lt, List.set_eq_take_append_cons_drop, if_pos lt]

section
variable {s : State} {j : Judgement} {c : InspectCopy} {proposal : Option Proposal} {i : Nat} {f : Entry}

/-- The answer of a recorded inspection names the entry as stage 12 leaves it (R76). -/
theorem recordedAnswer_of_entry
    (made : admission s.roster (Credential.ofRecord c.record).credentialId = .updated i ∨
      admission s.roster (Credential.ofRecord c.record).credentialId = .created i)
    (entry : (s.recordedRoster j c)[i]? = some f)
    (proposed : proposal = if mayPropose j c then some (composeProposal s.run j c) else none) :
    s.recordedAnswer j c = (recordedAnswer j i f (proposal.map Proposal.bytes)).bytes := by
  have answer : inspectionAnswer j c s { s with roster := s.recordedRoster j c } =
      answerFor j c i { s with roster := s.recordedRoster j c } := by
    unfold inspectionAnswer
    rcases made with h | h <;> rw [h]
  have bytes : proposal.map Proposal.bytes = if mayPropose j c then some (composeProposal s.run j c).bytes else none := by
    rw [proposed]
    split <;> rfl
  unfold State.recordedAnswer
  rw [answer]
  unfold answerFor
  simp only [entry, bytes]

theorem recordedMirrors_same (same : (s.recordedRoster j c).length = s.roster.length) : s.recordedMirrors j c = [] :=
  if_pos same

end

theorem recordedAnswer_bytes (j : Judgement) (i : Nat) (f : Entry) (bytes : Option (List Byte)) :
    (recordedAnswer j i f bytes).bytes =
      le 1 j.verdict.rank ++ le 1 f.watch.kind.code ++ le 2 j.reasons.toNat ++ signed4 j.remaining ++ le 1 j.zonesAhead
        ++ le 1 f.watch.stage.code ++ le 2 i ++ le 1 f.inspections ++ [if bytes.isSome then 1 else 0]
        ++ padTo 16 (bytes.getD []) ++ le 2 j.denyCode.toNat ++ [BitVec.ofNat 8 j.stop] ++ zeros 3 ++ le 4 j.clockCount := by
  simp only [InspectAnswer.bytes, recordedAnswer, flagByte, stopByte, Option.getD_some]
  rfl

/-- Settles O18. -/
theorem inspectRecorded : Obligations.InspectRecorded := by
  intro s slot tag a c p copy j proposal denied canonical turn whole hc opened coach known heads good general found kind
    placed loaded hcopy hj hproposal hdenied
  have evaluates := evaluates_of whole hc opened coach known heads good general found kind
  have taken : copy = takenCopy a p := hcopy
  have id : (Credential.ofRecord copy.record).credentialId = c.credentialId := by rw [hc, taken, takenCopy]
  have proposed : proposal = if mayPropose j copy then some (composeProposal s.run j copy) else none := by
    rw [hproposal]
    refine if_congr ?_ rfl rfl
    rw [mayPropose_iff, taken, hc]
    rfl
  refine ⟨?answered, ?judged, ?updated, fun absent => ⟨?created, ?full⟩, fun i f bytes => ?bytes⟩
  case answered =>
    subst hj
    have serves := serves_recorded (j := judge copy s) (c := copy) (tag := tag) (r := .inspect a) canonical turn (Nat.le_refl _)
    refine serves.answers turn rfl ?_
    have free : holdCondition (s.handed slot tag (.inspect a)) = none := by
      exact (if_neg placed).trans (if_neg loaded)
    rw [ownInspect_evaluates (s := s.handed slot tag (.inspect a)) rfl (beq_self_eq_true _) (evaluates.congr rfl rfl),
      holdOrEvaluate_free free, ← taken,
      evaluateInHand_quiet rfl (by simp [State.hasInHand, State.handed]) (by exact serves.hasInHand)]
    exact serves.afterEvaluations_answer _ _ _
  case bytes =>
    rw [recordedAnswer_bytes, show j.clockCount = s.clockCount by rw [hj]; rfl]
  case judged =>
    subst hj hcopy hc
    exact ⟨rfl, rfl, rfl, rfl, rfl, rfl, rfl, rfl, rfl⟩
  case updated =>
    intro i e f entry own first hf
    have index := indexOf_eq_some entry (own.trans id.symm) (fun k before x at_k => id ▸ first k before x at_k)
    have roster : s.recordedRoster j copy = s.roster.set i f := by
      rw [recordedRoster_updated index, modify_eq_set_of_getElem? entry, hf, hdenied, proposed, hc, hj, taken]
      rfl
    refine ⟨roster, recordedMirrors_same (by simp [roster]),
      recordedAnswer_of_entry (.inl (admission_of_indexOf index)) ?_ proposed⟩
    obtain ⟨lt, -⟩ := List.getElem?_eq_some_iff.mp entry
    simp [roster, lt]
  case created =>
    intro f room hf
    have fresh := indexOf_none.mpr fun x on => id ▸ absent x on
    have roster : s.recordedRoster j copy = s.roster ++ [f] := by
      rw [recordedRoster_created fresh room, hf, hdenied, proposed, hc, hj, taken]
      rfl
    refine ⟨roster, ?_, recordedAnswer_of_entry (.inr (admission_of_room fresh room)) (by simp [roster]) proposed⟩
    rw [State.recordedMirrors, roster, if_neg (by simp)]
  case full =>
    intro full
    have fresh := indexOf_none.mpr fun x on => id ▸ absent x on
    have roster : s.recordedRoster j copy = s.roster := recordedRoster_full fresh full
    refine ⟨roster, recordedMirrors_same (by rw [roster]), _, rfl, ?_⟩
    rw [State.recordedAnswer, inspectionAnswer, admission_of_full fresh full]
    subst hj
    rfl

end Sys2Proof.Machine

/-! Bytes and the records they spell: fields of records written one after another, a slot's request (R145, R148), and a proposed
mark (R115). -/

namespace Sys2Proof.Machine

/-! ### Fields -/

section
variable {xs ys : List Byte} {off len : Nat}

theorem field_append_left (within : off + len ≤ xs.length) : field off len (xs ++ ys) = field off len xs := by
  rw [field, field, List.drop_append_of_le_length (by omega), List.take_append_of_le_length (by simp; omega)]

theorem field_append_right (beyond : xs.length ≤ off) : field off len (xs ++ ys) = field (off - xs.length) len ys := by
  rw [field, field, List.drop_append, List.drop_eq_nil_of_le beyond, List.nil_append]

@[simp] theorem field_cons_succ (b : Byte) : field (off + 1) len (b :: xs) = field off len xs := rfl

@[simp] theorem field_cons_zero (b : Byte) : field 0 1 (b :: xs) = b.toNat := by simp [field, leNat]

@[simp] theorem field_le (n v : Nat) : field 0 n (le n v) = v % 256 ^ n := by
  rw [field, List.drop_zero, List.take_of_length_le (by simp), leNat_le]

end

theorem half_mod (x : Half) : x.toNat % 65536 = x.toNat := Nat.mod_eq_of_lt x.isLt
theorem word_mod (x : Word) : x.toNat % 4294967296 = x.toNat := Nat.mod_eq_of_lt x.isLt

/-! ### What a slot spells (R145, R148) -/

theorem padTo_eq_append {n : Nat} {bs : List Byte} (fits : bs.length ≤ n) : padTo n bs = bs ++ zeros (n - bs.length) := by
  rw [padTo, List.take_of_length_le fits, zeros]

theorem argBytes_length_le (r : Request) : r.argBytes.length ≤ 64 := by
  cases r <;>
    simp [Request.argBytes, SetClockArgs.bytes, OpenRunArgs.bytes, InspectArgs.bytes, ReadRosterArgs.bytes, ConfirmMarkArgs.bytes,
      LoadTableArgs.bytes, ProtectTableArgs.bytes, ReadTableArgs.bytes]

theorem setClockArgs_ofBytes (a : SetClockArgs) (rest : List Byte) : SetClockArgs.ofBytes (a.bytes ++ rest) = a := by
  simp [SetClockArgs.ofBytes, SetClockArgs.bytes, argField, field_append_left, field_append_right, half_mod]

theorem openRunArgs_ofBytes {a : OpenRunArgs} (classes : a.classes.length = 16) (rest : List Byte) :
    OpenRunArgs.ofBytes (a.bytes ++ rest) = a := by
  simp [OpenRunArgs.ofBytes, OpenRunArgs.bytes, argField, field_append_left, field_append_right,
    padTo_of_length classes, List.drop_append, List.drop_eq_nil_of_le, classes, word_mod]

theorem inspectArgs_ofBytes {a : InspectArgs} (record : a.record.length = 46) (rest : List Byte) :
    InspectArgs.ofBytes (a.bytes ++ rest) = a := by
  simp [InspectArgs.ofBytes, InspectArgs.bytes, argField, padTo_of_length record, record]

theorem readRosterArgs_ofBytes (a : ReadRosterArgs) (rest : List Byte) : ReadRosterArgs.ofBytes (a.bytes ++ rest) = a := by
  simp [ReadRosterArgs.ofBytes, ReadRosterArgs.bytes, argField, field_append_left, field_append_right, half_mod, word_mod]

theorem confirmMarkArgs_ofBytes {a : ConfirmMarkArgs} (readBack : a.readBack.length = 16) (rest : List Byte) :
    ConfirmMarkArgs.ofBytes (a.bytes ++ rest) = a := by
  simp [ConfirmMarkArgs.ofBytes, ConfirmMarkArgs.bytes, argField, field_append_left, padTo_of_length readBack, readBack, half_mod]

theorem loadTableArgs_ofBytes (a : LoadTableArgs) (rest : List Byte) : LoadTableArgs.ofBytes (a.bytes ++ rest) = a := by
  simp [LoadTableArgs.ofBytes, LoadTableArgs.bytes, argField, field_append_left, field_append_right, half_mod, word_mod]

theorem readTableArgs_ofBytes (a : ReadTableArgs) (rest : List Byte) : ReadTableArgs.ofBytes (a.bytes ++ rest) = a := by
  simp [ReadTableArgs.ofBytes, ReadTableArgs.bytes, argField, field_append_left, field_append_right, word_mod]

theorem protectTableArgs_ofBytes (a : ProtectTableArgs) (rest : List Byte) : ProtectTableArgs.ofBytes (a.bytes ++ rest) = a := by
  simp [ProtectTableArgs.ofBytes, ProtectTableArgs.bytes, argField]

theorem argField_byte (b : Byte) (rest : List Byte) : argField 8 0 1 (b :: rest) = b := by simp [argField]

theorem argField_half (x : Half) (rest : List Byte) : argField 16 0 2 (le 2 x.toNat ++ rest) = x := by
  simp [argField, field_append_left, half_mod]

theorem ofSlot_malformed {kind : Byte} (unknown : kind = 0 ∨ 14 < kind.toNat) (args : List Byte) :
    Request.ofSlot kind args = .malformed kind := by
  unfold Request.ofSlot
  split
  case h_15 => rfl
  all_goals
    exfalso
    bv_omega

theorem ofSlot_argBytes {r : Request} (formed : r.wellFormed = true) : Request.ofSlot r.kindByte (padTo 64 r.argBytes) = r := by
  rw [padTo_eq_append (argBytes_length_le r)]
  generalize zeros (64 - r.argBytes.length) = rest
  cases r with
  | setClock a => exact congrArg Request.setClock (setClockArgs_ofBytes a rest)
  | openRun a => exact congrArg Request.openRun (openRunArgs_ofBytes (beq_iff_eq.mp formed) rest)
  | depart next => exact congrArg Request.depart (argField_byte next rest)
  | arrive stop => exact congrArg Request.arrive (argField_byte stop rest)
  | closeRun => rfl
  | inspect a => exact congrArg Request.inspect (inspectArgs_ofBytes (beq_iff_eq.mp formed) rest)
  | dismiss index => exact congrArg Request.dismiss (argField_half index rest)
  | readRoster a => exact congrArg Request.readRoster (readRosterArgs_ofBytes a rest)
  | confirmMark a => exact congrArg Request.confirmMark (confirmMarkArgs_ofBytes (beq_iff_eq.mp formed) rest)
  | loadTable a => exact congrArg Request.loadTable (loadTableArgs_ofBytes a rest)
  | protectTable a => exact congrArg Request.protectTable (protectTableArgs_ofBytes a rest)
  | readTable a => exact congrArg Request.readTable (readTableArgs_ofBytes a rest)
  | wipe => rfl
  | withdraw named => exact congrArg Request.withdraw (argField_byte named rest)
  | malformed kind => exact ofSlot_malformed (kind := kind) (by simpa [Request.wellFormed] using formed) _

/-! ### A posted slot in host memory -/

theorem readRun_within (size : Nat) (m : Memory) (a : Nat) {i n k : Nat} (within : i + n ≤ k) :
    Memory.readRun size m (a + i) n = ((Memory.readRun size m a k).drop i).take n := by
  refine List.ext_getElem (by simp; omega) fun j h1 h2 => ?_
  simp [Memory.readRun, Nat.add_assoc]

section
variable {s : State} (canonical : Memory.wf s.hostMemory = true) (slot : Slot) (tag : Half) (r : Request)
include canonical

theorem post_head :
    (post slot tag r s).hostBytes (s.slotAddress slot) 4 = [SlotState.posted.code, r.kindByte] ++ le 2 tag.toNat := by
  have written := Memory.readRun_writeRun_same (size := hostSize) (a := s.slotAddress slot)
    (bs := [SlotState.posted.code, r.kindByte] ++ le 2 tag.toNat)
    (Memory.wf_writeRun (size := hostSize) (a := s.slotAddress slot + 8) (bs := padTo 64 r.argBytes) canonical)
    (by simp [hostSize])
  simpa [State.hostBytes, post] using written

theorem post_arguments : (post slot tag r s).hostBytes (s.slotAddress slot + 8) 64 = padTo 64 r.argBytes := by
  have written := Memory.readRun_writeRun_same (size := hostSize) (a := s.slotAddress slot + 8) (bs := padTo 64 r.argBytes)
    canonical (by rw [padTo_length]; decide)
  rw [padTo_length] at written
  have apart := readRun_area (base := s.slotAddress slot) (o := 8) (n := 64) (o' := 0)
    (m := Memory.writeRun hostSize s.hostMemory (s.slotAddress slot + 8) (padTo 64 r.argBytes))
    (bs := [SlotState.posted.code, r.kindByte] ++ le 2 tag.toNat) (.inr (by simp)) (by decide) (by simp [hostSize])
  rw [Nat.add_zero] at apart
  exact apart.trans written

theorem post_isPosted : (post slot tag r s).isPosted slot = true := by
  have head := post_head canonical slot tag r
  have first : Memory.read (post slot tag r s).hostMemory (s.slotAddress slot % hostSize) = SlotState.posted.code := by
    have byte := congrArg (fun bs : List Byte => bs[0]?) head
    simpa [State.hostBytes, Memory.readRun, List.getElem?_map] using byte
  exact beq_iff_eq.mpr first

theorem post_tag : (post slot tag r s).slotTag slot = tag := by
  have bytes : (post slot tag r s).hostBytes (s.slotAddress slot + 2) 2 = le 2 tag.toNat := by
    rw [State.hostBytes, readRun_within (k := 4) _ _ _ (by decide), ← State.hostBytes, post_head canonical]
    simp
  rw [State.slotTag, show (post slot tag r s).slotAddress slot = s.slotAddress slot from rfl, bytes]
  simp [half_mod]

theorem post_kind : BitVec.ofNat 8 (field 0 1 ((post slot tag r s).hostBytes (s.slotAddress slot + 1) 1)) = r.kindByte := by
  rw [State.hostBytes, readRun_within (k := 4) _ _ _ (by decide), ← State.hostBytes, post_head canonical]
  simp

end

/-- Settles O43: the argument bytes give the operands back, request by request, and a posted slot shows both. -/
theorem slotRoundTrip : Obligations.SlotRoundTrip := by
  intro r s slot tag formed canonical
  have spelt := ofSlot_argBytes formed
  refine ⟨spelt, ?_, post_tag canonical slot tag r, argBytes_length_le r⟩
  rw [State.slotRequest, show (post slot tag r s).slotAddress slot = s.slotAddress slot from rfl, post_kind canonical,
    post_arguments canonical, spelt]

/-- Settles O42. -/
theorem postedRequestWaits : Obligations.PostedRequestWaits := by
  intro s slot tag r canonical notNext _
  refine ⟨?_, post_isPosted canonical slot tag r⟩
  have passed : (post slot tag r (beginStep Env.quiet s)).takesNext slot = false := by
    rw [takesNext_post]
    exact Bool.eq_false_iff.mpr notNext
  have waits : ∀ owner, requestStep slot tag r Env.quiet owner s = endStep (post slot tag r s) := fun owner => by
    simp only [requestStep, passed]
    rfl
  cases r with
  | malformed kind =>
    refine congrArg Host.Outcome.next ?_
    split
    · exact waits _
    · rfl
  | _ => exact congrArg Host.Outcome.next (waits _)

end Sys2Proof.Machine

/-! DISMISS and CONFIRM_MARK, and the mark that is proposed and read back (5.5, 7.2, 7.4). -/

namespace Sys2Proof.Machine

/-! ### DISMISS (R89) -/

section
variable {s : State} {slot : Slot}

/-- A change of the roster while the request is in hand. -/
theorem serves_roster (canonical : Memory.wf s.hostMemory = true) (turn : s.isNext slot) (tag : Half) (r : Request)
    (roster : List Entry) :
    Serves s { s.handed slot tag r with roster := roster } { s with roster := roster } slot tag r [] [] :=
  (serves_handed canonical turn tag r).change (c := s.clock) _ _ _ _ (.inl rfl)

theorem ownDismiss_absent {tag : Half} {index : Half} (absent : s.roster[index.toNat]? = none) :
    ownDismiss slot tag index s = answerInHand slot tag .notFound (dismissAnswer index Watch.off false) s := by
  unfold ownDismiss
  rw [absent]

theorem ownDismiss_entry {tag : Half} {index : Half} {e : Entry} (entry : s.roster[index.toNat]? = some e) :
    ownDismiss slot tag index s =
      answerInHand slot tag .done (dismissAnswer index e.dismissed.watch e.mark.proposal.isSome)
        { s with roster := s.roster.set index.toNat e.dismissed } := by
  unfold ownDismiss
  rw [entry]
  simp only [setEntry, modify_eq_set_of_getElem? entry]

end

/-- Settles O32. -/
theorem dismissClears : Obligations.DismissClears := by
  intro s slot tag index canonical turn
  refine ⟨fun beyond => ?_, fun e entry => ?_⟩
  · have absent : s.roster[index.toNat]? = none := List.getElem?_eq_none_iff.mpr beyond
    exact answersUnchanged_of canonical turn rfl (ownDismiss_absent absent)
  · exact (serves_roster canonical turn tag _ _).answers turn rfl (ownDismiss_entry (by exact entry))

/-! ### CONFIRM_MARK (R119 to R123) -/

section
variable {s : State} {slot : Slot} {tag : Half} {a : ConfirmMarkArgs}

theorem ownConfirmMark_shut (shut : s.runOpen = false) :
    ownConfirmMark slot tag a s =
      answerInHand slot tag .refusedNoRun (confirmAnswer a.index .noResult MarkRecord.fresh) s := if_pos shut

theorem ownConfirmMark_absent (opened : s.runOpen = true) (absent : s.roster[a.index.toNat]? = none) :
    ownConfirmMark slot tag a s = answerInHand slot tag .notFound (confirmAnswer a.index .noResult MarkRecord.fresh) s := by
  rw [ownConfirmMark, if_neg (by simp [opened])]
  simp only [absent]

theorem ownConfirmMark_noProposal {e : Entry} (opened : s.runOpen = true) (entry : s.roster[a.index.toNat]? = some e)
    (none : e.mark.proposal = .none) :
    ownConfirmMark slot tag a s = answerInHand slot tag .tooLate (confirmAnswer a.index .noResult e.mark) s := by
  rw [ownConfirmMark, if_neg (by simp [opened])]
  simp only [entry, none]

theorem ownConfirmMark_judged {e : Entry} {p : Proposal} {result : MarkResult} (opened : s.runOpen = true)
    (entry : s.roster[a.index.toNat]? = some e) (pending : e.mark.proposal = some p) (whole : a.readBack.length = 16)
    (judged : judgeReadBack p.bytes a.readBack = result) :
    ownConfirmMark slot tag a s =
      answerInHand slot tag .done (confirmAnswer a.index result (e.mark.afterResult result))
        { s with roster := s.roster.set a.index.toNat { e with mark := e.mark.afterResult result } } := by
  rw [ownConfirmMark, if_neg (by simp [opened])]
  simp only [entry, pending, padTo_of_length whole, judged, confirmEntry, setEntry, modify_eq_set_of_getElem? entry]

end

/-- The counter the card carried: one below the proposal's, wrapping (R120). -/
theorem originalCounter_eq (bs : List Byte) : (originalCounter bs : Int) = ((markCounterOf bs : Int) - 1) % 65536 := by
  unfold originalCounter
  omega

/-- Settles O30. -/
theorem confirmMarkJudged : Obligations.ConfirmMarkJudged := by
  intro s slot tag a canonical turn whole
  refine ⟨fun shut => ?_, fun opened beyond => ?_, fun e opened entry => ⟨fun none => ?_, fun p result after pending tests => ?_⟩⟩
  · exact answersUnchanged_of canonical turn rfl (ownConfirmMark_shut shut)
  · exact answersUnchanged_of canonical turn rfl (ownConfirmMark_absent opened (List.getElem?_eq_none_iff.mpr beyond))
  · exact answersUnchanged_of canonical turn rfl (ownConfirmMark_noProposal opened entry none)
  · have judged : judgeReadBack p.bytes a.readBack = result ∧ after = e.mark.afterResult result := by
      unfold judgeReadBack
      rcases tests with ⟨same, rfl, rfl⟩ | ⟨other, counter, rfl, rfl⟩ | ⟨other, counter, rfl, rfl⟩
      · exact ⟨if_pos same, rfl⟩
      · rw [← originalCounter_eq, Int.natCast_inj] at counter
        exact ⟨by rw [if_neg other, if_pos counter], rfl⟩
      · rw [← originalCounter_eq, Ne, Int.natCast_inj] at counter
        exact ⟨by rw [if_neg other, if_neg counter], rfl⟩
    obtain ⟨verdict, rfl⟩ := judged
    exact (serves_roster canonical turn tag _ _).answers turn rfl
      (ownConfirmMark_judged (s := s.handed slot tag (.confirmMark a)) opened entry pending whole verdict)

/-! ### A proposed mark (R115, R116, R126) -/

/-- The fields of a mark composed with its check, each cut to its bytes. -/
theorem markOf_markBody (runId : Word) (terminal : Byte) (coach n stop : Nat) (verdict : Verdict) (counter : Nat) :
    Mark.ofBytes (withCheck (markBody runId terminal coach n stop verdict counter)) =
      { runId := runId, terminal := terminal, coach := coach % 256, serviceDay := n / 1440 % 65536,
        serviceMinute := n % 1440 % 65536, stop := stop % 256, verdict := verdict.rank % 256, counter := counter % 65536,
        check := crc (markBody runId terminal coach n stop verdict counter) } := by
  have body : (markBody runId terminal coach n stop verdict counter).length = 14 := by simp [markBody]
  generalize hcheck : crc (markBody runId terminal coach n stop verdict counter) = check
  simp only [Mark.ofBytes, withCheck, hcheck, Mark.mk.injEq]
  simp [field_append_left, field_append_right, body, half_mod]
  simp [markBody, field_append_left, field_append_right, word_mod]

theorem field_lt (off len : Nat) (bs : List Byte) : field off len bs < 256 ^ len :=
  (leNat_lt _).trans_le (Nat.pow_le_pow_right (by decide) (List.length_take_le ..))

theorem Verdict.rank_lt (v : Verdict) : v.rank < 256 := by cases v <;> decide

/-- Settles O31. -/
theorem proposedMarkReadsBack : Obligations.ProposedMarkReadsBack := by
  intro r j c p m hp hm coach stop count
  obtain ⟨body, hbody⟩ : ∃ body, body = markBody r.runId r.terminal c.coach j.clockCount j.stop j.verdict
      (((Credential.ofRecord c.record).markCounter + 1) % 65536) := ⟨_, rfl⟩
  have length : body.length = 14 := by simp [hbody, markBody]
  have bytes : p.bytes = withCheck body := by rw [hp, hbody]; rfl
  have mark := markOf_markBody r.runId r.terminal c.coach j.clockCount j.stop j.verdict
    (((Credential.ofRecord c.record).markCounter + 1) % 65536)
  rw [← hbody, ← bytes, ← hm] at mark
  have first : p.bytes.take 14 = body := by rw [bytes, withCheck, List.take_left' length]
  have counter : m.counter = ((Credential.ofRecord c.record).markCounter + 1) % 65536 := by rw [mark]; simp
  have card : (Credential.ofRecord c.record).markCounter < 65536 := field_lt 24 2 c.record
  have rank := j.verdict.rank_lt
  refine ⟨?_, by rw [hp]; rfl, ?_, ?_, ?_, ?_, ?_, ?_, ?_, counter, ?_, ?_, if_pos rfl, ?_⟩
  · rw [hp, composeProposal_length]
  · rw [mark]
  · rw [mark]
  · rw [mark]; exact Nat.mod_eq_of_lt coach
  · rw [mark]; exact Nat.mod_eq_of_lt stop
  · rw [mark]; exact Nat.mod_eq_of_lt rank
  · rw [mark]; simp only; omega
  · rw [mark]; simp only; omega
  · rw [mark, first]
  · rw [markTrusted_iff, ← hm, mark, first]
    exact ⟨rfl, rfl⟩
  · have own : markCounterOf p.bytes = m.counter := by rw [hm]; rfl
    rw [originalCounter, own, counter]
    omega

end Sys2Proof.Machine

/-! Watches (chapter 6): the time advance and the zone advance as raises of a stage, and what arming gives. -/

namespace Sys2Proof.Machine

/-! ### A stage raised -/

/-- A stage raised to another one: CLEARED stays, and no stage falls (R102, R107). -/
def WatchStage.raised (target stage : WatchStage) : WatchStage :=
  if stage = .cleared ∨ target.code ≤ stage.code then stage else target

theorem WatchStage.code_inj {a b : WatchStage} : a.code = b.code ↔ a = b := by cases a <;> cases b <;> decide

theorem WatchStage.code_eq_zero {a : WatchStage} : a.code = 0 ↔ a = .cleared := code_inj (b := .cleared)

theorem WatchStage.code_raised (target stage : WatchStage) :
    (raised target stage).code = if stage = .cleared then 0 else max stage.code target.code := by
  unfold raised
  by_cases cleared : stage = .cleared
  · simp [cleared, code]
  · by_cases falls : target.code ≤ stage.code
    · simp [cleared, falls]
    · simp [cleared, falls]
      omega

theorem WatchStage.raised_eq_cleared {target stage : WatchStage} : raised target stage = .cleared ↔ stage = .cleared := by
  unfold raised
  split
  next stays =>
    exact Iff.rfl
  next raises =>
    rw [not_or, Nat.not_le] at raises
    refine ⟨fun cleared => ?_, fun cleared => absurd cleared raises.1⟩
    rw [← code_eq_zero] at cleared
    omega

@[simp] theorem WatchStage.raised_cleared (stage : WatchStage) : raised .cleared stage = stage :=
  if_pos (.inr (Nat.zero_le _))

@[simp] theorem WatchStage.raised_self_cleared (target : WatchStage) : raised target .cleared = .cleared := if_pos (.inl rfl)

theorem WatchStage.raised_raised_code (a b stage : WatchStage) :
    (raised a (raised b stage)).code = max (raised a stage).code (raised b stage).code := by
  simp only [code_raised, raised_eq_cleared]
  split <;> omega

theorem WatchStage.raised_comm (a b stage : WatchStage) : raised a (raised b stage) = raised b (raised a stage) := by
  rw [← code_inj, raised_raised_code, raised_raised_code, Nat.max_comm]

/-! ### The time advance (R104) -/

section
variable {w : Watch} {lead n l : Nat}

theorem WatchKind.hasTime_iff {k : WatchKind} : k.hasTime = true ↔ k = .time ∨ k = .both := by cases k <;> decide
theorem WatchKind.hasZone_iff {k : WatchKind} : k.hasZone = true ↔ k = .zone ∨ k = .both := by cases k <;> decide

/-- The stage that a time part calls for: LAPSED from the lapse count on, NEAR within the watch lead, none before. -/
def Watch.timeTarget (w : Watch) (lead n : Nat) : WatchStage :=
  if w.kind.hasTime then w.lapse.elim .cleared fun l => if l ≤ n then .lapsed else if l ≤ n + lead then .near else .cleared
  else .cleared

theorem timeMove_of_part (part : w.kind.hasTime = true) (lapse : w.lapse = some l) :
    w.timeMove lead n =
      if w.stage = .armed then if l ≤ n then some .lapsed else if l ≤ n + lead then some .near else none
      else if w.stage = .near then if l ≤ n then some .lapsed else none else none := by
  unfold Watch.timeMove
  rw [part, lapse]
  cases w.stage <;> simp

theorem timeMove_of_no_part (part : w.kind.hasTime = false) : w.timeMove lead n = none := by
  unfold Watch.timeMove
  rw [part]

theorem timeMove_of_no_lapse (lapse : w.lapse = none) : w.timeMove lead n = none := by
  unfold Watch.timeMove
  rw [lapse]
  cases w.kind.hasTime <;> rfl

/-- The time advance raises the stage to what the time part calls for. -/
theorem timeMove_getD (w : Watch) (lead n : Nat) :
    (w.timeMove lead n).getD w.stage = WatchStage.raised (w.timeTarget lead n) w.stage := by
  unfold Watch.timeTarget
  cases part : w.kind.hasTime with
  | false => simp [timeMove_of_no_part part]
  | true =>
    cases lapse : w.lapse with
    | none => simp [timeMove_of_no_lapse lapse]
    | some l =>
      rw [timeMove_of_part part lapse]
      simp only [if_true, Option.elim_some]
      by_cases late : l ≤ n
      · cases w.stage <;> simp [late, WatchStage.raised, WatchStage.code]
      · by_cases near : l ≤ n + lead <;> cases w.stage <;> simp [late, near, WatchStage.raised, WatchStage.code]

end

/-! ### The zone advance (R106) -/

section
variable {t : Tables} {d : Direction} {stop : Nat} {e : Entry}

/-- The stage that a zone part calls for at a stop: LAPSED outside the coverage, NEAR with no zone ahead, else none. -/
def Entry.zoneTarget (t : Tables) (d : Direction) (stop : Nat) (e : Entry) : WatchStage :=
  if e.watch.kind.hasZone then
    if e.coverage.covers t stop then if zonesAhead t d e.coverage stop = 0 then .near else .cleared else .lapsed
  else .cleared

theorem zoneMove_of_part (part : e.watch.kind.hasZone = true) :
    zoneMove t d stop e =
      if e.watch.stage = .armed then
        if e.coverage.covers t stop then if zonesAhead t d e.coverage stop = 0 then some .near else none else some .lapsed
      else if e.watch.stage = .near then if e.coverage.covers t stop then none else some .lapsed else none := by
  rw [zoneMove, if_pos part]
  cases e.watch.stage <;> simp

theorem zoneMove_of_no_part (part : e.watch.kind.hasZone = false) : zoneMove t d stop e = none := by simp [zoneMove, part]

theorem zoneMove_getD (t : Tables) (d : Direction) (stop : Nat) (e : Entry) :
    (zoneMove t d stop e).getD e.watch.stage = WatchStage.raised (e.zoneTarget t d stop) e.watch.stage := by
  unfold Entry.zoneTarget
  cases part : e.watch.kind.hasZone with
  | false => simp [zoneMove_of_no_part part]
  | true =>
    rw [zoneMove_of_part part]
    simp only [if_true]
    by_cases inside : e.coverage.covers t stop = true
    · by_cases last : zonesAhead t d e.coverage stop = 0 <;> cases e.watch.stage <;>
        simp [inside, last, WatchStage.raised, WatchStage.code]
    · cases e.watch.stage <;> simp [inside, WatchStage.raised, WatchStage.code]

end

/-! ### One entry under both advances (R107) -/

theorem ticked_watch (s : State) (n : Nat) (e : Entry) :
    (Entry.ticked s n e).watch =
      { e.watch with
        stage := WatchStage.raised (if s.runOpen then e.watch.timeTarget s.run.watchLead n else .cleared) e.watch.stage } := by
  have moved := timeMove_getD e.watch s.run.watchLead n
  cases hopen : s.runOpen with
  | false => simp [Entry.ticked, hopen]
  | true =>
    simp only [Entry.ticked, hopen, if_true, ← moved]
    cases e.watch.timeMove s.run.watchLead n <;> rfl

theorem zoned_watch (t : Tables) (d : Direction) (stop : Nat) (e : Entry) :
    (Entry.zoned t d stop e).watch =
      { e.watch with stage := WatchStage.raised (e.zoneTarget t d stop) e.watch.stage } := by
  rw [← zoneMove_getD, Entry.zoned]
  cases zoneMove t d stop e <;> rfl

theorem raised_of_ended {stage : WatchStage} (ended : stage = .lapsed ∨ stage = .cleared) (target : WatchStage) :
    WatchStage.raised target stage = stage := by
  rcases ended with rfl | rfl
  · exact if_pos (.inr (by cases target <;> decide))
  · simp

/-- Settles O26: both advances raise the stage, each to what its part calls for, and raises commute. -/
theorem watchAdvances : Obligations.WatchAdvances := by
  refine ⟨⟨?time, fun w lead n other => ?noTime, fun w lead n ended => ?ended, fun stage => ?notices⟩, ?zone, ?both⟩
  case time =>
    intro w lead n l kind lapse
    rw [timeMove_of_part (WatchKind.hasTime_iff.mpr kind) lapse]
    refine ⟨?_, ?_, ?_, ?_⟩ <;> split_ifs <;> simp_all
  case noTime =>
    exact timeMove_of_no_part (by rcases other with h | h <;> rw [h] <;> rfl)
  case ended =>
    cases part : w.kind.hasTime with
    | false => exact timeMove_of_no_part part
    | true =>
      cases lapse : w.lapse with
      | none => exact timeMove_of_no_lapse lapse
      | some l =>
        rw [timeMove_of_part part lapse]
        rcases ended with h | h <;> rw [h] <;> rfl
  case notices =>
    cases stage <;> decide
  case zone =>
    intro t d stop e
    rw [← WatchKind.hasZone_iff]
    cases part : e.watch.kind.hasZone with
    | false => simp [zoneMove_of_no_part part]
    | true =>
      rw [zoneMove_of_part part]
      refine ⟨?_, ?_, ?_, ?_⟩ <;> split_ifs <;> simp_all
  case both =>
    intro s t d stop n e
    have time : (Entry.zoned t d stop e).watch.timeTarget s.run.watchLead n = e.watch.timeTarget s.run.watchLead n := by
      rw [zoned_watch]
      rfl
    have zone : (Entry.ticked s n e).zoneTarget t d stop = e.zoneTarget t d stop := by
      simp only [Entry.zoneTarget, ticked_watch]
      rfl
    simp only [zoned_watch t d stop (Entry.ticked s n e), ticked_watch s n (Entry.zoned t d stop e), time, zone]
    simp only [zoned_watch, ticked_watch, WatchStage.raised_raised_code]
    refine ⟨?_, trivial, fun idle => ?_, trivial, trivial⟩
    · rw [WatchStage.raised_comm]
    · rcases idle with lapsed | cleared | none
      · simp only [raised_of_ended (.inl lapsed), and_self]
      · simp only [raised_of_ended (.inr cleared), and_self]
      · have noZone : e.watch.kind.hasZone = false := by rw [none]; rfl
        have noTime : e.watch.kind.hasTime = false := by rw [none]; rfl
        simp [Entry.zoneTarget, Watch.timeTarget, noZone, noTime]

/-! ### Arming (R98 to R100) -/

theorem hasTime_ofParts (time zone : Bool) : (WatchKind.ofParts time zone).hasTime = time := by cases time <;> cases zone <;> rfl
theorem hasZone_ofParts (time zone : Bool) : (WatchKind.ofParts time zone).hasZone = zone := by cases time <;> cases zone <;> rfl

section
variable {s : State} {j : Judgement} {p : Product}

theorem armKind_none (off : (j.verdict ≠ .valid ∧ j.verdict ≠ .noted) ∨ p.watchClass = .none) : armKind s j p = .none := by
  refine if_neg ?_
  rcases off with ⟨valid, noted⟩ | none
  · simp [valid, noted]
  · simp [none]

theorem armKind_parts (verdict : j.verdict = .valid ∨ j.verdict = .noted) (watch : p.watchClass ≠ .none) :
    armKind s j p =
      WatchKind.ofParts (decide (j.lapseCount ≤ s.clock.topCount)) (!coversToTerminus s.tables s.run j.coverage) := by
  refine if_pos ?_
  rcases verdict with h | h <;> simp [h, watch]

theorem armWatch_kind : (armWatch s j p).kind = armKind s j p := by
  unfold armWatch
  split
  next off => rw [off, Watch.off]
  · rfl

theorem armWatch_lapse : (armWatch s j p).lapse = if (armKind s j p).hasTime then some j.lapseCount else none := by
  unfold armWatch
  split
  next off => rw [off, Watch.off]; rfl
  · rfl

theorem armWatch_stage (part : armKind s j p ≠ .none) :
    (armWatch s j p).stage = if armNear s j (armKind s j p) then .near else .armed := by
  rw [armWatch, if_neg part]

theorem armNear_iff {k : WatchKind} :
    armNear s j k = true ↔
      (k.hasTime = true ∧ j.lapseCount ≤ j.clockCount + s.run.watchLead) ∨ (k.hasZone = true ∧ j.zonesAhead = 0) := by
  simp [armNear]

theorem coversToTerminus_eq_false {t : Tables} {r : Run} {cov : Coverage} :
    coversToTerminus t r cov = false ↔
      ∃ x ∈ r.position.getD 0 :: stopsAhead t.stopCount r.direction (r.position.getD 0), cov.covers t x = false := by
  rw [coversToTerminus, List.all_eq_false]
  simp

end

/-- An inspection judged VALID or NOTED lies before the lapse count of its credential: EXPIRED is of a severer class. -/
theorem clockCount_lt_lapseCount {c : InspectCopy} {s : State}
    (verdict : (judge c s).verdict = .valid ∨ (judge c s).verdict = .noted) : s.clockCount < (judge c s).lapseCount := by
  by_contra late
  have expired : hasReason (judge c s).reasons .expired = true := by
    refine hasReason_reasonSet.mpr ?_
    simp only [List.mem_append]
    exact .inl (.inl (.inl (.inl (.inl (.inr (mem_timeReasons.mpr (.inr (.inr ⟨rfl, Nat.not_lt.mp late⟩))))))))
  have severe : Verdict.invalid.rank ≤ (judge c s).verdict.rank := rank_le_foldVerdict expired (by decide)
  rcases verdict with h | h <;> rw [h] at severe <;> exact absurd severe (by decide)

/-- Settles O27. -/
theorem armingTable : Obligations.ArmingTable := by
  intro s c j w hj hw
  subst hj hw
  refine ⟨fun off => if_pos (armKind_none off), fun verdict watch => ⟨?time, ?zone, fun part => ?stage⟩, ?lapse, fun time => ?ahead,
    (armWatch_shape s (judge c s) c.product).1⟩
  case time =>
    rw [armWatch_kind, armKind_parts verdict watch, hasTime_ofParts, decide_eq_true_iff]
  case zone =>
    rw [armWatch_kind, armKind_parts verdict watch, hasZone_ofParts, Bool.not_eq_true', coversToTerminus_eq_false]
  case stage =>
    rw [armWatch_kind] at part ⊢
    rw [armWatch_stage part]
    have near := armNear_iff (s := s) (j := judge c s) (k := armKind s (judge c s) c.product)
    change _ ↔ (_ ∧ (judge c s).lapseCount ≤ s.clockCount + s.run.watchLead) ∨ _ at near
    rw [← near]
    split <;> simp_all
  case lapse =>
    rw [armWatch_lapse, armWatch_kind]
  case ahead =>
    by_cases verdict : (judge c s).verdict = .valid ∨ (judge c s).verdict = .noted
    · exact clockCount_lt_lapseCount verdict
    · rw [not_or] at verdict
      rw [armWatch_kind, armKind_none (.inl verdict)] at time
      simp [WatchKind.hasTime] at time

end Sys2Proof.Machine

/-! An event that is no request, with nothing arriving and no access failing: `Tells s v u` says that the state `v`, at which an
event begun in `s` stands, carries the changes of `u`, in whatever state the port is. -/

namespace Sys2Proof.Machine

/-! ### The port told notices in any of its states (R153) -/

theorem told_of_writes {p : Port} (writes : p.state.writes = true) (n : Nat) : p.told n = p.offered n := by
  unfold Port.told
  split <;> simp_all [PortState.writes]

theorem told_of_stopped {p : Port} (stopped : p.state = .stopped) (n : Nat) : p.told n = p := by
  unfold Port.told
  rw [stopped]

theorem told_of_fault {p : Port} (fault : p.state = .fault) (n : Nat) :
    p.told n = if n = 0 then p else { p with overflow := true } := by
  unfold Port.told
  rw [fault]

theorem PortState.writes_or (p : PortState) : p.writes = true ∨ p = .stopped ∨ p = .fault := by cases p <;> decide

@[simp] theorem told_state (p : Port) (n : Nat) : (p.told n).state = p.state := by
  rcases p.state.writes_or with writes | stopped | fault
  · rw [told_of_writes writes, offered_state]
  · rw [told_of_stopped stopped]
  · rw [told_of_fault fault]
    split <;> rfl

@[simp] theorem told_zero (p : Port) : p.told 0 = p := by
  rcases p.state.writes_or with writes | stopped | fault
  · rw [told_of_writes writes, offered_zero]
  · rw [told_of_stopped stopped]
  · rw [told_of_fault fault, if_pos rfl]

theorem told_told (p : Port) (a b : Nat) : (p.told a).told b = p.told (a + b) := by
  rcases p.state.writes_or with writes | stopped | fault
  · rw [told_of_writes writes, told_of_writes (by exact writes), told_of_writes writes, offered_offered]
  · rw [told_of_stopped stopped, told_of_stopped stopped, told_of_stopped stopped]
  · rw [told_of_fault fault, told_of_fault (p := p) fault]
    by_cases none : a = 0
    · simp [none, told_of_fault fault]
    · rw [if_neg none, if_neg (by omega), told_of_fault (by exact fault)]
      split <;> rfl

theorem appendNotice_told {v : State} (bus : v.busLeft = none) (n : Notice) :
    appendNotice n v =
      { v with
        port := v.port.told 1
        hostMemory := if v.port.state.writes then v.noticeMemory n else v.hostMemory } := by
  rcases v.port.state.writes_or with writes | stopped | fault
  · rw [appendNotice_quiet bus writes, told_of_writes writes, if_pos writes]
  · rw [appendNotice_stopped stopped, told_of_stopped stopped, stopped]
    rfl
  · have silent : v.port.state.writes = false := by rw [fault]; rfl
    rw [appendNotice_fault fault, told_of_fault fault]
    simp only [silent]
    rfl

theorem busWrite_told {v : State} (bus : v.busLeft = none) (a : Nat) (bs : List Byte) :
    busWrite a bs v =
      { v with
        hostMemory := if v.port.state.writes then Memory.writeRun hostSize v.hostMemory a bs else v.hostMemory } := by
  cases writes : v.port.state.writes with
  | true => rw [busWrite_quiet bus writes, if_pos rfl]
  | false => rw [busWrite_silent writes, if_neg Bool.false_ne_true]

/-! ### The event under way -/

/-- The event begun in `s` stands at `v`: it has brought the changes of `u`, offered the notices `ns`, and written the ranges
`rs`, the header parts `ms` and the slot bytes `fs` (by their offsets in the area), all these where the port writes at all. -/
structure Tells (s v u : State) (rs : List (Nat × Nat)) (ns : List Notice) (ms fs : List (Nat × List Byte)) : Prop where
  bus : v.busLeft = none
  arrivals : v.arrivals = []
  owed : v.owed = []
  state : u.port.state = s.port.state
  port : v.port = u.port.told ns.length
  pending : v.pending = u.pending
  clock : v.clock = u.clock
  run : v.run = u.run
  tables : v.tables = u.tables
  roster : v.roster = u.roster
  power : v.power = u.power
  turns : v.turns = u.turns
  parts : ∀ m ∈ ms, 0x0C ≤ m.1 ∧ m.1 + m.2.length ≤ 0x100
  within : ∀ f ∈ fs, 0x500 ≤ f.1 ∧ f.1 + f.2.length ≤ 0x1500
  written : s.port.state.writes = true → Progress s v rs ns ms
  facts : s.port.state.writes = true → ∀ f ∈ fs, v.shows (s.areaAddress + f.1) f.2
  silent : s.port.state.writes = false → v.hostMemory = s.hostMemory

section
variable {s v u : State} {rs : List (Nat × Nat)} {ns : List Notice} {ms fs : List (Nat × List Byte)}

theorem tells_quieted (canonical : Memory.wf s.hostMemory = true) : Tells s s.quieted s [] [] [] [] where
  bus := rfl
  arrivals := rfl
  owed := rfl
  state := rfl
  port := (told_zero _).symm
  pending := rfl
  clock := rfl
  run := rfl
  tables := rfl
  roster := rfl
  power := rfl
  turns := rfl
  parts := by simp
  within := by simp
  written _ := (progress_refl canonical).change rfl rfl rfl rfl rfl (.inl rfl)
  facts := by simp
  silent _ := rfl

theorem Tells.portState (h : Tells s v u rs ns ms fs) : v.port.state = s.port.state := by rw [h.port, told_state, h.state]

/-- A change in the run, the tables or the roster, and in the clock while no notice has shown its count. -/
theorem Tells.change (h : Tells s v u rs ns ms fs) {c : Clock} (run : Run) (tables : Tables) (roster : List Entry) (turns : Nat)
    (count : ns = [] ∨ c.count = v.clockCount) :
    Tells s { v with clock := c, run := run, tables := tables, roster := roster, turns := turns }
      { u with clock := c, run := run, tables := tables, roster := roster, turns := turns } rs ns ms fs where
  bus := h.bus
  arrivals := h.arrivals
  owed := h.owed
  state := h.state
  port := h.port
  pending := h.pending
  clock := rfl
  run := rfl
  tables := rfl
  roster := rfl
  power := h.power
  turns := rfl
  parts := h.parts
  within := h.within
  written writes := (h.written writes).change rfl rfl rfl rfl rfl count
  facts := h.facts
  silent := h.silent

theorem Tells.notice (h : Tells s v u rs ns ms fs) (n : Notice) : Tells s (appendNotice n v) u rs (ns ++ [n]) ms fs := by
  rw [appendNotice_told h.bus]
  exact
    { h with
      port := by
        simp only
        rw [h.port, told_told, List.length_append, List.length_singleton]
      written := fun writes => by
        have on : v.port.state.writes = true := by rw [h.portState, writes]
        rw [told_of_writes on, if_pos on]
        exact (h.written writes).notice n h.parts
      facts := fun writes f hf => by
        have on : v.port.state.writes = true := by rw [h.portState, writes]
        have shown := h.facts writes f hf
        have area := (h.written writes).areaAddress
        rw [← area] at shown ⊢
        rw [if_pos on]
        exact shows_notice n shown (h.within f hf).1 (h.within f hf).2
      silent := fun off => by
        have none : v.port.state.writes = false := by rw [h.portState, off]
        simp only [none]
        exact h.silent off }

theorem Tells.mirror (h : Tells s v u rs ns ms fs) {o : Nat} {bs : List Byte} (low : 0x0C ≤ o) (high : o + bs.length ≤ 0x100)
    (apart : ∀ m ∈ ms, m.1 + m.2.length ≤ o ∨ o + bs.length ≤ m.1) :
    Tells s (busWrite (v.areaAddress + o) bs v) u rs ns (ms ++ [(o, bs)]) fs := by
  rw [busWrite_told h.bus]
  exact
    { h with
      parts := by
        intro m hm
        rcases List.mem_append.mp hm with before | new
        · exact h.parts m before
        · obtain rfl := List.mem_singleton.mp new
          exact ⟨low, high⟩
      written := fun writes => by
        have on : v.port.state.writes = true := by rw [h.portState, writes]
        rw [if_pos on, (h.written writes).areaAddress]
        exact (h.written writes).mirror low high fun m hm => (apart m hm).imp id fun right => ⟨right, (h.parts m hm).2⟩
      facts := fun writes f hf => by
        have on : v.port.state.writes = true := by rw [h.portState, writes]
        have inside := h.within f hf
        rw [if_pos on, (h.written writes).areaAddress]
        exact shows_write (h.facts writes f hf) (.inr (by omega)) inside.2 (by omega)
      silent := fun off => by
        have none : v.port.state.writes = false := by rw [h.portState, off]
        simp only [none]
        exact h.silent off }

/-- What the event leaves at its end. -/
theorem Tells.endStep_eq (h : Tells s v u rs ns ms fs) :
    endStep v = endStep { u with port := u.port.told ns.length, hostMemory := v.hostMemory } := by
  obtain ⟨pending, port, clock, run, tables, roster, power, hostMemory, busLeft, arrivals, owed, turns⟩ := v
  obtain ⟨-, -, -, -, hport, hpending, hclock, hrun, htables, hroster, hpower, hturns, -, -, -, -, -⟩ := h
  simp only at hport hpending hclock hrun htables hroster hpower hturns
  subst hport hpending hclock hrun htables hroster hpower hturns
  rfl

/-- What the host finds at its end. -/
theorem Tells.told (h : Tells s v u [] ns ms fs) {w : State} (count : w.clockCount = v.clockCount) :
    s.Told { w with hostMemory := v.hostMemory } ns ms where
  written writes := by
    have shown := (h.written writes).change (v := { v with clock := w.clock }) rfl rfl rfl rfl rfl (.inr count)
    exact ⟨⟨shown.ring.notices, shown.ring.header⟩, shown.header, shown.others⟩
  silent off := h.silent off

end

/-! ### Notices one after another -/

/-- Notices appended in turn. -/
def appendNotices (ns : List Notice) (s : State) : State := ns.foldl (fun s n => appendNotice n s) s

@[simp] theorem appendNotices_nil (s : State) : appendNotices [] s = s := rfl

@[simp] theorem appendNotices_singleton (n : Notice) (s : State) : appendNotices [n] s = appendNotice n s := rfl

theorem appendNotices_append (ns ns' : List Notice) (s : State) :
    appendNotices (ns ++ ns') s = appendNotices ns' (appendNotices ns s) := List.foldl_append

theorem appendNotice_bus {v : State} (bus : v.busLeft = none) (n : Notice) : (appendNotice n v).busLeft = none := by
  rw [appendNotice_told bus]
  exact bus

/-- A notice neither reads nor writes the roster. -/
theorem appendNotices_roster {v : State} (bus : v.busLeft = none) (roster : List Entry) (ns : List Notice) :
    appendNotices ns { v with roster := roster } = { appendNotices ns v with roster := roster } := by
  induction ns generalizing v with
  | nil => rfl
  | cons n ns ih =>
    have one : appendNotice n { v with roster := roster } = { appendNotice n v with roster := roster } := by
      rw [appendNotice_told bus, appendNotice_told (by exact bus)]
      rfl
    change appendNotices ns (appendNotice n { v with roster := roster }) = { appendNotices ns (appendNotice n v) with roster := roster }
    rw [one, ih (appendNotice_bus bus n)]

theorem Tells.notices {s v u : State} {rs : List (Nat × Nat)} {ns : List Notice} {ms fs : List (Nat × List Byte)}
    (h : Tells s v u rs ns ms fs) (ns' : List Notice) : Tells s (appendNotices ns' v) u rs (ns ++ ns') ms fs := by
  induction ns' generalizing v ns with
  | nil => simpa using h
  | cons n ns' ih => simpa [List.append_assoc, appendNotices] using ih (h.notice n)

theorem Serves.notices {s v u : State} {slot : Slot} {tag : Half} {r : Request} {ns : List Notice}
    {ms : List (Nat × List Byte)} (h : Serves s v u slot tag r ns ms) (ns' : List Notice) :
    Serves s (appendNotices ns' v) u slot tag r (ns ++ ns') ms := by
  induction ns' generalizing v ns with
  | nil => simpa using h
  | cons n ns' ih => simpa [List.append_assoc, appendNotices] using ih (h.notice n)

/-! ### One watch moved, one proposal lapsed (R103, R117) -/

/-- The notice of a watch that reaches a stage, by its watch class (R103). -/
def watchNotices (t : Tables) (i : Nat) (e : Entry) (stage : WatchStage) : List Notice :=
  if watchNotifies (watchClassOf t e.productCode) stage then [watchNotice i stage e.credentialId] else []

theorem moveWatch_entry {s : State} {i : Nat} {e : Entry} (entry : s.roster[i]? = some e) (stage : WatchStage) :
    moveWatch i stage s =
      appendNotices (watchNotices s.tables i e stage)
        { s with roster := s.roster.set i { e with watch := { e.watch with stage := stage } } } := by
  unfold moveWatch watchNotices
  rw [entry]
  simp only [setEntry, modify_eq_set_of_getElem? entry]
  split <;> rfl

theorem timeAdvance_moves {s : State} {i n : Nat} {stage : WatchStage} (move : timeMoveAt s i n = some stage) :
    timeAdvance n i s = moveWatch i stage s := by
  unfold timeAdvance
  rw [move]

theorem timeMoveAt_entry {s : State} {i n : Nat} {e : Entry} (entry : s.roster[i]? = some e) :
    timeMoveAt s i n = if s.runOpen then e.watch.timeMove s.run.watchLead n else none := by
  rw [timeMoveAt, entry]
  rfl

theorem lapseProposal_due {s : State} {i n : Nat} {e : Entry} {p : Proposal} (entry : s.roster[i]? = some e)
    (pending : e.mark.proposal = some p) (due : p.expiry ≤ n) :
    lapseProposal n i s = appendNotice (lapsedNotice i) { s with roster := s.roster.set i e.discardProposal } := by
  have examined : proposalDue s i n = true := by simp [proposalDue, entry, pending, due]
  rw [lapseProposal, if_pos examined, noticeProposalLapsed_eq, setEntry, modify_eq_set_of_getElem? entry]

theorem exec_watchTime_quiet {s : State} {i : Nat} {stage : WatchStage} {c : Instr}
    (command : (stage = .near ∧ c = .watchTimeNear i Env.quiet) ∨ (stage = .lapsed ∧ c = .watchTimeLapse i Env.quiet)) :
    exec c s =
      .next (endStep (if timeMoveAt s i s.clockCount = some stage then timeAdvance s.clockCount i s.quieted else s.quieted)) := by
  rcases command with ⟨rfl, rfl⟩ | ⟨rfl, rfl⟩ <;> rfl

/-- Settles O25. -/
theorem timeWatchMoves : Obligations.TimeWatchMoves := by
  intro s i stage c canonical command
  rw [exec_watchTime_quiet command]
  refine ⟨fun e entry opened move => ?_, fun stays => ?_⟩
  · have due : timeMoveAt s i s.clockCount = some stage := by rw [timeMoveAt_entry entry, if_pos opened, move]
    have tells := (((tells_quieted canonical).change (c := s.clock) s.run s.tables
      (s.roster.set i { e with watch := { e.watch with stage := stage } }) s.turns (.inl rfl)).notices
        (watchNotices s.tables i e stage))
    rw [if_pos due, timeAdvance_moves (by exact due), moveWatch_entry (by exact entry)]
    exact ⟨watchNotices s.tables i e stage, _, rfl, congrArg Host.Outcome.next tells.endStep_eq,
      tells.told (w := s) (congrArg Clock.count tells.clock).symm⟩
  · have notDue : timeMoveAt s i s.clockCount ≠ some stage := by
      rcases stays with shut | beyond | ⟨e, entry, other⟩
      · simp [timeMoveAt, shut]
      · simp [timeMoveAt, List.getElem?_eq_none_iff.mpr beyond]
      · rw [timeMoveAt_entry entry]
        split
        · exact other
        · simp
    rw [if_neg notDue, endStep_quieted]

/-- Settles O29. -/
theorem proposalLapses : Obligations.ProposalLapses := by
  have command : ∀ (s : State) i, exec (.proposalLapsed i Env.quiet) s = .next (endStep (lapseProposal s.clockCount i s.quieted)) :=
    fun _ _ => rfl
  refine ⟨fun s i canonical => ⟨fun e p entry pending due => ?due, fun live => ?live⟩,
    fun s i j c e may entry => ⟨fun late => ?late, fun early => ?early⟩⟩
  case due =>
    have tells := ((tells_quieted canonical).change (c := s.clock) s.run s.tables (s.roster.set i e.discardProposal) s.turns
      (.inl rfl)).notice (lapsedNotice i)
    rw [command, lapseProposal_due (by exact entry) pending due]
    exact ⟨_, congrArg Host.Outcome.next tells.endStep_eq,
      tells.told (w := s) (congrArg Clock.count tells.clock).symm⟩
  case live =>
    rw [command, lapseProposal_live, endStep_quieted]
    intro e entry p pending
    rcases live with beyond | ⟨e', entry', live⟩
    · have absent : s.roster[i]? = none := List.getElem?_eq_none_iff.mpr beyond
      simp [State.quieted, absent] at entry
    · obtain rfl := Option.some_inj.mp (entry'.symm.trans entry)
      exact live p pending
  case late =>
    have made : (s.roster.set i { e with mark := { e.mark with proposal := some (composeProposal s.run j c) } })[i]? =
        some { e with mark := { e.mark with proposal := some (composeProposal s.run j c) } } := by
      obtain ⟨lt, -⟩ := List.getElem?_eq_some_iff.mp entry
      simp [lt]
    rw [proposeEntry, if_pos may, setEntry, modify_eq_set_of_getElem? entry, lapseProposal_due (by exact made) rfl late]
    simp [Entry.discardProposal]
  case early =>
    rw [proposeEntry_current early, setEntry, modify_eq_set_of_getElem? entry, if_pos may]

end Sys2Proof.Machine

/-! The line (2.1) and the walk that counts the zones ahead on it (4.7). -/

namespace Sys2Proof.Machine

/-! ### Zone ordinals (R14) -/

/-- Whether the zone changes from one stop to the next, as the step of the ordinal. -/
def zoneStep (x y : Stop) : Nat := if y.network ≠ x.network ∨ y.zone ≠ x.zone then 1 else 0

theorem zoneStep_le (x y : Stop) : zoneStep x y ≤ 1 := by
  unfold zoneStep
  split <;> omega

theorem ordinalsAfter_cons (prev : Stop) (o : Nat) (x : Stop) (xs : List Stop) :
    ordinalsAfter prev o (x :: xs) = (o + zoneStep prev x) :: ordinalsAfter x (o + zoneStep prev x) xs := by
  have step : (if x.network != prev.network || x.zone != prev.zone then o + 1 else o) = o + zoneStep prev x := by
    unfold zoneStep
    by_cases h : x.network ≠ prev.network ∨ x.zone ≠ prev.zone <;> simp_all
  simp only [ordinalsAfter, step]

theorem ordinalsAfter_length (prev : Stop) (o : Nat) (xs : List Stop) : (ordinalsAfter prev o xs).length = xs.length := by
  induction xs generalizing prev o with
  | nil => rfl
  | cons x xs ih => rw [ordinalsAfter_cons, List.length_cons, ih, List.length_cons]

theorem lineOrdinals_length (stops : List Stop) : (lineOrdinals stops).length = stops.length := by
  cases stops with
  | nil => rfl
  | cons x xs => simp [lineOrdinals, ordinalsAfter_length]

theorem ordinalsAfter_succ {prev x y : Stop} {o i : Nat} {xs : List Stop} (here : (prev :: xs)[i]? = some x)
    (next : (prev :: xs)[i + 1]? = some y) :
    (o :: ordinalsAfter prev o xs).getD (i + 1) 0 = (o :: ordinalsAfter prev o xs).getD i 0 + zoneStep x y := by
  induction xs generalizing prev o i with
  | nil => simp at next
  | cons z zs ih =>
    rw [ordinalsAfter_cons]
    cases i with
    | zero =>
      simp only [List.getElem?_cons_zero, List.getElem?_cons_succ, Option.some.injEq] at here next
      subst here next
      rfl
    | succ i => exact ih (by simpa using here) (by simpa using next)

theorem lineOrdinals_zero (stops : List Stop) : (lineOrdinals stops).getD 0 0 = 0 := by
  cases stops <;> rfl

theorem lineOrdinals_succ {stops : List Stop} {i : Nat} {x y : Stop} (here : stops[i]? = some x)
    (next : stops[i + 1]? = some y) : (lineOrdinals stops).getD (i + 1) 0 = (lineOrdinals stops).getD i 0 + zoneStep x y := by
  cases stops with
  | nil => simp at here
  | cons prev xs => exact ordinalsAfter_succ here next

/-- From one stop to the next the ordinal stays or rises by one. -/
theorem lineOrdinals_next {stops : List Stop} {i : Nat} (on : i + 1 < stops.length) :
    (lineOrdinals stops).getD i 0 ≤ (lineOrdinals stops).getD (i + 1) 0 ∧
      (lineOrdinals stops).getD (i + 1) 0 ≤ (lineOrdinals stops).getD i 0 + 1 := by
  have step := lineOrdinals_succ (List.getElem?_eq_getElem (Nat.lt_of_succ_lt on)) (List.getElem?_eq_getElem on)
  have := zoneStep_le stops[i] stops[i + 1]
  omega

theorem lineOrdinals_mono {stops : List Stop} {i j : Nat} (le : i ≤ j) (on : j < stops.length) :
    (lineOrdinals stops).getD i 0 ≤ (lineOrdinals stops).getD j 0 := by
  induction j, le using Nat.le_induction with
  | base => exact Nat.le_refl _
  | succ j _ ih => exact (ih (Nat.lt_of_succ_lt on)).trans (lineOrdinals_next on).1

/-! ### Ahead (R15) -/

theorem mem_stopsAhead {d : Direction} {n i j : Nat} (on : i < n) : j ∈ stopsAhead n d i ↔ j < n ∧ d.isAhead i j = true := by
  cases d with
  | up =>
    simp only [stopsAhead, Direction.isAhead, decide_eq_true_iff, List.range_eq_range', List.drop_range']
    rw [List.mem_range'_1]
    omega
  | down =>
    simp only [stopsAhead, Direction.isAhead, decide_eq_true_iff, List.mem_reverse, List.mem_range]
    omega

/-- Settles O9. -/
theorem lineGeometry : Obligations.LineGeometry := by
  refine ⟨fun stops => ⟨lineOrdinals_length stops, lineOrdinals_zero stops, fun i x y here next => lineOrdinals_succ here next,
    fun i j le on => lineOrdinals_mono le on⟩, fun i j => ⟨decide_eq_true_iff, decide_eq_true_iff⟩, fun d i => ?irrefl,
    fun n => ⟨rfl, rfl⟩, fun d n j on => ?terminus, fun d n i j on => mem_stopsAhead on⟩
  case irrefl => cases d <;> simp [Direction.isAhead]
  case terminus =>
    cases d
    · exact decide_eq_false (Nat.not_lt.mpr (Nat.le_sub_one_of_lt on))
    · exact decide_eq_false (Nat.not_lt_zero j)

/-! ### The walk (R69, R70) -/

/-- The walk from `d` along `l` ends at the last place that has the property before the first that has not. -/
theorem takeWhile_getLastD {α : Type} (p : α → Bool) (l : List α) {d : α} (first : p d = true) :
    ∃ (k : Nat) (m : α), (d :: l)[k]? = some m ∧ (l.takeWhile p).getLastD d = m ∧ p m = true ∧
      ∀ y, l[k]? = some y → p y = false := by
  induction l generalizing d with
  | nil => exact ⟨0, d, rfl, rfl, first, by simp⟩
  | cons x xs ih =>
    by_cases on : p x = true
    · obtain ⟨k, m, place, last, holds, stops⟩ := ih on
      refine ⟨k + 1, m, by simpa using place, ?_, holds, fun y next => stops y (by simpa using next)⟩
      rw [List.takeWhile_cons_of_pos on, List.getLastD_cons, last]
    · refine ⟨0, d, rfl, ?_, first, fun y next => ?_⟩
      · rw [List.takeWhile_cons_of_neg on]
        rfl
      · obtain rfl : x = y := by simpa using next
        simpa using on

section
variable {t : Tables} {stop lo hi : Nat} (line : t.ordinals = lineOrdinals ((t.entries .stops).map Stop.ofBytes))
include line

theorem ordinal_next {i : Nat} (on : i + 1 < t.stopCount) : t.ordinal i ≤ t.ordinal (i + 1) ∧ t.ordinal (i + 1) ≤ t.ordinal i + 1 := by
  rw [Tables.ordinal, Tables.ordinal, line]
  exact lineOrdinals_next (by simpa [Tables.entries, Tables.descriptor, Tables.stopCount] using on)

theorem ordinal_mono {i j : Nat} (le : i ≤ j) (on : j < t.stopCount) : t.ordinal i ≤ t.ordinal j := by
  rw [Tables.ordinal, Tables.ordinal, line]
  exact lineOrdinals_mono le (by simpa [Tables.entries, Tables.descriptor, Tables.stopCount] using on)

theorem ordinal_zero : t.ordinal 0 = 0 := by
  rw [Tables.ordinal, line]
  exact lineOrdinals_zero _

/-- The walk up ends at the last stop whose ordinal the interval holds, which is the interval's end or the line's. -/
theorem zonesAhead_up (on : stop < t.stopCount) (covered : (Coverage.zoneCount lo hi).covers t stop = true) :
    zonesAhead t .up (.zoneCount lo hi) stop = min hi (t.ordinal (t.stopCount - 1)) - t.ordinal stop := by
  obtain ⟨k, m, place, last, holds, stops⟩ := takeWhile_getLastD ((Coverage.zoneCount lo hi).covers t)
    (stopsAhead t.stopCount .up stop) covered
  have walk : stop :: stopsAhead t.stopCount .up stop = (List.range t.stopCount).drop stop := by
    rw [List.drop_eq_getElem_cons (i := stop) (by simpa using on), List.getElem_range]
    rfl
  obtain ⟨lt, rfl⟩ : stop + k < t.stopCount ∧ stop + k = m := by
    rw [walk, List.getElem?_drop] at place
    simpa [List.getElem?_eq_some_iff] using place
  simp only [Coverage.covers, Bool.and_eq_true, decide_eq_true_eq] at covered holds
  have rise := ordinal_mono line (Nat.le_add_right stop k) lt
  have top := ordinal_mono line (Nat.le_sub_one_of_lt lt) (Nat.sub_one_lt_of_lt on)
  have reached : hi ≤ t.ordinal (stop + k) ∨ t.ordinal (t.stopCount - 1) = t.ordinal (stop + k) := by
    by_cases more : stop + k + 1 < t.stopCount
    · have beyond := stops (stop + k + 1) (by
        rw [stopsAhead, List.getElem?_drop, List.getElem?_range (by omega)]
        congr 1
        omega)
      simp only [Coverage.covers, Bool.and_eq_false_iff, decide_eq_false_iff_not] at beyond
      have next := ordinal_next line more
      omega
    · exact .inr (by rw [show t.stopCount - 1 = stop + k by omega])
  rw [zonesAhead, if_pos (by simp [Coverage.covers, covered]), last]
  unfold absDiff
  omega

theorem zonesAhead_down (on : stop < t.stopCount) (covered : (Coverage.zoneCount lo hi).covers t stop = true) :
    zonesAhead t .down (.zoneCount lo hi) stop = t.ordinal stop - lo := by
  obtain ⟨k, m, place, last, holds, stops⟩ := takeWhile_getLastD ((Coverage.zoneCount lo hi).covers t)
    (stopsAhead t.stopCount .down stop) covered
  have walk : stop :: stopsAhead t.stopCount .down stop = (List.range (stop + 1)).reverse := by
    rw [stopsAhead, List.range_succ, List.reverse_append]
    rfl
  obtain ⟨le, rfl⟩ : k ≤ stop ∧ stop - k = m := by
    rw [walk] at place
    obtain ⟨lt, found⟩ := List.getElem?_eq_some_iff.mp place
    simp at lt found
    omega
  simp only [Coverage.covers, Bool.and_eq_true, decide_eq_true_eq] at covered holds
  have rise := ordinal_mono line (Nat.sub_le stop k) on
  have reached : t.ordinal (stop - k) ≤ lo := by
    rcases Nat.eq_zero_or_pos (stop - k) with bottom | more
    · rw [bottom, ordinal_zero line]
      exact Nat.zero_le _
    · have beyond := stops (stop - k - 1) (by
        rw [stopsAhead, List.getElem?_reverse (by simp; omega), List.getElem?_range (by simp; omega)]
        simp
        omega)
      simp only [Coverage.covers, Bool.and_eq_false_iff, decide_eq_false_iff_not] at beyond
      have next := ordinal_next line (i := stop - k - 1) (by omega)
      rw [Nat.sub_add_cancel more] at next
      omega
  rw [zonesAhead, if_pos (by simp [Coverage.covers, covered]), last]
  unfold absDiff
  omega

end

/-- Settles O21. -/
theorem zonesAheadFormula : Obligations.ZonesAheadFormula := by
  intro t p c origin stop line small kind count found on covered
  have coverage : coverageOf t p c =
      .zoneCount (t.ordinal origin - (c.zoneCount - 1)) (min 63 (t.ordinal origin + (c.zoneCount - 1))) := by
    unfold coverageOf
    rw [kind]
    simp only [found]
  have last := ordinal_le small (t.stopCount - 1)
  have bounds := covered
  rw [coverage] at covered bounds ⊢
  simp only [Coverage.covers, Bool.and_eq_true, decide_eq_true_eq] at bounds
  rw [zonesAhead_up line on covered, zonesAhead_down line on covered]
  have top := ordinal_mono line (Nat.le_sub_one_of_lt on) (Nat.sub_one_lt_of_lt on)
  omega

end Sys2Proof.Machine

/-! The table store's requests that copy nothing (8.2, 8.5) and the judgement of a loaded image (8.3). -/

namespace Sys2Proof.Machine

/-! ### A change of the table store while the request is in hand -/

section
variable {s : State} {slot : Slot}

theorem serves_tables (canonical : Memory.wf s.hostMemory = true) (turn : s.isNext slot) (tag : Half) (r : Request)
    (tables : Tables) :
    Serves s { s.handed slot tag r with tables := tables } { s with tables := tables } slot tag r [] [] :=
  (serves_handed canonical turn tag r).change (c := s.clock) _ _ _ _ (.inl rfl)

/-- A change of the table store with one descriptor's mirror rewritten (R128). -/
theorem serves_descriptor (canonical : Memory.wf s.hostMemory = true) (turn : s.isNext slot) (tag : Half) (r : Request)
    (tables : Tables) (k : TableKind) :
    Serves s (mirrorDescriptor k { s.handed slot tag r with tables := tables }) { s with tables := tables } slot tag r []
      [(k.mirrorOffset, (tables.descriptor k).image)] :=
  (serves_tables canonical turn tag r tables).mirrorDescriptor k (by simp)

end

/-! ### LOAD_TABLE (R129, R130) -/

section
variable {s : State} {slot : Slot} {tag : Half} {a : LoadTableArgs} {k : TableKind}

theorem busy_iff (t : Tables) : t.busy = true ↔ t.load ≠ none ∨ t.wiping = true := by
  simp [Tables.busy, Option.isSome_iff_ne_none]

theorem levelForbidsLoad_iff (level : Nat) (opened : Bool) :
    levelForbidsLoad level opened = true ↔ 2 ≤ level ∨ (level = 1 ∧ opened = true) := by
  simp [levelForbidsLoad]

theorem ownLoadTable_unknown (unknown : TableKind.ofByte a.kind = none) :
    ownLoadTable slot tag a s = answerInHand slot tag .refusedArgument (zeros 20) s := by
  unfold ownLoadTable
  rw [unknown]

theorem ownLoadTable_refused {code : AnswerCode} (known : TableKind.ofByte a.kind = some k)
    (refused : loadRefusal k a s = some code) :
    ownLoadTable slot tag a s = answerInHand slot tag code (zeros 4 ++ (s.tables.descriptor k).image) s := by
  unfold ownLoadTable
  rw [known]
  simp only [refused]
  rfl

theorem ownLoadTable_accepted (known : TableKind.ofByte a.kind = some k) (accepted : loadRefusal k a s = none) :
    ownLoadTable slot tag a s = acceptLoad slot tag k a s := by
  unfold ownLoadTable
  rw [known]
  simp only [accepted]

/-- The checks of R129 past the kind, one after another. -/
theorem loadRefusal_eq (s : State) (k : TableKind) (a : LoadTableArgs) {busy inUse locked : Prop}
    (hbusy : busy ↔ s.tables.load ≠ none ∨ s.tables.wiping = true) (hinUse : inUse ↔ k ≠ .deny ∧ s.runOpen = true)
    (hlocked : locked ↔ 2 ≤ (s.tables.descriptor k).level ∨ ((s.tables.descriptor k).level = 1 ∧ s.runOpen = true)) :
    (busy → loadRefusal k a s = some .refusedBusy) ∧
      (¬busy → inUse → loadRefusal k a s = some .refusedTableInUse) ∧
      (¬busy → ¬inUse → locked → loadRefusal k a s = some .refusedProtected) ∧
      (¬busy → ¬inUse → ¬locked → k.capacity < a.count.toNat → loadRefusal k a s = some .refusedTooLarge) ∧
      (¬busy → ¬inUse → ¬locked → a.count.toNat ≤ k.capacity → a.count.toNat < k.least →
        loadRefusal k a s = some .refusedArgument) ∧
      (¬busy → ¬inUse → ¬locked → a.count.toNat ≤ k.capacity → k.least ≤ a.count.toNat → loadRefusal k a s = none) := by
  rw [← busy_iff] at hbusy
  rw [← levelForbidsLoad_iff] at hlocked
  rw [hbusy, hinUse, hlocked]
  unfold loadRefusal
  refine ⟨fun h => if_pos h, fun b u => ?_, fun b u l => ?_, fun b u l c => ?_, fun b u l c n => ?_, fun b u l c n => ?_⟩
  · rw [if_neg b, if_pos u]
  · rw [if_neg b, if_neg u, if_pos l]
  · rw [if_neg b, if_neg u, if_neg l, if_pos c]
  · rw [if_neg b, if_neg u, if_neg l, if_neg (Nat.not_lt.mpr c), if_pos n]
  · rw [if_neg b, if_neg u, if_neg l, if_neg (Nat.not_lt.mpr c), if_neg (Nat.not_lt.mpr n)]

theorem TableKind.least_le_capacity (k : TableKind) : k.least ≤ k.capacity := by cases k <;> decide

end

/-- Settles O34. -/
theorem loadTableHeldOrRefused : Obligations.LoadTableHeldOrRefused := by
  refine ⟨?held, fun s slot tag a canonical turn => ⟨fun unknown => ?unknown,
    fun k busy inUse locked known hbusy hinUse hlocked => ?refused⟩⟩
  case held =>
    intro s slot tag a k d canonical turn known idle notWiping shut level capacity least hd
    obtain ⟨-, -, -, -, -, accepted⟩ := loadRefusal_eq (s.handed slot tag (.loadTable a)) k a Iff.rfl Iff.rfl Iff.rfl
    have passes : loadRefusal k a (s.handed slot tag (.loadTable a)) = none := by
      refine accepted ?_ ?_ ?_ capacity least
      · exact fun busy => busy.elim (fun load => load idle) fun wiping => Bool.false_ne_true (notWiping.symm.trans wiping)
      · exact fun inUse => Bool.false_ne_true ((shut inUse.1).symm.trans inUse.2)
      · change ¬(2 ≤ (s.tables.descriptor k).level ∨ (s.tables.descriptor k).level = 1 ∧ s.runOpen = true)
        rcases level with zero | ⟨one, closed⟩
        · omega
        · simp [one, closed]
    have begun : s.tables.beginLoad k a =
        { s.tables.setDescriptor k d with
          load := some { kind := k, source := a.source.toNat, copied := 0 }
          ordinals := if k = .stops then [] else s.tables.ordinals } := by rw [hd]; rfl
    have descriptor : (s.tables.beginLoad k a).descriptor k = d := by rw [Tables.beginLoad_descriptor, if_pos rfl, hd]; rfl
    have serves := serves_descriptor canonical turn tag (.loadTable a) (s.tables.beginLoad k a) k
    rw [descriptor] at serves
    rw [← begun]
    refine serves.parks turn rfl rfl ?_
    rw [ownLoadTable_accepted known passes, acceptLoad, holdInHand]
    exact if_pos serves.hasInHand
  case unknown =>
    exact answersUnchanged_of canonical turn rfl (ownLoadTable_unknown unknown)
  case refused =>
    have refuse {code : AnswerCode} (refused : loadRefusal k a s = some code) :
        s.AnswersUnchanged slot tag (.loadTable a) code (zeros 4 ++ (s.tables.descriptor k).image) :=
      answersUnchanged_of canonical turn rfl
        (ownLoadTable_refused (s := s.handed slot tag (.loadTable a)) known refused)
    obtain ⟨hb, hu, hl, hc, hn, -⟩ := loadRefusal_eq s k a hbusy hinUse hlocked
    exact ⟨fun b => refuse (hb b), fun b u => refuse (hu b u), fun b u l => refuse (hl b u l),
      fun b u l c => refuse (hc b u l c), fun b u l n => refuse (hn b u l ((Nat.le_of_lt n).trans k.least_le_capacity) n)⟩

/-! ### PROTECT_TABLE (R136) -/

section
variable {s : State} {slot : Slot} {tag : Half} {a : ProtectTableArgs} {k : TableKind}

theorem ownProtectTable_unknown (unknown : TableKind.ofByte a.kind = none) :
    ownProtectTable slot tag a s = answerInHand slot tag .refusedArgument [a.kind, 0] s := by
  unfold ownProtectTable
  rw [unknown]
  rfl

theorem ownProtectTable_known (known : TableKind.ofByte a.kind = some k) :
    ownProtectTable slot tag a s =
      if 3 < a.level.toNat then
        answerInHand slot tag .refusedArgument [a.kind, BitVec.ofNat 8 (s.tables.descriptor k).level] s
      else if (s.tables.descriptor k).state = .loading ∨ s.tables.wiping = true then
        answerInHand slot tag .refusedBusy [a.kind, BitVec.ofNat 8 (s.tables.descriptor k).level] s
      else
        answerInHand slot tag .done [a.kind, BitVec.ofNat 8 (max (s.tables.descriptor k).level a.level.toNat)]
          (raiseLevel k a.level.toNat s) := by
  unfold ownProtectTable
  rw [known]
  rfl

end

/-- Settles O38. -/
theorem protectTableRaises : Obligations.ProtectTableRaises := by
  intro s slot tag a canonical turn
  refine ⟨fun unknown => ?_, fun k d known hd => ?_⟩
  · exact answersUnchanged_of canonical turn rfl (ownProtectTable_unknown unknown)
  subst hd
  have own := ownProtectTable_known (s := s.handed slot tag (.protectTable a)) (slot := slot) (tag := tag) known
  refine ⟨fun high => ?_, fun range busy => ?_, fun range notLoading notWiping => ⟨fun low => ?_, fun raises => ?_⟩⟩
  · exact answersUnchanged_of canonical turn rfl (own.trans (if_pos high))
  · exact answersUnchanged_of canonical turn rfl (own.trans ((if_neg (Nat.not_lt.mpr range)).trans (if_pos busy)))
  all_goals
    have free : ¬((s.tables.descriptor k).state = .loading ∨ s.tables.wiping = true) := by simp [notLoading, notWiping]
    have done := own.trans ((if_neg (Nat.not_lt.mpr range)).trans (if_neg free))
  · refine answersUnchanged_of canonical turn rfl (done.trans ?_)
    rw [raiseLevel, if_pos (by exact low)]
    change answerInHand slot tag .done [a.kind, BitVec.ofNat 8 (max (s.tables.descriptor k).level a.level.toNat)] _ = _
    rw [Nat.max_eq_left low]
  · have serves := serves_descriptor canonical turn tag (.protectTable a)
      (s.tables.setDescriptor k { s.tables.descriptor k with level := a.level.toNat }) k
    rw [descriptor_setDescriptor, if_pos rfl] at serves
    refine serves.answers turn rfl (done.trans ?_)
    rw [raiseLevel, if_neg (by exact Nat.not_le.mpr raises)]
    have level : max (s.tables.descriptor k).level a.level.toNat = a.level.toNat := Nat.max_eq_right (Nat.le_of_lt raises)
    change answerInHand slot tag .done [a.kind, BitVec.ofNat 8 (max (s.tables.descriptor k).level a.level.toNat)]
      (mirrorDescriptor k { s.handed slot tag (.protectTable a) with
        tables := s.tables.setDescriptor k
          { s.tables.descriptor k with level := max (s.tables.descriptor k).level a.level.toNat } }) = _
    rw [level, BitVec.ofNat_toNat, BitVec.setWidth_eq]

/-! ### The judgement of an image (R133) -/

theorem firstFailure_cons (passed : Bool) (cause : DamageCause) (tests : List (Bool × DamageCause)) :
    firstFailure ((passed, cause) :: tests) = if passed then firstFailure tests else cause := rfl

theorem judgeImage_eq (t : Tables) (k : TableKind) :
    judgeImage t k =
      if byteSum (t.image k) = (t.descriptor k).expectedSum then firstFailure (contentTests k (t.entries k)) else .sum := by
  rw [judgeImage, firstFailure_cons]
  by_cases same : byteSum (t.image k) = (t.descriptor k).expectedSum <;> simp [same]

theorem judgeImage_stops {t : Tables} (sum : byteSum (t.image .stops) = t.stops.expectedSum) {stops : List Stop}
    (hstops : stops = (t.entries .stops).map Stop.ofBytes) :
    judgeImage t .stops =
      if stops.all Stop.inRange then
        if (stops.map Stop.code).Nodup then if (lineOrdinals stops).getLastD 0 ≤ 63 then .noCause else .range
        else .duplicate
      else .range := by
  rw [judgeImage_eq, if_pos (by exact sum), hstops]
  simp [contentTests, firstFailure]

theorem judgeImage_tariff {t : Tables} (sum : byteSum (t.image .tariff) = t.tariff.expectedSum) :
    judgeImage t .tariff =
      if (t.entries .tariff).all productBytesInRange then
        if ((t.entries .tariff).map fun e => field 0 2 e).Nodup then .noCause else .duplicate
      else .range := by
  rw [judgeImage_eq, if_pos (by exact sum)]
  simp [contentTests, firstFailure]

theorem judgeImage_deny {t : Tables} (sum : byteSum (t.image .deny) = t.deny.expectedSum) {entries : List DenyEntry}
    (hentries : entries = (t.entries .deny).map DenyEntry.ofBytes) :
    judgeImage t .deny =
      if idsNonDecreasing (entries.map DenyEntry.credentialId) then
        if entries.all fun d => decide (d.fromDay ≤ d.untilDay) then .noCause else .range
      else .order := by
  rw [judgeImage_eq, if_pos (by exact sum), hentries]
  simp [contentTests, firstFailure]

theorem stop_inRange_iff (x : Stop) :
    x.inRange = true ↔ 1 ≤ x.network ∧ x.network ≤ 4 ∧ 1 ≤ x.zone ∧ x.zone ≤ 63 := by
  simp [Stop.inRange, and_assoc]

theorem productBytesInRange_iff (bs : List Byte) :
    productBytesInRange bs = true ↔ ∃ p, Product.ofBytes bs = some p ∧ p.inRange = true := by
  simp [productBytesInRange, Option.any_eq_true]

/-- The ids never fall from one entry to the next (R50). -/
theorem idsNonDecreasing_iff (entries : List DenyEntry) :
    idsNonDecreasing (entries.map DenyEntry.credentialId) = true ↔
      ∀ (i : Nat) (x y : DenyEntry), entries[i]? = some x → entries[i + 1]? = some y → x.credentialId ≤ y.credentialId := by
  induction entries with
  | nil => simp [idsNonDecreasing]
  | cons e es ih =>
    cases es with
    | nil => simp [idsNonDecreasing]
    | cons f fs =>
      have first : idsNonDecreasing ((e :: f :: fs).map DenyEntry.credentialId) =
          (decide (e.credentialId.toNat ≤ f.credentialId.toNat) && idsNonDecreasing ((f :: fs).map DenyEntry.credentialId)) := rfl
      rw [first, Bool.and_eq_true, ih, decide_eq_true_iff]
      constructor
      · rintro ⟨le, rest⟩ i x y here next
        cases i with
        | zero =>
          obtain rfl : e = x := by simpa using here
          obtain rfl : f = y := by simpa using next
          exact le
        | succ i => exact rest i x y (by simpa using here) (by simpa using next)
      · exact fun all => ⟨all 0 e f rfl rfl, fun i x y here next => all (i + 1) x y (by simpa using here) (by simpa using next)⟩

/-- Settles O37. -/
theorem tableJudgement : Obligations.TableJudgement := by
  refine fun t => ⟨fun k sum => ?sum, fun stops hstops sum => ?stops, fun sum => ?tariff, fun entries hentries sum => ?deny⟩
  case sum => rw [judgeImage_eq, if_neg sum]
  case stops =>
    rw [judgeImage_stops sum hstops]
    have range : stops.all Stop.inRange = true ↔
        ∀ x ∈ stops, 1 ≤ x.network ∧ x.network ≤ 4 ∧ 1 ≤ x.zone ∧ x.zone ≤ 63 := by
      simp only [List.all_eq_true, stop_inRange_iff]
    refine ⟨fun ⟨x, on, outside⟩ => if_neg fun all => outside (range.mp all x on), fun inside => ?_⟩
    rw [if_pos (range.mpr inside)]
    refine ⟨fun twice => if_neg twice, fun once => ?_⟩
    rw [if_pos once]
    exact ⟨fun long => if_neg (Nat.not_le.mpr long), fun fits => if_pos fits⟩
  case tariff =>
    rw [judgeImage_tariff sum]
    have range : (t.entries .tariff).all productBytesInRange = true ↔
        ∀ bs ∈ t.entries .tariff, ∃ p, Product.ofBytes bs = some p ∧ p.inRange = true := by
      simp only [List.all_eq_true, productBytesInRange_iff]
    refine ⟨fun ⟨bs, on, outside⟩ => if_neg fun all => ?_, fun inside => ?_⟩
    · obtain ⟨p, read, inRange⟩ := range.mp all bs on
      exact Bool.false_ne_true ((outside p read).symm.trans inRange)
    · rw [if_pos (range.mpr inside)]
      exact ⟨fun twice => if_neg twice, fun once => if_pos once⟩
  case deny =>
    rw [judgeImage_deny sum hentries]
    have order := idsNonDecreasing_iff entries
    have days : (entries.all fun d => decide (d.fromDay ≤ d.untilDay)) = true ↔ ∀ d ∈ entries, d.fromDay ≤ d.untilDay := by
      simp
    refine ⟨fun ⟨i, x, y, here, next, falls⟩ => if_neg fun all => ?_, fun rises => ?_⟩
    · exact absurd falls (BitVec.not_lt.mpr (order.mp all i x y here next))
    · rw [if_pos (order.mpr rises)]
      exact ⟨fun ⟨d, on, late⟩ => if_neg fun all => absurd late (Nat.not_lt.mpr (days.mp all d on)),
        fun inside => if_pos (days.mpr inside)⟩

end Sys2Proof.Machine

/-! Work done on one entry after another (3, 6.4, 6.5): a pass over the roster changes it at once and offers its notices in the
order of the pass. -/

namespace Sys2Proof.Machine

/-! ### Pieces of work one after another -/

/-- Notices move the port and host memory and nothing else. -/
theorem appendNotices_frame {v : State} (bus : v.busLeft = none) (ns : List Notice) :
    ∃ p m, appendNotices ns v = { v with port := p, hostMemory := m } := by
  induction ns generalizing v with
  | nil => exact ⟨_, _, rfl⟩
  | cons n ns ih =>
    obtain ⟨p, m, rest⟩ := ih (appendNotice_bus bus n)
    refine ⟨p, m, ?_⟩
    change appendNotices ns (appendNotice n v) = _
    rw [rest, appendNotice_told bus]

/-- Pieces of work that each change the roster and offer notices, where neither the roster after a piece nor its notices depend
on the port or on host memory. `R done` is the roster after the pieces `done`. -/
theorem foldl_pieces {κ : Type} {op : State → κ → State} {note : κ → List Notice} {R : List κ → List Entry} {s : State}
    (bus : s.busLeft = none) (start : R [] = s.roster) {ks : List κ} (once : ks.Nodup)
    (step : ∀ done k p m, k ∈ ks → k ∉ done →
      op { s with roster := R done, port := p, hostMemory := m } k =
        appendNotices (note k) { s with roster := R (done ++ [k]), port := p, hostMemory := m }) :
    ks.foldl op s = appendNotices (ks.flatMap note) { s with roster := R ks } := by
  induction ks using List.reverseRecOn with
  | nil => rw [start]; rfl
  | append_singleton ks k ih =>
    obtain ⟨before, -, new⟩ := List.nodup_append.mp once
    have fresh : k ∉ ks := fun on => new k on k (List.mem_singleton_self k) rfl
    have done := ih before fun done k' p m on => step done k' p m (List.mem_append_left _ on)
    obtain ⟨p, m, frame⟩ := appendNotices_frame (v := { s with roster := R ks }) bus (ks.flatMap note)
    have last := step ks k p m (by simp) fresh
    rw [List.foldl_append, List.foldl_cons, List.foldl_nil, done, frame, last, List.flatMap_append, List.flatMap_singleton,
      appendNotices_append]
    congr 1
    have moved := appendNotices_roster (v := { s with roster := R ks }) bus (R (ks ++ [k])) (ks.flatMap note)
    rw [frame] at moved
    exact moved.symm

/-! ### The zone advance over the roster (R106) -/

/-- The notices of the zone advance of one entry (R103, R106). -/
def State.zoneNoticesAt (s : State) (stop i : Nat) : List Notice :=
  (s.roster[i]?).elim [] fun e => (zoneMove s.tables s.run.direction stop e).elim [] (watchNotices s.tables i e)

/-- The roster after the zone advance of the entries with these indices. -/
def State.zonedAt (s : State) (stop : Nat) (is : List Nat) : List Entry :=
  s.roster.mapIdx fun i e => if i ∈ is then Entry.zoned s.tables s.run.direction stop e else e

theorem zoneAdvanceAt_entry {s : State} {stop i : Nat} {e : Entry} (entry : s.roster[i]? = some e) :
    zoneAdvanceAt stop i s =
      appendNotices ((zoneMove s.tables s.run.direction stop e).elim [] (watchNotices s.tables i e))
        { s with roster := s.roster.set i (Entry.zoned s.tables s.run.direction stop e) } := by
  unfold zoneAdvanceAt Entry.zoned
  rw [entry, Option.bind_some]
  cases zoneMove s.tables s.run.direction stop e with
  | none =>
    have same : s.roster.set i e = s.roster := by
      obtain ⟨lt, rfl⟩ := List.getElem?_eq_some_iff.mp entry
      exact List.set_getElem_self lt
    simp only [same]
    rfl
  | some stage => exact moveWatch_entry entry stage

theorem zoneNotices_eq (s : State) (stop : Nat) :
    s.zoneNotices stop = (List.range s.roster.length).flatMap (s.zoneNoticesAt stop) := by
  unfold State.zoneNotices
  rw [List.filterMap_eq_flatMap_toList]
  refine List.flatMap_congr fun i _ => ?_
  unfold State.zoneNoticesAt watchNotices
  cases s.roster[i]? with
  | none => rfl
  | some e =>
    simp only [Option.elim_some]
    cases zoneMove s.tables s.run.direction stop e with
    | none => rfl
    | some stage =>
      simp only [Option.elim_some]
      split <;> rfl

theorem zonedAt_all (s : State) (stop : Nat) :
    s.zonedAt stop (List.range s.roster.length) = s.roster.map (Entry.zoned s.tables s.run.direction stop) := by
  refine List.ext_getElem (by simp [State.zonedAt]) fun i h1 h2 => ?_
  have lt : i < s.roster.length := by simpa [State.zonedAt] using h1
  simp [State.zonedAt, lt]

/-- The zone advance over the whole roster, nothing arriving: every entry examined at the stop, the notices in index order. -/
theorem deliverStop_quiet {s : State} (bus : s.busLeft = none) (arrivals : s.arrivals = []) (stop : Nat) :
    deliverStop stop s =
      appendNotices (s.zoneNotices stop)
        { s with roster := s.roster.map (Entry.zoned s.tables s.run.direction stop) } := by
  rw [deliverStop, zoneAdvance_quiet arrivals, zoneNotices_eq, ← zonedAt_all]
  refine foldl_pieces (R := s.zonedAt stop) bus ?_ List.nodup_range fun done i p m on fresh => ?_
  · refine List.ext_getElem (by simp [State.zonedAt]) fun i h1 h2 => ?_
    simp [State.zonedAt]
  · rw [List.mem_range] at on
    have entry : (s.zonedAt stop done)[i]? = some s.roster[i] := by simp [State.zonedAt, on, fresh]
    rw [zoneAdvanceAt_entry (by exact entry)]
    have notices : s.zoneNoticesAt stop i =
        (zoneMove s.tables s.run.direction stop s.roster[i]).elim [] (watchNotices s.tables i s.roster[i]) := by
      rw [State.zoneNoticesAt, List.getElem?_eq_getElem on, Option.elim_some]
    rw [notices]
    congr 2
    refine List.ext_getElem (by simp [State.zonedAt]) fun j h1 h2 => ?_
    by_cases own : i = j
    · subst own
      simp [State.zonedAt]
    · simp [State.zonedAt, own, Ne.symm own]

/-! ### An accepted DEPART (R21, R23) -/

theorem runMirror_congr {s t : State} (run : t.run = s.run) (length : t.roster.length = s.roster.length) :
    t.runMirror = s.runMirror := by rw [State.runMirror, State.runMirror, run, length]

/-- A change of the run record and of the roster while the request is in hand. -/
theorem serves_run {s : State} {slot : Slot} (canonical : Memory.wf s.hostMemory = true) (turn : s.isNext slot) (tag : Half)
    (r : Request) (run : Run) (roster : List Entry) :
    Serves s { s.handed slot tag r with run := run, roster := roster } { s with run := run, roster := roster } slot tag r [] [] :=
  (serves_handed canonical turn tag r).change (c := s.clock) _ _ _ _ (.inl rfl)

theorem ownDepart_accepted {s : State} {slot : Slot} {tag : Half} {next : Byte} (accepted : departRefusal next s = none) :
    ownDepart slot tag next s = answerInHand slot tag .done (passageAnswer (s.run.departed next)) (depart next s) := by
  unfold ownDepart
  rw [accepted]

theorem Run.departed_unknown (r : Run) : r.departed 0xFF = { r with state := .runningUnplaced, nextStop := none } := if_pos rfl

theorem Run.departed_known (r : Run) {next : Byte} (known : next ≠ 0xFF) :
    r.departed next = { r with state := .running, nextStop := some next.toNat } := if_neg known

theorem Run.departed_direction (r : Run) (next : Byte) : (r.departed next).direction = r.direction := by
  unfold departed
  split <;> rfl

theorem zoneNotices_congr {s t : State} (tables : t.tables = s.tables) (roster : t.roster = s.roster)
    (direction : t.run.direction = s.run.direction) (stop : Nat) : t.zoneNotices stop = s.zoneNotices stop := by
  unfold State.zoneNotices
  rw [tables, roster, direction]

/-- The changes of a DEPART to UNKNOWN, nothing arriving. -/
theorem depart_unknown {s : State} (arrivals : s.arrivals = []) :
    depart 0xFF s = mirrorRun { s with run := { s.run with state := .runningUnplaced, nextStop := none } } := by
  rw [depart, if_pos rfl, pollPassage_quiet (by exact arrivals), Run.departed_unknown]

/-- The changes of a DEPART to a stop, nothing arriving. -/
theorem depart_known {s : State} (bus : s.busLeft = none) (arrivals : s.arrivals = []) {next : Byte} (known : next ≠ 0xFF) :
    depart next s =
      mirrorRun
        (appendNotices (s.zoneNotices next.toNat)
          { s with
            run := s.run.departed next
            roster := s.roster.map (Entry.zoned s.tables s.run.direction next.toNat) }) := by
  rw [depart, if_neg known, deliverStop_quiet (by exact bus) (by exact arrivals), Run.departed_direction,
    zoneNotices_congr (s := s) (t := { s with run := s.run.departed next }) rfl rfl (s.run.departed_direction next)]

/-- Settles O11. -/
theorem departAccepted : Obligations.DepartAccepted := by
  intro s slot tag next p canonical turn standing position notEnd
  have refusal := departRefusal_standing (stop := next) standing position
  rw [if_neg notEnd] at refusal
  refine ⟨fun unknown => ?_, fun known exists_ ahead => ?_⟩
  · subst unknown
    have serves := (serves_run canonical turn tag (.depart 0xFF) { s.run with state := .runningUnplaced, nextStop := none }
      s.roster).mirrorRun (by simp)
    refine serves.answers turn rfl ?_
    rw [ownDepart_accepted (by exact refusal)]
    rw [depart_unknown (by rfl)]
    congr 1
    change passageAnswer (s.run.departed 0xFF) = _
    rw [Run.departed_unknown, passageAnswer, position]
    rfl
  · rw [if_neg known, if_neg (Nat.not_le.mpr exists_), if_pos ahead] at refusal
    have serves := ((serves_run canonical turn tag (.depart next) { s.run with state := .running, nextStop := some next.toNat }
      (s.roster.map (Entry.zoned s.tables s.run.direction next.toNat))).notices (s.zoneNotices next.toNat)).mirrorRun (by simp)
    have mirror : State.runMirror
        { s with
          run := { s.run with state := .running, nextStop := some next.toNat }
          roster := s.roster.map (Entry.zoned s.tables s.run.direction next.toNat) } =
        State.runMirror { s with run := { s.run with state := .running, nextStop := some next.toNat } } :=
      runMirror_congr rfl (List.length_map _)
    rw [mirror] at serves
    refine serves.answers turn rfl ?_
    rw [ownDepart_accepted (by exact refusal)]
    rw [depart_known (by rfl) (by rfl) known]
    change answerInHand slot tag .done (passageAnswer (s.run.departed next))
      (mirrorRun (appendNotices (s.zoneNotices next.toNat)
        { s.handed slot tag (.depart next) with
          run := s.run.departed next
          roster := s.roster.map (Entry.zoned s.tables s.run.direction next.toNat) })) = _
    rw [Run.departed_known s.run known]
    congr 1
    rw [passageAnswer, position]
    simp [Run.evaluationStop, stopByte]

end Sys2Proof.Machine

/-! Answers written into slots and holds that end (R149, R150), with nothing arriving and no access failing. -/

namespace Sys2Proof.Machine

/-! ### The part of the port that no notice touches -/

/-- The port with another hold list, other ended-hold marks, another request in hand and another cursor. -/
def Port.taking (p : Port) (holds : List Hold) (marks : Vector Bool 32) (inHand : Option Slot) (cursor : Slot) : Port :=
  { p with holds := holds, endedMarks := marks, inHand := inHand, cursor := cursor }

theorem told_taking (p : Port) (n : Nat) (holds : List Hold) (marks : Vector Bool 32) (inHand : Option Slot) (cursor : Slot) :
    (p.taking holds marks inHand cursor).told n = (p.told n).taking holds marks inHand cursor := by
  rcases p.state.writes_or with writes | stopped | fault
  · rw [told_of_writes writes, told_of_writes (by exact writes)]
    rfl
  · rw [told_of_stopped stopped, told_of_stopped (by exact stopped)]
  · rw [told_of_fault fault, told_of_fault (by exact fault)]
    split <;> rfl

theorem told_frame (p : Port) (n : Nat) : p.told n = (p.told n).taking p.holds p.endedMarks p.inHand p.cursor := by
  rw [← told_taking]
  rfl

@[simp] theorem told_holds (p : Port) (n : Nat) : (p.told n).holds = p.holds := by
  rw [told_frame]
  rfl
@[simp] theorem told_endedMarks (p : Port) (n : Nat) : (p.told n).endedMarks = p.endedMarks := by
  rw [told_frame]
  rfl
@[simp] theorem told_inHand (p : Port) (n : Nat) : (p.told n).inHand = p.inHand := by
  rw [told_frame]
  rfl
@[simp] theorem told_cursor (p : Port) (n : Nat) : (p.told n).cursor = p.cursor := by
  rw [told_frame]
  rfl

/-! ### Slot bytes -/

section
variable {s v u : State} {rs : List (Nat × Nat)} {ns : List Notice} {ms fs : List (Nat × List Byte)}

theorem Progress.widen {rs' : List (Nat × Nat)} (h : Progress s u rs ns ms) (sub : ∀ r ∈ rs, r ∈ rs') :
    Progress s u rs' ns ms where
  canonical := h.canonical
  area := h.area
  position := h.position
  sequence := h.sequence
  count := h.count
  ring := h.ring
  header := h.header
  others x out := h.others x fun r hr => out r (by
    simp only [List.mem_append] at hr ⊢
    exact hr.imp (Or.imp (sub r) id) id)

theorem Tells.widen {rs' : List (Nat × Nat)} (h : Tells s v u rs ns ms fs) (sub : ∀ r ∈ rs, r ∈ rs') :
    Tells s v u rs' ns ms fs := { h with written := fun writes => (h.written writes).widen sub }

theorem Tells.permute {fs' : List (Nat × List Byte)} (h : Tells s v u rs ns ms fs) (sub : ∀ f ∈ fs', f ∈ fs) :
    Tells s v u rs ns ms fs' :=
  { h with
    within := fun f hf => h.within f (sub f hf)
    facts := fun writes f hf => h.facts writes f (sub f hf) }

/-- Bytes written inside the slots, apart from those written there before. -/
theorem Tells.slotBytes (h : Tells s v u rs ns ms fs) {o : Nat} {bs : List Byte} (low : 0x500 ≤ o)
    (high : o + bs.length ≤ 0x1500) (apart : ∀ f ∈ fs, f.1 + f.2.length ≤ o ∨ o + bs.length ≤ f.1) :
    Tells s (busWrite (v.areaAddress + o) bs v) u ((s.areaAddress + o, bs.length) :: rs) ns ms (fs ++ [(o, bs)]) := by
  rw [busWrite_told h.bus]
  exact
    { h with
      within := by
        intro f hf
        rcases List.mem_append.mp hf with before | new
        · exact h.within f before
        · obtain rfl := List.mem_singleton.mp new
          exact ⟨low, high⟩
      written := fun writes => by
        have on : v.port.state.writes = true := by rw [h.portState, writes]
        rw [if_pos on, (h.written writes).areaAddress]
        exact (h.written writes).write low high fun m hm => (h.parts m hm).2
      facts := fun writes f hf => by
        have on : v.port.state.writes = true := by rw [h.portState, writes]
        rw [if_pos on, (h.written writes).areaAddress]
        rcases List.mem_append.mp hf with before | new
        · exact shows_write (h.facts writes f before) (apart f before) (h.within f before).2 high
        · obtain rfl := List.mem_singleton.mp new
          exact shows_written (h.written writes).canonical (by omega)
      silent := fun off => by
        have none : v.port.state.writes = false := by rw [h.portState, off]
        simp only [none]
        exact h.silent off }

/-- A change of the hold list, the ended-hold marks, the request in hand and the cursor. -/
theorem Tells.taking (h : Tells s v u rs ns ms fs) (holds : List Hold) (marks : Vector Bool 32) (inHand : Option Slot)
    (cursor : Slot) :
    Tells s { v with port := v.port.taking holds marks inHand cursor }
      { u with port := u.port.taking holds marks inHand cursor } rs ns ms fs :=
  { h with
    port := by
      simp only
      rw [told_taking, h.port]
    written := fun writes => (h.written writes).change rfl rfl rfl rfl rfl (.inr rfl) }

/-! ### An answer (R149) -/

/-- The offset of a slot in the area (9.3). -/
def Slot.offset (x : Slot) : Nat := 0x500 + 128 * x.val

theorem slotAddress_offset (s : State) (x : Slot) : s.slotAddress x = s.areaAddress + Slot.offset x := slotAddress_eq s x

/-- The bytes of a slot that an answer writes, by their offsets in the area: the state, the outcome, the answer bytes. -/
def answerFacts (x : Slot) (code : AnswerCode) (bytes : List Byte) : List (Nat × List Byte) :=
  [(Slot.offset x, [SlotState.answered.code]), (Slot.offset x + 4, [code.code]), (Slot.offset x + 72, padTo 56 bytes)]

/-- The same as ranges of host memory. -/
def State.answerRange (s : State) (x : Slot) : List (Nat × Nat) :=
  [(s.slotAddress x, 1), (s.slotAddress x + 4, 1), (s.slotAddress x + 72, 56)]

/-- Bytes that no answer in the slot `x` writes over. -/
structure ClearOf (x : Slot) (f : Nat × List Byte) : Prop where
  state : f.1 + f.2.length ≤ Slot.offset x ∨ Slot.offset x + 1 ≤ f.1
  outcome : f.1 + f.2.length ≤ Slot.offset x + 4 ∨ Slot.offset x + 5 ≤ f.1
  answer : f.1 + f.2.length ≤ Slot.offset x + 72 ∨ Slot.offset x + 128 ≤ f.1

theorem clearOf_of_ne {x y : Slot} (other : x ≠ y) {f : Nat × List Byte} (low : Slot.offset y ≤ f.1)
    (high : f.1 + f.2.length ≤ Slot.offset y + 128) : ClearOf x f := by
  have ne : x.val ≠ y.val := fun same => other (Fin.ext same)
  unfold Slot.offset at *
  refine ⟨?_, ?_, ?_⟩ <;> unfold Slot.offset <;> omega

theorem answerFacts_within {x : Slot} {code : AnswerCode} {bytes : List Byte} {f : Nat × List Byte}
    (on : f ∈ answerFacts x code bytes) : Slot.offset x ≤ f.1 ∧ f.1 + f.2.length ≤ Slot.offset x + 128 := by
  simp only [answerFacts, List.mem_cons, List.not_mem_nil, or_false] at on
  rcases on with rfl | rfl | rfl <;> simp

theorem busWrite_areaAddress (a : Nat) (bs : List Byte) (v : State) : (busWrite a bs v).areaAddress = v.areaAddress := by
  simp [State.areaAddress]

theorem busWrite_kept {v : State} (bus : v.busLeft = none) (a : Nat) (bs : List Byte) :
    (busWrite a bs v).port = v.port ∧ (busWrite a bs v).busLeft = none := by
  rw [busWrite_told bus]
  exact ⟨rfl, bus⟩

/-- An answer is its three writes and its notice. -/
theorem writeAnswer_eq (v : State) (notFault : v.port.state ≠ .fault) (bus : v.busLeft = none) (x : Slot) (tag : Half)
    (code : AnswerCode) (bytes : List Byte) :
    writeAnswer x tag code bytes v =
      appendNotice (answeredNotice x tag)
        (busWrite (v.areaAddress + Slot.offset x) [SlotState.answered.code]
          (busWrite (v.areaAddress + (Slot.offset x + 72)) (padTo 56 bytes)
            (busWrite (v.areaAddress + (Slot.offset x + 4)) [code.code] v))) := by
  rw [← Nat.add_assoc, ← Nat.add_assoc, ← slotAddress_offset]
  rcases v.port.state.writes_or with writes | stopped | fault
  · refine if_pos ?_
    obtain ⟨port1, bus1⟩ := busWrite_kept bus (v.slotAddress x + 4) [code.code]
    obtain ⟨port2, bus2⟩ := busWrite_kept bus1 (v.slotAddress x + 72) (padTo 56 bytes)
    obtain ⟨port3, -⟩ := busWrite_kept bus2 (v.slotAddress x) [SlotState.answered.code]
    rw [port3, port2, port1]
    exact writes
  · have silent : v.port.state.writes = false := by rw [stopped]; rfl
    rw [writeAnswer_silent silent, busWrite_silent silent, busWrite_silent silent, busWrite_silent silent,
      appendNotice_stopped stopped]
  · exact absurd fault notFault

theorem Tells.writeAnswer (h : Tells s v u rs ns ms fs) (notFault : s.port.state ≠ .fault) (x : Slot) (tag : Half)
    (code : AnswerCode) (bytes : List Byte) (clear : ∀ f ∈ fs, ClearOf x f) :
    Tells s (writeAnswer x tag code bytes v) u (s.answerRange x ++ rs) (ns ++ [answeredNotice x tag]) ms
      (answerFacts x code bytes ++ fs) := by
  have hx := x.isLt
  have outcome := h.slotBytes (o := Slot.offset x + 4) (bs := [code.code]) (by unfold Slot.offset; omega)
    (by simp [Slot.offset]; omega) fun f hf => (clear f hf).outcome
  have answer := outcome.slotBytes (o := Slot.offset x + 72) (bs := padTo 56 bytes) (by unfold Slot.offset; omega)
    (by simp [Slot.offset]; omega) fun f hf => by
      rcases List.mem_append.mp hf with before | new
      · simpa using (clear f before).answer
      · obtain rfl := List.mem_singleton.mp new
        simp
  have state := answer.slotBytes (o := Slot.offset x) (bs := [SlotState.answered.code]) (by unfold Slot.offset; omega)
    (by simp [Slot.offset]; omega) fun f hf => by
      simp only [List.append_assoc, List.mem_append, List.mem_singleton] at hf
      rcases hf with before | rfl | rfl
      · exact (clear f before).state
      · simp
      · simp
  have noticed := state.notice (answeredNotice x tag)
  rw [busWrite_areaAddress, busWrite_areaAddress] at noticed
  rw [writeAnswer_eq v (by rw [h.portState]; exact notFault) h.bus]
  refine (noticed.widen fun r hr => ?_).permute fun f hf => ?_
  · simp only [State.answerRange, slotAddress_offset, Nat.add_assoc]
    simp only [padTo_length, List.length_singleton] at hr
    simp only [List.mem_cons, List.cons_append, List.nil_append] at hr ⊢
    tauto
  · simp only [answerFacts, List.mem_append, List.mem_cons, List.not_mem_nil, or_false] at hf ⊢
    tauto

/-! ### The end of a hold (R150) -/

theorem endHold_notFault {v : State} (g : Hold) (code : AnswerCode) (bytes : List Byte)
    (notFault : (Machine.writeAnswer g.slot g.tag code bytes v).port.state ≠ .fault) :
    endHold g code bytes v = dropHold g.slot (Machine.writeAnswer g.slot g.tag code bytes v) := if_neg notFault

theorem Tells.dropHold (h : Tells s v u rs ns ms fs) (x : Slot) :
    Tells s (dropHold x v) { u with port := u.port.holdEnded x } rs ns ms fs := by
  have same : Machine.dropHold x v =
      { v with
        port := v.port.taking (u.port.holds.filter fun g => g.slot != x) (u.port.endedMarks.set x.val true) u.port.inHand
          u.port.cursor } := by
    have holds : v.port.holds = u.port.holds := by rw [h.port, told_holds]
    have marks : v.port.endedMarks = u.port.endedMarks := by rw [h.port, told_endedMarks]
    have inHand : v.port.inHand = u.port.inHand := by rw [h.port, told_inHand]
    have cursor : v.port.cursor = u.port.cursor := by rw [h.port, told_cursor]
    rw [← holds, ← marks, ← inHand, ← cursor]
    rfl
  rw [same]
  exact h.taking _ _ _ _

theorem Tells.endHold (h : Tells s v u rs ns ms fs) (notFault : s.port.state ≠ .fault) (g : Hold) (code : AnswerCode)
    (bytes : List Byte) (clear : ∀ f ∈ fs, ClearOf g.slot f) :
    Tells s (endHold g code bytes v) { u with port := u.port.holdEnded g.slot } (s.answerRange g.slot ++ rs)
      (ns ++ [answeredNotice g.slot g.tag]) ms (answerFacts g.slot code bytes ++ fs) := by
  have answered := h.writeAnswer notFault g.slot g.tag code bytes clear
  rw [endHold_notFault g code bytes (by rw [answered.portState]; exact notFault)]
  exact answered.dropHold g.slot

/-! ### Stage 12 inside an event -/

theorem Progress.dropPart {o : Nat} {bs : List Byte} (h : Progress s u rs ns (ms ++ [(o, bs)])) :
    Progress s u ((s.areaAddress + o, bs.length) :: rs) ns ms :=
  { h with
    header := fun m hm => h.header m (List.mem_append_left _ hm)
    others := fun x out => h.others x fun r hr => out r (by
      simp only [List.map_append, List.map_cons, List.map_nil, List.mem_append, List.mem_cons, List.not_mem_nil, or_false]
        at hr ⊢
      tauto) }

theorem Progress.absorbPart {o : Nat} {bs : List Byte}
    (h : Progress s u ((s.areaAddress + o, bs.length) :: rs) ns (ms ++ [(o, bs)])) : Progress s u rs ns (ms ++ [(o, bs)]) :=
  { h with
    others := fun x out => h.others x fun r hr => out r (by
      simp only [List.map_append, List.map_cons, List.map_nil, List.mem_append, List.mem_cons, List.not_mem_nil, or_false]
        at hr ⊢
      tauto) }

/-- The header part of the run mirror, rewritten or not before. -/
def RunPart (rm : List (Nat × List Byte)) : Prop := rm = [] ∨ ∃ bs : List Byte, bs.length = 16 ∧ rm = [(0x10, bs)]

/-- The run mirror rewritten, for the first time or once more (R31, R32). -/
theorem Tells.mirrorRun {rm : List (Nat × List Byte)} (h : Tells s v u rs ns (ms ++ rm) fs) (part : RunPart rm)
    (above : ∀ m ∈ ms, 0x20 ≤ m.1) : Tells s (mirrorRun v) u rs ns (ms ++ [(0x10, u.runMirror)]) fs := by
  have same : v.runMirror = u.runMirror := by rw [State.runMirror, State.runMirror, h.run, h.roster]
  rw [← same]
  have apart : ∀ m ∈ ms, m.1 + m.2.length ≤ 0x10 ∨ 0x10 + v.runMirror.length ≤ m.1 :=
    fun m hm => .inr (by simpa using above m hm)
  rcases part with rfl | ⟨bs, size, rfl⟩
  · rw [List.append_nil] at h
    exact h.mirror (by decide) (by simp) apart
  · have dropped : Tells s v u ((s.areaAddress + 0x10, bs.length) :: rs) ns ms fs :=
      { h with
        parts := fun m hm => h.parts m (List.mem_append_left _ hm)
        written := fun writes => (h.written writes).dropPart }
    have rewritten := dropped.mirror (o := 0x10) (bs := v.runMirror) (by decide) (by simp) apart
    rw [show bs.length = v.runMirror.length by simp [size]] at rewritten
    exact { rewritten with written := fun writes => (rewritten.written writes).absorbPart }

/-- The run mirror's part after events that took `u` to `w`: rewritten when an entry was created (R31). -/
def runPart (rm : List (Nat × List Byte)) (u w : State) : List (Nat × List Byte) :=
  if w.roster.length = u.roster.length then rm else [(0x10, w.runMirror)]

theorem RunPart.next {rm : List (Nat × List Byte)} (part : RunPart rm) (u w : State) : RunPart (runPart rm u w) := by
  unfold runPart
  split
  · exact part
  · exact .inr ⟨_, runMirror_length w, rfl⟩

theorem recordedRoster_congr {j : Judgement} {c : InspectCopy} (clock : v.clock = u.clock) (run : v.run = u.run)
    (tables : v.tables = u.tables) (roster : v.roster = u.roster) :
    v.recordedRoster j c = u.recordedRoster j c ∧ v.recordedAnswer j c = u.recordedAnswer j c := by
  obtain ⟨⟩ := v
  obtain ⟨⟩ := u
  simp only at clock run tables roster
  subst clock run tables roster
  exact ⟨rfl, rfl⟩

theorem judgeAt_congr {n : Nat} {c : InspectCopy} (run : v.run = u.run) (tables : v.tables = u.tables)
    (roster : v.roster = u.roster) : judgeAt n c v = judgeAt n c u := by
  unfold judgeAt judgeReasons
  rw [run, tables, roster]

theorem Tells.record {rm : List (Nat × List Byte)} (h : Tells s v u rs ns (ms ++ rm) fs) (part : RunPart rm)
    (above : ∀ m ∈ ms, 0x20 ≤ m.1) {j : Judgement} (c : InspectCopy) (current : v.clockCount ≤ j.clockCount) :
    Tells s (recordInspection j c v) { u with roster := u.recordedRoster j c } rs ns
      (ms ++ runPart rm u { u with roster := u.recordedRoster j c }) fs := by
  obtain ⟨roster, -⟩ := recordedRoster_congr (j := j) (c := c) h.clock h.run h.tables h.roster
  have recorded : Tells s { v with roster := u.recordedRoster j c } { u with roster := u.recordedRoster j c } rs ns
      (ms ++ rm) fs := { h with roster := rfl, written := fun writes => (h.written writes).change rfl rfl rfl rfl rfl (.inr rfl) }
  rw [recordInspection_current current, roster, h.roster, runPart]
  split
  · exact recorded
  · exact recorded.mirrorRun part above

end

/-! ### A held inspection released (R57) -/

theorem holdOf_slot {v : State} {x : Slot} {g : Hold} (held : v.holdOf x = some g) : g.slot = x := by
  simpa using List.find?_some held

/-- No access of the state fails: the bus does not, or the port makes none. -/
def State.Unfailing (v : State) : Prop := v.busLeft = none ∨ v.port.state.writes = false

theorem busWrite_unfailing {v : State} (quiet : v.Unfailing) (a : Nat) (bs : List Byte) : (busWrite a bs v).port = v.port := by
  rcases quiet with bus | silent
  · exact (busWrite_kept bus a bs).1
  · rw [busWrite_silent silent]

theorem recordInspection_port {v : State} (quiet : v.Unfailing) {j : Judgement} (current : v.clockCount ≤ j.clockCount)
    (c : InspectCopy) : (recordInspection j c v).port = v.port := by
  rw [recordInspection_current current]
  split
  · rfl
  · exact busWrite_unfailing (v := { v with roster := v.recordedRoster j c }) quiet _ _

/-- The evaluation of a hold on the list goes on while the port is not FAULT. -/
theorem lostHold_of_holdOf {v : State} {x : Slot} {g : Hold} (notFault : v.port.state ≠ .fault) (held : v.holdOf x = some g) :
    v.lostHold g.slot = false := by
  have onList : v.port.holds.any (fun h => h.slot == g.slot) = true :=
    List.any_eq_true.mpr ⟨g, List.mem_of_find?_eq_some held, beq_self_eq_true _⟩
  simp [State.lostHold, notFault, State.isHeld, onList]

/-- A release with nothing arriving: the judgement, stage 12 and the answer follow one another. -/
theorem releaseSlot_inspect {v : State} {n limit : Nat} {x : Slot} {g : Hold} {c : InspectCopy} (quiet : v.Unfailing)
    (notFault : v.port.state ≠ .fault) (held : v.holdOf x = some g) (work : g.work = .inspect limit c)
    (current : v.clockCount ≤ n) :
    releaseSlot id n x v =
      endHold g .done (v.recordedAnswer (judgeAt n c v) c) (recordInspection (judgeAt n c v) c v) := by
  have port := recordInspection_port quiet (j := judgeAt n c v) current c
  have kept := lostHold_of_holdOf notFault held
  have kept' : (recordInspection (judgeAt n c v) c v).lostHold g.slot = false :=
    lostHold_of_holdOf (x := x) (by rwa [port]) (by rwa [State.holdOf, port])
  have bytes := inspectionAnswer_current (j := judgeAt n c v) (c := c) (s := v) current
  rw [releaseSlot, if_neg notFault]
  simp only [held, work, releaseHold, answerHold, id, kept, kept', bytes]
  simp

section
variable {s v u : State} {rs : List (Nat × Nat)} {ns : List Notice} {ms fs rm : List (Nat × List Byte)}

theorem Tells.release (h : Tells s v u rs ns (ms ++ rm) fs) (part : RunPart rm) (above : ∀ m ∈ ms, 0x20 ≤ m.1)
    (notFault : s.port.state ≠ .fault) {n limit : Nat} {g : Hold} {c : InspectCopy} (held : u.holdOf g.slot = some g)
    (work : g.work = .inspect limit c) (current : u.clockCount ≤ n) (clear : ∀ f ∈ fs, ClearOf g.slot f) :
    Tells s (releaseSlot id n g.slot v)
      { u with roster := u.recordedRoster (judgeAt n c u) c, port := u.port.holdEnded g.slot } (s.answerRange g.slot ++ rs)
      (ns ++ [answeredNotice g.slot g.tag]) (ms ++ runPart rm u { u with roster := u.recordedRoster (judgeAt n c u) c })
      (answerFacts g.slot .done (u.recordedAnswer (judgeAt n c u) c) ++ fs) := by
  have heldNow : v.holdOf g.slot = some g := by
    rw [State.holdOf, h.port, told_holds]
    exact held
  have count : v.clockCount ≤ n := by
    rw [State.clockCount, h.clock]
    exact current
  have state : v.port.state ≠ .fault := by
    rw [h.portState]
    exact notFault
  rw [releaseSlot_inspect (.inl h.bus) state heldNow work count, judgeAt_congr h.run h.tables h.roster,
    (recordedRoster_congr h.clock h.run h.tables h.roster).2]
  exact (h.record part above c count).endHold notFault g .done _ clear

end

end Sys2Proof.Machine

/-! What the host finds after an event whose answers were followed write by write, and the end of a hold at its limit (R59,
R151). -/

namespace Sys2Proof.Machine

/-! ### What the host finds -/

section
variable {s v u t : State} {rs : List (Nat × Nat)} {ns : List Notice} {ms fs : List (Nat × List Byte)}

theorem shows_congr (memory : t.hostMemory = v.hostMemory) (a : Nat) (bs : List Byte) : t.shows a bs ↔ v.shows a bs := by
  rw [State.shows, State.shows, State.hostBytes, State.hostBytes, memory]

theorem Tells.ring (h : Tells s v u rs ns ms fs) (writes : s.port.state.writes = true) (memory : t.hostMemory = v.hostMemory)
    (count : t.clockCount = v.clockCount) : s.RingShows t ns where
  notices i hi n hn := by
    rw [shows_congr memory, count]
    exact (h.written writes).ring.notices i hi n hn
  header room := by
    rw [shows_congr memory]
    exact (h.written writes).ring.header room

theorem Tells.shown (h : Tells s v u rs ns ms fs) (writes : s.port.state.writes = true) (memory : t.hostMemory = v.hostMemory)
    {f : Nat × List Byte} (on : f ∈ fs) : t.shows (s.areaAddress + f.1) f.2 :=
  (shows_congr memory _ _).mpr (h.facts writes f on)

theorem Tells.header (h : Tells s v u rs ns ms fs) (writes : s.port.state.writes = true) (memory : t.hostMemory = v.hostMemory)
    {m : Nat × List Byte} (on : m ∈ ms) : t.shows (s.areaAddress + m.1) m.2 :=
  (shows_congr memory _ _).mpr ((h.written writes).header m on)

theorem Tells.others (h : Tells s v u rs ns ms fs) (writes : s.port.state.writes = true) (memory : t.hostMemory = v.hostMemory)
    {ranges : List (Nat × Nat)}
    (within : ∀ r ∈ rs ++ s.ringRanges ns.length ++ ms.map fun m => (s.areaAddress + m.1, m.2.length), r ∈ ranges) :
    s.writesOnly t ranges := by
  intro x out
  rw [memory]
  exact (h.written writes).others x fun r hr => out r (within r hr)

/-- The three parts of an answer. -/
theorem Tells.answerShown (h : Tells s v u rs ns ms fs) (writes : s.port.state.writes = true)
    (memory : t.hostMemory = v.hostMemory) {x : Slot} {code : AnswerCode} {bytes : List Byte}
    (on : ∀ f ∈ answerFacts x code bytes, f ∈ fs) :
    t.shows (s.slotAddress x) [SlotState.answered.code] ∧ t.shows (s.slotAddress x + 4) [code.code] ∧
      t.shows (s.slotAddress x + 72) (padTo 56 bytes) := by
  simp only [slotAddress_offset, Nat.add_assoc]
  have listed : answerFacts x code bytes = [(Slot.offset x, [SlotState.answered.code]), (Slot.offset x + 4, [code.code]),
      (Slot.offset x + 72, padTo 56 bytes)] := rfl
  rw [listed] at on
  refine ⟨h.shown writes memory (on (Slot.offset x, [SlotState.answered.code]) ?_),
    h.shown writes memory (on (Slot.offset x + 4, [code.code]) ?_),
    h.shown writes memory (on (Slot.offset x + 72, padTo 56 bytes) ?_)⟩ <;> simp

theorem Tells.holdAnswered {x : Slot} {tag : Half} {code : AnswerCode} {bytes : List Byte}
    (h : Tells s v u (s.answerRange x) (ns ++ [answeredNotice x tag]) ms (answerFacts x code bytes))
    (writes : s.port.state.writes = true) (memory : t.hostMemory = v.hostMemory) (count : t.clockCount = v.clockCount) :
    s.HoldAnswered t x tag code bytes ns ms := by
  obtain ⟨state, outcome, answer⟩ := h.answerShown writes memory fun f hf => hf
  exact ⟨state, outcome, answer, h.ring writes memory count, fun m hm => h.header writes memory hm,
    h.others writes memory fun r hr => by simpa [State.answerRange] using hr⟩

end

theorem holdEnded_told (p : Port) (x : Slot) (n : Nat) : (p.holdEnded x).told n = (p.told n).holdEnded x := by
  have taking : p.holdEnded x = p.taking (p.holds.filter fun h => h.slot != x) (p.endedMarks.set x.val true) p.inHand p.cursor :=
    rfl
  rw [taking, told_taking]
  simp only [Port.taking, Port.holdEnded, told_holds, told_endedMarks]
  rw [← told_inHand p n, ← told_cursor p n]

@[simp] theorem holdEnded_state (p : Port) (x : Slot) : (p.holdEnded x).state = p.state := rfl

/-! ### HOLD_LIMIT (R59, R151) -/

section
variable {s : State} {slot : Slot} {n limit : Nat} {g : Hold} {copy : InspectCopy}

theorem limitReached_inspect (work : g.work = .inspect limit copy) : g.limitReached n = decide (limit ≤ n) := by
  rw [Hold.limitReached, work]

theorem limitHold_due (held : s.holdOf slot = some g) (due : g.limitReached n = true) :
    limitHold id n slot s = releaseSlot id n slot s := if_pos (by simp [held, due])

theorem limitHold_stays (stays : s.holdOf slot = none ∨ ∃ g, s.holdOf slot = some g ∧ g.limitReached n = false) :
    limitHold id n slot s = s := by
  refine if_neg ?_
  rcases stays with none | ⟨g, held, early⟩
  · simp [none]
  · simp [held, early]

theorem releaseSlot_fault (fault : s.port.state = .fault) : releaseSlot id n slot s = s := if_pos fault

theorem exec_holdLimit_quiet (s : State) (slot : Slot) :
    exec (.holdLimit slot Env.quiet) s = .next (endStep (limitHold id s.clockCount slot s.quieted)) := by
  have quiet : limitHold (pollInspection id) s.clockCount slot s.quieted = limitHold id s.clockCount slot s.quieted :=
    limitHold_quiet rfl id _ _
  have none := afterEvaluations_none (mid := pollInspection id) ((limitHold_frame s.clockCount slot s.quieted).2.trans rfl)
  change Host.Outcome.next (endStep (afterEvaluations (pollInspection id)
    (limitHold (pollInspection id) s.clockCount slot s.quieted))) = _
  rw [quiet, none]

/-- In STOPPED a release records the inspection and drops its hold, with nothing written. -/
theorem releaseSlot_stopped (stopped : s.port.state = .stopped) (held : s.holdOf slot = some g)
    (work : g.work = .inspect limit copy) (current : s.clockCount ≤ n) :
    releaseSlot id n slot s =
      { s with roster := s.recordedRoster (judgeAt n copy s) copy, port := s.port.holdEnded slot } := by
  have silent : s.port.state.writes = false := by rw [stopped]; rfl
  have recorded : recordInspection (judgeAt n copy s) copy s =
      { s with roster := s.recordedRoster (judgeAt n copy s) copy } := by
    rw [recordInspection_current current]
    split
    · rfl
    · exact busWrite_silent (s := { s with roster := s.recordedRoster (judgeAt n copy s) copy }) silent _ _
  rw [releaseSlot_inspect (.inr silent) (by rw [stopped]; decide) held work current, recorded,
    endHold_stopped (by exact stopped), holdOf_slot held]
  rfl

end

/-- Settles O28. -/
theorem holdLimitEndsTheHold : Obligations.HoldLimitEndsTheHold := by
  intro s slot canonical
  refine ⟨fun h limit copy held work due => ?_, fun stays => ?_, fun n h limit copy held work => ⟨fun early => ?_,
    fun due current stopped => ?_⟩⟩
  · have reached : h.limitReached s.clockCount = true := by
      rw [limitReached_inspect work]
      exact decide_eq_true due
    have own := holdOf_slot held
    subst own
    rw [exec_holdLimit_quiet, limitHold_due (by exact held) reached]
    have tells (notFault : s.port.state ≠ .fault) := Tells.release (rm := []) (ms := []) (tells_quieted canonical) (.inl rfl)
      (by simp) notFault held work (Nat.le_refl _) (by simp)
    refine ⟨fun writes => ?_, fun stopped => ?_⟩
    · have ended := tells (writes_ne_fault writes)
      refine ⟨_, ?_, ended.holdAnswered writes rfl (congrArg Clock.count ended.clock).symm⟩
      rw [ended.endStep_eq]
      simp only [List.nil_append, List.length_singleton]
      rw [holdEnded_told, told_of_writes writes]
      rfl
    · have ended := tells (by rw [stopped]; decide)
      rw [ended.endStep_eq, ended.silent (by rw [stopped]; rfl), told_of_stopped (by exact stopped)]
      rfl
  · have same : limitHold id s.clockCount slot s.quieted = s.quieted := by
      rcases stays with fault | stays
      · unfold limitHold
        split
        · exact releaseSlot_fault fault
        · rfl
      · exact limitHold_stays stays
    rw [exec_holdLimit_quiet, same, endStep_quieted]
  · exact limitHold_stays (.inr ⟨h, held, by rw [limitReached_inspect work]; exact decide_eq_false (Nat.not_le.mpr early)⟩)
  · rw [limitHold_due held (by rw [limitReached_inspect work]; exact decide_eq_true due)]
    exact releaseSlot_stopped stopped held work current

end Sys2Proof.Machine

/-! The completions of a WIPE (8.7) and of a load (8.3), with nothing arriving and no access failing. -/

namespace Sys2Proof.Machine

/-! ### Inside an event: a descriptor's mirror, a request's own hold -/

section
variable {s v u : State} {rs : List (Nat × Nat)} {ns : List Notice} {ms fs : List (Nat × List Byte)}

theorem Tells.mirrorDescriptor (h : Tells s v u rs ns ms fs) (k : TableKind)
    (apart : ∀ m ∈ ms, m.1 + m.2.length ≤ k.mirrorOffset ∨ k.mirrorOffset + 16 ≤ m.1) :
    Tells s (mirrorDescriptor k v) u rs ns (ms ++ [(k.mirrorOffset, (u.tables.descriptor k).image)]) fs := by
  have rewritten := h.mirror (o := k.mirrorOffset) (bs := (v.tables.descriptor k).image) (by cases k <;> decide)
    (by cases k <;> simp [TableKind.mirrorOffset]) fun m hm => by simpa using apart m hm
  rw [← h.tables]
  exact rewritten

theorem endOwnHold_fault {isOwn : Hold → Bool} {bytes : List Byte} (fault : v.port.state = .fault) :
    endOwnHold isOwn bytes v = v := if_pos fault

theorem endOwnHold_none {isOwn : Hold → Bool} {bytes : List Byte} (none : ∀ g ∈ v.port.holds, isOwn g = false) :
    endOwnHold isOwn bytes v = v := by
  have absent : v.port.holds.find? isOwn = .none := List.find?_eq_none.mpr fun g hg => by simp [none g hg]
  unfold endOwnHold
  rw [absent]
  exact ite_self v

theorem endOwnHold_some {isOwn : Hold → Bool} {bytes : List Byte} {g : Hold} (notFault : v.port.state ≠ .fault)
    (own : v.port.holds.find? isOwn = some g) : endOwnHold isOwn bytes v = Machine.endHold g .done bytes v := by
  unfold endOwnHold
  rw [if_neg notFault, own]

theorem Tells.endOwnHold (h : Tells s v u rs ns ms fs) (notFault : s.port.state ≠ .fault) {isOwn : Hold → Bool} {g : Hold}
    (own : u.port.holds.find? isOwn = some g) (bytes : List Byte) (clear : ∀ f ∈ fs, ClearOf g.slot f) :
    Tells s (endOwnHold isOwn bytes v) { u with port := u.port.holdEnded g.slot } (s.answerRange g.slot ++ rs)
      (ns ++ [answeredNotice g.slot g.tag]) ms (answerFacts g.slot .done bytes ++ fs) := by
  have state : v.port.state ≠ .fault := by
    rw [h.portState]
    exact notFault
  have found : v.port.holds.find? isOwn = some g := by
    rw [h.port, told_holds]
    exact own
  rw [endOwnHold_some state found]
  exact h.endHold notFault g .done bytes clear

/-- An event that ends one hold and then nothing more, in a port that writes. -/
theorem Tells.ends_one {x : Slot} {tag : Half} (h : Tells s v { u with port := u.port.holdEnded x } rs [answeredNotice x tag] ms fs)
    (same : u.port = s.port) (writes : s.port.state.writes = true) :
    endStep v = endStep { u with port := (s.port.offered 1).holdEnded x, hostMemory := v.hostMemory } := by
  rw [h.endStep_eq]
  simp only [List.length_singleton]
  rw [holdEnded_told, same, told_of_writes writes]

/-- The same in STOPPED, where nothing is written. -/
theorem Tells.ends_one_stopped {x : Slot} {tag : Half}
    (h : Tells s v { u with port := u.port.holdEnded x } rs [answeredNotice x tag] ms fs)
    (same : u.port = s.port) (memory : u.hostMemory = s.hostMemory) (stopped : s.port.state = .stopped) :
    endStep v = endStep { u with port := s.port.holdEnded x } := by
  rw [h.endStep_eq, h.silent (by rw [stopped]; rfl), ← memory]
  simp only [List.length_singleton]
  rw [holdEnded_told, same, told_of_stopped stopped]

end

/-! ### WIPE (R138) -/

section
variable {s : State} {slot : Slot} {tag : Half}

theorem ownWipe_open (opened : s.runOpen = true) : ownWipe slot tag s = answerInHand slot tag .refusedRunOpen [] s := if_pos opened

theorem ownWipe_busy (shut : s.runOpen = false) (busy : s.tables.busy = true) :
    ownWipe slot tag s = answerInHand slot tag .refusedBusy [] s := by
  rw [ownWipe, if_neg (by simp [shut]), if_pos busy]

theorem ownWipe_begins (shut : s.runOpen = false) (idle : s.tables.load = none) (notWiping : s.tables.wiping = false) :
    ownWipe slot tag s = holdNow (wipeHold slot tag) (beginWipe s) := by
  rw [ownWipe, if_neg (by simp [shut]), if_neg (by simp [Tables.busy, idle, notWiping])]

end

/-! ### WIPE_COMPLETION (R140) -/

theorem completeWipe_none {s : State} (none : s.tables.wiping = false) : completeWipe s = s := if_neg (by simp [none])

/-- The mirrors that a completed WIPE rewrites, as their bytes then stand. -/
def wipeParts (u : State) : List (Nat × List Byte) :=
  [(0x30, Descriptor.reset.image), (0x40, Descriptor.reset.image), (0x50, Descriptor.reset.image), (0x10, u.runMirror)]

/-- A WIPE's completion up to the answer. -/
def wiped (s : State) : State :=
  mirrorRun (mirrorDescriptor .deny (mirrorDescriptor .tariff (mirrorDescriptor .stops (wipeState s))))

theorem tells_wiped {s : State} (canonical : Memory.wf s.hostMemory = true) :
    Tells s (wiped s.quieted) (wipeState s) [] [] (wipeParts (wipeState s)) [] := by
  have changed : Tells s (wipeState s.quieted) (wipeState s) [] [] [] [] :=
    (tells_quieted canonical).change (c := s.clock) _ _ _ _ (.inl rfl)
  have stops := changed.mirrorDescriptor .stops (by simp)
  have tariff := stops.mirrorDescriptor .tariff (by simp [TableKind.mirrorOffset])
  have deny := tariff.mirrorDescriptor .deny (by simp [TableKind.mirrorOffset])
  have run := Tells.mirrorRun (rm := []) (by rw [List.append_nil]; exact deny) (.inl rfl) (by simp [TableKind.mirrorOffset])
  exact run

theorem completeWipe_wiped {s v : State} (wiping : s.tables.wiping = true) (h : Tells s (wiped s.quieted) v [] [] (wipeParts v) [])
    (tables : v.tables = Tables.reset) :
    completeWipe s.quieted = endOwnHold Hold.isWipe
      (Descriptor.reset.image ++ Descriptor.reset.image ++ Descriptor.reset.image) (wiped s.quieted) := by
  have begun : completeWipe s.quieted = endOwnHold Hold.isWipe (wipeAnswer (wiped s.quieted).tables) (wiped s.quieted) :=
    if_pos wiping
  rw [begun, h.tables, tables]
  rfl

/-- Settles O40. -/
theorem wipeBeginsAndCompletes : Obligations.WipeBeginsAndCompletes := by
  refine ⟨fun s slot tag canonical turn => ⟨fun opened => ?_, fun shut busy => ?_, fun shut idle notWiping => ?_⟩,
    fun s canonical => ⟨fun none => ?_, fun u wiping hu => ?_⟩⟩
  · exact answersUnchanged_of canonical turn rfl (ownWipe_open (s := s.handed slot tag .wipe) opened)
  · exact answersUnchanged_of canonical turn rfl
      (ownWipe_busy (s := s.handed slot tag .wipe) shut ((busy_iff s.tables).mpr busy))
  · exact (serves_tables canonical turn tag .wipe { s.tables with wiping := true }).parks turn rfl rfl
      (ownWipe_begins (s := s.handed slot tag .wipe) shut idle notWiping)
  · have command : exec (.wipeCompletion Env.quiet) s = .next (endStep (completeWipe s.quieted)) := rfl
    rw [command, completeWipe_none (by exact none), endStep_quieted]
  · have same : u = wipeState s := hu
    subst same
    have tells := tells_wiped canonical
    have command : exec (.wipeCompletion Env.quiet) s = .next (endStep (endOwnHold Hold.isWipe
        (Descriptor.reset.image ++ Descriptor.reset.image ++ Descriptor.reset.image) (wiped s.quieted))) := by
      rw [← completeWipe_wiped wiping tells rfl]
      rfl
    rw [command]
    have ended {g : Hold} (notFault : s.port.state ≠ .fault) (own : s.port.holds.find? (fun h => h.work == .wipe) = some g) :=
      tells.endOwnHold notFault (isOwn := Hold.isWipe) own
        (Descriptor.reset.image ++ Descriptor.reset.image ++ Descriptor.reset.image) (by simp)
    refine ⟨fun g writes own => ?_, fun g stopped own => ?_, fun fault => ?_, fun none => ?_⟩
    · have ownEnded := ended (writes_ne_fault writes) own
      refine ⟨_, congrArg Host.Outcome.next (ownEnded.ends_one rfl writes), ?_⟩
      exact (ownEnded.permute (fs' := answerFacts g.slot .done _) (by simp)).widen (rs' := s.answerRange g.slot) (by simp)
        |>.holdAnswered (ns := []) writes rfl (congrArg Clock.count ownEnded.clock).symm
    · exact congrArg Host.Outcome.next ((ended (by rw [stopped]; decide) own).ends_one_stopped rfl rfl stopped)
    · rw [endOwnHold_fault (by rw [tells.portState]; exact fault), tells.endStep_eq, tells.silent (by rw [fault]; rfl),
        List.length_nil, told_zero]
      rfl
    · rw [endOwnHold_none fun g hg => ?_]
      · refine ⟨_, rfl, ?_, ?_, ?_, ?_⟩ <;> simp only [endStep_tables, endStep_roster, endStep_run, endStep_port]
        · exact tells.tables
        · exact tells.roster
        · exact tells.run
        · rw [tells.port, List.length_nil, told_zero]
          rfl
      · rw [tells.port, told_holds] at hg
        simp [Hold.isWipe, none g hg]

end Sys2Proof.Machine

/-! The completion of a load (R134): the copy of what is left, the judgement, the answer. -/

namespace Sys2Proof.Machine

/-! ### What is left of an event, whole -/

section
variable {s v u : State} {rs : List (Nat × Nat)} {ns : List Notice} {ms fs : List (Nat × List Byte)}

theorem Tells.whole (h : Tells s v u rs ns ms fs) :
    v = { u with
      port := u.port.told ns.length, hostMemory := v.hostMemory, busLeft := none, arrivals := [], owed := [] } := by
  obtain ⟨pending, port, clock, run, tables, roster, power, hostMemory, busLeft, arrivals, owed, turns⟩ := v
  obtain ⟨hbus, harrivals, howed, -, hport, hpending, hclock, hrun, htables, hroster, hpower, hturns, -, -, -, -, -⟩ := h
  simp only at hbus harrivals howed hport hpending hclock hrun htables hroster hpower hturns
  subst hbus harrivals howed hport hpending hclock hrun htables hroster hpower hturns
  rfl

end

/-! ### The copy -/

theorem copyBytes_quiet {v : State} (bus : v.busLeft = none) (n : Nat) (job : LoadJob) :
    copyBytes n job v = { v with tables := v.tables.copyIn job (v.hostBytes (job.source + job.copied) n) } := by
  have all : v.transferred n = n := by rw [State.transferred, bus]
  have unspent : v.spend n = v := by
    obtain ⟨⟩ := v
    simp only at bus
    subst bus
    rfl
  rw [copyBytes]
  simp only [all, if_true]
  rw [unspent]

/-! ### The judgement -/

/-- The state with its table judged and its mirror rewritten, before anything else of the completion (R134). -/
def judgedState (k : TableKind) (v : State) (copied : Tables) : State :=
  mirrorDescriptor k { v with tables := copied.completed k }

theorem releaseDenies_none {v : State} (none : ∀ x ∈ v.port.holds, x.awaits ≠ .denyLoad) (mid : State → State) :
    releaseDenies mid v = v := by
  have empty : v.heldSlots (fun h => h.awaits == .denyLoad) = [] := by
    rw [State.heldSlots, List.filter_eq_nil_iff.mpr fun x hx => by simpa using none x hx]
    rfl
  rw [releaseDenies, empty]
  rfl

theorem mirrorDescriptor_told {v : State} (bus : v.busLeft = none) (k : TableKind) :
    mirrorDescriptor k v =
      { v with
        hostMemory :=
          if v.port.state.writes then
            Memory.writeRun hostSize v.hostMemory (v.areaAddress + k.mirrorOffset) (v.tables.descriptor k).image
          else v.hostMemory } := busWrite_told bus _ _

/-- A load's completion where no hold waits for it: the judgement, what arrives before the answer, the answer. -/
theorem finishLoad_alone {v : State} {k : TableKind} (bus : v.busLeft = none) (owed : v.owed = [])
    (none : ∀ x ∈ v.port.holds, x.awaits ≠ .denyLoad) :
    finishLoad k v = endOwnHold Hold.isLoad (loadAnswer k (pollCompletion (judgedState k v v.tables)).tables)
      (pollCompletion (judgedState k v v.tables)) := by
  have kept : judgedState k v v.tables =
      if k = .deny then afterEvaluations (pollInspection id) (releaseDenies (pollInspection id) (judgedState k v v.tables))
      else judgedState k v v.tables := by
    rw [judgedState, mirrorDescriptor_told (by exact bus), releaseDenies_none (by exact none),
      afterEvaluations_none (by exact owed), ite_self]
  have unfolded : finishLoad k v = endOwnHold Hold.isLoad (loadAnswer k (pollCompletion
      (if k = .deny then afterEvaluations (pollInspection id) (releaseDenies (pollInspection id) (judgedState k v v.tables))
      else judgedState k v v.tables)).tables) (pollCompletion
      (if k = .deny then afterEvaluations (pollInspection id) (releaseDenies (pollInspection id) (judgedState k v v.tables))
      else judgedState k v v.tables)) := rfl
  rw [unfolded, ← kept]

theorem completeLoad_finishes {v : State} {job : LoadJob} (bus : v.busLeft = none) (loading : v.tables.load = some job) :
    completeLoad v =
      finishLoad job.kind
        { v with
          tables := v.tables.copyIn job (v.hostBytes (job.source + job.copied) (v.tables.toCopy job)) } := by
  unfold completeLoad
  rw [loading]
  simp only
  rw [copyBytes_quiet bus]
  exact if_pos rfl

section
variable {s v u : State} {rs : List (Nat × Nat)} {ns : List Notice} {ms fs : List (Nat × List Byte)}

theorem tells_judged {s : State} (canonical : Memory.wf s.hostMemory = true) (k : TableKind) (copied : Tables) :
    Tells s (judgedState k s.quieted copied) { s with tables := copied.completed k } [] []
      [(k.mirrorOffset, ((copied.completed k).descriptor k).image)] [] := by
  have changed : Tells s { s.quieted with tables := copied.completed k } { s with tables := copied.completed k } [] [] [] [] :=
    (tells_quieted canonical).change (c := s.clock) _ _ _ _ (.inl rfl)
  exact changed.mirrorDescriptor k (by simp)

/-- What arrives while a table is judged does not change the judgement. -/
theorem judgedState_arrivals {v : State} (bus : v.busLeft = none) (k : TableKind) (copied : Tables) (arrivals : List Arrival) :
    judgedState k { v with arrivals := arrivals } copied = { judgedState k v copied with arrivals := arrivals } := by
  rw [judgedState, judgedState, mirrorDescriptor_told (by exact bus), mirrorDescriptor_told (by exact bus)]
  rfl

end

/-- A table's descriptor and image once judged (R133). -/
theorem judged_eq {t copied : Tables} {k : TableKind} {job : LoadJob} {bytes : List Byte} (kind : job.kind = k)
    (hcopied : copied = { t with memory := Memory.writeRun tableSize t.memory (k.base + job.copied) bytes }) :
    (t.copyIn job bytes).completed k =
      { copied.setDescriptor k
          (if judgeImage copied k = .noCause then { t.descriptor k with state := .valid, cause := .noCause }
           else { t.descriptor k with state := .damaged, cause := judgeImage copied k }) with
        load := none
        ordinals :=
          if k = .stops then
            if judgeImage copied .stops = .noCause then lineOrdinals ((copied.entries .stops).map Stop.ofBytes) else []
          else t.ordinals } := by
  subst hcopied kind
  unfold Tables.completed Tables.copyIn
  cases job.kind <;> rfl

/-- The stored image stays as the copy left it (R133). -/
theorem completed_image (t : Tables) (k : TableKind) : (t.completed k).image k = t.image k := by
  have count : ((t.completed k).descriptor k).count = (t.descriptor k).count := by
    rw [Tables.completed_descriptor, if_pos rfl, Descriptor.judged_count]
  have memory : (t.completed k).memory = t.memory := by cases k <;> rfl
  rw [Tables.image, Tables.image, memory, count]

/-- A load's completion with no hold awaiting it: what the owner is to do once the table is judged. -/
theorem completeLoad_alone {s : State} {job : LoadJob} {copied : Tables} (arrivals : List Arrival)
    (loading : s.tables.load = some job) (none : ∀ x ∈ s.port.holds, x.awaits ≠ .denyLoad)
    (hcopied : copied = s.tables.copyIn job (s.hostBytes (job.source + job.copied) (s.tables.toCopy job))) :
    completeLoad { s.quieted with arrivals := arrivals } =
      endOwnHold Hold.isLoad
        (loadAnswer job.kind (pollCompletion { judgedState job.kind s.quieted copied with arrivals := arrivals }).tables)
        (pollCompletion { judgedState job.kind s.quieted copied with arrivals := arrivals }) := by
  rw [completeLoad_finishes (by rfl) (by exact loading), finishLoad_alone (by rfl) (by rfl) (by exact none),
    ← judgedState_arrivals (by rfl), hcopied]
  rfl

theorem pollCompletion_portReset {v : State} (arrivals : v.arrivals = []) :
    pollCompletion { v with arrivals := [.portReset] } = resetPort v := by
  obtain ⟨⟩ := v
  simp only at arrivals
  subst arrivals
  rfl

/-- Settles O35. -/
theorem loadCompletionJudges : Obligations.LoadCompletionJudges := by
  intro s canonical
  refine ⟨fun none => ?_, fun job g k copied judged loading own free kind hcopied hjudged => ?_⟩
  · have idle : completeLoad s.quieted = s.quieted := by
      unfold completeLoad
      rw [show s.quieted.tables.load = .none from none]
    have command : exec (.loadCompletion Env.quiet) s = .next (endStep (completeLoad s.quieted)) := rfl
    rw [command, idle, endStep_quieted]
  subst kind
  obtain ⟨written, hwritten⟩ : ∃ t, t = s.tables.copyIn job (s.hostBytes (job.source + job.copied) (s.tables.toCopy job)) :=
    ⟨_, rfl⟩
  have completed : judged = written.completed job.kind := by
    rw [hwritten]
    exact hjudged.trans (judged_eq rfl hcopied).symm
  have image : copied.image job.kind = judged.image job.kind := by
    rw [completed, completed_image, hwritten, hcopied]
    rfl
  have tells := tells_judged canonical job.kind written
  rw [← completed] at tells
  have quiet : pollCompletion (judgedState job.kind s.quieted written) = judgedState job.kind s.quieted written :=
    pollCompletion_quiet tells.arrivals
  have command : exec (.loadCompletion Env.quiet) s =
      .next (endStep (endOwnHold Hold.isLoad (loadAnswer job.kind judged) (judgedState job.kind s.quieted written))) := by
    have alone := completeLoad_alone [] loading free hwritten
    have same : { judgedState job.kind s.quieted written with arrivals := [] } = judgedState job.kind s.quieted written := by
      rw [tells.whole]
    rw [same, quiet, tells.tables] at alone
    exact congrArg (fun v => Host.Outcome.next (endStep v)) alone
  rw [image]
  have ended (notFault : s.port.state ≠ .fault) :=
    tells.endOwnHold notFault (isOwn := Hold.isLoad) own (loadAnswer job.kind judged) (by simp)
  refine ⟨fun writes => ?_, fun stopped => ?_, fun works => ?_⟩
  · have ownEnded := ended (writes_ne_fault writes)
    refine ⟨_, command.trans (congrArg Host.Outcome.next (ownEnded.ends_one rfl writes)), ?_⟩
    exact (ownEnded.permute (fs' := answerFacts g.slot .done (loadAnswer job.kind judged)) (by simp)).widen
        (rs' := s.answerRange g.slot) (by simp)
      |>.holdAnswered (ns := []) writes rfl (congrArg Clock.count ownEnded.clock).symm
  · exact command.trans (congrArg Host.Outcome.next ((ended (by rw [stopped]; decide)).ends_one_stopped rfl rfl stopped))
  · have alone := completeLoad_alone [.portReset] loading free hwritten
    rw [pollCompletion_portReset tells.arrivals, endOwnHold_none (by simp [resetPort])] at alone
    refine ⟨(judgedState job.kind s.quieted written).hostMemory, ?_, ?_⟩
    · have reset : exec (.loadCompletion { Env.quiet with arrivals := [.portReset] }) s =
          .next (endStep (completeLoad { s.quieted with arrivals := [.portReset] })) := rfl
      rw [reset, alone]
      conv_lhs => rw [tells.whole]
      rw [List.length_nil, told_zero]
      rfl
    · rcases works with writes | stopped
      · have noRoom : s.port.room 0 = 0 := Nat.min_eq_left (Nat.zero_le _)
        exact tells.others writes rfl fun r hr => by simpa [State.ringRanges, noRoom] using hr
      · intro x _
        exact congrArg (fun m => Memory.read m x) (tells.silent (by rw [stopped]; rfl))

end Sys2Proof.Machine

/-! A request whose owner ends holds, and holds that end one after another (R27, R28, R58, R151), with nothing arriving and no
access failing. -/

namespace Sys2Proof.Machine

/-! ### A request from its take to its answer -/

theorem shows_append {t : State} {a : Nat} {bs cs : List Byte} :
    t.shows a (bs ++ cs) ↔ t.shows a bs ∧ t.shows (a + bs.length) cs := by
  have split : t.hostBytes a (bs ++ cs).length = t.hostBytes a bs.length ++ t.hostBytes (a + bs.length) cs.length := by
    unfold State.hostBytes Memory.readRun
    rw [List.length_append, List.range_add, List.map_append]
    simp [List.map_map, Function.comp_def, Nat.add_assoc]
  unfold State.shows
  rw [split]
  exact ⟨fun same => List.append_inj same (by simp [State.hostBytes]), fun ⟨first, second⟩ => by rw [first, second]⟩

/-- Bytes of a slot posted, and taken in hand: kind, tag and arguments, by their offsets in the area. -/
def postedFacts (slot : Slot) (tag : Half) (r : Request) : List (Nat × List Byte) :=
  [(Slot.offset slot + 1, [r.kindByte] ++ le 2 tag.toNat), (Slot.offset slot + 8, padTo 64 r.argBytes)]

/-- What a take writes in a slot: the host's post and the state TAKEN. -/
def State.postRange (s : State) (slot : Slot) : List (Nat × Nat) := [(s.slotAddress slot, 4), (s.slotAddress slot + 8, 64)]

theorem tells_handed {s : State} {slot : Slot} (canonical : Memory.wf s.hostMemory = true) (turn : s.isNext slot) (tag : Half)
    (r : Request) :
    Tells s (s.handed slot tag r) (s.handed slot tag r) (s.postRange slot) [] [] (postedFacts slot tag r) where
  bus := rfl
  arrivals := rfl
  owed := rfl
  state := rfl
  port := (told_zero _).symm
  pending := rfl
  clock := rfl
  run := rfl
  tables := rfl
  roster := rfl
  power := rfl
  turns := rfl
  parts := by simp
  within f hf := by
    have := slot.isLt
    simp only [postedFacts, List.mem_cons, List.not_mem_nil, or_false] at hf
    rcases hf with rfl | rfl <;> simp [Slot.offset] <;> omega
  written _ := (working_handed canonical turn tag r).progress
  facts _ f hf := by
    have working := working_handed canonical turn tag r
    simp only [postedFacts, List.mem_cons, List.not_mem_nil, or_false] at hf
    rcases hf with rfl | rfl
    · have head : (s.handed slot tag r).shows (s.slotAddress slot)
          ([SlotState.taken.code] ++ ([r.kindByte] ++ le 2 tag.toNat)) := working.head
      simp only
      rw [← Nat.add_assoc, ← slotAddress_offset]
      exact (shows_append.mp head).2
    · simp only
      rw [← Nat.add_assoc, ← slotAddress_offset]
      exact working.arguments
  silent off := by
    rw [isNext_sweeping turn] at off
    cases off

section
variable {s v u : State} {slot : Slot} {tag : Half} {rs : List (Nat × Nat)} {ns : List Notice} {ms fs : List (Nat × List Byte)}

/-- The answer of the request in hand (R149). -/
theorem Tells.answerInHand (h : Tells s v u rs ns ms fs) (notFault : s.port.state ≠ .fault) (inHand : u.port.inHand = some slot)
    (tag : Half) (code : AnswerCode) (bytes : List Byte) (clear : ∀ f ∈ fs, ClearOf slot f) :
    Tells s (answerInHand slot tag code bytes v)
      { u with port := u.port.taking u.port.holds u.port.endedMarks none (slot + 1) } (s.answerRange slot ++ rs)
      (ns ++ [answeredNotice slot tag]) ms (answerFacts slot code bytes ++ fs) := by
  have own : v.hasInHand slot = true := by
    rw [State.hasInHand, h.port, told_inHand, inHand]
    exact beq_self_eq_true _
  have answered := h.writeAnswer notFault slot tag code bytes clear
  have unfolded : Machine.answerInHand slot tag code bytes v = finishInHand slot (Machine.writeAnswer slot tag code bytes v) := by
    rw [Machine.answerInHand, answerInHandWith, pollAll_quiet h.arrivals, if_pos own, answerNow,
      if_neg (by rw [answered.portState]; exact notFault)]
  have same : finishInHand slot (Machine.writeAnswer slot tag code bytes v) =
      { Machine.writeAnswer slot tag code bytes v with
        port := (Machine.writeAnswer slot tag code bytes v).port.taking u.port.holds u.port.endedMarks none (slot + 1) } := by
    have holds : (Machine.writeAnswer slot tag code bytes v).port.holds = u.port.holds := by rw [answered.port, told_holds]
    have marks : (Machine.writeAnswer slot tag code bytes v).port.endedMarks = u.port.endedMarks := by
      rw [answered.port, told_endedMarks]
    rw [← holds, ← marks]
    rfl
  rw [unfolded, same]
  exact answered.taking _ _ _ _

/-- The request done: the sweep goes on or ends (R146, R147). -/
theorem Tells.requestDone (h : Tells s v u rs ns ms fs) (sweeping : s.port.state = .sweeping) {p : Port}
    (swept : u.port = p.swept slot) :
    endStep (endSweep v) = State.requestDone { u with port := p } slot ns.length v.hostMemory := by
  have port : v.port = (p.swept slot).offered ns.length := by
    have state : (p.swept slot).state = .sweeping := by rw [← swept, h.state, sweeping]
    rw [h.port, swept, told_of_writes (by rw [state]; rfl)]
  rw [endSweep_eq (by rw [h.portState, sweeping]), State.requestDone, ← port]
  conv_lhs => rw [h.whole]
  rw [endStep, endStep, ← h.port]

theorem Tells.slotAnswered {t : State} {r : Request} {code : AnswerCode} {bytes : List Byte} (h : Tells s v u rs ns ms fs)
    (writes : s.port.state.writes = true) (memory : t.hostMemory = v.hostMemory) (area : t.port.areaBase = s.port.areaBase)
    (posted : ∀ f ∈ postedFacts slot tag r, f ∈ fs) (answered : ∀ f ∈ answerFacts slot code bytes, f ∈ fs) :
    t.SlotAnswered slot tag r code bytes := by
  obtain ⟨state, outcome, answer⟩ := h.answerShown writes memory answered
  have address : t.slotAddress slot = s.slotAddress slot := by simp [State.slotAddress, State.areaAddress, area]
  have head := h.shown writes memory (posted (Slot.offset slot + 1, [r.kindByte] ++ le 2 tag.toNat) (by simp [postedFacts]))
  have arguments := h.shown writes memory (posted (Slot.offset slot + 8, padTo 64 r.argBytes) (by simp [postedFacts]))
  simp only [← Nat.add_assoc, ← slotAddress_offset] at head arguments
  refine ⟨?_, by rw [address]; exact arguments, by rw [address]; exact answer⟩
  rw [address]
  have first : t.shows (s.slotAddress slot) ([SlotState.answered.code] ++ ([r.kindByte] ++ le 2 tag.toNat)) :=
    shows_append.mpr ⟨state, head⟩
  have all : t.shows (s.slotAddress slot) ([SlotState.answered.code] ++ ([r.kindByte] ++ le 2 tag.toNat) ++ [code.code]) :=
    shows_append.mpr ⟨first, by simpa using outcome⟩
  exact all

theorem postedFacts_clear (slot : Slot) (tag : Half) (r : Request) : ∀ f ∈ postedFacts slot tag r, ClearOf slot f := by
  intro f hf
  simp only [postedFacts, List.mem_cons, List.not_mem_nil, or_false] at hf
  rcases hf with rfl | rfl <;> constructor <;> simp

theorem postedFacts_clear_other {x slot : Slot} (other : x ≠ slot) (tag : Half) (r : Request) :
    ∀ f ∈ postedFacts slot tag r, ClearOf x f := by
  intro f hf
  simp only [postedFacts, List.mem_cons, List.not_mem_nil, or_false] at hf
  refine clearOf_of_ne other ?_ ?_ <;> rcases hf with rfl | rfl <;> simp

theorem answerFacts_clear_other {x y : Slot} (other : x ≠ y) (code : AnswerCode) (bytes : List Byte) :
    ∀ f ∈ answerFacts y code bytes, ClearOf x f := fun _ hf =>
  clearOf_of_ne other (answerFacts_within hf).1 (answerFacts_within hf).2

end

end Sys2Proof.Machine

/-! Held inspections that end one after another (R27, R28, R58, R151), with nothing arriving and no access failing. -/

namespace Sys2Proof.Machine

/-! ### The hold list and the port -/

theorem holdOf_held {s : State} {x : Slot} {g : Hold} (held : s.holdOf x = some g) : s.isHeld x = true :=
  List.any_eq_true.mpr ⟨g, List.mem_of_find?_eq_some held, by simp [holdOf_slot held]⟩

/-- The hold of another slot stays when one ends. -/
theorem holdOf_holdEnded (s : State) {x y : Slot} (other : x ≠ y) :
    State.holdOf { s with port := s.port.holdEnded y } x = s.holdOf x := by
  unfold State.holdOf Port.holdEnded
  simp only
  rw [List.find?_filter]
  congr 1
  funext g
  by_cases same : g.slot = x
  · simp [same, other]
  · simp [same]

theorem holdsEnded_swept (p : Port) {slot : Slot} {hs : List Hold} (others : ∀ g ∈ hs, g.slot ≠ slot) :
    (p.swept slot).holdsEnded hs = (p.holdsEnded hs).swept slot := by
  induction hs generalizing p with
  | nil => rfl
  | cons g hs ih =>
    have one : (p.swept slot).holdEnded g.slot = (p.holdEnded g.slot).swept slot := by
      have apart : slot.val ≠ g.slot.val := fun same => others g List.mem_cons_self (Fin.ext same.symm)
      unfold Port.swept Port.holdEnded
      simp only
      rw [Vector.set_comm _ _ apart]
    rw [Port.holdsEnded_cons, Port.holdsEnded_cons, one]
    exact ih _ fun g' hg' => others g' (List.mem_cons_of_mem _ hg')

/-! ### Evaluations one after another -/

/-- The evaluation of a held inspection sees nothing of the port. -/
theorem inspected_port (s : State) (p : Port) (g : Hold) :
    State.inspected { s with port := p } g = { s.inspected g with port := p } ∧
      State.inspectionBytes { s with port := p } g = s.inspectionBytes g := by
  unfold State.inspected State.inspectionBytes
  cases g.work <;> exact ⟨rfl, rfl⟩

theorem inspectedAll_port (s : State) (p : Port) (hs : List Hold) :
    State.inspectedAll { s with port := p } hs = { s.inspectedAll hs with port := p } := by
  induction hs generalizing s with
  | nil => rfl
  | cons g hs ih => rw [State.inspectedAll_cons, State.inspectedAll_cons, (inspected_port s p g).1, ih]

/-- The slot bytes that the answers of a list of holds leave, judged one after another. -/
def endedFacts (u : State) : List Hold → List (Nat × List Byte)
  | [] => []
  | g :: hs => answerFacts g.slot .done (u.inspectionBytes g) ++ endedFacts (u.inspected g) hs

theorem endedFacts_port (u : State) (p : Port) (hs : List Hold) : endedFacts { u with port := p } hs = endedFacts u hs := by
  induction hs generalizing u with
  | nil => rfl
  | cons g hs ih => rw [endedFacts, endedFacts, (inspected_port u p g).1, (inspected_port u p g).2, ih]

theorem endedFacts_within {u : State} {hs : List Hold} {f : Nat × List Byte} (on : f ∈ endedFacts u hs) :
    ∃ g ∈ hs, Slot.offset g.slot ≤ f.1 ∧ f.1 + f.2.length ≤ Slot.offset g.slot + 128 := by
  induction hs generalizing u with
  | nil => cases on
  | cons g hs ih =>
    rcases List.mem_append.mp on with own | later
    · exact ⟨g, List.mem_cons_self, answerFacts_within own⟩
    · obtain ⟨g', hg', within⟩ := ih later
      exact ⟨g', List.mem_cons_of_mem _ hg', within⟩

theorem endedFacts_clear {u : State} {hs : List Hold} {x : Slot} (others : ∀ g ∈ hs, g.slot ≠ x) :
    ∀ f ∈ endedFacts u hs, ClearOf x f := by
  intro f hf
  obtain ⟨g, hg, low, high⟩ := endedFacts_within hf
  exact clearOf_of_ne (others g hg).symm low high

theorem mem_endedFacts {u : State} {hs : List Hold} {i : Nat} {g : Hold} (on : hs[i]? = some g) :
    ∀ f ∈ answerFacts g.slot .done ((u.inspectedAll (hs.take i)).inspectionBytes g), f ∈ endedFacts u hs := by
  induction hs generalizing u i with
  | nil => cases on
  | cons g' hs ih =>
    intro f hf
    cases i with
    | zero =>
      obtain rfl := Option.some_inj.mp on
      exact List.mem_append_left _ hf
    | succ i => exact List.mem_append_right _ (ih (u := u.inspected g') on f hf)

theorem inspectedAll_length_le (s : State) (hs : List Hold) : s.roster.length ≤ (s.inspectedAll hs).roster.length := by
  induction hs generalizing s with
  | nil => exact Nat.le_refl _
  | cons g hs ih =>
    refine Nat.le_trans ?_ (ih (s.inspected g))
    unfold State.inspected State.recordedRoster
    split
    · simp only
      split
      · simp
      · split <;> simp
    · exact Nat.le_refl _
    · exact Nat.le_refl _

/-- The run mirror's part after one event and another. -/
theorem runPart_trans {rm : List (Nat × List Byte)} {u w x : State} (first : u.roster.length ≤ w.roster.length)
    (second : w.roster.length ≤ x.roster.length) (run : w.run = x.run) : runPart (runPart rm u w) w x = runPart rm u x := by
  unfold runPart
  by_cases last : x.roster.length = w.roster.length
  · have mirror : w.runMirror = x.runMirror := by rw [State.runMirror, State.runMirror, run, last]
    rw [if_pos last, last, mirror]
  · rw [if_neg last, if_neg (by omega)]

theorem State.answerRanges_cons (s : State) (g : Hold) (hs : List Hold) :
    s.answerRanges (g :: hs) = s.answerRange g.slot ++ s.answerRanges hs := rfl

/-! ### The releases -/

theorem isInspect_iff (g : Hold) : g.isInspect = true ↔ ∃ limit copy, g.work = .inspect limit copy := by
  unfold Hold.isInspect
  cases g.work <;> simp

theorem inspected_inspect (u : State) {g : Hold} {limit : Nat} {copy : InspectCopy} (work : g.work = .inspect limit copy) :
    u.inspected g = { u with roster := u.recordedRoster (judgeAt u.clockCount copy u) copy } ∧
      u.inspectionBytes g = u.recordedAnswer (judgeAt u.clockCount copy u) copy := by
  rw [State.inspected, State.inspectionBytes, work]
  exact ⟨rfl, rfl⟩

section
variable {s v u : State} {rs : List (Nat × Nat)} {ns : List Notice} {ms fs rm : List (Nat × List Byte)}

/-- One held inspection released, in the terms of a list of them. -/
theorem Tells.releaseOne (h : Tells s v u rs ns (ms ++ rm) fs) (part : RunPart rm) (above : ∀ m ∈ ms, 0x20 ≤ m.1)
    (notFault : s.port.state ≠ .fault) {g : Hold} (inspects : g.isInspect = true) (held : u.holdOf g.slot = some g)
    (clear : ∀ f ∈ fs, ClearOf g.slot f) :
    Tells s (releaseSlot id u.clockCount g.slot v) { u.inspected g with port := u.port.holdEnded g.slot }
      (s.answerRange g.slot ++ rs) (ns ++ [answeredNotice g.slot g.tag]) (ms ++ runPart rm u (u.inspected g))
      (answerFacts g.slot .done (u.inspectionBytes g) ++ fs) := by
  obtain ⟨limit, copy, work⟩ := (isInspect_iff g).mp inspects
  obtain ⟨inspected, bytes⟩ := inspected_inspect u work
  rw [inspected, bytes]
  exact h.release part above notFault held work (Nat.le_refl _) clear

/-- Held inspections released one after another, each judged on what those before it left. -/
theorem Tells.releaseEach {op : State → Slot → State} {hs : List Hold} (h : Tells s v u rs ns (ms ++ rm) fs) (part : RunPart rm)
    (above : ∀ m ∈ ms, 0x20 ≤ m.1) (notFault : s.port.state ≠ .fault) (inspects : ∀ g ∈ hs, g.isInspect = true)
    (held : ∀ g ∈ hs, u.holdOf g.slot = some g) (distinct : (hs.map Hold.slot).Nodup)
    (clear : ∀ f ∈ fs, ∀ g ∈ hs, ClearOf g.slot f)
    (releases : ∀ w : State, w.arrivals = [] → w.tables = u.tables → w.run = u.run → w.clock = u.clock →
      w.port.state = s.port.state → ∀ g ∈ hs, w.holdOf g.slot = some g → op w g.slot = releaseSlot id u.clockCount g.slot w) :
    Tells s ((hs.map Hold.slot).foldl op v) { u with roster := (u.inspectedAll hs).roster, port := u.port.holdsEnded hs }
      (s.answerRanges hs ++ rs) (ns ++ answeredNotices hs) (ms ++ runPart rm u (u.inspectedAll hs)) (endedFacts u hs ++ fs) := by
  induction hs generalizing v u rs ns fs rm with
  | nil =>
    have same : runPart rm u u = rm := if_pos rfl
    simpa [endedFacts, State.answerRanges, answeredNotices, same] using h
  | cons g hs ih =>
    obtain ⟨own, distinct'⟩ := List.nodup_cons.mp distinct
    have others : ∀ g' ∈ hs, g'.slot ≠ g.slot := fun g' hg' same => own (same ▸ List.mem_map_of_mem hg')
    have heldHere := held g List.mem_cons_self
    have heldNow : v.holdOf g.slot = some g := by
      rw [State.holdOf, h.port, told_holds]
      exact heldHere
    have first := h.releaseOne part above notFault (inspects g List.mem_cons_self) heldHere fun f hf =>
      clear f hf g List.mem_cons_self
    rw [← releases v h.arrivals h.tables h.run h.clock h.portState g List.mem_cons_self heldNow] at first
    have same := State.inspected_eq u g
    have rest := ih first (part.next _ _) (fun g' hg' => inspects g' (List.mem_cons_of_mem _ hg'))
      (fun g' hg' => by
        rw [same]
        exact (holdOf_holdEnded u (others g' hg')).trans (held g' (List.mem_cons_of_mem _ hg')))
      distinct'
      (fun f hf g' hg' => by
        rcases List.mem_append.mp hf with new | before
        · exact answerFacts_clear_other (others g' hg') _ _ f new
        · exact clear f before g' (List.mem_cons_of_mem _ hg'))
      (fun w arrivals tables run clock state g' hg' held' => by
        rw [same] at tables run clock ⊢
        exact releases w arrivals tables run clock state g' (List.mem_cons_of_mem _ hg') held')
    rw [inspectedAll_port, endedFacts_port] at rest
    have mirror : runPart (runPart rm u (u.inspected g)) { u.inspected g with port := u.port.holdEnded g.slot }
        { (u.inspected g).inspectedAll hs with port := u.port.holdEnded g.slot } = runPart rm u (u.inspectedAll (g :: hs)) := by
      refine runPart_trans (w := u.inspected g) (x := (u.inspected g).inspectedAll hs) (inspectedAll_length_le u [g])
        (inspectedAll_length_le _ _) ?_
      rw [State.inspectedAll_eq (u.inspected g)]
    rw [mirror] at rest
    have final : ({ u.inspected g with
        roster := ((u.inspected g).inspectedAll hs).roster, port := (u.port.holdEnded g.slot).holdsEnded hs } : State) =
        { u with roster := (u.inspectedAll (g :: hs)).roster, port := u.port.holdsEnded (g :: hs) } := by
      rw [State.inspectedAll_cons, same]
      rfl
    rw [← final]
    rw [List.append_assoc] at rest
    refine (rest.widen fun r hr => ?_).permute fun f hf => ?_
    · rw [State.answerRanges_cons]
      simp only [List.mem_append] at hr ⊢
      tauto
    · rw [endedFacts] at hf
      simp only [List.mem_append] at hf ⊢
      tauto

theorem Tells.showsEnded {t : State} {hs : List Hold} (h : Tells s v u rs ns ms fs) (writes : s.port.state.writes = true)
    (memory : t.hostMemory = v.hostMemory) (area : t.port.areaBase = s.port.areaBase) {w : State}
    (ended : ∀ f ∈ endedFacts w hs, f ∈ fs) : t.ShowsEnded w hs := by
  intro i g on
  have address : t.slotAddress g.slot = s.slotAddress g.slot := by simp [State.slotAddress, State.areaAddress, area]
  rw [address]
  exact h.answerShown writes memory fun f hf => ended f (mem_endedFacts on f hf)

end

/-! ### The holds on the list that have a property -/

theorem holdOf_of_mem {s : State} (distinct : (s.port.holds.map Hold.slot).Nodup) {g : Hold} (on : g ∈ s.port.holds) :
    s.holdOf g.slot = some g := by
  have found : ∀ hs : List Hold, (hs.map Hold.slot).Nodup → g ∈ hs → hs.find? (fun h => h.slot == g.slot) = some g := by
    intro hs distinct on
    induction hs with
    | nil => cases on
    | cons x hs ih =>
      obtain ⟨own, rest⟩ := List.nodup_cons.mp distinct
      rcases List.mem_cons.mp on with rfl | later
      · simp
      · have other : x.slot ≠ g.slot := fun same => own (same ▸ List.mem_map_of_mem later)
        rw [List.find?_cons_of_neg (by simpa using other)]
        exact ih rest later
  exact found _ distinct on

theorem nodup_filter_slots {hs : List Hold} (distinct : (hs.map Hold.slot).Nodup) (p : Hold → Bool) :
    ((hs.filter p).map Hold.slot).Nodup := distinct.sublist (List.Sublist.map _ List.filter_sublist)

end Sys2Proof.Machine

/-! WITHDRAW and MALFORMED (9.5, 9.6), with nothing arriving and no access failing. -/

namespace Sys2Proof.Machine

/-! ### Ranges inside ranges -/

/-- Every range of one list lies inside a range of the other. -/
def Covers (rs rs' : List (Nat × Nat)) : Prop := ∀ r ∈ rs, ∃ r' ∈ rs', ∃ d, r.1 = r'.1 + d ∧ d + r.2 ≤ r'.2

theorem writesOnly_cover {s t : State} {rs rs' : List (Nat × Nat)} (h : s.writesOnly t rs) (cover : Covers rs rs') :
    s.writesOnly t rs' := by
  intro x out
  refine h x fun r hr i hi => ?_
  obtain ⟨r', on, d, start, room⟩ := cover r hr
  have apart := out r' on (d + i) (by omega)
  rwa [← Nat.add_assoc, ← start] at apart

theorem Covers.append {as bs cs ds : List (Nat × Nat)} (first : Covers as cs) (second : Covers bs ds) :
    Covers (as ++ bs) (cs ++ ds) := by
  intro r hr
  rcases List.mem_append.mp hr with on | on
  · obtain ⟨r', on', inside⟩ := first r on
    exact ⟨r', List.mem_append_left _ on', inside⟩
  · obtain ⟨r', on', inside⟩ := second r on
    exact ⟨r', List.mem_append_right _ on', inside⟩

theorem covers_of_subset {rs rs' : List (Nat × Nat)} (sub : ∀ r ∈ rs, r ∈ rs') : Covers rs rs' := fun r hr =>
  ⟨r, sub r hr, 0, rfl, by omega⟩

theorem Covers.trans {as bs cs : List (Nat × Nat)} (first : Covers as bs) (second : Covers bs cs) : Covers as cs := by
  intro r hr
  obtain ⟨r', on', d, start, room⟩ := first r hr
  obtain ⟨r'', on'', d', start', room'⟩ := second r' on'
  exact ⟨r'', on'', d' + d, by omega, by omega⟩

/-- The bytes of a slot that a taken and answered request writes. -/
def State.requestRange (s : State) (slot : Slot) : List (Nat × Nat) := [(s.slotAddress slot, 5), (s.slotAddress slot + 8, 120)]

theorem requestRange_covers (s : State) (slot : Slot) :
    Covers (s.answerRange slot ++ s.postRange slot) (s.requestRange slot) := by
  intro r hr
  simp only [State.answerRange, State.postRange, List.mem_append, List.mem_cons, List.not_mem_nil, or_false] at hr
  simp only [State.requestRange, List.mem_cons, List.not_mem_nil, or_false]
  rcases hr with (rfl | rfl | rfl) | rfl | rfl
  · exact ⟨_, .inl rfl, 0, rfl, by simp⟩
  · exact ⟨_, .inl rfl, 4, rfl, by simp⟩
  · exact ⟨_, .inr rfl, 64, rfl, by simp⟩
  · exact ⟨_, .inl rfl, 0, rfl, by simp⟩
  · exact ⟨_, .inr rfl, 0, rfl, by simp⟩

theorem Tells.covered {s v u t : State} {rs ranges : List (Nat × Nat)} {ns : List Notice} {ms fs : List (Nat × List Byte)}
    (h : Tells s v u rs ns ms fs) (writes : s.port.state.writes = true) (memory : t.hostMemory = v.hostMemory)
    (cover : Covers (rs ++ s.ringRanges ns.length ++ ms.map fun m => (s.areaAddress + m.1, m.2.length)) ranges) :
    s.writesOnly t ranges := writesOnly_cover (h.others writes memory fun _ hr => hr) cover

/-! ### A request served whose owner wrote in other slots too -/

/-- What the host finds in `t` when the request of a slot was answered: its slot, the notices, the header parts, the bytes of
other slots, and every other byte of its memory as it was. -/
structure State.Serviced (s t : State) (slot : Slot) (tag : Half) (r : Request) (code : AnswerCode) (answer : List Byte)
    (rs : List (Nat × Nat)) (ns : List Notice) (ms fs : List (Nat × List Byte)) : Prop where
  area : t.port.areaBase = s.port.areaBase
  atSlot : t.SlotAnswered slot tag r code answer
  ring : s.RingShows t (ns ++ [answeredNotice slot tag])
  header : ∀ m ∈ ms, t.shows (s.areaAddress + m.1) m.2
  facts : ∀ f ∈ fs, t.shows (s.areaAddress + f.1) f.2
  others :
    s.writesOnly t
      (s.requestRange slot ++ rs ++ s.ringRanges (ns.length + 1) ++ ms.map fun m => (s.areaAddress + m.1, m.2.length))

theorem answerShown_of {s t : State} {x : Slot} {code : AnswerCode} {bytes : List Byte}
    (shown : ∀ f ∈ answerFacts x code bytes, t.shows (s.areaAddress + f.1) f.2) :
    t.shows (s.slotAddress x) [SlotState.answered.code] ∧ t.shows (s.slotAddress x + 4) [code.code] ∧
      t.shows (s.slotAddress x + 72) (padTo 56 bytes) := by
  simp only [answerFacts, List.mem_cons, List.not_mem_nil, or_false, forall_eq_or_imp, forall_eq, ← Nat.add_assoc,
    ← slotAddress_offset] at shown
  exact shown

theorem State.Serviced.showsEnded {s t w : State} {slot : Slot} {tag : Half} {r : Request} {code : AnswerCode}
    {answer : List Byte} {rs : List (Nat × Nat)} {ns : List Notice} {ms fs : List (Nat × List Byte)} {hs : List Hold}
    (h : s.Serviced t slot tag r code answer rs ns ms fs) (ended : ∀ f ∈ endedFacts w hs, f ∈ fs) : t.ShowsEnded w hs := by
  intro i g on
  have address : t.slotAddress g.slot = s.slotAddress g.slot := by simp [State.slotAddress, State.areaAddress, h.area]
  rw [address]
  exact answerShown_of fun f hf => h.facts f (ended f (mem_endedFacts on f hf))

/-- A request answered last, from the state that its owner has reached. -/
theorem Tells.serves {s v u w : State} {slot : Slot} {tag : Half} {r : Request} {rs : List (Nat × Nat)} {ns : List Notice}
    {ms fs : List (Nat × List Byte)} {owner : State → State → State} {code : AnswerCode} {answer : List Byte}
    (h : Tells s v u (rs ++ s.postRange slot) ns ms (fs ++ postedFacts slot tag r)) (turn : s.isNext slot)
    (command : exec (r.command slot tag Env.quiet) s = .next (requestStep slot tag r Env.quiet owner s))
    (answered : owner (s.handed slot tag r) (s.handed slot tag r) = Machine.answerInHand slot tag code answer v)
    (inHand : u.port.inHand = some slot)
    (port : u.port.taking u.port.holds u.port.endedMarks none (slot + 1) = w.port.swept slot)
    (clear : ∀ f ∈ fs, ClearOf slot f) (pending : u.pending = w.pending) (clock : u.clock = w.clock) (run : u.run = w.run)
    (tables : u.tables = w.tables) (roster : u.roster = w.roster) (power : u.power = w.power) (turns : u.turns = w.turns) :
    ∃ m, exec (r.command slot tag Env.quiet) s = .next (w.requestDone slot (ns.length + 1) m) ∧
      s.Serviced (w.requestDone slot (ns.length + 1) m) slot tag r code answer rs ns ms fs := by
  have sweeping := isNext_sweeping turn
  have writes : s.port.state.writes = true := by rw [sweeping]; rfl
  have last := h.answerInHand (writes_ne_fault writes) inHand tag code answer fun f hf =>
    (List.mem_append.mp hf).elim (clear f) (postedFacts_clear slot tag r f)
  have done := last.requestDone sweeping port
  rw [List.length_append, List.length_singleton] at done
  have same := requestDone_congr
    (v := { { u with port := u.port.taking u.port.holds u.port.endedMarks none (slot + 1) } with port := w.port }) (u := w)
    pending rfl clock run tables roster power turns slot (ns.length + 1) (Machine.answerInHand slot tag code answer v).hostMemory
  rw [same] at done
  have area : (w.requestDone slot (ns.length + 1) (Machine.answerInHand slot tag code answer v).hostMemory).port.areaBase =
      s.port.areaBase := by
    have base := congrArg Port.areaBase port
    have progress := (last.written writes).area
    have told : (u.port.told (ns ++ [answeredNotice slot tag]).length).areaBase = u.port.areaBase := by
      rw [told_of_writes (by rw [h.state]; exact writes)]
      rfl
    have areaAfter : (Machine.answerInHand slot tag code answer v).port.areaBase = u.port.areaBase := by
      rw [last.port, told_taking, ← told]
      rfl
    rw [requestDone_areaBase, ← progress, areaAfter]
    exact base.symm
  have count : (w.requestDone slot (ns.length + 1) (Machine.answerInHand slot tag code answer v).hostMemory).clockCount =
      (Machine.answerInHand slot tag code answer v).clockCount := by
    rw [State.clockCount, State.clockCount, requestDone_clock, last.clock, clock]
  refine ⟨(Machine.answerInHand slot tag code answer v).hostMemory, ?_, ?_⟩
  · rw [command, requestStep_quiet turn, answered, done]
  · refine ⟨area, last.slotAnswered writes (requestDone_hostMemory _ _ _ _) area ?_ ?_,
      last.ring writes (requestDone_hostMemory _ _ _ _) count,
      fun m hm => last.header writes (requestDone_hostMemory _ _ _ _) hm,
      fun f hf => last.shown writes (requestDone_hostMemory _ _ _ _) ?_, last.covered writes (requestDone_hostMemory _ _ _ _) ?_⟩
    · exact fun f hf => List.mem_append_right _ (List.mem_append_right _ hf)
    · exact fun f hf => List.mem_append_left _ hf
    · exact List.mem_append_right _ (List.mem_append_left _ hf)
    · rw [List.length_append, List.length_singleton]
      refine Covers.append (Covers.append ?_ (covers_of_subset fun _ hr => hr)) (covers_of_subset fun _ hr => hr)
      refine (covers_of_subset (rs' := s.answerRange slot ++ s.postRange slot ++ rs) fun r' hr => ?_).trans
        (Covers.append (requestRange_covers s slot) (covers_of_subset fun _ hr => hr))
      simp only [List.mem_append] at hr ⊢
      tauto

/-! ### WITHDRAW (R152) -/

section
variable {s : State} {slot : Slot} {tag : Half} {named : Byte} {x : Slot}

theorem ownWithdraw_beyond (beyond : 31 < named.toNat) :
    ownWithdraw slot tag named s = answerInHand slot tag .refusedArgument [named] s := if_pos beyond

theorem ownWithdraw_names (names : named.toNat = x.val) : ownWithdraw slot tag named s =
    (s.holdOf x).elim
      (if s.port.endedMarks.get x then answerInHand slot tag .tooLate [named] s
        else answerInHand slot tag .notFound [named] s)
      fun g => withdrawHold slot tag named g s := by
  have slotNamed : (Fin.ofNat 32 named.toNat : Slot) = x := by
    refine Fin.ext ?_
    rw [Fin.val_ofNat, names]
    exact Nat.mod_eq_of_lt x.isLt
  have within : ¬31 < named.toNat := by have := x.isLt; omega
  unfold ownWithdraw
  rw [if_neg within, slotNamed]
  cases s.holdOf x <;> rfl

theorem handed_mark (s : State) (slot x : Slot) (tag : Half) (r : Request) :
    (s.handed slot tag r).port.endedMarks.get x = if x = slot then false else s.port.endedMarks.get x := by
  have set : (s.handed slot tag r).port.endedMarks.get x = (s.port.endedMarks.set slot.val false)[x.val] := rfl
  rw [set, Vector.getElem_set]
  by_cases same : x = slot
  · rw [if_pos (congrArg Fin.val same.symm), if_pos same]
  · rw [if_neg fun val => same (Fin.ext val.symm), if_neg same]
    rfl

theorem withdraw_unchanged {code : AnswerCode} (canonical : Memory.wf s.hostMemory = true) (turn : s.isNext slot)
    (answered : ownWithdraw slot tag named (s.handed slot tag (.withdraw named)) =
      answerInHand slot tag code [named] (s.handed slot tag (.withdraw named))) :
    s.AnswersUnchanged slot tag (.withdraw named) code [named] :=
  answersUnchanged_of (owner := fun _ => ownWithdraw slot tag named) canonical turn rfl answered

theorem held_ne (turn : s.isNext slot) {g : Hold} (held : s.holdOf x = some g) : x ≠ slot := by
  rintro rfl
  exact Bool.false_ne_true ((isNext_not_held turn).symm.trans (holdOf_held held))

theorem withdrawHold_inspect {g : Hold} (inspects : g.isInspect = true)
    (inHand : (endHold g .withdrawn (notEvaluated .valid 0 s.clockCount).bytes s).hasInHand slot = true) :
    withdrawHold slot tag named g s =
      answerInHand slot tag .done [named] (endHold g .withdrawn (notEvaluated .valid 0 s.clockCount).bytes s) := by
  rw [withdrawHold, if_pos inspects]
  exact if_pos inHand

end

theorem answerInHand_padTo {slot : Slot} {tag : Half} {code : AnswerCode} {bytes bytes' : List Byte} {s : State}
    (same : padTo 56 bytes = padTo 56 bytes') : answerInHand slot tag code bytes s = answerInHand slot tag code bytes' s := by
  unfold answerInHand answerInHandWith answerNow writeAnswer
  rw [same]

/-- Settles O41. -/
theorem withdrawAndMalformedAnswered : Obligations.WithdrawAndMalformedAnswered := by
  refine ⟨fun s slot tag kind canonical turn unknown => ?_, fun s slot tag named canonical turn =>
    ⟨fun beyond => withdraw_unchanged canonical turn (ownWithdraw_beyond beyond), fun x names =>
      ⟨fun free => ⟨fun other marked => ?_, fun unmarked => ?_⟩, fun g held => ⟨fun own => ?_, fun inspects => ?_⟩⟩⟩⟩
  · refine answersUnchanged_of (owner := fun _ => ownMalformed slot tag) canonical turn ?_ (answerInHand_padTo rfl)
    exact congrArg Host.Outcome.next (if_pos (ofSlot_malformed unknown []))
  · refine withdraw_unchanged canonical turn ?_
    rw [ownWithdraw_names names, show (s.handed slot tag (.withdraw named)).holdOf x = none from free, handed_mark,
      if_neg other]
    exact if_pos marked
  · refine withdraw_unchanged canonical turn ?_
    rw [ownWithdraw_names names, show (s.handed slot tag (.withdraw named)).holdOf x = none from free, handed_mark]
    refine if_neg ?_
    rcases unmarked with same | unmarked
    · simp [same]
    · simp [unmarked]
  · refine withdraw_unchanged canonical turn ?_
    rw [ownWithdraw_names names, show (s.handed slot tag (.withdraw named)).holdOf x = some g from held]
    exact if_neg (by simp [own])
  · have notFault : s.port.state ≠ .fault := by rw [isNext_sweeping turn]; decide
    have other := held_ne turn held
    obtain rfl := holdOf_slot held
    have ended := (tells_handed canonical turn tag (.withdraw named)).endHold notFault g .withdrawn
      (notEvaluated .valid 0 s.clockCount).bytes (postedFacts_clear_other other tag _)
    rw [List.nil_append] at ended
    have inHand : (endHold g .withdrawn (notEvaluated .valid 0 s.clockCount).bytes
        (s.handed slot tag (.withdraw named))).hasInHand slot = true := by
      rw [State.hasInHand, ended.port, told_inHand]
      exact beq_self_eq_true _
    have owner : ownWithdraw slot tag named (s.handed slot tag (.withdraw named)) =
        answerInHand slot tag .done [named] (endHold g .withdrawn (notEvaluated .valid 0 s.clockCount).bytes
          (s.handed slot tag (.withdraw named))) := by
      rw [ownWithdraw_names names, show (s.handed slot tag (.withdraw named)).holdOf g.slot = some g from held]
      exact withdrawHold_inspect inspects inHand
    have swept := holdsEnded_swept s.port (slot := slot) (hs := [g]) (by simpa using other)
    obtain ⟨m, command, served⟩ := ended.serves (w := { s with port := s.port.holdEnded g.slot })
      (owner := fun _ => ownWithdraw slot tag named) turn rfl owner rfl swept (answerFacts_clear_other other.symm _ _)
      rfl rfl rfl rfl rfl rfl rfl
    obtain ⟨state, outcome, answer⟩ := answerShown_of served.facts
    have ring := served.ring
    have others := served.others
    have atSlot := served.atSlot
    simp only [List.length_singleton, List.singleton_append, Nat.reduceAdd] at ring others atSlot state outcome answer command
    refine ⟨_, m, rfl, command, ?_, ?_, ?_, ?_, ?_, ?_⟩
    · exact state
    · exact outcome
    · exact answer
    · exact atSlot
    · exact ring
    · refine writesOnly_cover (rs' := s.answerRange g.slot ++ s.requestRange slot ++ s.ringRanges 2) others
        (covers_of_subset fun r hr => ?_)
      simp only [List.map_nil, List.append_nil, List.mem_append] at hr ⊢
      exact hr.imp Or.symm id

end Sys2Proof.Machine

/-! CLOSE_RUN (2.7), with nothing arriving and no access failing. -/

namespace Sys2Proof.Machine

/-! ### Evaluations on states that agree -/

theorem inspected_congr {t u : State} (clock : t.clock = u.clock) (run : t.run = u.run) (tables : t.tables = u.tables)
    (roster : t.roster = u.roster) (g : Hold) :
    (t.inspected g).roster = (u.inspected g).roster ∧ t.inspectionBytes g = u.inspectionBytes g := by
  obtain ⟨⟩ := t
  obtain ⟨⟩ := u
  simp only at clock run tables roster
  subst clock run tables roster
  unfold State.inspected State.inspectionBytes
  cases g.work <;> exact ⟨rfl, rfl⟩

theorem inspectedAll_congr {t u : State} (clock : t.clock = u.clock) (run : t.run = u.run) (tables : t.tables = u.tables)
    (roster : t.roster = u.roster) (hs : List Hold) :
    (t.inspectedAll hs).roster = (u.inspectedAll hs).roster ∧ endedFacts t hs = endedFacts u hs := by
  induction hs generalizing t u with
  | nil => exact ⟨roster, rfl⟩
  | cons g hs ih =>
    obtain ⟨inspected, bytes⟩ := inspected_congr clock run tables roster g
    obtain ⟨rosters, facts⟩ := ih (t := t.inspected g) (u := u.inspected g)
      (by rw [State.inspected_eq t, State.inspected_eq u]; exact clock)
      (by rw [State.inspected_eq t, State.inspected_eq u]; exact run)
      (by rw [State.inspected_eq t, State.inspected_eq u]; exact tables) inspected
    exact ⟨rosters, by rw [endedFacts, endedFacts, bytes, facts]⟩

section
variable {s v u : State} {rs : List (Nat × Nat)} {ns : List Notice} {ms fs : List (Nat × List Byte)}

/-- Held inspections released one after another, told of a state that agrees with the one they change. -/
theorem Tells.releaseAs {rm : List (Nat × List Byte)} {op : State → Slot → State} {hs : List Hold}
    (h : Tells s v u rs ns (ms ++ rm) fs) {w : State} (clock : u.clock = w.clock) (run : u.run = w.run)
    (tables : u.tables = w.tables) (roster : u.roster = w.roster) (part : RunPart rm) (above : ∀ m ∈ ms, 0x20 ≤ m.1)
    (notFault : s.port.state ≠ .fault) (inspects : ∀ g ∈ hs, g.isInspect = true)
    (held : ∀ g ∈ hs, u.holdOf g.slot = some g) (distinct : (hs.map Hold.slot).Nodup)
    (clear : ∀ f ∈ fs, ∀ g ∈ hs, ClearOf g.slot f)
    (releases : ∀ x : State, x.arrivals = [] → x.tables = u.tables → x.run = u.run → x.clock = u.clock →
      x.port.state = s.port.state → ∀ g ∈ hs, x.holdOf g.slot = some g →
        op x g.slot = releaseSlot id u.clockCount g.slot x) :
    Tells s ((hs.map Hold.slot).foldl op v) { u with roster := (w.inspectedAll hs).roster, port := u.port.holdsEnded hs }
      (s.answerRanges hs ++ rs) (ns ++ answeredNotices hs) (ms ++ runPart rm w (w.inspectedAll hs)) (endedFacts w hs ++ fs) := by
  have each := h.releaseEach part above notFault inspects held distinct clear releases
  obtain ⟨rosters, facts⟩ := inspectedAll_congr clock run tables roster hs
  have mirror : runPart rm u (u.inspectedAll hs) = runPart rm w (w.inspectedAll hs) := by
    rw [runPart, runPart, rosters, roster]
    congr 2
    refine congrArg (fun bs => (0x10, bs)) (runMirror_congr ?_ (congrArg List.length rosters))
    rw [State.inspectedAll_eq u, State.inspectedAll_eq w]
    exact run
  rw [mirror, rosters, facts] at each
  exact each

/-- A change of the run, the tables and the roster. -/
theorem Tells.edit (h : Tells s v u rs ns ms fs) (run : Run) (tables : Tables) (roster : List Entry) :
    Tells s { v with run := run, tables := tables, roster := roster } { u with run := run, tables := tables, roster := roster }
      rs ns ms fs :=
  { h with
    run := rfl
    tables := rfl
    roster := rfl
    written := fun writes => (h.written writes).change rfl rfl rfl rfl rfl (.inr rfl) }

end

theorem holdsEnded_inHand (p : Port) (hs : List Hold) (inHand : Option Slot) (cursor : Slot) :
    Port.holdsEnded { p with inHand := inHand, cursor := cursor } hs =
      { p.holdsEnded hs with inHand := inHand, cursor := cursor } := by
  induction hs generalizing p with
  | nil => rfl
  | cons g hs ih => exact ih (p.holdEnded g.slot)

/-- The port of a request in hand once holds of other slots have ended. -/
theorem handed_holdsEnded {s : State} {slot : Slot} {hs : List Hold} (tag : Half) (r : Request) :
    ((s.handed slot tag r).port.holdsEnded hs).inHand = some slot ∧
      ((∀ g ∈ hs, g.slot ≠ slot) →
        ((s.handed slot tag r).port.holdsEnded hs).taking ((s.handed slot tag r).port.holdsEnded hs).holds
          ((s.handed slot tag r).port.holdsEnded hs).endedMarks none (slot + 1) = (s.port.holdsEnded hs).swept slot) := by
  have port := holdsEnded_inHand (s.port.swept slot) hs (some slot) s.port.cursor
  rw [show ({ s.port.swept slot with inHand := some slot, cursor := s.port.cursor } : Port) = (s.handed slot tag r).port from rfl]
    at port
  rw [port]
  refine ⟨rfl, fun others => ?_⟩
  rw [← holdsEnded_swept s.port others]
  exact (holdsEnded_inHand (s.port.swept slot) hs none (slot + 1)).symm

/-! ### CLOSE_RUN (R28, R29) -/

/-- A run record at its close. -/
def Run.closing (r : Run) : Run := { r with state := .closed }

section
variable {s : State} {slot : Slot} {tag : Half}

theorem ownCloseRun_shut (shut : s.runOpen = false) : ownCloseRun slot tag s = answerInHand slot tag .refusedNoRun [] s :=
  if_neg (by simp [shut])

/-- The part of CLOSE_RUN past the releases. -/
theorem ownCloseRun_open {v : State} (opened : s.runOpen = true) (released : releaseAll (pollInspection id) s = v)
    (owed : v.owed = []) (inHand : v.hasInHand slot = true) :
    ownCloseRun slot tag s =
      answerInHand slot tag .done (closeAnswer (v.roster.map Entry.discardProposal))
        (mirrorRun { v with run := v.run.closing, roster := v.roster.map Entry.discardProposal }) := by
  rw [ownCloseRun, if_pos opened, released, afterEvaluations_none owed, closeInHand, if_pos inHand]
  have roster : (closeRun v).roster = v.roster.map Entry.discardProposal := by simp [closeRun, discardProposals]
  rw [roster]
  rfl

theorem releaseAll_none (none : ∀ h ∈ s.port.holds, h.isInspect = false) (mid : State → State) : releaseAll mid s = s := by
  have empty : s.heldSlots Hold.isInspect = [] := by
    rw [State.heldSlots, List.filter_eq_nil_iff.mpr fun x hx => by simp [none x hx]]
    rfl
  rw [releaseAll, empty]
  rfl

theorem closeAnswer_eq (r : List Entry) :
    closeAnswer r =
      [4, 0] ++ le 2 r.length ++ le 2 (r.countP fun e => e.lastVerdict == .valid)
        ++ le 2 (r.countP fun e => e.lastVerdict == .noted) ++ le 2 (r.countP fun e => e.lastVerdict == .upgrade)
        ++ le 2 (r.countP fun e => e.lastVerdict == .suspect) ++ le 2 (r.countP fun e => e.lastVerdict == .invalid)
        ++ le 2 (r.countP fun e => e.lastVerdict == .revoked) ++ le 2 (r.countP fun e => e.lastVerdict == .unreadable)
        ++ le 2 (r.countP fun e => e.watch.stage == .lapsed)
        ++ le 2 (min 65535 (r.map fun e => e.mark.commitCount).sum) := by
  have head : le 1 RunState.closed.code ++ zeros 1 = [4, 0] := by decide
  simp only [closeAnswer, head, Verdict.all, verdictCount, lapsedCount, committedSum, List.map_cons, List.map_nil,
    List.flatten_cons, List.flatten_nil, List.append_assoc, List.append_nil]

end

@[simp] theorem requestDone_run (s : State) (slot : Slot) (n : Nat) (m : Memory) : (s.requestDone slot n m).run = s.run :=
  endStep_run _
@[simp] theorem requestDone_roster (s : State) (slot : Slot) (n : Nat) (m : Memory) :
    (s.requestDone slot n m).roster = s.roster := endStep_roster _

theorem runMirror_requestDone (s : State) (slot : Slot) (n : Nat) (m : Memory) :
    (s.requestDone slot n m).runMirror = s.runMirror := runMirror_congr (by simp) (by simp)

/-- The holds of a filtered list stand on the list under their slots. -/
theorem holdOf_filter {s : State} (distinct : (s.port.holds.map Hold.slot).Nodup) {p : Hold → Bool} :
    ∀ g ∈ s.port.holds.filter p, s.holdOf g.slot = some g := fun _ on =>
  holdOf_of_mem distinct (List.mem_of_mem_filter on)

/-- The held inspections of an accepted CLOSE_RUN released, in hold-list order. -/
theorem tells_closing {s : State} {slot : Slot} {held : List Hold} (canonical : Memory.wf s.hostMemory = true)
    (turn : s.isNext slot) (tag : Half) (r : Request) (distinct : (s.port.holds.map Hold.slot).Nodup)
    (hheld : held = s.port.holds.filter Hold.isInspect) :
    Tells s (releaseAll (pollInspection id) (s.handed slot tag r))
      { s.handed slot tag r with
        roster := (s.inspectedAll held).roster, port := (s.handed slot tag r).port.holdsEnded held }
      (s.answerRanges held ++ s.postRange slot) (answeredNotices held) (runPart [] s (s.inspectedAll held))
      (endedFacts s held ++ postedFacts slot tag r) := by
  have onList : ∀ g ∈ held, s.holdOf g.slot = some g := by
    rw [hheld]
    exact holdOf_filter distinct
  have each := Tells.releaseAs (ms := []) (rm := []) (hs := held)
    (op := fun w x => releaseSlot (pollInspection id) w.clockCount x w) (tells_handed canonical turn tag r) (w := s) rfl rfl rfl
    rfl (.inl rfl) (by simp) (by rw [isNext_sweeping turn]; decide) (by simp [hheld]) onList
    (by rw [hheld]; exact nodup_filter_slots distinct _)
    (fun f hf g hg => postedFacts_clear_other (held_ne turn (onList g hg)) tag r f hf)
    (fun w arrivals _ _ clock _ g _ _ => by
      rw [releaseSlot_quiet arrivals, State.clockCount, clock]
      rfl)
  rw [List.nil_append, List.nil_append] at each
  have slots : (s.handed slot tag r).heldSlots Hold.isInspect = held.map Hold.slot := by rw [hheld]; rfl
  rw [releaseAll, slots]
  exact each

/-- Settles O14. -/
theorem closeRunAnswered : Obligations.CloseRunAnswered := by
  intro s slot tag summary canonical turn hsummary
  have command : exec (.closeRun slot tag Env.quiet) s =
      .next (requestStep slot tag .closeRun Env.quiet (fun _ => ownCloseRun slot tag) s) := rfl
  have sums (r : List Entry) : closeAnswer r = summary r := (closeAnswer_eq r).trans (hsummary r).symm
  have discarded : Entry.discardProposal = fun e => { e with mark := { e.mark with proposal := none } } := rfl
  refine ⟨fun shut => ?_, fun opened none => ?_, fun opened distinct held hheld => ?_, fun copy roster j hj =>
    ⟨fun unplaced => ?_, fun loading => ?_⟩⟩
  · exact answersUnchanged_of canonical turn command (ownCloseRun_shut (s := s.handed slot tag .closeRun) shut)
  · have serves := ((serves_handed canonical turn tag .closeRun).change (c := s.clock) s.run.closing s.tables
      (s.roster.map Entry.discardProposal) s.turns (.inl rfl)).mirrorRun (by simp)
    rw [runMirror_congr (t := { s with run := s.run.closing, roster := s.roster.map Entry.discardProposal })
      (s := { s with run := s.run.closing }) rfl (List.length_map _)] at serves
    refine serves.answers turn command ?_
    rw [← sums]
    exact ownCloseRun_open (s := s.handed slot tag .closeRun) opened
      (releaseAll_none (s := s.handed slot tag .closeRun) none _) rfl
      (serves_handed canonical turn tag .closeRun).hasInHand
  · have released := tells_closing canonical turn tag .closeRun distinct hheld
    have onList : ∀ g ∈ held, s.holdOf g.slot = some g := by
      rw [hheld]
      exact holdOf_filter distinct
    have others : ∀ g ∈ held, g.slot ≠ slot := fun g hg => held_ne turn (onList g hg)
    have inHand : (releaseAll (pollInspection id) (s.handed slot tag .closeRun)).hasInHand slot = true := by
      rw [State.hasInHand, released.port, told_inHand, Port.holdsEnded_eq]
      exact beq_self_eq_true _
    have owner := ownCloseRun_open (s := s.handed slot tag .closeRun) (tag := tag) opened rfl released.owed inHand
    rw [released.run, released.roster] at owner
    have closed := released.edit s.run.closing (releaseAll (pollInspection id) (s.handed slot tag .closeRun)).tables
      ((s.inspectedAll held).roster.map Entry.discardProposal)
    have mirrored := Tells.mirrorRun (ms := []) closed ((RunPart.next (.inl rfl)) s (s.inspectedAll held)) (by simp)
    obtain ⟨m, done, served⟩ := mirrored.serves
      (w := { s with
        run := s.run.closing
        roster := (s.inspectedAll held).roster.map Entry.discardProposal
        port := s.port.holdsEnded held })
      (owner := fun _ => ownCloseRun slot tag) turn command owner (handed_holdsEnded _ _).1
      ((handed_holdsEnded _ _).2 others)
      (endedFacts_clear others) rfl rfl rfl released.tables rfl rfl rfl
    simp only [answeredNotices_length] at done served
    have mirrorAt := served.header (0x10, _) (List.mem_append_right _ List.mem_cons_self)
    refine ⟨_, m, rfl, done, ?_, ?_, served.ring, ?_, ?_⟩
    · exact served.showsEnded fun _ hf => hf
    · rw [← sums, requestDone_roster]
      exact served.atSlot
    · rw [runMirror_requestDone]
      exact mirrorAt
    · have others := served.others
      simp only [List.nil_append, List.map_cons, List.map_nil, runMirror_length, answeredNotices_length] at others
      exact others
  · have stop : s.run.evaluationStop = none := by rw [Run.evaluationStop, unplaced]
    have assumed : positionReasons s.run = [.positionAssumed] := by rw [positionReasons, stop]; rfl
    subst hj
    refine ⟨hasReason_reasonSet.mpr ?_, ?_⟩
    · simp [assumed]
    · rw [judge, judgeAt, Run.judgingStop, stop]
      rfl
  · have notReadable : ¬s.tables.readable .deny = true := by simp [Tables.readable, Tables.descriptor, loading]
    subst hj
    refine hasReason_reasonSet.mpr ?_
    have notChecked : (denyStage s.tables (Credential.ofRecord copy.record).credentialId
        (State.clockCount { s with roster := roster })).1 = [.denyNotChecked] := by rw [denyStage, if_neg notReadable]
    simp only [List.mem_append]
    exact .inl (.inl (.inl (.inl (.inl (.inl (by rw [notChecked]; exact List.mem_cons_self))))))

end Sys2Proof.Machine

/-! Holds carried over from one awaited event to the other (R26), and an accepted ARRIVE (2.6), with nothing arriving and no
access failing. -/

namespace Sys2Proof.Machine

/-! ### Holds carried over -/

/-- A hold list with every hold that awaits one event made to await another, each in its place (R26). -/
def carriedHolds (a b : Awaits) (hs : List Hold) : List Hold := hs.map fun h => if h.awaits = a then { h with awaits := b } else h

/-- The same for the holds of some slots. -/
def carriedSlots (b : Awaits) (slots : List Slot) (hs : List Hold) : List Hold :=
  hs.map fun h => if h.slot ∈ slots then { h with awaits := b } else h

theorem carriedSlots_find {b : Awaits} {slots : List Slot} {hs : List Hold} {x : Slot} (fresh : x ∉ slots) :
    (carriedSlots b slots hs).find? (fun h => h.slot == x) = hs.find? fun h => h.slot == x := by
  induction hs with
  | nil => rfl
  | cons h hs ih =>
    rw [carriedSlots, List.map_cons, List.find?_cons, List.find?_cons, ← carriedSlots, ih]
    by_cases own : h.slot = x
    · simp [own, fresh]
    · have other : (h.slot == x) = false := by simpa using own
      split_ifs <;> simp [other]

theorem carriedSlots_append (b : Awaits) (slots : List Slot) (x : Slot) (hs : List Hold) :
    (carriedSlots b slots hs).map (fun h => if h.slot == x then { h with awaits := b } else h) =
      carriedSlots b (slots ++ [x]) hs := by
  rw [carriedSlots, carriedSlots, List.map_map]
  refine List.map_congr_left fun h _ => ?_
  by_cases before : h.slot ∈ slots
  · by_cases own : h.slot = x
    · subst own
      simp [before]
    · simp [before, own]
  · by_cases own : h.slot = x
    · subst own
      simp [before]
    · simp [before, own]

/-- The slots of the holds that await an event are those of no other hold. -/
theorem carriedSlots_awaiting {a b : Awaits} {hs : List Hold} (distinct : (hs.map Hold.slot).Nodup) :
    carriedSlots b ((hs.filter fun h => h.awaits == a).map Hold.slot) hs = carriedHolds a b hs := by
  refine List.map_congr_left fun h on => ?_
  have same : h.slot ∈ (hs.filter fun h => h.awaits == a).map Hold.slot ↔ h.awaits = a := by
    constructor
    · intro listed
      obtain ⟨g, hg, slot⟩ := List.mem_map.mp listed
      obtain ⟨onList, awaits⟩ := List.mem_filter.mp hg
      obtain rfl := List.inj_on_of_nodup_map distinct onList on slot
      simpa using awaits
    · exact fun awaits => List.mem_map.mpr ⟨h, List.mem_filter.mpr ⟨on, by simp [awaits]⟩, rfl⟩
  simp only [same]

/-- Holds carried over one after another. -/
theorem foldl_carry {op : State → Slot → State} {v : State} {b : Awaits} {gs : List Hold}
    (held : ∀ g ∈ gs, v.holdOf g.slot = some g) (distinct : (gs.map Hold.slot).Nodup)
    (carries : ∀ holds, ∀ g ∈ gs, State.holdOf { v with port := { v.port with holds := holds } } g.slot = some g →
      op { v with port := { v.port with holds := holds } } g.slot =
        carryHold g.slot b { v with port := { v.port with holds := holds } }) :
    (gs.map Hold.slot).foldl op v =
      { v with port := { v.port with holds := carriedSlots b (gs.map Hold.slot) v.port.holds } } := by
  induction gs using List.reverseRecOn with
  | nil =>
    have same : carriedSlots b [] v.port.holds = v.port.holds := by simp [carriedSlots]
    rw [List.map_nil, same]
    rfl
  | append_singleton gs g ih =>
    rw [List.map_append, List.map_singleton] at distinct ⊢
    obtain ⟨before, -, new⟩ := List.nodup_append.mp distinct
    have fresh : g.slot ∉ gs.map Hold.slot := fun on => new g.slot on g.slot (List.mem_singleton_self _) rfl
    have done := ih (fun x hx => held x (List.mem_append_left _ hx)) before fun holds x hx =>
      carries holds x (List.mem_append_left _ hx)
    have onList : State.holdOf
        { v with port := { v.port with holds := carriedSlots b (gs.map Hold.slot) v.port.holds } } g.slot = some g :=
      (carriedSlots_find fresh).trans (held g (by simp))
    rw [List.foldl_append, done, List.foldl_cons, List.foldl_nil, carries _ g (by simp) onList, carryHold,
      carriedSlots_append]

/-! ### Requests answered in the end -/

theorem State.Serviced.delivered {s t : State} {slot : Slot} {tag : Half} {r : Request} {code : AnswerCode}
    {answer : List Byte} {ns : List Notice} {ms fs : List (Nat × List Byte)}
    (h : s.Serviced t slot tag r code answer [] ns ms fs) : s.Delivered t slot tag r code answer ns ms where
  atSlot := h.atSlot
  ring := h.ring
  header := h.header
  others := by
    have others := h.others
    rw [List.append_nil] at others
    exact others

theorem shows_runPart {u w : State} (run : w.run = u.run) : runPart [(0x10, u.runMirror)] u w = [(0x10, w.runMirror)] := by
  unfold runPart
  split
  next same => rw [runMirror_congr run same]
  · rfl

/-! ### An accepted ARRIVE (R25 to R27) -/

section
variable {s : State} {slot : Slot} {tag : Half} {stop : Byte}

theorem ownArrive_accepted (accepted : arriveRefusal stop s = none) :
    ownArrive slot tag stop s = answerInHand slot tag .done (passageAnswer (s.run.arrived stop)) (arrive slot stop s) := by
  unfold ownArrive
  rw [accepted]

/-- The changes of an ARRIVE up to its releases: the run record, the zone advance, the run mirror. -/
def arrivedState (stop : Byte) (s : State) : State :=
  mirrorRun
    (appendNotices (s.zoneNotices stop.toNat)
      { s with run := s.run.arrived stop, roster := s.roster.map (Entry.zoned s.tables s.run.direction stop.toNat) })

/-- An ARRIVE with nothing arriving: the changes, then the releases. -/
theorem arrive_quiet {v : State} (bus : s.busLeft = none) (arrivals : s.arrivals = []) (arrived : arrivedState stop s = v)
    (quiet : v.arrivals = []) (inHand : v.hasInHand slot = true)
    (owed : (releasePlacements (pollInspection id) v).owed = []) :
    arrive slot stop s = releasePlacements (pollInspection id) v := by
  rw [arrive, deliverStop_quiet (by exact bus) (by exact arrivals),
    zoneNotices_congr (s := s) (t := { s with run := s.run.arrived stop }) rfl rfl rfl]
  change arriveReleases slot (pollPassage (arrivedState stop s)) = _
  rw [arrived, pollPassage_quiet quiet, arriveReleases, if_pos inHand, afterEvaluations_none owed]

theorem releasePlacement_carries {v : State} {mid : State → State} {g : Hold} (held : v.holdOf g.slot = some g)
    (awaits : g.awaits = .placement) (notFault : v.port.state ≠ .fault) (loading : v.tables.deny.state = .loading) :
    releasePlacement mid g.slot v = carryHold g.slot .denyLoad v := by
  rw [releasePlacement, if_pos (by simp [held, awaits, notFault]), if_pos loading]

theorem releasePlacement_releases {v : State} {mid : State → State} {g : Hold} (held : v.holdOf g.slot = some g)
    (awaits : g.awaits = .placement) (notFault : v.port.state ≠ .fault) (notLoading : v.tables.deny.state ≠ .loading) :
    releasePlacement mid g.slot v = releaseSlot mid v.clockCount g.slot v := by
  rw [releasePlacement, if_pos (by simp [held, awaits, notFault]), if_neg notLoading]

theorem releasePlacements_none {v : State} (none : ∀ x ∈ v.port.holds, x.awaits ≠ .placement) (mid : State → State) :
    releasePlacements mid v = v := by
  have empty : v.heldSlots (fun h => h.awaits == .placement) = [] := by
    rw [State.heldSlots, List.filter_eq_nil_iff.mpr fun x hx => by simpa using none x hx]
    rfl
  rw [releasePlacements, empty]
  rfl

theorem inspectedAll_runMirror (w : State) (hs : List Hold) (p : Port) :
    (w.inspectedAll hs).runMirror = State.runMirror { w with roster := (w.inspectedAll hs).roster, port := p } :=
  runMirror_congr (by rw [State.inspectedAll_eq]) rfl

/-- The state of an ARRIVE in hand, its changes made. -/
theorem tells_arrived (canonical : Memory.wf s.hostMemory = true) (turn : s.isNext slot) (tag : Half) (stop : Byte) {run : Run}
    {roster : List Entry} (hrun : run = s.run.arrived stop)
    (hroster : roster = s.roster.map (Entry.zoned s.tables s.run.direction stop.toNat)) :
    Tells s (arrivedState stop (s.handed slot tag (.arrive stop)))
      { s.handed slot tag (.arrive stop) with run := run, roster := roster } (s.postRange slot) (s.zoneNotices stop.toNat)
      [(0x10, State.runMirror { s with run := run, roster := roster })] (postedFacts slot tag (.arrive stop)) := by
  subst hrun hroster
  have edited := (tells_handed canonical turn tag (.arrive stop)).edit (s.run.arrived stop) s.tables
    (s.roster.map (Entry.zoned s.tables s.run.direction stop.toNat))
  have mirrored := Tells.mirrorRun (ms := []) (rm := []) (edited.notices (s.zoneNotices stop.toNat)) (.inl rfl) (by simp)
  exact mirrored

end

/-- A change of the hold list. -/
theorem Tells.holdList {s v u : State} {rs : List (Nat × Nat)} {ns : List Notice} {ms fs : List (Nat × List Byte)}
    (h : Tells s v u rs ns ms fs) (holds : List Hold) :
    Tells s { v with port := { v.port with holds := holds } } { u with port := { u.port with holds := holds } } rs ns ms fs := by
  have taken := h.taking holds u.port.endedMarks u.port.inHand u.port.cursor
  have marks : v.port.endedMarks = u.port.endedMarks := by rw [h.port, told_endedMarks]
  have inHand : v.port.inHand = u.port.inHand := by rw [h.port, told_inHand]
  have cursor : v.port.cursor = u.port.cursor := by rw [h.port, told_cursor]
  rw [← marks, ← inHand, ← cursor] at taken
  have same : u.port.taking holds v.port.endedMarks v.port.inHand v.port.cursor = { u.port with holds := holds } := by
    rw [marks, inHand, cursor]
    rfl
  rw [same] at taken
  exact taken

/-- The releases of an ARRIVE in hand while the deny table is LOADING: every hold that awaits PLACEMENT is carried over. -/
theorem releasePlacements_carries {v : State} (distinct : (v.port.holds.map Hold.slot).Nodup) (notFault : v.port.state ≠ .fault)
    (loading : v.tables.deny.state = .loading) (mid : State → State) :
    releasePlacements mid v = { v with port := { v.port with holds := carriedHolds .placement .denyLoad v.port.holds } } := by
  rw [releasePlacements, State.heldSlots, foldl_carry (b := .denyLoad) (holdOf_filter distinct) (nodup_filter_slots distinct _),
    carriedSlots_awaiting distinct]
  intro holds g on held
  exact releasePlacement_carries held (by simpa using (List.mem_filter.mp on).2) notFault loading

/-- What an accepted ARRIVE leads to in the request's hands. -/
theorem ownArrive_releases {s v : State} {slot : Slot} {tag : Half} {stop : Byte} {p : Nat}
    (canonical : Memory.wf s.hostMemory = true) (turn : s.isNext slot)
    (departed : s.run.state = .running ∨ s.run.state = .runningUnplaced) (position : s.run.position = some p)
    (onLine : stop.toNat < s.tables.stopCount) (ahead : s.run.direction.isAhead p stop.toNat = true)
    (released : releasePlacements (pollInspection id) (arrivedState stop (s.handed slot tag (.arrive stop))) = v)
    (owed : v.owed = []) :
    ownArrive slot tag stop (s.handed slot tag (.arrive stop)) =
      answerInHand slot tag .done (le 1 RunState.standing.code ++ [stop, 0xFF, stop]) v := by
  have checks := arriveRefusal_departed (s := s.handed slot tag (.arrive stop)) (stop := stop) departed position
  have accepted := checks.trans ((if_neg (Nat.not_le.mpr onLine)).trans (if_pos ahead))
  have arrived := tells_arrived (tag := tag) (stop := stop) canonical turn rfl rfl
  have inHand : (arrivedState stop (s.handed slot tag (.arrive stop))).hasInHand slot = true := by
    rw [State.hasInHand, arrived.port, told_inHand]
    exact beq_self_eq_true _
  have answer : passageAnswer ((s.handed slot tag (.arrive stop)).run.arrived stop) =
      le 1 RunState.standing.code ++ [stop, 0xFF, stop] := by
    simp [passageAnswer, Run.arrived, Run.evaluationStop, stopByte]
  rw [ownArrive_accepted accepted, arrive_quiet rfl rfl rfl arrived.arrivals inHand (by rw [released]; exact owed), released, answer]

/-- Settles O13. -/
theorem arriveAccepted : Obligations.ArriveAccepted := by
  have command (s : State) (slot : Slot) (tag : Half) (stop : Byte) : exec (.arrive slot tag stop Env.quiet) s =
      .next (requestStep slot tag (.arrive stop) Env.quiet (fun _ => ownArrive slot tag stop) s) := rfl
  refine ⟨?_, ?_⟩
  · intro s slot tag stop p canonical turn departed position onLine ahead free
    have arrived := tells_arrived (tag := tag) (stop := stop) canonical turn rfl rfl
    have none : ∀ x ∈ (arrivedState stop (s.handed slot tag (.arrive stop))).port.holds, x.awaits ≠ .placement := by
      rw [arrived.port, told_holds]
      exact free
    have owner := ownArrive_releases canonical turn departed position onLine ahead (releasePlacements_none none _) arrived.owed
    obtain ⟨m, done, served⟩ := Tells.serves (rs := []) (fs := [])
      (w := { s with
        run := s.run.arrived stop, roster := s.roster.map (Entry.zoned s.tables s.run.direction stop.toNat) })
      arrived turn (command s slot tag stop) owner rfl rfl (by simp) rfl rfl rfl rfl rfl rfl rfl
    have mirror : State.runMirror
        { s with
          run := s.run.arrived stop, roster := s.roster.map (Entry.zoned s.tables s.run.direction stop.toNat) } =
        State.runMirror { s with run := s.run.arrived stop } := runMirror_congr rfl (List.length_map _)
    rw [mirror] at served
    exact ⟨m, done, served.delivered⟩
  · rintro s _ slot tag stop p canonical turn departed position onLine ahead distinct rfl
    have arrived := tells_arrived (tag := tag) (stop := stop) canonical turn rfl rfl
    have holds : (arrivedState stop (s.handed slot tag (.arrive stop))).port.holds = s.port.holds := by
      rw [arrived.port, told_holds]
      rfl
    have notFault : s.port.state ≠ .fault := by rw [isNext_sweeping turn]; decide
    have notFault' : (arrivedState stop (s.handed slot tag (.arrive stop))).port.state ≠ .fault := by
      rw [arrived.portState]
      exact notFault
    refine ⟨fun loading => ?_, fun released notLoading hreleased inspects => ⟨fun copy roster => ?_, ?_⟩⟩
    · have carried := releasePlacements_carries (by rw [holds]; exact distinct) notFault'
        (by rw [arrived.tables]; exact loading) (pollInspection id)
      have owner := ownArrive_releases canonical turn departed position onLine ahead carried arrived.owed
      rw [holds] at owner
      obtain ⟨m, done, served⟩ := Tells.serves (rs := []) (fs := [])
        (w := { s with
          run := s.run.arrived stop
          roster := s.roster.map (Entry.zoned s.tables s.run.direction stop.toNat)
          port := { s.port with holds := carriedHolds .placement .denyLoad s.port.holds } })
        (arrived.holdList (carriedHolds .placement .denyLoad s.port.holds)) turn (command s slot tag stop) owner rfl rfl
        (by simp) rfl rfl rfl rfl rfl rfl rfl
      exact ⟨m, done, served.delivered⟩
    · simp [judge, judgeAt, Run.judgingStop, Run.evaluationStop]
    · have onList : ∀ g ∈ released, s.holdOf g.slot = some g := by
        rw [hreleased]
        exact holdOf_filter distinct
      have others : ∀ g ∈ released, g.slot ≠ slot := fun g hg => held_ne turn (onList g hg)
      have awaits : ∀ g ∈ released, g.awaits = .placement := by
        rw [hreleased]
        exact fun g hg => by simpa using (List.mem_filter.mp hg).2
      have each := Tells.releaseAs (ms := []) (hs := released) (op := fun w x => releasePlacement (pollInspection id) x w) arrived
        (w := { s with run := s.run.arrived stop, roster := s.roster.map (Entry.zoned s.tables s.run.direction stop.toNat) })
        rfl rfl rfl rfl (.inr ⟨_, runMirror_length _, rfl⟩) (by simp) notFault inspects onList
        (by rw [hreleased]; exact nodup_filter_slots distinct _)
        (fun f hf g hg => postedFacts_clear_other (others g hg) tag _ f hf)
        (fun w arrivals tables _ clock state g hg held => by
          rw [releasePlacement_releases held (awaits g hg) (by rw [state]; exact notFault) (by rw [tables]; exact notLoading),
            releaseSlot_quiet arrivals, State.clockCount, clock]
          rfl)
      rw [shows_runPart (by rw [State.inspectedAll_eq])] at each
      have slots : (arrivedState stop (s.handed slot tag (.arrive stop))).heldSlots (fun h => h.awaits == .placement) =
          released.map Hold.slot := by rw [State.heldSlots, holds, hreleased]
      have owner := ownArrive_releases canonical turn departed position onLine ahead (by rw [releasePlacements, slots]) each.owed
      obtain ⟨m, done, served⟩ := each.serves
        (w := { s with
          run := s.run.arrived stop
          roster := (State.inspectedAll
            { s with
              run := s.run.arrived stop
              roster := s.roster.map (Entry.zoned s.tables s.run.direction stop.toNat) } released).roster
          port := s.port.holdsEnded released })
        turn (command s slot tag stop) owner (handed_holdsEnded tag (.arrive stop)).1
        ((handed_holdsEnded tag (.arrive stop)).2 others)
        (endedFacts_clear others) rfl rfl rfl rfl rfl rfl rfl
      have mirror := served.header (0x10, _) (List.mem_append_right _ List.mem_cons_self)
      have shownOthers := served.others
      have ring := served.ring
      have atSlot := served.atSlot
      have ended := served.showsEnded fun _ hf => hf
      simp only [List.length_append, answeredNotices_length, List.nil_append, List.map_cons, List.map_nil, runMirror_length]
        at done mirror shownOthers ring atSlot ended
      refine ⟨_, m, rfl, done, ended, atSlot, ring, ?_, shownOthers⟩
      · rw [runMirror_requestDone]
        rw [inspectedAll_runMirror _ _ (s.port.holdsEnded released)] at mirror
        exact mirror

end Sys2Proof.Machine

/-! The completion of a deny load with holds that await it (R26, R58, R134), with nothing arriving and no access failing. -/

namespace Sys2Proof.Machine

theorem find_unique {α : Type} {p : α → Bool} {xs : List α} {a : α} (on : a ∈ xs) (holds : p a = true)
    (only : ∀ x ∈ xs, p x = true → x = a) : xs.find? p = some a := by
  induction xs with
  | nil => cases on
  | cons x xs ih =>
    by_cases here : p x = true
    · rw [List.find?_cons_of_pos here, only x List.mem_cons_self here]
    · rw [List.find?_cons_of_neg here]
      refine ih ((List.mem_cons.mp on).resolve_left fun same => here (same ▸ holds)) fun y hy =>
        only y (List.mem_cons_of_mem _ hy)

theorem holdsEnded_told (p : Port) (hs : List Hold) (n : Nat) : (p.holdsEnded hs).told n = (p.told n).holdsEnded hs := by
  induction hs generalizing p with
  | nil => rfl
  | cons g hs ih => rw [Port.holdsEnded_cons, Port.holdsEnded_cons, ih, holdEnded_told]

theorem holdsEnded_append_one (p : Port) (hs : List Hold) (g : Hold) :
    p.holdsEnded (hs ++ [g]) = (p.holdsEnded hs).holdEnded g.slot := List.foldl_append

@[simp] theorem holdsEnded_areaBase (p : Port) (hs : List Hold) : (p.holdsEnded hs).areaBase = p.areaBase := by
  rw [Port.holdsEnded_eq]

/-- The run mirror, where an event that ended holds created an entry. -/
theorem Tells.runMirrorShown {s v u w t x : State} {rs : List (Nat × Nat)} {ns : List Notice} {ms fs : List (Nat × List Byte)}
    (h : Tells s v u rs ns (ms ++ runPart [] w x) fs) (writes : s.port.state.writes = true)
    (memory : t.hostMemory = v.hostMemory) (longer : x.roster.length ≠ w.roster.length) :
    t.shows (s.areaAddress + 0x10) x.runMirror :=
  h.header writes memory (m := (0x10, x.runMirror))
    (List.mem_append_right _ (by rw [runPart, if_neg longer]; exact List.mem_singleton.mpr rfl))

theorem runPart_ranges {u w : State} {a : Nat} {r : Nat × Nat}
    (on : r ∈ (runPart [] u w).map fun m => (a + m.1, m.2.length)) : r = (a + 0x10, 16) := by
  unfold runPart at on
  split at on
  · cases on
  · simpa using on

theorem answerRanges_append_one (s : State) (hs : List Hold) (g : Hold) :
    s.answerRanges (hs ++ [g]) = s.answerRanges hs ++ s.answerRange g.slot := by
  simp [State.answerRanges, State.answerRange]

theorem runMirror_endStep (s : State) : (endStep s).runMirror = s.runMirror := runMirror_congr (by simp) (by simp)

/-! ### The releases of a deny completion -/

section
variable {v : State} {mid : State → State} {g : Hold}

theorem releaseDeny_carries (held : v.holdOf g.slot = some g) (awaits : g.awaits = .denyLoad)
    (notFault : v.port.state ≠ .fault) (unplaced : v.run.state = .runningUnplaced) :
    releaseDeny mid g.slot v = carryHold g.slot .placement v := by
  rw [releaseDeny, if_pos (by simp [held, awaits, notFault]), if_pos unplaced]

theorem releaseDeny_releases (held : v.holdOf g.slot = some g) (awaits : g.awaits = .denyLoad)
    (notFault : v.port.state ≠ .fault) (placed : v.run.state ≠ .runningUnplaced) :
    releaseDeny mid g.slot v = releaseSlot mid v.clockCount g.slot v := by
  rw [releaseDeny, if_pos (by simp [held, awaits, notFault]), if_neg placed]

theorem releaseDenies_carries (distinct : (v.port.holds.map Hold.slot).Nodup) (notFault : v.port.state ≠ .fault)
    (unplaced : v.run.state = .runningUnplaced) (mid : State → State) :
    releaseDenies mid v = { v with port := { v.port with holds := carriedHolds .denyLoad .placement v.port.holds } } := by
  rw [releaseDenies, State.heldSlots, foldl_carry (b := .placement) (holdOf_filter distinct) (nodup_filter_slots distinct _),
    carriedSlots_awaiting distinct]
  intro holds g on held
  exact releaseDeny_carries held (by simpa using (List.mem_filter.mp on).2) notFault unplaced

end

/-- The completion of a deny load: the judgement, the releases, the load's own answer. -/
theorem completeLoad_deny {s v : State} {job : LoadJob} {written judged : Tables} (loading : s.tables.load = some job)
    (deny : job.kind = .deny)
    (hwritten : written = s.tables.copyIn job (s.hostBytes (job.source + job.copied) (s.tables.toCopy job)))
    (released : releaseDenies (pollInspection id) (judgedState .deny s.quieted written) = v) (owed : v.owed = [])
    (arrivals : v.arrivals = []) (tables : v.tables = judged) :
    completeLoad s.quieted = endOwnHold Hold.isLoad (loadAnswer .deny judged) v := by
  have finishes := completeLoad_finishes (v := s.quieted) rfl loading
  have unfolded : finishLoad .deny { s.quieted with tables := written } =
      endOwnHold Hold.isLoad
        (loadAnswer .deny (pollCompletion (afterEvaluations (pollInspection id)
          (releaseDenies (pollInspection id) (judgedState .deny s.quieted written)))).tables)
        (pollCompletion (afterEvaluations (pollInspection id)
          (releaseDenies (pollInspection id) (judgedState .deny s.quieted written)))) := rfl
  rw [released, afterEvaluations_none owed, pollCompletion_quiet arrivals, tables] at unfolded
  rw [finishes, deny]
  have same : s.quieted.tables.copyIn job (s.quieted.hostBytes (job.source + job.copied) (s.quieted.tables.toCopy job)) = written :=
    hwritten.symm
  rw [same]
  exact unfolded

/-- Settles O36. -/
theorem denyCompletionTakesUpItsHolds : Obligations.DenyCompletionTakesUpItsHolds := by
  intro s u job own copied judged answer canonical loading deny writes distinct onList work awaits only hcopied hjudged hu hanswer
  subst hu
  obtain ⟨written, hwritten⟩ : ∃ t, t = s.tables.copyIn job (s.hostBytes (job.source + job.copied) (s.tables.toCopy job)) :=
    ⟨_, rfl⟩
  have completed : judged = written.completed .deny := by
    rw [hwritten, judged_eq (k := .deny) (copied := copied) deny (by
      rw [hcopied, Tables.toCopy, deny]
      rfl)]
    have ordinals : copied.ordinals = s.tables.ordinals := by rw [hcopied]
    rw [ordinals] at hjudged
    exact hjudged
  have bytes : loadAnswer .deny judged = answer := by
    have image : judged.image .deny = copied.image .deny := by
      rw [completed, completed_image, hwritten, hcopied, Tables.copyIn, Tables.toCopy, deny]
      rfl
    rw [hanswer, loadAnswer, image]
    rfl
  have notFault := writes_ne_fault writes
  have tells := tells_judged canonical .deny written
  rw [← completed] at tells
  have holds : (judgedState .deny s.quieted written).port.holds = s.port.holds := by
    rw [tells.port, told_holds]
  have command : exec (.loadCompletion Env.quiet) s = .next (endStep (completeLoad s.quieted)) := rfl
  refine ⟨fun unplaced => ?_, fun released placed hreleased inspects => ?_⟩
  · have carried := releaseDenies_carries (v := judgedState .deny s.quieted written) (by rw [holds]; exact distinct)
      (by rw [tells.portState]; exact notFault) (by rw [tells.run]; exact unplaced) (pollInspection id)
    rw [holds] at carried
    have moved := tells.holdList (carriedHolds .denyLoad .placement s.port.holds)
    rw [← carried] at moved
    obtain ⟨v, hv⟩ : ∃ v, releaseDenies (pollInspection id) (judgedState .deny s.quieted written) = v := ⟨_, rfl⟩
    rw [hv] at moved
    have done := completeLoad_deny loading deny hwritten hv moved.owed moved.arrivals moved.tables
    rw [bytes] at done
    have found : (carriedHolds .denyLoad .placement s.port.holds).find? Hold.isLoad = some own := by
      refine find_unique (List.mem_map.mpr ⟨own, onList, by rw [if_neg (by rw [awaits]; decide)]⟩) (by simp [Hold.isLoad, work]) ?_
      intro x hx load
      obtain ⟨y, hy, rfl⟩ := List.mem_map.mp hx
      have same : y = own := by
        refine only y hy ?_
        split at load <;> simpa [Hold.isLoad] using load
      rw [same, if_neg (by rw [awaits]; decide)]
    have ended := moved.endOwnHold notFault (isOwn := Hold.isLoad) found answer (by simp)
    have told := ended.endStep_eq
    simp only [List.nil_append, List.length_singleton] at told
    rw [holdEnded_told, told_of_writes (by exact writes)] at told
    refine ⟨_, (endOwnHold Hold.isLoad answer v).hostMemory, rfl, 
      command.trans (congrArg Host.Outcome.next ((congrArg endStep done).trans told)), ?_⟩
    exact (ended.permute (fs' := answerFacts own.slot .done answer) (by simp)).widen (rs' := s.answerRange own.slot) (by simp)
      |>.holdAnswered (ns := []) writes (endStep_hostMemory _)
        ((congrArg Clock.count (endStep_clock _)).trans (congrArg Clock.count ended.clock).symm)
  · have held : ∀ g ∈ released, s.holdOf g.slot = some g := by
      rw [hreleased]
      exact holdOf_filter distinct
    have waiting : ∀ g ∈ released, g.awaits = .denyLoad := by
      rw [hreleased]
      exact fun g hg => by simpa using (List.mem_filter.mp hg).2
    have others : ∀ g ∈ released, g.slot ≠ own.slot := by
      intro g hg same
      have twin : g = own := List.inj_on_of_nodup_map distinct (by rw [hreleased] at hg; exact List.mem_of_mem_filter hg) onList same
      have awaits' := waiting g hg
      rw [twin, awaits] at awaits'
      cases awaits'
    have tells' : Tells s (judgedState .deny s.quieted written) { s with tables := judged } [] []
        ([(TableKind.deny.mirrorOffset, judged.deny.image)] ++ []) [] := tells
    have each := Tells.releaseAs (rm := []) (hs := released) (op := fun w x => releaseDeny (pollInspection id) x w)
      tells' (w := { s with tables := judged }) rfl rfl rfl rfl (.inl rfl)
      (by simp [TableKind.mirrorOffset]) notFault inspects held (by rw [hreleased]; exact nodup_filter_slots distinct _) (by simp)
      (fun w arrivals _ run clock state g hg held => by
        rw [releaseDeny_releases held (waiting g hg) (by rw [state]; exact notFault) (by rw [run]; exact placed),
          releaseSlot_quiet arrivals, State.clockCount, clock]
        rfl)
    have slots : (judgedState .deny s.quieted written).heldSlots (fun h => h.awaits == .denyLoad) = released.map Hold.slot := by
      rw [State.heldSlots, holds, hreleased]
    obtain ⟨v, hv⟩ : ∃ v, releaseDenies (pollInspection id) (judgedState .deny s.quieted written) = v := ⟨_, rfl⟩
    have released' := hv
    rw [releaseDenies, slots] at released'
    rw [released'] at each
    have done := completeLoad_deny loading deny hwritten hv each.owed each.arrivals each.tables
    rw [bytes] at done
    have found : (s.port.holdsEnded released).holds.find? Hold.isLoad = some own := by
      rw [Port.holdsEnded_eq]
      refine find_unique (List.mem_filter.mpr ⟨onList, ?_⟩) (by simp [Hold.isLoad, work]) fun x hx load =>
        only x (List.mem_of_mem_filter hx) (by simpa [Hold.isLoad] using load)
      simpa using fun g hg => (others g hg).symm
    have ended := each.endOwnHold notFault (isOwn := Hold.isLoad) found answer fun f hf => by
      rw [List.append_nil] at hf
      exact endedFacts_clear others f hf
    have told := ended.endStep_eq
    have count : (answeredNotices released ++ [answeredNotice own.slot own.tag]).length = released.length + 1 := by simp
    simp only [List.nil_append, count] at told
    rw [holdEnded_told, holdsEnded_told, told_of_writes (by exact writes), ← holdsEnded_append_one] at told
    have area : (endOwnHold Hold.isLoad answer v).port.areaBase = s.port.areaBase := (ended.written writes).area
    have memory := endStep_hostMemory (endOwnHold Hold.isLoad answer v)
    have port : (endStep (endOwnHold Hold.isLoad answer v)).port.areaBase = s.port.areaBase := by rw [endStep_port, area]
    have clock : (endStep (endOwnHold Hold.isLoad answer v)).clockCount = (endOwnHold Hold.isLoad answer v).clockCount :=
      congrArg Clock.count (endStep_clock _)
    refine ⟨_, (endOwnHold Hold.isLoad answer v).hostMemory, rfl,
      command.trans (congrArg Host.Outcome.next ((congrArg endStep done).trans told)), ?_⟩
    have each' := ended.showsEnded (t := endStep (endOwnHold Hold.isLoad answer v)) (w := { s with tables := judged })
      (hs := released) writes memory port fun f hf => List.mem_append_right _ (List.mem_append_left _ hf)
    obtain ⟨state, outcome, shown⟩ := ended.answerShown (x := own.slot) (code := .done) (bytes := answer) writes memory
      fun f hf => List.mem_append_left _ hf
    have ring := ended.ring writes memory clock
    have mirror := ended.header writes memory (m := (0x50, judged.deny.image)) (List.mem_append_left _ (List.mem_singleton.mpr rfl))
    have run := ended.runMirrorShown writes memory
    have others := ended.others (t := endStep (endOwnHold Hold.isLoad answer v)) (ranges :=
      s.answerRanges (released ++ [own]) ++ s.ringRanges (released.length + 1)
        ++ [(s.areaAddress + 0x50, 16), (s.areaAddress + 0x10, 16)]) writes memory fun r hr => by
      have within (on : r ∈ (runPart [] ({ s with tables := judged } : State)
          (State.inspectedAll { s with tables := judged } released)).map fun m => (s.areaAddress + m.1, m.2.length)) :=
        runPart_ranges on
      have image : judged.deny.image.length = 16 := image_length _
      simp only [answerRanges_append_one, count, List.nil_append, List.append_nil, List.map_append, List.map_cons, List.map_nil,
        List.mem_append, List.mem_cons, List.not_mem_nil, or_false, image] at hr ⊢
      rcases hr with ((own' | before) | ring) | first | second
      · exact .inl (.inl (.inr own'))
      · exact .inl (.inl (.inl before))
      · exact .inl (.inr ring)
      · exact .inr (.inl first)
      · exact .inr (.inr (within second))
    have notices : [] ++ answeredNotices released ++ [answeredNotice own.slot own.tag] = answeredNotices (released ++ [own]) := by
      simp [answeredNotices]
    rw [told] at each' state outcome shown ring mirror others
    rw [notices] at ring
    refine ⟨each', state, outcome, shown, ring, mirror, fun longer => ?_, others⟩
    have shownRun := run (by simpa using longer)
    rw [told, inspectedAll_runMirror _ _ ((s.port.offered (released.length + 1)).holdsEnded (released ++ [own]))] at shownRun
    rw [runMirror_endStep]
    exact shownRun

end Sys2Proof.Machine

/-! The work of a tick or step in the order chosen (R3, R10): what the interleaving keeps, and the pass over the roster it is. -/

namespace Sys2Proof.Machine

/-! ### Interleaving -/

section
variable {α : Type}

/-- One element taken from the front of one list. -/
theorem flatten_set_perm {lists : List (List α)} {i : Nat} {x : α} {xs : List α} (on : lists[i]? = some (x :: xs)) :
    (x :: (lists.set i xs).flatten).Perm lists.flatten := by
  induction lists generalizing i with
  | nil => cases on
  | cons l lists ih =>
    cases i with
    | zero =>
      obtain rfl := Option.some_inj.mp on
      exact List.Perm.refl _
    | succ i =>
      simp only [List.set_cons_succ, List.flatten_cons]
      exact (List.perm_middle.symm).trans ((ih on).append_left l)

/-- What an interleaving gives: every element of the lists once, each list in its own order, and a number of choices made. -/
structure Interleaves (k : Nat) (lists : List (List α)) (result : List α × Nat) : Prop where
  perm : result.1.Perm lists.flatten
  orders : ∀ l ∈ lists, l.Sublist result.1
  turns : ∃ m, result.2 = k + m

theorem interleaves_done (k : Nat) {lists : List (List α)} (l : List α) (only : (lists.filter fun l => !l.isEmpty).flatten = l)
    (orders : ∀ x ∈ lists.filter (fun l => !l.isEmpty), x = l) : Interleaves k lists (l, k) where
  perm := by rw [← List.flatten_filter_not_isEmpty, only]
  orders x on := by
    cases x with
    | nil => exact List.nil_sublist _
    | cons y ys =>
      rw [orders (y :: ys) (List.mem_filter.mpr ⟨on, rfl⟩)]
  turns := ⟨0, rfl⟩

/-- The front element of one list, then an interleaving of what is left. -/
theorem interleaves_cons {k i : Nat} {lists : List (List α)} {x : α} {xs : List α} {result : List α × Nat}
    (front : (lists.filter fun l => !l.isEmpty)[i]? = some (x :: xs))
    (rest : Interleaves (k + 1) ((lists.filter fun l => !l.isEmpty).set i xs) result) :
    Interleaves k lists (x :: result.1, result.2) where
  perm := by
    rw [← List.flatten_filter_not_isEmpty]
    exact (rest.perm.cons x).trans (flatten_set_perm front)
  orders l on := by
    cases l with
    | nil => exact List.nil_sublist _
    | cons y ys =>
      obtain ⟨j, hj⟩ := List.mem_iff_getElem?.mp (List.mem_filter.mpr ⟨on, rfl⟩ :
        y :: ys ∈ lists.filter fun l => !l.isEmpty)
      by_cases same : i = j
      · subst same
        obtain ⟨rfl, rfl⟩ := List.cons.inj (Option.some_inj.mp (front.symm.trans hj))
        obtain ⟨lt, -⟩ := List.getElem?_eq_some_iff.mp front
        exact (rest.orders xs (List.mem_set lt xs)).cons_cons x
      · refine (rest.orders (y :: ys) (List.mem_iff_getElem?.mpr ⟨j, ?_⟩)).cons x
        rw [List.getElem?_set_ne same]
        exact hj
  turns := by
    obtain ⟨m, hm⟩ := rest.turns
    exact ⟨m + 1, by rw [hm]; omega⟩

theorem interleave_interleaves {fuel : Nat} (k : Nat) {lists : List (List α)} (enough : lists.flatten.length < fuel) :
    Interleaves k lists (interleave fuel k lists) := by
  induction fuel generalizing k lists with
  | zero => omega
  | succ fuel ih =>
    have nonempty : ∀ l ∈ lists.filter (fun l => !l.isEmpty), l ≠ [] := fun l on empty => by
      simpa [empty] using (List.mem_filter.mp on).2
    rw [interleave]
    split
    next none => exact interleaves_done k [] (by rw [none]; rfl) (by rw [none]; simp)
    next l one => exact interleaves_done k l (by rw [one]; simp) (by rw [one]; simp)
    next l l' rest more =>
      have lt : Config.turn k % (rest.length + 2) < (l :: l' :: rest).length := Nat.mod_lt _ (Nat.succ_pos _)
      split
      next x xs front =>
        rw [← more] at front ⊢
        refine interleaves_cons front (ih (k + 1) ?_)
        have length := (flatten_set_perm front).length_eq
        rw [List.flatten_filter_not_isEmpty, List.length_cons] at length
        omega
      next missing =>
        exfalso
        obtain ⟨y, hy⟩ : ∃ y, (l :: l' :: rest)[Config.turn k % (rest.length + 2)]? = some y := ⟨_, List.getElem?_eq_getElem lt⟩
        rw [← more] at hy
        have full := nonempty y (List.mem_of_getElem? hy)
        rw [more] at hy
        cases y with
        | nil => exact full rfl
        | cons x xs => exact missing x xs hy

end

theorem taskOrder_interleaves (turns : Nat) (lists : List (List TickTask)) :
    Interleaves turns lists (taskOrder turns lists) := interleave_interleaves turns (Nat.lt_succ_self _)

/-- The work of a single list is done in its own order and no turn is taken. -/
theorem taskOrder_single {turns : Nat} {lists : List (List TickTask)} {ks : List TickTask}
    (single : lists.filter (fun l => !l.isEmpty) = if ks = [] then [] else [ks]) : taskOrder turns lists = (ks, turns) := by
  rw [taskOrder, interleave, single]
  by_cases none : ks = []
  · rw [if_pos none, none]
  · rw [if_neg none]

end Sys2Proof.Machine

/-! A tick's or step's work on the roster (R3, R10, R103, R104, R117), with nothing arriving: one pass of pieces in the order
chosen. -/

namespace Sys2Proof.Machine

/-! ### The pieces of work -/

/-- The notices of one piece of a tick's work other than a hold's end (R4, R103, R117). -/
def State.taskNotes (s : State) (n : Nat) : TickTask → List Notice
  | .dayChanged => [dayNotice s.clock.serviceDay]
  | .watch i => (s.roster[i]?).elim [] fun e => (timeMoveAt s i n).elim [] (watchNotices s.tables i e)
  | .hold _ => []
  | .proposal i => [lapsedNotice i]
  | .zone _ _ => []

theorem taskNotes_watch (s : State) (n i : Nat) :
    s.taskNotes n (.watch i) = (s.roster[i]?).elim [] fun e => (timeMoveAt s i n).elim [] (watchNotices s.tables i e) := rfl

/-- An entry after the examination of its watch, of its proposal, of both or of neither. -/
def Entry.tickedBy (s : State) (n : Nat) (watched lapsed : Bool) (e : Entry) : Entry :=
  { e with
    watch := if watched then (Entry.ticked s n e).watch else e.watch
    mark := if lapsed then (Entry.ticked s n e).mark else e.mark }

/-- The roster after some of the pieces of a tick's work. -/
def State.tickedAt (s : State) (n : Nat) (ks : List TickTask) : List Entry :=
  s.roster.mapIdx fun i e => Entry.tickedBy s n (decide (TickTask.watch i ∈ ks)) (decide (TickTask.proposal i ∈ ks)) e

/-- A piece of a tick's work that has something to do, and ends no hold. -/
def State.hasTask (s : State) (n : Nat) : TickTask → Prop
  | .dayChanged => True
  | .watch i => ∃ stage, timeMoveAt s i n = some stage
  | .hold _ => False
  | .proposal i => proposalDue s i n = true
  | .zone _ _ => False

section
variable {s : State} {n i : Nat} {ks : List TickTask}

theorem tickedAt_get {e : Entry} (entry : s.roster[i]? = some e) :
    (s.tickedAt n ks)[i]? =
      some (Entry.tickedBy s n (decide (TickTask.watch i ∈ ks)) (decide (TickTask.proposal i ∈ ks)) e) := by
  simp [State.tickedAt, entry]

theorem tickedAt_nil : s.tickedAt n [] = s.roster := by
  refine List.ext_getElem (by simp [State.tickedAt]) fun i h1 h2 => ?_
  simp [State.tickedAt, Entry.tickedBy]

/-- One entry examined once more. -/
theorem tickedAt_set {k : TickTask} {e e' : Entry} (entry : s.roster[i]? = some e)
    (others : ∀ j, j ≠ i → TickTask.watch j ≠ k ∧ TickTask.proposal j ≠ k)
    (own : Entry.tickedBy s n (decide (TickTask.watch i ∈ ks ++ [k])) (decide (TickTask.proposal i ∈ ks ++ [k])) e = e') :
    (s.tickedAt n ks).set i e' = s.tickedAt n (ks ++ [k]) := by
  obtain ⟨lt, rfl⟩ := List.getElem?_eq_some_iff.mp entry
  refine List.ext_getElem (by simp [State.tickedAt]) fun j h1 h2 => ?_
  rw [List.getElem_set]
  by_cases same : i = j
  · subst same
    rw [if_pos rfl, ← own]
    simp [State.tickedAt]
  · obtain ⟨watch, proposal⟩ := others j (Ne.symm same)
    rw [if_neg same]
    simp [State.tickedAt, watch, proposal]

theorem timeMoveAt_some {stage : WatchStage} (move : timeMoveAt s i n = some stage) :
    ∃ e, s.roster[i]? = some e ∧ (if s.runOpen then e.watch.timeMove s.run.watchLead n else none) = some stage := by
  cases entry : s.roster[i]? with
  | none => simp [timeMoveAt, entry] at move
  | some e => exact ⟨e, rfl, (timeMoveAt_entry entry).symm.trans move⟩

theorem proposalDue_some (due : proposalDue s i n = true) :
    ∃ e p, s.roster[i]? = some e ∧ e.mark.proposal = some p ∧ p.expiry ≤ n := by
  cases entry : s.roster[i]? with
  | none => simp [proposalDue, entry] at due
  | some e =>
    cases proposal : e.mark.proposal with
    | none => simp [proposalDue, entry, proposal] at due
    | some p => exact ⟨e, p, rfl, proposal, by simpa [proposalDue, entry, proposal] using due⟩

end

section
variable {v : State} {n : Nat} {done : List TickTask}

/-- The state in the middle of a pass. -/
def State.midPass (v : State) (n : Nat) (done : List TickTask) (p : Port) (m : Memory) : State :=
  { v with roster := v.tickedAt n done, port := p, hostMemory := m }

theorem runTask_watch {i : Nat} {stage : WatchStage} (move : timeMoveAt v i n = some stage) (fresh : TickTask.watch i ∉ done)
    (p : Port) (m : Memory) :
    runTask id n (v.midPass n done p m) (.watch i) =
      appendNotices (v.taskNotes n (.watch i)) (v.midPass n (done ++ [.watch i]) p m) := by
  obtain ⟨e, entry, moved⟩ := timeMoveAt_some move
  have now := tickedAt_get (n := n) (ks := done) entry
  rw [decide_eq_false fresh] at now
  have entry' : (v.midPass n done p m).roster[i]? =
      some (Entry.tickedBy v n false (decide (TickTask.proposal i ∈ done)) e) := now
  have move' : timeMoveAt (v.midPass n done p m) i n = some stage := (timeMoveAt_entry entry').trans moved
  have notes : v.taskNotes n (.watch i) = watchNotices v.tables i e stage := by simp [State.taskNotes, entry, move]
  have set := tickedAt_set (s := v) (n := n) (ks := done) (k := .watch i) entry (by simp) rfl
  rw [notes, runTask, timeAdvance_moves move', moveWatch_entry entry']
  have own : Entry.tickedBy v n (decide (TickTask.watch i ∈ done ++ [TickTask.watch i]))
      (decide (TickTask.proposal i ∈ done ++ [TickTask.watch i])) e =
        { Entry.tickedBy v n false (decide (TickTask.proposal i ∈ done)) e with watch := { e.watch with stage := stage } } := by
    simp [Entry.tickedBy, Entry.ticked, moved]
  rw [own] at set
  exact congrArg (fun roster => appendNotices (watchNotices v.tables i e stage) { v with roster := roster, port := p, hostMemory := m })
    set

theorem runTask_proposal {i : Nat} (due : proposalDue v i n = true) (fresh : TickTask.proposal i ∉ done) (p : Port) (m : Memory) :
    runTask id n (v.midPass n done p m) (.proposal i) =
      appendNotices (v.taskNotes n (.proposal i)) (v.midPass n (done ++ [.proposal i]) p m) := by
  obtain ⟨e, q, entry, proposal, expired⟩ := proposalDue_some due
  have now := tickedAt_get (n := n) (ks := done) entry
  rw [decide_eq_false fresh] at now
  have entry' : (v.midPass n done p m).roster[i]? =
      some (Entry.tickedBy v n (decide (TickTask.watch i ∈ done)) false e) := now
  have set := tickedAt_set (s := v) (n := n) (ks := done) (k := .proposal i) entry (by simp) rfl
  have own : Entry.tickedBy v n (decide (TickTask.watch i ∈ done ++ [TickTask.proposal i]))
      (decide (TickTask.proposal i ∈ done ++ [TickTask.proposal i])) e =
        (Entry.tickedBy v n (decide (TickTask.watch i ∈ done)) false e).discardProposal := by
    simp [Entry.tickedBy, Entry.ticked, Entry.discardProposal, proposal, expired]
  rw [own] at set
  rw [runTask, lapseProposal_due entry' proposal expired]
  exact congrArg (fun roster => appendNotice (lapsedNotice i) { v with roster := roster, port := p, hostMemory := m }) set

theorem runTask_dayChanged (p : Port) (m : Memory) :
    runTask id n (v.midPass n done p m) .dayChanged =
      appendNotices (v.taskNotes n .dayChanged) (v.midPass n (done ++ [.dayChanged]) p m) := by
  have same : v.tickedAt n (done ++ [.dayChanged]) = v.tickedAt n done := by simp [State.tickedAt]
  rw [State.midPass, State.midPass, same]
  rfl

/-- The work of a tick or step that ends no hold, in the order chosen. -/
theorem foldl_runTask_pieces (bus : v.busLeft = none) {ks : List TickTask} (once : ks.Nodup)
    (tasks : ∀ k ∈ ks, v.hasTask n k) :
    ks.foldl (runTask id n) v = appendNotices (ks.flatMap (v.taskNotes n)) { v with roster := v.tickedAt n ks } := by
  refine foldl_pieces (R := v.tickedAt n) bus tickedAt_nil once fun done k p m on fresh => ?_
  have task := tasks k on
  cases k with
  | dayChanged => exact runTask_dayChanged p m
  | watch i =>
    obtain ⟨stage, move⟩ := task
    exact runTask_watch move fresh p m
  | hold slot => exact task.elim
  | proposal i => exact runTask_proposal task fresh p m
  | zone stop i => exact task.elim

end

/-! ### The whole delivery -/

section
variable {v : State} {n : Nat}

/-- The roster once every piece of work is done. -/
theorem tickedAt_all {ks : List TickTask} (watches : ∀ i, TickTask.watch i ∈ ks ↔ TickTask.watch i ∈ watchTasks v n)
    (proposals : ∀ i, TickTask.proposal i ∈ ks ↔ TickTask.proposal i ∈ proposalTasks v n) :
    v.tickedAt n ks = v.roster.map (Entry.ticked v n) := by
  refine List.ext_getElem (by simp [State.tickedAt]) fun i h1 h2 => ?_
  have lt : i < v.roster.length := by simpa [State.tickedAt] using h1
  have entry : v.roster[i]? = some v.roster[i] := List.getElem?_eq_getElem lt
  have watch : TickTask.watch i ∈ ks ↔ (timeMoveAt v i n).isSome = true := by simp [watches, watchTasks, lt]
  have proposal : TickTask.proposal i ∈ ks ↔ proposalDue v i n = true := by simp [proposals, proposalTasks, lt]
  have watched : (if TickTask.watch i ∈ ks then (Entry.ticked v n v.roster[i]).watch else v.roster[i].watch) =
      (Entry.ticked v n v.roster[i]).watch := by
    split
    · rfl
    next no =>
      rw [watch, timeMoveAt_entry entry, Bool.not_eq_true, Option.isSome_eq_false_iff, Option.isNone_iff_eq_none] at no
      simp [Entry.ticked, no]
  have lapsed : (if TickTask.proposal i ∈ ks then (Entry.ticked v n v.roster[i]).mark else v.roster[i].mark) =
      (Entry.ticked v n v.roster[i]).mark := by
    split
    · rfl
    next no =>
      rw [proposal] at no
      cases pending : v.roster[i].mark.proposal with
      | none =>
        simp only [Entry.ticked, pending, Option.filter_none]
        rw [← pending]
      | some q =>
        have live : n < q.expiry := by simpa [proposalDue, entry, pending] using no
        simp only [Entry.ticked, pending, Option.filter_some, decide_eq_true live, if_true]
        rw [← pending]
  simp only [State.tickedAt, List.getElem_mapIdx, List.getElem_map, Entry.tickedBy, decide_eq_true_eq, watched, lapsed]
  rfl

theorem flatMap_filter_of_nil {α β : Type} {p : α → Bool} {f : α → List β} (xs : List α) (none : ∀ x, p x = false → f x = []) :
    (xs.filter p).flatMap f = xs.flatMap f := by
  induction xs with
  | nil => rfl
  | cons x xs ih =>
    cases keep : p x with
    | true => rw [List.filter_cons_of_pos keep, List.flatMap_cons, List.flatMap_cons, ih]
    | false => rw [List.filter_cons_of_neg (by simp [keep]), List.flatMap_cons, none x keep, ih, List.nil_append]

theorem watchTasks_notes : (watchTasks v n).flatMap (v.taskNotes n) = v.tickWatchNotices n := by
  rw [watchTasks, List.flatMap_map, flatMap_filter_of_nil, State.tickWatchNotices, List.filterMap_eq_flatMap_toList]
  · refine List.flatMap_congr fun i _ => ?_
    rw [taskNotes_watch]
    cases v.roster[i]? with
    | none => rfl
    | some e =>
      cases timeMoveAt v i n with
      | none => rfl
      | some stage =>
        simp only [Option.elim_some, watchNotices]
        split <;> rfl
  · intro i none
    have still : timeMoveAt v i n = .none := by simpa using none
    rw [taskNotes_watch, still]
    cases v.roster[i]? <;> rfl

theorem proposalTasks_notes : (proposalTasks v n).flatMap (v.taskNotes n) = v.tickLapseNotices n := by
  rw [proposalTasks, List.flatMap_map, State.tickLapseNotices, List.map_eq_flatMap]
  rfl

end

end Sys2Proof.Machine

/-! The minute tick (1.2), with nothing arriving and no access failing. -/

namespace Sys2Proof.Machine

/-! ### A delivery that ends no hold -/

section
variable {v : State} {n : Nat}

theorem consumerTasks_flatten (noDue : v.dueHolds n = []) :
    (consumerTasks freeEvaluator v n).flatten = watchTasks v n ++ proposalTasks v n := by
  have none : holdTasks v n = [] := by rw [holdTasks, noDue]; rfl
  change (watchTasks v n ++ (holdTasks v n ++ (proposalTasks v n ++ []))) = _
  rw [none, List.nil_append, List.append_nil]

theorem tasks_nodup (n : Nat) (v : State) : (watchTasks v n ++ proposalTasks v n).Nodup := by
  refine List.Nodup.append ?_ ?_ fun k watch proposal => ?_
  · exact (List.nodup_range.filter _).map fun i j same => TickTask.watch.inj same
  · exact (List.nodup_range.filter _).map fun i j same => TickTask.proposal.inj same
  · obtain ⟨i, -, rfl⟩ := List.mem_map.mp watch
    obtain ⟨j, -, other⟩ := List.mem_map.mp proposal
    cases other

theorem tasks_hasTask {k : TickTask} (on : k ∈ watchTasks v n ++ proposalTasks v n) : v.hasTask n k := by
  rcases List.mem_append.mp on with watch | proposal
  · obtain ⟨i, moves, rfl⟩ := List.mem_map.mp watch
    exact Option.isSome_iff_exists.mp (List.mem_filter.mp moves).2
  · obtain ⟨i, due, rfl⟩ := List.mem_map.mp proposal
    exact (List.mem_filter.mp due).2

/-- A delivery with nothing arriving that ends no hold: every entry examined, the notices an interleaving of the consumers'. -/
theorem delivery_pieces (bus : v.busLeft = none) (arrivals : v.arrivals = []) (owed : v.owed = []) (noDue : v.dueHolds n = [])
    {pre : List (List TickTask)} (day : pre.flatten = [] ∨ pre.flatten = [.dayChanged]) :
    ∃ ns k,
      ns.Perm (pre.flatten.flatMap (v.taskNotes n) ++ v.tickWatchNotices n ++ v.tickLapseNotices n) ∧
        (v.tickWatchNotices n).Sublist ns ∧ (v.tickLapseNotices n).Sublist ns ∧
        deliver freeEvaluator n (pre ++ consumerTasks freeEvaluator v n) v =
          appendNotices ns { v with roster := v.roster.map (Entry.ticked v n), turns := v.turns + k } := by
  obtain ⟨perm, orders, k, turns⟩ := taskOrder_interleaves v.turns (pre ++ consumerTasks freeEvaluator v n)
  have flat : (pre ++ consumerTasks freeEvaluator v n).flatten = pre.flatten ++ (watchTasks v n ++ proposalTasks v n) := by
    rw [List.flatten_append, consumerTasks_flatten noDue]
  rw [flat] at perm
  have foreign : TickTask.dayChanged ∉ watchTasks v n ++ proposalTasks v n := by simp [watchTasks, proposalTasks]
  have mem (x : TickTask) (other : x ≠ .dayChanged) :
      x ∈ (taskOrder v.turns (pre ++ consumerTasks freeEvaluator v n)).1 ↔ x ∈ watchTasks v n ++ proposalTasks v n := by
    rw [perm.mem_iff]
    rcases day with none | one
    · simp [none]
    · simp [one, other]
  have once : (taskOrder v.turns (pre ++ consumerTasks freeEvaluator v n)).1.Nodup := by
    rw [perm.nodup_iff]
    rcases day with none | one
    · rw [none]
      exact tasks_nodup n v
    · rw [one]
      exact List.nodup_cons.mpr ⟨foreign, tasks_nodup n v⟩
  have tasks : ∀ x ∈ (taskOrder v.turns (pre ++ consumerTasks freeEvaluator v n)).1, v.hasTask n x := by
    intro x on
    by_cases own : x = .dayChanged
    · rw [own]
      trivial
    · exact tasks_hasTask ((mem x own).mp on)
  have roster := tickedAt_all (v := v) (n := n) (ks := (taskOrder v.turns (pre ++ consumerTasks freeEvaluator v n)).1)
    (fun i => by rw [mem _ (by simp)]; simp [proposalTasks]) (fun i => by rw [mem _ (by simp)]; simp [watchTasks])
  refine ⟨(taskOrder v.turns (pre ++ consumerTasks freeEvaluator v n)).1.flatMap (v.taskNotes n), k, ?_, ?_, ?_, ?_⟩
  · have notes := perm.flatMap_right (v.taskNotes n)
    rwa [List.flatMap_append, List.flatMap_append, watchTasks_notes, proposalTasks_notes, ← List.append_assoc] at notes
  · rw [← watchTasks_notes]
    exact (orders _ (List.mem_append_right _ List.mem_cons_self)).flatMap _
  · rw [← proposalTasks_notes]
    exact (orders _ (List.mem_append_right _ (List.mem_cons_of_mem _ (List.mem_cons_of_mem _ List.mem_cons_self)))).flatMap _
  · have pieces := foldl_runTask_pieces (v := { v with turns := v.turns + k }) (n := n) bus once (by exact tasks)
    rw [delivery_quiet arrivals owed, turns, ← roster]
    exact pieces

end

/-! ### What the consumers see of a state -/

section
variable {v s : State} {n : Nat}

theorem timeMoveAt_congr (run : v.run = s.run) (roster : v.roster = s.roster) (i n : Nat) :
    timeMoveAt v i n = timeMoveAt s i n := by
  unfold timeMoveAt State.runOpen
  rw [run, roster]

theorem tickNotices_congr (run : v.run = s.run) (tables : v.tables = s.tables) (roster : v.roster = s.roster) (n : Nat) :
    v.tickWatchNotices n = s.tickWatchNotices n ∧ v.tickLapseNotices n = s.tickLapseNotices n := by
  unfold State.tickWatchNotices State.tickLapseNotices proposalDue
  simp only [timeMoveAt_congr run roster, roster, tables, and_self]

theorem ticked_congr (run : v.run = s.run) (n : Nat) : Entry.ticked v n = Entry.ticked s n := by
  unfold Entry.ticked State.runOpen
  rw [run]

theorem dueHolds_congr (port : v.port = s.port) (n : Nat) : v.dueHolds n = s.dueHolds n := by
  unfold State.dueHolds State.heldSlots
  rw [port]

end

/-! ### The minute tick -/

section
variable {s v u : State} {rs : List (Nat × Nat)} {ns : List Notice} {ms fs : List (Nat × List Byte)}

/-- The clock set with its mirror, before any notice (R12). -/
theorem Tells.setClockTo (h : Tells s v u rs [] [] fs) (c : Clock) :
    Tells s (setClockTo c v) { u with clock := c } rs [] [(0x20, c.mirror)] fs := by
  have changed : Tells s { v with clock := c } { u with clock := c } rs [] [] fs :=
    { h with clock := rfl, written := fun writes => (h.written writes).change rfl rfl rfl rfl rfl (.inl rfl) }
  exact changed.mirror (o := 0x20) (by decide) (by simp) (by simp)

/-- A change of the roster, with turns taken. -/
theorem Tells.editTurns (h : Tells s v u rs ns ms fs) (roster : List Entry) (turns : Nat) :
    Tells s { v with roster := roster, turns := turns } { u with roster := roster, turns := turns } rs ns ms fs :=
  { h with
    roster := rfl
    turns := rfl
    written := fun writes => (h.written writes).change rfl rfl rfl rfl rfl (.inr rfl) }

end

theorem isTop_iff (c : Clock) : c.isTop = true ↔ c.day = 65535 ∧ c.minute = 1439 := by simp [Clock.isTop]

theorem tells_ticked {s : State} (canonical : Memory.wf s.hostMemory = true) :
    Tells s (setClockTo s.clock.advance s.quieted) { s with clock := s.clock.advance } [] [] [(0x20, s.clock.advance.mirror)] [] :=
  (tells_quieted canonical).setClockTo s.clock.advance

theorem exec_minuteTick_delivers {s : State} (below : ¬(s.clock.day = 65535 ∧ s.clock.minute = 1439)) {v : State}
    (ticked : setClockTo s.clock.advance s.quieted = v) (count : v.clockCount = s.clock.advance.count) :
    exec (.minuteTick Env.quiet) s =
      .next (endStep (deliver freeEvaluator s.clock.advance.count
        ([[], dayTasks s.clock s.clock.advance] ++ consumerTasks freeEvaluator v s.clock.advance.count) v)) := by
  have notTop : ¬s.quieted.clock.isTop = true := fun top => below ((isTop_iff _).mp top)
  rw [exec_minuteTick_quiet, wrapSecond, if_neg notTop, ← count, ← ticked]
  rfl

theorem dayTasks_notes (v : State) (n : Nat) (before after : Clock) :
    (dayTasks before after).flatMap (v.taskNotes n) =
      if after.isSet = true ∧ after.serviceDay ≠ before.serviceDay then [dayNotice v.clock.serviceDay] else [] := by
  unfold dayTasks
  by_cases changes : after.isSet = true ∧ after.serviceDay ≠ before.serviceDay
  · rw [if_pos changes, if_pos (by simpa using changes)]
    rfl
  · rw [if_neg changes, if_neg (by simpa using changes)]
    rfl

theorem timeMove_ne_stage {w : Watch} {lead n : Nat} {stage : WatchStage} (move : w.timeMove lead n = some stage) :
    w.stage ≠ stage := by
  rintro rfl
  unfold Watch.timeMove at move
  split at move
  · cases at' : w.stage <;> simp only [at'] at move <;> (repeat' split at move) <;> cases move
  · cases move

/-- Entries that no examination changes give the watch monitor and the mark unit nothing to do. -/
theorem tasks_none {s : State} {n : Nat} (unmoved : ∀ e ∈ s.roster, Entry.ticked s n e = e) :
    watchTasks s n = [] ∧ proposalTasks s n = [] := by
  constructor
  · rw [watchTasks, List.map_eq_nil_iff, List.filter_eq_nil_iff]
    intro i _ moves
    obtain ⟨stage, move⟩ := Option.isSome_iff_exists.mp moves
    obtain ⟨e, entry, moved⟩ := timeMoveAt_some move
    have watch := congrArg (fun e => e.watch.stage) (unmoved e (List.mem_of_getElem? entry))
    simp only [Entry.ticked, moved] at watch
    split at moved
    · exact timeMove_ne_stage moved watch.symm
    · cases moved
  · rw [proposalTasks, List.map_eq_nil_iff, List.filter_eq_nil_iff]
    intro i _ due
    obtain ⟨e, p, entry, pending, expired⟩ := proposalDue_some due
    have proposal := congrArg (fun e => e.mark.proposal) (unmoved e (List.mem_of_getElem? entry))
    simp [Entry.ticked, pending, Option.filter_some, Nat.not_lt.mpr expired] at proposal

theorem tasks_congr {v s : State} (run : v.run = s.run) (roster : v.roster = s.roster) (n : Nat) :
    watchTasks v n = watchTasks s n ∧ proposalTasks v n = proposalTasks s n := by
  unfold watchTasks proposalTasks proposalDue
  simp only [timeMoveAt_congr run roster, roster, and_self]

theorem limitReached_iff (g : Hold) (n : Nat) : g.limitReached n = true ↔ ∃ limit copy, g.work = .inspect limit copy ∧ limit ≤ n := by
  unfold Hold.limitReached
  cases g.work <;> simp

/-- A tick or step delivered where only holds are due. -/
theorem delivery_holds {v : State} {n : Nat} (arrivals : v.arrivals = []) (owed : v.owed = []) (watches : watchTasks v n = [])
    (proposals : proposalTasks v n = []) {pre : List (List TickTask)} (none : pre.flatten = []) :
    deliver freeEvaluator n (pre ++ consumerTasks freeEvaluator v n) v =
      (v.dueHolds n).foldl (fun w x => limitHold id n x w) v := by
  have empty : pre.filter (fun l => !l.isEmpty) = [] :=
    List.filter_eq_nil_iff.mpr fun l on => by simp [List.flatten_eq_nil_iff.mp none l on]
  have consumers : consumerTasks freeEvaluator v n = [[], holdTasks v n, []] := by
    change [watchTasks v n, holdTasks v n, proposalTasks v n] = _
    rw [watches, proposals]
  have lists : (pre ++ consumerTasks freeEvaluator v n).filter (fun l => !l.isEmpty) =
      if holdTasks v n = [] then [] else [holdTasks v n] := by
    rw [List.filter_append, empty, consumers]
    by_cases idle : holdTasks v n = [] <;> simp [idle]
  rw [delivery_quiet arrivals owed, taskOrder_single lists, holdTasks, List.foldl_map]
  rfl

/-- Settles O6. -/
theorem minuteTickDelivers : Obligations.MinuteTickDelivers := by
  refine ⟨fun s canonical below noDue => ?_, ?_⟩
  · have ticked := tells_ticked canonical
    obtain ⟨v, hv⟩ : ∃ v, setClockTo s.clock.advance s.quieted = v := ⟨_, rfl⟩
    rw [hv] at ticked
    have port : v.port = s.port := ticked.port.trans (told_zero _)
    have day : [[], dayTasks s.clock s.clock.advance].flatten = [] ∨
        [[], dayTasks s.clock s.clock.advance].flatten = [.dayChanged] := by
      unfold dayTasks
      split
      · exact .inr rfl
      · exact .inl rfl
    obtain ⟨ns, k, perm, watches, lapses, delivered⟩ := delivery_pieces ticked.bus ticked.arrivals ticked.owed
      ((dueHolds_congr port _).trans noDue) day
    obtain ⟨watchNotices, lapseNotices⟩ := tickNotices_congr ticked.run ticked.tables ticked.roster s.clock.advance.count
    rw [watchNotices] at watches
    rw [lapseNotices] at lapses
    rw [watchNotices, lapseNotices] at perm
    have told := (ticked.editTurns (v.roster.map (Entry.ticked v s.clock.advance.count)) (v.turns + k)).notices ns
    rw [List.nil_append] at told
    obtain ⟨w, hw⟩ : ∃ w, appendNotices ns
        { v with roster := v.roster.map (Entry.ticked v s.clock.advance.count), turns := v.turns + k } = w := ⟨_, rfl⟩
    rw [hw] at told delivered
    have exec := exec_minuteTick_delivers below hv (congrArg Clock.count ticked.clock)
    rw [delivered, told.endStep_eq, ticked.roster, ticked.turns, ticked_congr ticked.run] at exec
    refine ⟨ns, _, k, ?_, watches, lapses, exec, ?_⟩
    · rw [List.flatten_cons, List.nil_append, List.flatten_cons, List.flatten_nil, List.append_nil, dayTasks_notes, ticked.clock,
        Clock.advance_isSet] at perm
      exact perm
    · exact told.told (w := { s with clock := s.clock.advance }) (congrArg Clock.count told.clock).symm
  · intro s u n due canonical below hn sameDay unmoved distinct hdue hu
    have ticked := tells_ticked canonical
    obtain ⟨v, hv⟩ : ∃ v, setClockTo s.clock.advance s.quieted = v := ⟨_, rfl⟩
    rw [hv] at ticked
    subst hn
    have exec := exec_minuteTick_delivers below hv (congrArg Clock.count ticked.clock)
    have noDay : [[], dayTasks s.clock s.clock.advance].flatten = [] := by
      have idle : dayTasks s.clock s.clock.advance = [] := if_neg (by rw [Clock.advance_isSet]; simpa using sameDay)
      rw [idle]
      rfl
    obtain ⟨watches, proposals⟩ := tasks_congr ticked.run ticked.roster s.clock.advance.count
    obtain ⟨noWatch, noProposal⟩ := tasks_none unmoved
    rw [delivery_holds ticked.arrivals ticked.owed (watches.trans noWatch) (proposals.trans noProposal) noDay] at exec
    have reached : ∀ g ∈ due, g.limitReached s.clock.advance.count = true := by
      rw [hdue]
      exact fun g hg => (List.mem_filter.mp hg).2
    have onList : ∀ g ∈ due, s.holdOf g.slot = some g := by
      rw [hdue]
      exact holdOf_filter distinct
    have inspects : ∀ g ∈ due, g.isInspect = true := fun g hg => by
      obtain ⟨limit, copy, work, -⟩ := (limitReached_iff g _).mp (reached g hg)
      exact (isInspect_iff g).mpr ⟨limit, copy, work⟩
    have released (notFault : s.port.state ≠ .fault) :
        Tells s ((v.dueHolds s.clock.advance.count).foldl (fun w x => limitHold id s.clock.advance.count x w) v)
          { u with roster := (u.inspectedAll due).roster, port := s.port.holdsEnded due } (s.answerRanges due)
          (answeredNotices due) ([(0x20, s.clock.advance.mirror)] ++ runPart [] u (u.inspectedAll due)) (endedFacts u due) := by
      have slots : v.dueHolds s.clock.advance.count = due.map Hold.slot := by
        rw [dueHolds_congr (ticked.port.trans (told_zero _)), State.dueHolds, if_neg notFault, hdue]
        rfl
      have each := Tells.releaseAs (ms := [(0x20, s.clock.advance.mirror)]) (rm := []) (hs := due)
        (op := fun w x => limitHold id s.clock.advance.count x w) ticked (w := u) (by rw [hu]) (by rw [hu]) (by rw [hu]) (by rw [hu])
        (.inl rfl) (by simp) notFault inspects onList (by rw [hdue]; exact nodup_filter_slots distinct _) (by simp)
        (fun w _ _ _ _ _ g hg held => limitHold_due held (reached g hg))
      rw [slots]
      rw [List.append_nil, List.append_nil, List.nil_append] at each
      rw [hu] at each ⊢
      exact each
    refine ⟨fun g on => ?_, fun writes => ?_, fun stopped => ?_⟩
    · rw [hdue, List.mem_filter, limitReached_iff]
      exact and_iff_right on
    · have ended := released (writes_ne_fault writes)
      obtain ⟨w, hw⟩ : ∃ w, (v.dueHolds s.clock.advance.count).foldl (fun w x => limitHold id s.clock.advance.count x w) v = w :=
        ⟨_, rfl⟩
      rw [hw] at ended exec
      have told := ended.endStep_eq
      have area : (endStep w).port.areaBase = s.port.areaBase := by rw [endStep_port, (ended.written writes).area]
      have memory := endStep_hostMemory w
      have each := ended.showsEnded (t := endStep w) (w := u) (hs := due) writes memory area fun f hf => hf
      have ring := ended.ring writes memory (congrArg Clock.count (endStep_clock w))
      have mirror := ended.header writes memory (m := (0x20, s.clock.advance.mirror))
        (List.mem_append_left _ (List.mem_singleton.mpr rfl))
      have run := ended.runMirrorShown (t := endStep w) writes memory
      have others := ended.others (t := endStep w) (ranges :=
        s.answerRanges due ++ s.ringRanges due.length ++ [(s.areaAddress + 0x20, 16), (s.areaAddress + 0x10, 16)])
        writes memory fun r hr => by
          have within (on : r ∈ (runPart [] u (u.inspectedAll due)).map fun m => (s.areaAddress + m.1, m.2.length)) :=
            runPart_ranges on
          have image : s.clock.advance.mirror.length = 16 := clockMirror_length _
          simp only [answeredNotices_length, List.map_append, List.map_cons, List.map_nil, List.mem_append, List.mem_cons,
            List.not_mem_nil, or_false, image] at hr ⊢
          rcases hr with (ended | ring) | first | second
          · exact .inl (.inl ended)
          · exact .inl (.inr ring)
          · exact .inr (.inl first)
          · exact .inr (.inr (within second))
      have same : endStep w = endStep
          { u with
            roster := (u.inspectedAll due).roster
            port := (s.port.offered due.length).holdsEnded due
            hostMemory := w.hostMemory } := by
        rw [told, answeredNotices_length]
        simp only
        rw [holdsEnded_told, told_of_writes writes]
      rw [same] at exec each ring mirror run others
      refine ⟨_, w.hostMemory, rfl, exec, each, ring, mirror, fun longer => ?_, others⟩
      have shown := run (by simpa [hu] using longer)
      rw [inspectedAll_runMirror _ _ ((s.port.offered due.length).holdsEnded due)] at shown
      rw [runMirror_endStep]
      exact shown
    · have ended := released (by rw [stopped]; decide)
      rw [exec, ended.endStep_eq, ended.silent (by rw [stopped]; rfl)]
      simp only
      rw [holdsEnded_told, told_of_stopped stopped]
      rw [hu]

end Sys2Proof.Machine

/-! SET_CLOCK during a run (1.3), with nothing arriving and no access failing. -/

namespace Sys2Proof.Machine

/-! ### The clock a step leads to -/

theorem atCount_of_clock {c d : Clock} (range : d.InRange) (dayChange : d.dayChange = c.dayChange) (isSet : d.isSet = c.isSet) :
    c.atCount d.count d.second = d := by
  have same : c.atCount d.count d.second = d.atCount d.count d.second := by
    unfold Clock.atCount
    rw [dayChange, isSet]
  rw [same, range.atCount_count]

theorem appliedDelta_eq {c : Clock} (range : c.InRange) (requested : Int) :
    appliedDelta c requested =
      max (1440 - (c.dayChange : Int)) (min (94371839 - (c.dayChange : Int)) (c.count + max (-15) (min 15 requested))) -
        c.count := by
  have dayChange := range.dayChange
  have top : ((c.topCount : Nat) : Int) = 94371839 - (c.dayChange : Int) := by
    unfold Clock.topCount
    omega
  rw [appliedDelta, top]
  rfl

/-! ### A step delivered while the request is in hand -/

section
variable {s v u : State} {slot : Slot} {tag : Half} {r : Request} {ns : List Notice} {ms : List (Nat × List Byte)}

theorem Serves.editTurns (h : Serves s v u slot tag r ns ms) (roster : List Entry) (turns : Nat) :
    Serves s { v with roster := roster, turns := turns } { u with roster := roster, turns := turns } slot tag r ns ms where
  toWorking := h.toWorking.change rfl rfl rfl rfl (.inr rfl)
  port := h.port
  pending := h.pending
  clock := h.clock
  run := h.run
  tables := h.tables
  roster := rfl
  power := h.power
  turns := rfl
  owed := h.owed

theorem Serves.dueHolds (h : Serves s v u slot tag r ns ms) (n : Nat) : v.dueHolds n = u.dueHolds n := by
  have state := congrArg Port.state h.port
  have holds := congrArg Port.holds h.port
  change v.port.state = u.port.state at state
  change v.port.holds = u.port.holds at holds
  unfold State.dueHolds State.heldSlots
  rw [state, holds]

/-- The clock set with its mirror while the request is in hand, before any notice (R12). -/
theorem Serves.setClockTo (h : Serves s v u slot tag r [] []) (c : Clock) :
    Serves s (setClockTo c v) { u with clock := c } slot tag r [] [(0x20, c.mirror)] := by
  have changed : Serves s { v with clock := c } { u with clock := c } slot tag r [] [] :=
    { h with toWorking := h.toWorking.change rfl rfl rfl rfl (.inl rfl), clock := rfl }
  exact changed.mirror (o := 0x20) (by decide) (by simp) (by simp)

/-- The notices that stand before those of the consumers (R10). -/
def stepNotices (delta : Int) (before after : Clock) : List Notice :=
  steppedNotice delta :: if after.serviceDay = before.serviceDay then [] else [dayNotice after.serviceDay]

/-- A step up to its delivery: the clock, its mirror, CLOCK_STEPPED and DAY_CHANGED. -/
theorem serves_stepped (h : Serves s v s slot tag r [] []) (c : Clock) (delta : Int) :
    Serves s (appendNotices (stepNotices delta s.clock c) (setClockTo c v)) { s with clock := c } slot tag r
      (stepNotices delta s.clock c) [(0x20, c.mirror)] := (h.setClockTo c).notices (stepNotices delta s.clock c)

theorem stepTo_delivers (h : Serves s v s slot tag r [] []) (c : Clock) (delta : Int) {w : State}
    (stepped : appendNotices (stepNotices delta s.clock c) (setClockTo c v) = w) (count : w.clockCount = c.count) :
    stepTo freeEvaluator [] c delta v = deliver freeEvaluator c.count ([[]] ++ consumerTasks freeEvaluator w c.count) w := by
  obtain ⟨x, hx⟩ : ∃ x, x = if c.serviceDay != v.clock.serviceDay then noticeDayChanged (noticeClockStepped delta (setClockTo c v))
      else noticeClockStepped delta (setClockTo c v) := ⟨_, rfl⟩
  have unfolded : stepTo freeEvaluator [] c delta v =
      deliver freeEvaluator x.clockCount ([] :: consumerTasks freeEvaluator x x.clockCount) x := by
    rw [hx]
    rfl
  have noticed : x = w := by
    have clock := ((h.setClockTo c).notice (steppedNotice delta)).clock
    rw [hx, ← stepped, h.clock, stepNotices]
    by_cases same : c.serviceDay = s.clock.serviceDay
    · rw [if_neg (by simpa using same), if_pos same]
      rfl
    · rw [if_pos (by simpa using same), if_neg same, noticeDayChanged_eq, noticeClockStepped_eq, clock]
      rfl
  rw [unfolded, noticed, count]
  rfl

end

/-- Settles O8. -/
theorem setClockSteps : Obligations.SetClockSteps := by
  intro s slot tag a requested delta c canonical turn range opened day minute second dayChange hrequested hdelta count inRange
    sec change isSet
  have accepted := (clockInRange_iff a).mpr ⟨day, minute, second, fun given => by
    rw [dayChange given]
    exact range.dayChange⟩
  have asked : requestedDelta a s.clock = requested := hrequested.symm
  have applied : appliedDelta s.clock requested = delta := (appliedDelta_eq range requested).trans hdelta.symm
  have kept : ¬(givesDayChange a && a.dayChange.toNat != s.clock.dayChange) = true := by
    simpa [givesDayChange] using dayChange
  have command : exec (.setClock slot tag a Env.quiet) s =
      .next (requestStep slot tag (.setClock a) Env.quiet (fun _ => ownSetClock slot tag a) s) := rfl
  have handed := serves_handed canonical turn tag (.setClock a)
  have owner : ownSetClock slot tag a (s.handed slot tag (.setClock a)) =
      answerInHand slot tag (if delta = requested then .done else .clamped)
        (clockAnswer delta (setByStep a (s.handed slot tag (.setClock a))).clock)
        (setByStep a (s.handed slot tag (.setClock a))) := by
    have clock : (s.handed slot tag (.setClock a)).clock = s.clock := rfl
    have runOpen : (s.handed slot tag (.setClock a)).runOpen = true := opened
    rw [ownSetClock, if_neg (by simp [accepted]), if_pos runOpen, clock, if_neg kept, asked, applied]
  have stepped : setByStep a (s.handed slot tag (.setClock a)) =
      if delta = 0 then setSecond a.second.toNat (s.handed slot tag (.setClock a))
      else stepTo freeEvaluator [] (s.clock.atCount ((s.clock.count : Int) + delta).toNat a.second.toNat) delta
        (s.handed slot tag (.setClock a)) := by
    have clock : (s.handed slot tag (.setClock a)).clock = s.clock := rfl
    rw [setByStep, stepBy, clock, asked, applied]
    rfl
  refine ⟨fun none => ?_, fun moves noDue => ?_⟩
  · rw [if_pos none] at stepped
    rw [stepped, none] at owner
    have second' : Serves s (setSecond a.second.toNat (s.handed slot tag (.setClock a)))
        { s with clock := { s.clock with second := a.second.toNat } } slot tag (.setClock a) [] [] :=
      handed.change (c := { s.clock with second := a.second.toNat }) _ _ _ _ (.inl rfl)
    rw [none]
    exact second'.answers turn command owner
  · have reading : s.clock.atCount ((s.clock.count : Int) + delta).toNat a.second.toNat = c := by
      rw [← count, Int.toNat_natCast, ← sec]
      exact atCount_of_clock inRange change isSet
    rw [if_neg moves, reading] at stepped
    have serves := serves_stepped handed c delta
    obtain ⟨v, hv⟩ : ∃ v, appendNotices (stepNotices delta s.clock c) (setClockTo c (s.handed slot tag (.setClock a))) = v :=
      ⟨_, rfl⟩
    rw [hv] at serves
    rw [stepTo_delivers handed c delta hv (congrArg Clock.count serves.clock)] at stepped
    obtain ⟨ns, k, perm, watches, lapses, delivered⟩ := delivery_pieces (n := c.count) (pre := [[]]) serves.bus serves.arrivals
      serves.owed ((serves.dueHolds _).trans noDue) (.inl rfl)
    obtain ⟨watchNotices, lapseNotices⟩ := tickNotices_congr serves.run serves.tables serves.roster c.count
    rw [watchNotices] at watches
    rw [lapseNotices] at lapses
    rw [watchNotices, lapseNotices] at perm
    have done := (serves.editTurns (v.roster.map (Entry.ticked v c.count)) (v.turns + k)).notices ns
    rw [delivered] at stepped
    rw [stepped, done.clock] at owner
    rw [serves.roster, serves.turns, ticked_congr serves.run] at done owner
    exact ⟨ns, k, perm, watches, lapses, done.answers turn command owner⟩

end Sys2Proof.Machine

/-! The requests that copy to host memory, READ_TABLE (8.6) and READ_ROSTER (5.6), with nothing arriving and no access failing. The
destination is anywhere: the copy is followed as one run of bytes, and the answer on the memory that it leaves. -/

namespace Sys2Proof.Machine

/-! ### A request answered on the memory that a copy leaves -/

section
variable {s : State} {slot : Slot} {tag : Half} {r : Request} {m : Memory}

theorem tells_copied (canonical : Memory.wf m = true) (turn : s.isNext slot) :
    Tells { s with hostMemory := m } { s.handed slot tag r with hostMemory := m } (s.handed slot tag r) [] [] [] [] where
  bus := rfl
  arrivals := rfl
  owed := rfl
  state := rfl
  port := (told_zero _).symm
  pending := rfl
  clock := rfl
  run := rfl
  tables := rfl
  roster := rfl
  power := rfl
  turns := rfl
  parts := by simp
  within := by simp
  written _ := (progress_refl (s := { s with hostMemory := m }) canonical).change rfl rfl rfl rfl rfl (.inl rfl)
  facts := by simp
  silent off := by
    have sweeping : s.port.state = .sweeping := isNext_sweeping turn
    simp only [sweeping] at off
    cases off

/-- What an answer of the request writes after the copy: its parts of the slot, the notice, the ring fields. -/
def State.afterCopy (s : State) (slot : Slot) : List (Nat × Nat) := s.answerRange slot ++ s.ringRanges 1

theorem copied_served {owner : State → State → State} {code : AnswerCode} {answer : List Byte} (turn : s.isNext slot)
    (canonical : Memory.wf m = true)
    (command : exec (r.command slot tag Env.quiet) s = .next (requestStep slot tag r Env.quiet owner s))
    (answered : owner (s.handed slot tag r) (s.handed slot tag r) =
      answerInHand slot tag code answer { s.handed slot tag r with hostMemory := m }) :
    ∃ m', exec (r.command slot tag Env.quiet) s = .next (s.requestDone slot 1 m') ∧
      State.shows { s with hostMemory := m' } (s.slotAddress slot) [SlotState.answered.code] ∧
      State.shows { s with hostMemory := m' } (s.slotAddress slot + 4) [code.code] ∧
      State.shows { s with hostMemory := m' } (s.slotAddress slot + 72) (padTo 56 answer) ∧
      s.RingShows { s with hostMemory := m' } [answeredNotice slot tag] ∧
      ∀ x, (∀ r ∈ s.afterCopy slot, ∀ i < r.2, x ≠ (r.1 + i) % hostSize) → Memory.read m' x = Memory.read m x := by
  have sweeping := isNext_sweeping turn
  have writes : s.port.state.writes = true := by rw [sweeping]; rfl
  have copied := tells_copied (tag := tag) (r := r) canonical turn
  have last := copied.answerInHand (writes_ne_fault writes) rfl tag code answer (by simp)
  obtain ⟨v, hv⟩ : ∃ v, answerInHand slot tag code answer { s.handed slot tag r with hostMemory := m } = v := ⟨_, rfl⟩
  rw [hv] at last answered
  have done := last.requestDone (slot := slot) (p := s.port) sweeping rfl
  have same : endStep (endSweep v) = s.requestDone slot 1 v.hostMemory :=
    done.trans (requestDone_congr rfl rfl rfl rfl rfl rfl rfl rfl slot 1 v.hostMemory)
  obtain ⟨state, outcome, bytes⟩ := last.answerShown (t := { s with hostMemory := v.hostMemory }) writes rfl
    fun f hf => List.mem_append_left _ hf
  have ring := last.ring (t := { s with hostMemory := v.hostMemory }) writes rfl (congrArg Clock.count last.clock).symm
  have others := last.others (t := { s with hostMemory := v.hostMemory }) (ranges := s.afterCopy slot) writes rfl
    fun r hr => by
      simp only [List.append_nil, List.map_nil] at hr
      exact hr
  exact ⟨v.hostMemory, by rw [command, requestStep_quiet turn, answered, same], state, outcome, bytes,
    ⟨ring.notices, ring.header⟩, others⟩

/-- Outside what the answer writes, the take has changed nothing but the slot's state. -/
theorem handed_outside {x : Nat} (out : ∀ r ∈ s.afterCopy slot, ∀ i < r.2, x ≠ (r.1 + i) % hostSize) :
    Memory.read (s.handed slot tag r).hostMemory x = Memory.read (post slot tag r s).hostMemory x :=
  Memory.read_writeRun_other fun i hi =>
    out (s.slotAddress slot, 1) (List.mem_append_left _ List.mem_cons_self) i (by simpa using hi)

/-- The host finds outside the copy and the answer what it left when it posted the request. -/
theorem copied_outside {m' : Memory} {a : Nat} {bs : List Byte} {n : Nat} (size : bs.length = n)
    (copy : m = Memory.writeRun hostSize (s.handed slot tag r).hostMemory a bs)
    (kept : ∀ x, (∀ r ∈ s.afterCopy slot, ∀ i < r.2, x ≠ (r.1 + i) % hostSize) → Memory.read m' x = Memory.read m x) :
    (post slot tag r s).writesOnly { s with hostMemory := m' } ((a, n) :: s.afterCopy slot) := by
  intro x out
  have outAfter := fun r hr => out r (List.mem_cons_of_mem _ hr)
  have outCopy := out (a, n) List.mem_cons_self
  refine (kept x outAfter).trans ?_
  rw [copy, Memory.read_writeRun_other fun i hi => outCopy i (size ▸ hi)]
  exact handed_outside outAfter

theorem handed_canonical (canonical : Memory.wf s.hostMemory = true) : Memory.wf (s.handed slot tag r).hostMemory = true :=
  Memory.wf_writeRun (Memory.wf_writeRun (Memory.wf_writeRun canonical))

end

/-! ### READ_TABLE (R137) -/

section
variable {s : State} {slot : Slot} {tag : Half} {a : ReadTableArgs} {k : TableKind}

theorem ownReadTable_unknown (unknown : TableKind.ofByte a.kind = none) :
    ownReadTable slot tag a s = answerInHand slot tag .refusedArgument [] s := by
  unfold ownReadTable
  rw [unknown]

theorem ownReadTable_refused {code : AnswerCode} (known : TableKind.ofByte a.kind = some k)
    (refused : readRefusal k s = some code) : ownReadTable slot tag a s = answerInHand slot tag code [] s := by
  unfold ownReadTable
  rw [known]
  simp only [refused]

theorem ownReadTable_copies (known : TableKind.ofByte a.kind = some k) (accepted : readRefusal k s = none) :
    ownReadTable slot tag a s = answerRead slot tag k (copyTable k a s) := by
  unfold ownReadTable
  rw [known]
  simp only [accepted]

/-- The checks of R137 past the kind, one after another. -/
theorem readRefusal_eq (k : TableKind) (s : State) :
    ((s.tables.descriptor k).level = 3 → readRefusal k s = some .refusedProtected) ∧
      ((s.tables.descriptor k).level ≠ 3 → s.tables.wiping = true → readRefusal k s = some .refusedBusy) ∧
      ((s.tables.descriptor k).level ≠ 3 → s.tables.wiping = false → (s.tables.descriptor k).state = .absent →
        readRefusal k s = some .notFound) ∧
      ((s.tables.descriptor k).level ≠ 3 → s.tables.wiping = false → (s.tables.descriptor k).state = .loading →
        readRefusal k s = some .refusedBusy) ∧
      ((s.tables.descriptor k).level ≠ 3 → s.tables.wiping = false →
        (s.tables.descriptor k).state = .valid ∨ (s.tables.descriptor k).state = .damaged → readRefusal k s = none) := by
  unfold readRefusal
  refine ⟨fun l => if_pos l, fun l w => ?_, fun l w d => ?_, fun l w d => ?_, fun l w d => ?_⟩
  · rw [if_neg l, if_pos w]
  · rw [if_neg l, if_neg (by simp [w]), if_pos d]
  · rw [if_neg l, if_neg (by simp [w]), if_neg (by rw [d]; decide), if_pos d]
  · rw [if_neg l, if_neg (by simp [w])]
    rcases d with d | d <;> rw [if_neg (by rw [d]; decide), if_neg (by rw [d]; decide)]

theorem capacity_fits (k : TableKind) : k.capacity * k.entrySize ≤ hostSize := by cases k <;> decide

end

/-- Settles O39. -/
theorem readTableCopies : Obligations.ReadTableCopies := by
  intro s slot tag a canonical turn
  have command : exec (.readTable slot tag a Env.quiet) s =
      .next (requestStep slot tag (.readTable a) Env.quiet (fun _ => ownReadTable slot tag a) s) := rfl
  refine ⟨fun unknown => answersUnchanged_of canonical turn command (ownReadTable_unknown unknown), fun k d known hd => ?_⟩
  subst hd
  have refuse {code : AnswerCode} (refused : readRefusal k s = some code) :
      s.AnswersUnchanged slot tag (.readTable a) code [] :=
    answersUnchanged_of canonical turn command (ownReadTable_refused (s := s.handed slot tag (.readTable a)) known refused)
  obtain ⟨hp, hw, ha, hl, hok⟩ := readRefusal_eq k s
  refine ⟨fun l => refuse (hp l), fun l w => refuse (hw l w), fun l w d => refuse (ha l w d), fun l w d => refuse (hl l w d),
    fun after l w d fits hafter => ?_⟩
  obtain ⟨m, hm⟩ : ∃ m, m = Memory.writeRun hostSize (s.handed slot tag (.readTable a)).hostMemory a.destination.toNat
      (s.tables.image k) := ⟨_, rfl⟩
  have size : (s.tables.image k).length = (s.tables.descriptor k).count * k.entrySize := Memory.readRun_length
  have whole : (s.tables.image k).length ≤ hostSize := by
    rw [size]
    exact (Nat.mul_le_mul_right _ fits).trans (capacity_fits k)
  have owner : ownReadTable slot tag a (s.handed slot tag (.readTable a)) =
      answerInHand slot tag .done (le 2 (s.tables.descriptor k).count ++ zeros 2 ++ (s.tables.descriptor k).image)
        { s.handed slot tag (.readTable a) with hostMemory := m } := by
    have copied : copyTable k a (s.handed slot tag (.readTable a)) = { s.handed slot tag (.readTable a) with hostMemory := m } := by
      rw [hm]
      exact busWrite_quiet (s := s.handed slot tag (.readTable a)) rfl
        (by change s.port.state.writes = true; rw [isNext_sweeping turn]; rfl) _ _
    rw [ownReadTable_copies (s := s.handed slot tag (.readTable a)) known (hok l w d), copied]
    exact if_pos (beq_self_eq_true _)
  have wf : Memory.wf m = true := by
    rw [hm]
    exact Memory.wf_writeRun (handed_canonical canonical)
  obtain ⟨m', done, state, outcome, bytes, ring, kept⟩ := copied_served (r := .readTable a) (tag := tag)
    (owner := fun _ => ownReadTable slot tag a) turn wf command owner
  have same : after = s.afterCopy slot := hafter
  rw [same]
  refine ⟨m', done, fun i small out => ?_, state, outcome, bytes, ring, copied_outside size hm kept⟩
  rw [kept _ out, hm, Memory.read_writeRun_at (handed_canonical canonical) whole (by rw [size]; exact small)]
  simp [Tables.image, Memory.readRun]

end Sys2Proof.Machine

/-! READ_ROSTER (R91, R92) with nothing arriving and no access failing: the images, one after the other, are one run of bytes. -/

namespace Sys2Proof.Machine

theorem coverage_image_length (c : Coverage) : c.image.length = 4 := by cases c <;> simp [Coverage.image, zeros]

theorem entry_image_length (e : Entry) : e.image.length = 80 := by
  unfold Entry.image
  simp only [List.length_append, coverage_image_length, le_length]
  simp only [padTo_length, zeros_length, List.length_cons, List.length_nil]

theorem Memory.writeRun_append {size : Nat} {bs cs : List Byte} {m : Memory} {a : Nat} :
    Memory.writeRun size m a (bs ++ cs) = Memory.writeRun size (Memory.writeRun size m a bs) (a + bs.length) cs := by
  induction bs generalizing m a with
  | nil => rfl
  | cons b bs ih =>
    simp only [List.cons_append, Memory.writeRun, ih, List.length_cons]
    rw [show a + 1 + bs.length = a + (bs.length + 1) by omega]

/-- The images of the first `n` entries from an index on, as they stand in the destination. -/
def imagesFrom (roster : List Entry) (first n : Nat) : List Byte :=
  (List.range n).flatMap fun i => ((roster[first + i]?).map Entry.image).getD []

theorem imagesFrom_succ (roster : List Entry) (first n : Nat) :
    imagesFrom roster first (n + 1) = imagesFrom roster first n ++ ((roster[first + n]?).map Entry.image).getD [] := by
  simp [imagesFrom, List.range_succ]

theorem imagesFrom_length {roster : List Entry} {first n : Nat} (inside : first + n ≤ roster.length ∨ n = 0) :
    (imagesFrom roster first n).length = 80 * n := by
  induction n with
  | zero => rfl
  | succ n ih =>
    have present : first + n < roster.length := by omega
    rw [imagesFrom_succ, List.length_append, ih (.inl (by omega)), List.getElem?_eq_getElem present]
    simp only [Option.map_some, Option.getD_some, entry_image_length]
    omega

/-- Byte `k` of image `i` stands at `80 * i + k`. -/
theorem imagesFrom_getElem {roster : List Entry} {first n i k : Nat} {e : Entry} (inside : first + n ≤ roster.length)
    (small : i < n) (entry : roster[first + i]? = some e) (byte : k < 80) :
    (imagesFrom roster first n)[80 * i + k]? = some (e.image.getD k 0) := by
  have size := entry_image_length e
  induction n with
  | zero => omega
  | succ n ih =>
    have before := imagesFrom_length (roster := roster) (first := first) (n := n) (.inl (by omega))
    rw [imagesFrom_succ]
    by_cases last : i = n
    · subst last
      rw [List.getElem?_append_right (by omega), before, entry]
      simp only [Option.map_some, Option.getD_some, Nat.add_sub_cancel_left]
      rw [List.getElem?_eq_getElem (by omega), List.getD_eq_getElem _ _ (by omega)]
    · rw [List.getElem?_append_left (by omega)]
      exact ih (by omega) (by omega)

section
variable {s : State} {slot : Slot} {a : ReadRosterArgs}

theorem copyImage_quiet {e : Entry} {n c : Nat} (bus : s.busLeft = none) (arrivals : s.arrivals = [])
    (writes : s.port.state.writes = true) (inHand : s.hasInHand slot = true) (entry : s.roster[a.first.toNat + n]? = some e) :
    copyImage slot a (s, c) n =
      ({ s with hostMemory := Memory.writeRun hostSize s.hostMemory (a.destination.toNat + 80 * n) e.image }, c + 1) := by
  unfold copyImage
  rw [if_pos inHand, entry]
  simp only
  rw [busWrite_quiet bus writes, pollAll_quiet (by exact arrivals)]

/-- The copy with nothing arriving: the images, one run of bytes at the destination, and their number. -/
theorem copyImages_quiet {n : Nat} (bus : s.busLeft = none) (arrivals : s.arrivals = []) (writes : s.port.state.writes = true)
    (inHand : s.hasInHand slot = true) (inside : a.first.toNat + n ≤ s.roster.length ∨ n = 0) :
    copyImages slot a n s =
      ({ s with
          hostMemory := Memory.writeRun hostSize s.hostMemory a.destination.toNat (imagesFrom s.roster a.first.toNat n) }, n) := by
  induction n with
  | zero => rfl
  | succ n ih =>
    have present : a.first.toNat + n < s.roster.length := by omega
    have entry := List.getElem?_eq_getElem present
    unfold copyImages at ih ⊢
    rw [List.range_succ, List.foldl_append, ih (.inl (by omega)), imagesFrom_succ, Memory.writeRun_append,
      imagesFrom_length (.inl (by omega)), entry]
    exact copyImage_quiet (s := { s with hostMemory := _ }) bus arrivals writes inHand entry

end

theorem imageCount_inside (a : ReadRosterArgs) (entries : Nat) :
    a.first.toNat + imageCount a entries ≤ entries ∨ imageCount a entries = 0 := by
  unfold imageCount
  omega

theorem ownReadRoster_quiet {s : State} {slot : Slot} {tag : Half} {a : ReadRosterArgs} {n : Nat} {m : Memory}
    (bus : s.busLeft = none) (arrivals : s.arrivals = []) (writes : s.port.state.writes = true)
    (inHand : s.hasInHand slot = true) (count : imageCount a s.roster.length = n)
    (hm : m = Memory.writeRun hostSize s.hostMemory a.destination.toNat (imagesFrom s.roster a.first.toNat n)) :
    ownReadRoster slot tag a s s = answerInHand slot tag .done (le 2 n) { s with hostMemory := m } := by
  have inside := imageCount_inside a s.roster.length
  rw [count] at inside
  unfold ownReadRoster answerCopied
  rw [count, copyImages_quiet bus arrivals writes inHand inside, hm]
  exact if_pos inHand

/-- Settles O33. -/
theorem readRosterCopies : Obligations.ReadRosterCopies := by
  intro s slot tag a n after canonical turn few hn hafter
  have count : imageCount a s.roster.length = n := hn.symm
  have inside := imageCount_inside a s.roster.length
  rw [count] at inside
  have size := imagesFrom_length inside
  have whole : (imagesFrom s.roster a.first.toNat n).length ≤ hostSize := by
    have : 80 * 512 ≤ hostSize := by decide
    omega
  have command : exec (.readRoster slot tag a Env.quiet) s =
      .next (requestStep slot tag (.readRoster a) Env.quiet (ownReadRoster slot tag a) s) := rfl
  obtain ⟨m, hm⟩ : ∃ m, m = Memory.writeRun hostSize (s.handed slot tag (.readRoster a)).hostMemory a.destination.toNat
      (imagesFrom s.roster a.first.toNat n) := ⟨_, rfl⟩
  have inHand : (s.handed slot tag (.readRoster a)).hasInHand slot = true := hasInHand_iff.mpr rfl
  have writes : s.port.state.writes = true := by rw [isNext_sweeping turn]; rfl
  have owner : ownReadRoster slot tag a (s.handed slot tag (.readRoster a)) (s.handed slot tag (.readRoster a)) =
      answerInHand slot tag .done (le 2 n) { s.handed slot tag (.readRoster a) with hostMemory := m } :=
    ownReadRoster_quiet (s := s.handed slot tag (.readRoster a)) rfl rfl writes inHand count hm
  have wf : Memory.wf m = true := by
    rw [hm]
    exact Memory.wf_writeRun (handed_canonical canonical)
  obtain ⟨m', done, state, outcome, bytes, ring, kept⟩ := copied_served (r := .readRoster a) (tag := tag)
    (owner := ownReadRoster slot tag a) turn wf command owner
  have same : after = s.afterCopy slot := hafter
  rw [same]
  refine ⟨m', done, fun i e k small entry byte out => ?_, state, outcome, bytes, ring, copied_outside size hm kept⟩
  have at_ := imagesFrom_getElem (n := n) (inside.resolve_right (by omega)) small entry byte
  obtain ⟨within, read⟩ := List.getElem?_eq_some_iff.mp at_
  rw [kept _ out, hm, Nat.add_assoc, Memory.read_writeRun_at (handed_canonical canonical) whole within, read]

end Sys2Proof.Machine

/-! The step on an empty queue (9.5, 8.2): the sweep's next examination, and the copy of one more block. -/

namespace Sys2Proof.Machine

/-- A request command with nothing arriving posts its request and hands it to its owner. -/
theorem exec_command {r : Request} (formed : r.wellFormed = true) (s : State) (slot : Slot) (tag : Half) :
    exec (r.command slot tag Env.quiet) s = .next (requestStep slot tag r Env.quiet (ownRequest slot tag r) s) := by
  cases r with
  | malformed kind => exact congrArg Host.Outcome.next (if_pos (ofSlot_malformed (by simpa [Request.wellFormed] using formed) []))
  | _ => rfl

/-- A slot that the sweep examines next, and that is not held, is next in turn. -/
theorem isNext_of_sweepNext {s : State} {slot : Slot} (sweeping : s.port.state = .sweeping) (left : 0 < s.port.sweepLeft)
    (next : s.port.sweepNext = slot) (free : s.isHeld slot = false) : s.isNext slot := by
  have distance : s.sweepDistance slot = 0 := by simp [State.sweepDistance, next]
  simp [State.isNext, State.takesNext, State.slotsBefore, sweeping, distance, left, free]

/-- The examination of a posted slot: the request as it stands in host memory, carried out. -/
theorem examineNext_posted {s : State} {slot : Slot} {tag : Half} {r : Request} (sweeping : s.port.state = .sweeping)
    (next : s.port.sweepNext = slot) (free : s.isHeld slot = false) (posted : s.isPosted slot = true)
    (tagRead : s.slotTag slot = tag) (request : s.slotRequest slot = r) :
    examineNext s = carryOut slot r.argRanges (ownRequest slot tag r) s := by
  subst next tagRead request
  rw [examineNext, if_pos sweeping, if_pos (by simp [posted, free])]

theorem examineNext_still {s : State} (still : s.port.state ≠ .sweeping) : examineNext s = s := if_neg still

theorem settled_eq {s : State} (bus : s.busLeft = none) (arrivals : s.arrivals = []) (owed : s.owed = []) :
    { s with busLeft := none, arrivals := [], owed := [] } = s := by
  obtain ⟨⟩ := s
  simp only at bus arrivals owed
  subst bus arrivals owed
  rfl

/-- Outside DOZE_PENDING, or with work under way, the end of a step in which nothing came changes nothing. -/
theorem endStep_still {s : State} (bus : s.busLeft = none) (arrivals : s.arrivals = []) (owed : s.owed = [])
    (awake : s.power ≠ .dozePending ∨ s.underWay = true) : endStep s = s := by
  rw [endStep, settled_eq bus arrivals owed]
  refine if_neg fun due => ?_
  obtain ⟨pending, idle⟩ := due
  rcases awake with awake | awake
  · exact awake pending
  · rw [idle] at awake
    cases awake

/-- Where nothing sweeps, the step on an empty queue copies a block and no more. -/
theorem step_still {s : State} (empty : s.pending = []) (still : s.port.state ≠ .sweeping) (bus : s.busLeft = none)
    (arrivals : s.arrivals = []) (owed : s.owed = []) : step s = .next (endStep (copyBlock s)) := by
  rw [step, empty]
  simp only
  rw [idleStep, settled_eq bus arrivals owed, examineNext_still still]

theorem copyBlock_none {s : State} (none : s.tables.load = none) : copyBlock s = s := by rw [copyBlock, none]

theorem copyBlock_more {s : State} {job : LoadJob} (load : s.tables.load = some job) (more : 512 < s.tables.toCopy job)
    (bus : s.busLeft = none) :
    copyBlock s = { s with tables := s.tables.copyIn job (s.hostBytes (job.source + job.copied) 512) } := by
  rw [copyBlock, load]
  simp only
  rw [if_pos more, copyBytes_quiet bus]

/-- Settles O2. -/
theorem sweepCarriesOutThePostedSlot : Obligations.SweepCarriesOutThePostedSlot := by
  refine ⟨fun s slot tag r canonical empty sweeping left next free formed => ?_,
    fun s empty still bus arrivals owed => ⟨fun none awake => ?_, fun job load more => ?_⟩⟩
  · have turn := isNext_of_sweepNext sweeping left next free
    have taken : (post slot tag r (beginStep Env.quiet s)).takesNext slot = true := (takesNext_post _ _ _ _).trans turn
    have read : (post slot tag r (beginStep Env.quiet s)).slotRequest slot = r := by
      rw [State.slotRequest, show (post slot tag r (beginStep Env.quiet s)).slotAddress slot =
        (beginStep Env.quiet s).slotAddress slot from rfl, post_kind (s := beginStep Env.quiet s) canonical,
        post_arguments (s := beginStep Env.quiet s) canonical, ofSlot_argBytes formed]
    refine ⟨carryOut slot r.argRanges (ownRequest slot tag r) (post slot tag r (beginStep Env.quiet s)), ?_, ?_⟩
    · rw [exec_command formed, requestStep, if_pos taken]
    · have examine := examineNext_posted (s := post slot tag r (beginStep Env.quiet s)) sweeping next free
        (post_isPosted (s := beginStep Env.quiet s) canonical slot tag r)
        (post_tag (s := beginStep Env.quiet s) canonical slot tag r) read
      rw [step, show (post slot tag r s).pending = [] from empty]
      simp only
      rw [idleStep, ← examine]
      rfl
  · rw [step_still empty still bus arrivals owed, copyBlock_none none, endStep_still bus arrivals owed (.inl awake)]
  · have whole : 512 < s.tables.toCopy job := by omega
    rw [step_still empty still bus arrivals owed, copyBlock_more load whole bus,
      endStep_still (by exact bus) (by exact arrivals) (by exact owed) (.inr (by simp [State.underWay, Tables.copyIn]))]
    simp [Tables.copyIn, State.hostBytes]

end Sys2Proof.Machine

/-! An inspection that a port reset or a failing access meets (R60, R84, R156, R157), in hand or held: what comes at each of its
points, and what stage 12 leaves where it has been reached. -/

namespace Sys2Proof.Machine

/-! ### What comes at one point -/

section
variable {s : State} {takes : Arrival → Bool} {receive : Arrival → State → State}

/-- The state with other events still to come in the step. -/
def State.awaiting (s : State) (arrivals : List Arrival) : State := { s with arrivals := arrivals }

/-- A point that only its closing mark reaches. -/
theorem pollPoint_closed (closes : takes .nothing = false) (later : List Arrival) :
    pollPoint takes receive (s.awaiting (.nothing :: later)) = s.awaiting later := by
  have none : takeArrivals takes receive (s.awaiting (.nothing :: later)).arrivals.length (s.awaiting (.nothing :: later)) =
      s.awaiting (.nothing :: later) := if_neg (by rw [closes]; decide)
  rw [pollPoint, none]
  exact if_pos rfl

/-- A point that one event reaches, the last of the step. -/
theorem pollPoint_last {a : Arrival} (taken : takes a = true) (last : (receive a (s.awaiting [])).arrivals = []) :
    pollPoint takes receive (s.awaiting [a]) = receive a (s.awaiting []) := by
  have one : takeArrivals takes receive (s.awaiting [a]).arrivals.length (s.awaiting [a]) = receive a (s.awaiting []) :=
    if_pos taken
  rw [pollPoint, one, closePoint, last]
  exact if_neg (by simp)

end

section
variable {s : State} {slot : Slot}

theorem pollAll_closed (later : List Arrival) : pollAll (s.awaiting (.nothing :: later)) = s.awaiting later :=
  pollPoint_closed rfl later

theorem pollAll_reset : pollAll (s.awaiting [.portReset]) = resetPort (s.awaiting []) := pollPoint_last rfl rfl

theorem pollInspection_closed (finish : State → State) (later : List Arrival) :
    pollInspection finish (s.awaiting (.nothing :: later)) = s.awaiting later := pollPoint_closed rfl later

theorem pollInspection_reset (finish : State → State) :
    pollInspection finish (s.awaiting [.portReset]) = resetPort (s.awaiting []) := pollPoint_last rfl rfl

/-- A failing access while the port makes accesses puts it in FAULT. -/
theorem pollInspection_busFault (finish : State → State) (writes : s.port.state.writes = true) (isWrite : Bool)
    (address : Word) :
    pollInspection finish (s.awaiting [.busFault isWrite address]) =
      enterFault (if isWrite then .write else .read) address.toNat (s.awaiting []) := by
  have fails : failAccess isWrite address (s.awaiting []) =
      enterFault (if isWrite then .write else .read) address.toNat (s.awaiting []) := by
    refine if_pos ?_
    unfold State.mayFault
    revert writes
    simp only [State.awaiting]
    cases s.port.state <;> simp [PortState.writes]
  exact (pollPoint_last rfl (by rw [receiveInside, fails]; rfl)).trans fails

theorem resetPort_inHand : (resetPort s).hasInHand slot = false := rfl

theorem endSweep_resetPort : endSweep (resetPort s) = resetPort s := if_neg (by simp [resetPort])

end

/-! ### Stage 12 -/

/-- Stage 12 on a bus that does not fail: the recorded roster, and at most the run mirror written. -/
theorem recordInspection_unfailing {s : State} {j : Judgement} {c : InspectCopy} (bus : s.busLeft = none)
    (writes : s.port.state.writes = true) (current : s.clockCount ≤ j.clockCount) :
    ∃ m, (∀ x, (∀ i < 16, x ≠ (s.areaAddress + 0x10 + i) % hostSize) → Memory.read m x = Memory.read s.hostMemory x) ∧
      recordInspection j c s = { s with roster := s.recordedRoster j c, hostMemory := m } := by
  rw [recordInspection_current current]
  split
  · exact ⟨s.hostMemory, fun _ _ => rfl, rfl⟩
  · refine ⟨Memory.writeRun hostSize s.hostMemory (s.areaAddress + 0x10)
      { s with roster := s.recordedRoster j c }.runMirror, fun x out => ?_, ?_⟩
    · exact Memory.read_writeRun_other fun i small => out i (by rwa [runMirror_length] at small)
    · exact busWrite_quiet (s := { s with roster := s.recordedRoster j c }) bus writes _ _

/-! ### An INSPECT in hand -/

/-- Nothing comes from outside but these events. -/
def Env.arriving (arrivals : List Arrival) : Env := { Env.quiet with arrivals := arrivals }

section
variable {s : State} {slot : Slot} {tag : Half}

/-- A request taken with events still to come: its owner, and the rest of the sweep, unless the point after the take has
abandoned it. -/
theorem requestStep_arrivals {owner : State → State → State} (turn : s.isNext slot) (r : Request) (arrivals : List Arrival)
    {v : State} (hv : pollAll ((s.handed slot tag r).awaiting arrivals) = v) :
    requestStep slot tag r (Env.arriving arrivals) owner s =
      endStep (endSweep (if v.hasInHand slot then owner ((s.handed slot tag r).awaiting arrivals) v else v)) := by
  subst hv
  have taken : (post slot tag r (beginStep (Env.arriving arrivals) s)).takesNext slot = true :=
    (takesNext_post _ _ _ _).trans turn
  have handed : takeSlot slot r.argRanges (post slot tag r (beginStep (Env.arriving arrivals) s)) =
      (s.handed slot tag r).awaiting arrivals :=
    takeSlot_quiet (s := post slot tag r (beginStep (Env.arriving arrivals) s)) rfl
      (show s.port.state = .sweeping from isNext_sweeping turn) _ _
  unfold requestStep carryOut
  simp only [taken, handed, if_true]
  rw [if_pos (show State.hasInHand _ slot = true from beq_self_eq_true _)]
  split <;> rfl

theorem handed_showsTaken (canonical : Memory.wf s.hostMemory = true) (turn : s.isNext slot) (r : Request) :
    (s.handed slot tag r).shows (s.slotAddress slot) [SlotState.taken.code] := by
  have head : (s.handed slot tag r).shows (s.slotAddress slot)
      ([SlotState.taken.code] ++ ([r.kindByte] ++ le 2 tag.toNat)) := (working_handed canonical turn tag r).head
  exact (shows_append.mp head).1

/-- The run mirror lies apart from every slot's state. -/
theorem runMirror_slot_apart {base : Nat} {i : Nat} (small : i < 16) :
    (base + 0x500 + 128 * slot.val) % hostSize ≠ (base + 0x10 + i) % hostSize := by
  intro same
  have inside := slot.isLt
  have := Memory.run_injective (size := hostSize) (a := base) (i := 0x500 + 128 * slot.val) (j := 0x10 + i)
    (by unfold hostSize; omega) (by unfold hostSize; omega) (by simpa [Nat.add_assoc] using same)
  omega

variable {a : InspectArgs} {p : Product}

theorem handed_hasInHand (r : Request) (arrivals : List Arrival) :
    ((s.handed slot tag r).awaiting arrivals).hasInHand slot = true := beq_self_eq_true _

/-- An evaluation in hand that its first point abandons. -/
theorem evaluateInHand_abandoned {v w : State} {c : InspectCopy} (point : pollInspection id v = w)
    (abandoned : w.hasInHand slot = false) : evaluateInHand slot tag c v = w := by
  subst point
  exact if_neg (by rw [abandoned]; decide)

/-- An evaluation in hand that its second point abandons, after stage 12. -/
theorem evaluateInHand_unanswered {v w x y : State} {c : InspectCopy} (point : pollInspection id v = w)
    (kept : w.hasInHand slot = true) (recorded : recordInspection (judge c v) c w = x) (second : pollInspection id x = y)
    (abandoned : y.hasInHand slot = false) : evaluateInHand slot tag c v = y := by
  subst point recorded second
  unfold evaluateInHand answerInspection
  rw [if_pos kept, if_neg (by rw [abandoned]; decide)]

/-- The owner's part of an INSPECT that passes stage 3 and is not held, its evaluation abandoned in a state with nothing owed. -/
theorem ownInspect_ends {taken w : State} {arrivals : List Arrival} (evaluates : s.Evaluates a p) (free : holdCondition s = none)
    (ends : evaluateInHand slot tag (takenCopy a p) ((s.handed slot tag (.inspect a)).awaiting arrivals) = w)
    (owed : w.owed = []) :
    ownInspect slot tag a taken ((s.handed slot tag (.inspect a)).awaiting arrivals) = w := by
  rw [ownInspect_evaluates (s := (s.handed slot tag (.inspect a)).awaiting arrivals) rfl (handed_hasInHand _ _)
    (evaluates.congr rfl rfl), holdOrEvaluate_free (by exact free), ends, afterEvaluations_none owed]

/-- A reset just after the take. -/
theorem inspect_resetAtTake (turn : s.isNext slot) :
    exec (.inspect slot tag a (Env.arriving [.portReset])) s =
      .next (endStep (resetPort (s.handed slot tag (.inspect a)))) := by
  have step := requestStep_arrivals (owner := ownInspect slot tag a) (tag := tag) turn (.inspect a) [.portReset] pollAll_reset
  rw [resetPort_inHand, if_neg (by decide), endSweep_resetPort] at step
  exact congrArg Host.Outcome.next step

/-- A reset between stage 5 and stage 12. -/
theorem inspect_resetBefore (turn : s.isNext slot) (evaluates : s.Evaluates a p) (free : holdCondition s = none) :
    exec (.inspect slot tag a (Env.arriving [.nothing, .portReset])) s =
      .next (endStep (resetPort (s.handed slot tag (.inspect a)))) := by
  have step := requestStep_arrivals (owner := ownInspect slot tag a) (tag := tag) turn (.inspect a) [.nothing, .portReset]
    (pollAll_closed _)
  have ends : evaluateInHand slot tag (takenCopy a p) ((s.handed slot tag (.inspect a)).awaiting [.portReset]) =
      resetPort (s.handed slot tag (.inspect a)) := evaluateInHand_abandoned (pollInspection_reset id) resetPort_inHand
  rw [if_pos (handed_hasInHand _ _), ownInspect_ends evaluates free ends rfl, endSweep_resetPort] at step
  exact congrArg Host.Outcome.next step

/-- A reset between stage 12 and the answer. -/
theorem inspect_resetAfter (turn : s.isNext slot) (evaluates : s.Evaluates a p) (free : holdCondition s = none) :
    ∃ m, (∀ x, (∀ i < 16, x ≠ (s.areaAddress + 0x10 + i) % hostSize) →
        Memory.read m x = Memory.read (s.handed slot tag (.inspect a)).hostMemory x) ∧
      exec (.inspect slot tag a (Env.arriving [.nothing, .nothing, .portReset])) s =
        .next (endStep (resetPort { s.handed slot tag (.inspect a) with
          roster := s.recordedRoster (judge (takenCopy a p) s) (takenCopy a p), hostMemory := m })) := by
  have step := requestStep_arrivals (owner := ownInspect slot tag a) (tag := tag) turn (.inspect a)
    [.nothing, .nothing, .portReset] (pollAll_closed _)
  obtain ⟨m, outside, recorded⟩ := recordInspection_unfailing (s := (s.handed slot tag (.inspect a)).awaiting [.portReset])
    (j := judge (takenCopy a p) s) (c := takenCopy a p) rfl
    (show s.port.state.writes = true by rw [isNext_sweeping turn]; rfl) (Nat.le_refl _)
  have ends : evaluateInHand slot tag (takenCopy a p) ((s.handed slot tag (.inspect a)).awaiting [.nothing, .portReset]) =
      resetPort { s.handed slot tag (.inspect a) with
        roster := s.recordedRoster (judge (takenCopy a p) s) (takenCopy a p), hostMemory := m } :=
    evaluateInHand_unanswered (pollInspection_closed id _) (handed_hasInHand _ _) recorded
      (pollInspection_reset (s := { s.handed slot tag (.inspect a) with
        roster := s.recordedRoster (judge (takenCopy a p) s) (takenCopy a p), hostMemory := m }) id) resetPort_inHand
  rw [if_pos (handed_hasInHand _ _), ownInspect_ends evaluates free ends rfl, endSweep_resetPort] at step
  exact ⟨m, outside, congrArg Host.Outcome.next step⟩

end

/-! ### A held INSPECT at its limit -/

section
variable {s : State} {slot : Slot} {g : Hold} {limit : Nat} {copy : InspectCopy}

/-- HOLD_LIMIT of a due hold: the release, with the events that come inside it. -/
theorem exec_holdLimit_due (notFault : s.port.state ≠ .fault) (held : s.holdOf slot = some g)
    (work : g.work = .inspect limit copy) (due : limit ≤ s.clockCount) (arrivals : List Arrival) {w : State}
    (released : releaseHold (pollInspection id) s.clockCount g copy (s.quieted.awaiting arrivals) = w) (owed : w.owed = []) :
    exec (.holdLimit slot (Env.arriving arrivals)) s = .next (endStep w) := by
  have examined : limitHold (pollInspection id) s.clockCount slot (s.quieted.awaiting arrivals) = w := by
    have reached : g.limitReached s.clockCount = true := by rw [limitReached_inspect work]; exact decide_eq_true due
    have stays : (s.quieted.awaiting arrivals).holdOf slot = some g := held
    rw [limitHold, stays, if_pos (by simpa using reached), releaseSlot, if_neg (by exact notFault), stays]
    simp only [work]
    exact released
  have command : exec (.holdLimit slot (Env.arriving arrivals)) s = .next (endStep (afterEvaluations (pollInspection id)
    (limitHold (pollInspection id) s.clockCount slot (s.quieted.awaiting arrivals)))) := rfl
  rw [command, examined, afterEvaluations_none owed]

/-- A release that its first point abandons. -/
theorem releaseHold_abandoned {mid : State → State} {n : Nat} {v w : State} (point : mid v = w)
    (lost : w.lostHold g.slot = true) : releaseHold mid n g copy v = w := by
  subst point
  exact if_pos lost

/-- A release that its second point abandons, after stage 12. -/
theorem releaseHold_unanswered {mid : State → State} {n : Nat} {v w x y : State} (point : mid v = w)
    (kept : w.lostHold g.slot = false) (recorded : recordInspection (judgeAt n copy v) copy w = x) (second : mid x = y)
    (lost : y.lostHold g.slot = true) : releaseHold mid n g copy v = y := by
  subst point recorded second
  unfold releaseHold answerHold
  rw [if_neg (by rw [kept]; decide), if_pos lost]

theorem lostHold_fault (cause : FaultCause) (address : Nat) (v : State) (x : Slot) :
    (enterFault cause address v).lostHold x = true := rfl

theorem lostHold_reset (v : State) (x : Slot) : (resetPort v).lostHold x = true := rfl

/-- An event that ends a release before stage 12 leaves what it leaves. -/
theorem exec_holdLimit_abandoned (notFault : s.port.state ≠ .fault) (held : s.holdOf slot = some g)
    (work : g.work = .inspect limit copy) (due : limit ≤ s.clockCount) {a : Arrival} {w : State}
    (point : pollInspection id (s.quieted.awaiting [a]) = w) (lost : w.lostHold g.slot = true) (owed : w.owed = []) :
    exec (.holdLimit slot (Env.arriving [a])) s = .next (endStep w) :=
  exec_holdLimit_due notFault held work due [a] (releaseHold_abandoned point lost) owed

/-- The state that stage 12 leaves of a release: the recorded roster, host memory as it has written it. -/
def State.recordedOn (s : State) (copy : InspectCopy) (m : Memory) : State :=
  { s.quieted with roster := s.recordedRoster (judge copy s) copy, hostMemory := m }

/-- An event that ends a release between stage 12 and the answer leaves the entry, and at most the run mirror written. -/
theorem exec_holdLimit_unanswered (writes : s.port.state.writes = true) (held : s.holdOf slot = some g)
    (work : g.work = .inspect limit copy) (due : limit ≤ s.clockCount) {a : Arrival} {receive : State → State}
    (point : ∀ m, pollInspection id ((s.recordedOn copy m).awaiting [a]) = receive (s.recordedOn copy m))
    (lost : ∀ m, (receive (s.recordedOn copy m)).lostHold g.slot = true)
    (owed : ∀ m, (receive (s.recordedOn copy m)).owed = []) :
    ∃ m, (∀ x, (∀ i < 16, x ≠ (s.areaAddress + 0x10 + i) % hostSize) → Memory.read m x = Memory.read s.hostMemory x) ∧
      exec (.holdLimit slot (Env.arriving [.nothing, a])) s = .next (endStep (receive (s.recordedOn copy m))) := by
  have notFault := writes_ne_fault writes
  obtain ⟨m, outside, recorded⟩ := recordInspection_unfailing (s := s.quieted.awaiting [a]) (j := judge copy s) (c := copy)
    rfl writes (Nat.le_refl _)
  have released : releaseHold (pollInspection id) s.clockCount g copy (s.quieted.awaiting [.nothing, a]) =
      receive (s.recordedOn copy m) :=
    releaseHold_unanswered (pollInspection_closed id _) (lostHold_of_holdOf (v := s.quieted.awaiting [a]) notFault held) recorded
      (point m) (lost m)
  exact ⟨m, outside, exec_holdLimit_due notFault held work due _ released (owed m)⟩

theorem writesOnly_runMirror {t : State}
    (outside : ∀ x, (∀ i < 16, x ≠ (s.areaAddress + 0x10 + i) % hostSize) →
      Memory.read t.hostMemory x = Memory.read s.hostMemory x) :
    s.writesOnly t [(s.areaAddress + 0x10, 16)] := fun x out => outside x (out _ List.mem_cons_self)

end

/-- Settles O52: at each point the event ends the evaluation; what stands is what stage 12 has done by then. -/
theorem inspectionMeetsAPortReset : Obligations.InspectionMeetsAPortReset := by
  refine ⟨fun s slot tag a c p copy canonical turn whole hc opened coach known heads good general found kind placed loaded
      hcopy =>
    ⟨fun before points => ⟨endStep (resetPort (s.handed slot tag (.inspect a))), ?early, ?_⟩, ?late⟩,
    fun s slot h limit copy canonical writes held work due => ⟨?reset, ?resetLate, fun isWrite address => ⟨?fault, ?faultLate⟩⟩⟩
  case early =>
    have evaluates := evaluates_of whole hc opened coach known heads good general found kind
    have free : holdCondition s = none := (if_neg placed).trans (if_neg loaded)
    rcases points with rfl | rfl
    · exact inspect_resetAtTake turn
    · exact inspect_resetBefore turn evaluates free
  · have taken := handed_showsTaken (tag := tag) canonical turn (.inspect a)
    exact ⟨endStep_roster _, by simp [resetPort], by simp [resetPort], by simp [resetPort],
      (shows_congr (v := s.handed slot tag (.inspect a)) (by simp) _ _).mpr taken⟩
  case late =>
    have evaluates := evaluates_of whole hc opened coach known heads good general found kind
    have free : holdCondition s = none := (if_neg placed).trans (if_neg loaded)
    have same : copy = takenCopy a p := hcopy
    obtain ⟨m, outside, done⟩ := inspect_resetAfter (tag := tag) turn evaluates free
    refine ⟨_, done, by simp [same], by simp [resetPort], by simp [resetPort], by simp [resetPort], ?_⟩
    have taken := handed_showsTaken (tag := tag) canonical turn (.inspect a)
    unfold State.shows State.hostBytes at taken ⊢
    refine (Memory.readRun_congr fun i small => ?_).trans taken
    obtain rfl : i = 0 := by simpa using small
    rw [endStep_hostMemory]
    exact outside _ fun i small => runMirror_slot_apart small
  case reset =>
    exact ⟨_, exec_holdLimit_abandoned (writes_ne_fault writes) held work due (pollInspection_reset id)
        (lostHold_reset _ _) rfl,
      by simp [State.awaiting, State.quieted], by simp [resetPort], by simp [resetPort], by simp [State.awaiting, State.quieted]⟩
  case resetLate =>
    obtain ⟨m, outside, done⟩ := exec_holdLimit_unanswered writes held work due (a := .portReset) (receive := resetPort)
      (fun m => pollInspection_reset id) (fun m => lostHold_reset _ _) fun m => rfl
    exact ⟨_, done, by simp [State.recordedOn], by simp [resetPort], by simp [resetPort],
      writesOnly_runMirror (by rw [endStep_hostMemory]; exact outside)⟩
  case fault =>
    exact ⟨_, exec_holdLimit_abandoned (writes_ne_fault writes) held work due
      (pollInspection_busFault (s := s.quieted) id writes isWrite address) (lostHold_fault _ _ _ _) rfl,
      by simp [enterFault, State.awaiting, State.quieted], by simp [enterFault], by simp [enterFault],
      by simp [enterFault, State.awaiting, State.quieted], by simp [enterFault, State.awaiting, State.quieted]⟩
  case faultLate =>
    obtain ⟨m, outside, done⟩ := exec_holdLimit_unanswered writes held work due (a := .busFault isWrite address)
      (receive := enterFault (if isWrite then .write else .read) address.toNat)
      (fun m => pollInspection_busFault (s := s.recordedOn copy m) id writes isWrite address)
      (fun m => lostHold_fault _ _ _ _) fun m => rfl
    exact ⟨_, done, by simp [State.recordedOn, enterFault], by simp [enterFault],
      by simp [State.recordedOn, enterFault, State.quieted], writesOnly_runMirror (by rw [endStep_hostMemory]; exact outside)⟩

end Sys2Proof.Machine
